-- ==== Sys2Proof/Word.lean ====
section
/-! DEFINITION. The words of the part: bytes, addresses, clock times, ticks, tokens, counters. -/

namespace Sys2Proof

/-- One byte of a frame. -/
abbrev Byte := BitVec 8

/-- A 48-bit radio or network address (section 0.5: written as six bytes). -/
abbrev Addr := BitVec 48

/-- A 48-bit ticket token (R88). -/
abbrev Token := BitVec 48

/-- A service clock time: milliseconds in 32 bits (R156). -/
abbrev Clock := BitVec 32

/-- A tick of the pacing time base: 10 µs in 48 bits (R134). -/
abbrev Tick := BitVec 48

/-- A 32-bit counter (section 11.2). -/
abbrev Count := BitVec 32

/-- A ticket number, 1 to 4,294,967,295 when valid (R88). -/
abbrev TicketNumber := BitVec 32

end Sys2Proof
end

