-- ==== Sys2Proof/Config.lean ====
section
/-! DEFINITION. What the part fixes: its capacities and limits, and the free values, which the manual leaves open
and which have no body. -/

namespace Sys2Proof.Config

/-- Cell numbers 0 to 255 (R1). -/
abbrev cells : Nat := 256
/-- Trunks T0 to T7 (R11). -/
abbrev trunks : Nat := 8
/-- Cell slots of a trunk, 0 to 31 (R1). -/
abbrev slots : Nat := 32
/-- Station records (R52). -/
abbrev stations : Nat := 16384
/-- Ticket records (R88). -/
abbrev tickets : Nat := 65536
/-- Section records (R99). -/
abbrev sections : Nat := 128
/-- Channel records (R120). -/
abbrev channels : Nat := 64
/-- Copy records (R125). -/
abbrev copies : Nat := 2048
/-- Handover records (R69). -/
abbrev handovers : Nat := 128
/-- Parked claims (R102). -/
abbrev referrals : Nat := 64
/-- Notices in the notice queue (R161). -/
abbrev notices : Nat := 256
/-- Short buffers (R38). -/
abbrev shortBuffers : Nat := 8192
/-- Long buffers (R38). -/
abbrev longBuffers : Nat := 4096
/-- Bytes of a short buffer (R38). -/
abbrev shortBytes : Nat := 256
/-- Bytes of a long buffer, and the largest payload (R38, R42). -/
abbrev longBytes : Nat := 2048
/-- Messages in a class-2 queue (R32). -/
abbrev signals : Nat := 1024
/-- Entries of the backbone egress queue (R49). -/
abbrev egress : Nat := 512
/-- Entries of a station downlink queue (R45). -/
abbrev downlink : Nat := 16
/-- Entries of a copy queue (R125). -/
abbrev copyQueue : Nat := 8
/-- Memberships of a station (R52). -/
abbrev memberships : Nat := 2
/-- Tickets removed in each millisecond of a purge (R98). -/
abbrev purgeBatch : Nat := 2048
/-- Mismatches that lock a ticket (R104). -/
abbrev mismatches : Nat := 3
/-- Notices one READ NOTICES takes at most (R162). -/
abbrev noticesPerRead : Nat := 8
/-- Copy entries one QUERY CHANNEL reports at most (R124). -/
abbrev copiesPerQuery : Nat := 32
/-- Field bytes of READY, the largest notice: a reset kind, eleven capacities of four bytes, a revision (R162). -/
abbrev noticeFields : Nat := 46
/-- Body bytes of a control link frame at most (Tables 0-2 and 0-3). -/
abbrev bodyBytes : Nat := 1020
/-- Ticks of 10 µs in one millisecond (R134). -/
abbrev ticksPerMs : Nat := 100
/-- What a rate of 1 kbit/s earns in one tick is 1/800 byte (R150; log 8). -/
abbrev creditUnit : Nat := 800
/-- The revision code this manual describes (R161). -/
abbrev revision : Byte := 0x01#8

/-- FREE VALUE (log 5). The rank, at draw `d`, of the event at place `k` among those that one tick brings due. The manual
says that such events may be taken in either order (R8, R58, R62, R74, R117); sorting by rank gives any order. -/
opaque eventRank (d k : Nat) : Nat

/-- FREE VALUE (log 11). The creation counter's value after 4,294,967,295: R125 states no result there. -/
opaque creationAfterLast (d : Nat) : BitVec 32

/-- FREE VALUE (log 12). The length, before its limit of 1,020, of a reply body whose layout the manual does not give. -/
opaque replyLength (d : Nat) : Nat

/-- FREE VALUE (log 12). Byte `k` of a reply body whose layout the manual does not give. -/
opaque replyByte (d k : Nat) : Byte

/-- FREE VALUE (log 12). The code of an order kind in the frames of Tables 0-2 and 0-3: the manual gives none. -/
opaque orderCode (kind : Nat) : Byte

/-- FREE VALUE (log 12). The kind byte of a notice in a READ NOTICES body: R162 gives its size and no codes. -/
opaque noticeCode (kind : Nat) : Byte

/-- FREE VALUE (log 12). The reset kind byte of READY: R161 gives its size and no codes. -/
opaque resetKindCode (kind : Nat) : Byte

/-- FREE VALUE (log 12). The number of field bytes, before its limit, of the notice at place `k` of a READ NOTICES body; R162 gives
that of READY, which is the largest. -/
opaque noticeLength (d k : Nat) : Nat

/-- FREE VALUE (log 12). Field byte `j` of that notice. -/
opaque noticeByte (d k j : Nat) : Byte

end Sys2Proof.Config
end

