-- ==== Sys2Proof/Syntax.lean ====
section
/-! DEFINITION. The commands of the part: one constructor of `Instr` for each row of spec/opcode_table.json, with the
operands the row's rule gives it. Code values and body layouts that the manual does not give are operands already
read: `none` stands for a code that names nothing (log 13). -/

namespace Sys2Proof

/-- Kinds of cell (R1). -/
inductive CellKind where
  | seat | concourse | gate
deriving DecidableEq, Repr

/-- The four ticket classes (R88). -/
inductive TicketClass where
  | general | premium | hospitality | staff
deriving DecidableEq, Repr

/-- Seat modes of the entry policy (R100). -/
inductive SeatMode where
  | strict | lenient
deriving DecidableEq, Repr

/-- The six recovery codes (R120). -/
inductive RecoveryCode where
  | recover1 | recover2 | recover4 | recover8 | recover16 | flush
deriving DecidableEq, Repr

/-- The recovery field of DEFINE CHANNEL: one of the six codes, NONE, or a code that is neither (R121). -/
inductive RecoveryField where
  | code (c : RecoveryCode)
  | unset
  | unknown
deriving DecidableEq, Repr

/-- One flag for each class: an entitlement set (R120). -/
structure ClassFlags where
  unticketed  : Bool
  general     : Bool
  premium     : Bool
  hospitality : Bool
  staff       : Bool
deriving DecidableEq, Repr

/-- One number for each class: the class weights (R149). -/
structure ClassWeights where
  unticketed  : Nat
  general     : Nat
  premium     : Nat
  hospitality : Nat
  staff       : Nat
deriving DecidableEq, Repr

/-- What every order carries beside its own fields: its tag, and whether its body's length fits its kind (R155,
check 2). -/
structure OrderHead where
  tag      : Byte
  bodyFits : Bool
deriving DecidableEq, Repr

/-- What every cell link message carries beside its own fields: the trunk it arrives on, its header (Table 0-5) and the
length of the whole link frame (R26). -/
structure MessageHead where
  trunk       : Fin 8
  slot        : BitVec 8
  addr        : Addr
  bodyLength  : BitVec 16
  frameLength : Nat
deriving DecidableEq, Repr

/-- How EVICT STATION and QUERY STATION name a station (section 4.6). -/
inductive StationSelector where
  | index (n : BitVec 16)
  | address (a : Addr)
  | unknown
deriving DecidableEq, Repr

/-- One ticket record of LOAD TICKETS or of an ACCEPT ruling (R92, R115). -/
structure TicketFields where
  number      : TicketNumber
  token       : Token
  cls         : Option TicketClass
  seatSection : Nat
  seat        : BitVec 16
deriving DecidableEq, Repr

/-- The ruling of RULE REFERRAL (R115). -/
inductive Ruling where
  | accept (record : Option TicketFields)
  | reject
  | unknown
deriving DecidableEq, Repr

/-- A tier as DEFINE CHANNEL carries it: stream tag, nominal frame bytes F, rate r (R121). -/
structure TierFields where
  tag        : BitVec 16
  frameBytes : Nat
  rate       : Nat
deriving DecidableEq, Repr

/-- The mask of SET CELL AIRTIME (R139). -/
structure AirtimeMask where
  p          : Bool
  h          : Bool
  b          : Bool
  c          : Bool
  unknownBit : Bool
deriving DecidableEq, Repr

/-- The four settings of a cell account: P, H, B and C (R138). -/
structure AirtimeValues where
  p : Nat
  h : Nat
  b : Nat
  c : Nat
deriving DecidableEq, Repr

/-- The mask of SET TIMERS (R158). -/
structure TimerMask where
  poll       : Bool
  handover   : Bool
  referral   : Bool
  dormant    : Bool
  expire     : Bool
  unknownBit : Bool
deriving DecidableEq, Repr

/-- The five timers (R158): three in ms, two in s. -/
structure Timers where
  poll     : Nat
  handover : Nat
  referral : Nat
  dormant  : Nat
  expire   : Nat
deriving DecidableEq, Repr

/-- The scope of READ STATS (R169). -/
inductive StatsScope where
  | partWide
  | cell (n : Nat)
  | trunk (n : Nat)
  | channel (n : Nat)
  | unknown
deriving DecidableEq, Repr

/-- What the receivers report at a reset: bit t of `trunks` is set when trunk t's receiver has symbol lock (R11, R50;
log 2). -/
structure Locks where
  trunks   : BitVec 8
  backbone : Bool
deriving DecidableEq, Repr

/-- The commands of the part, one constructor for each row of spec/opcode_table.json. -/
inductive Instr where
  /-- POWER_ON_RESET (R170). -/
  | powerOnReset (locks : Locks)
  /-- RESET_FULL (R157); `badMode` holds a mode byte that names no mode (log 30). -/
  | resetFull (h : OrderHead) (badMode : Option Byte) (locks : Locks)
  /-- RESET_KEEP_TICKETS (R171). -/
  | resetKeepTickets (h : OrderHead) (locks : Locks)
  /-- TRUNK_LINK_LOST (R12). -/
  | trunkLinkLost (t : Fin 8)
  /-- TRUNK_LINK_RESTORED (R13). -/
  | trunkLinkRestored (t : Fin 8)
  /-- BACKBONE_LINK_LOST (R50). -/
  | backboneLinkLost
  /-- BACKBONE_LINK_RESTORED (R50). -/
  | backboneLinkRestored
  /-- ATTACH_REQUEST (R55). -/
  | attachRequest (m : MessageHead)
  /-- RELEASE_DONE (R73). -/
  | releaseDone (m : MessageHead) (framesLost : Byte)
  /-- DEPART (R59). -/
  | depart (m : MessageHead)
  /-- POLL_REPLY (R8): pressure mark, heard count, heard list. -/
  | pollReply (m : MessageHead) (mark heardCount : Byte) (heard : List Addr)
  /-- TICKET_CLAIM (R103): claim kind code, ticket number, token. -/
  | ticketClaim (m : MessageHead) (kind : Byte) (number : TicketNumber) (token : Token)
  /-- JOIN (R127). -/
  | join (m : MessageHead) (channel : Byte)
  /-- LEAVE (R129). -/
  | leave (m : MessageHead) (channel : Byte)
  /-- STATION_DATA_UP (R48). -/
  | stationDataUp (m : MessageHead) (payload : List Byte)
  /-- REPLAY_FRAME (R43): a backbone frame with its stream tag. -/
  | replayFrame (dest source : Addr) (frameType tag : BitVec 16) (payload : List Byte)
  /-- STATION_DOWNLINK_FRAME (R44): a backbone frame, its bytes from byte 14 on. -/
  | stationDownlinkFrame (dest source : Addr) (frameType : BitVec 16) (payload : List Byte)
  /-- TRUNK_FRAME_END (R30). -/
  | trunkFrameEnd (t : Fin 8)
  /-- BACKBONE_FRAME_END (R50). -/
  | backboneFrameEnd
  /-- POLL_DUE (R6). -/
  | pollDue (cell : Nat)
  /-- POLL_OVERDUE (R6). -/
  | pollOverdue (cell : Nat)
  /-- COPY_DUE (R134). -/
  | copyDue (copy : Nat)
  /-- STATION_CREDIT_READY (R151). -/
  | stationCreditReady (station : Nat)
  /-- DRAIN_COMPLETE (R16). -/
  | drainComplete (t : Fin 8)
  /-- HANDOVER_TIMER_EXPIRY (R74), of the handover record that names the station. -/
  | handoverTimerExpiry (station : Nat)
  /-- REFERRAL_TIMER_EXPIRY (R117). -/
  | referralTimerExpiry (id : BitVec 16)
  /-- STATION_AGED_DORMANT (R62). -/
  | stationAgedDormant (station : Nat)
  /-- STATION_EXPIRED (R63). -/
  | stationExpired (station : Nat)
  /-- PURGE_BATCH (R98). -/
  | purgeBatch
  /-- CONFIGURE_CELL (R3). -/
  | configureCell (h : OrderHead) (cell : Nat) (kind : Option CellKind)
  /-- REMOVE_CELL (R4). -/
  | removeCell (h : OrderHead) (cell : Nat)
  /-- QUERY_CELL (R5). -/
  | queryCell (h : OrderHead) (cell : Nat)
  /-- HOLD_TRUNK (R14). -/
  | holdTrunk (h : OrderHead) (trunk : Nat)
  /-- RELEASE_TRUNK (R18). -/
  | releaseTrunk (h : OrderHead) (trunk : Nat)
  /-- EVICT_STATION (R66). -/
  | evictStation (h : OrderHead) (sel : StationSelector)
  /-- QUERY_STATION (R67). -/
  | queryStation (h : OrderHead) (sel : StationSelector)
  /-- LOAD_TICKETS (R92). -/
  | loadTickets (h : OrderHead) (count : Nat) (records : List TicketFields)
  /-- VOID_TICKET (R94). -/
  | voidTicket (h : OrderHead) (number : TicketNumber)
  /-- UNLOCK_TICKET (R95). -/
  | unlockTicket (h : OrderHead) (number : TicketNumber)
  /-- QUERY_TICKET (R96). -/
  | queryTicket (h : OrderHead) (number : TicketNumber)
  /-- PURGE_TICKETS (R97). -/
  | purgeTickets (h : OrderHead)
  /-- SET_SECTION (R99). -/
  | setSection (h : OrderHead) (sect : Nat) (list : List Nat)
  /-- SET_ENTRY_POLICY (R100). -/
  | setEntryPolicy (h : OrderHead) (maxEntries : Nat) (mode : Option SeatMode)
  /-- RULE_REFERRAL (R115). -/
  | ruleReferral (h : OrderHead) (id : BitVec 16) (ruling : Ruling)
  /-- DEFINE_CHANNEL (R121). -/
  | defineChannel (h : OrderHead) (channel : Nat) (entitled : ClassFlags) (recovery : RecoveryField)
      (full : TierFields) (reduced : Option TierFields)
  /-- OPEN_CHANNEL (R122). -/
  | openChannel (h : OrderHead) (channel : Nat)
  /-- CLOSE_CHANNEL (R123). -/
  | closeChannel (h : OrderHead) (channel : Nat)
  /-- QUERY_CHANNEL (R124). -/
  | queryChannel (h : OrderHead) (channel cell : Nat)
  /-- SET_CELL_AIRTIME (R139). -/
  | setCellAirtime (h : OrderHead) (cell : Nat) (mask : AirtimeMask) (values : AirtimeValues)
  /-- SET_CLASS_WEIGHTS (R149). -/
  | setClassWeights (h : OrderHead) (weights : ClassWeights)
  /-- START_SERVICE (R156). -/
  | startService (h : OrderHead)
  /-- SET_TIMERS (R158). -/
  | setTimers (h : OrderHead) (mask : TimerMask) (values : Timers)
  /-- SET_REPLAY_FRAME_TYPE (R159). -/
  | setReplayFrameType (h : OrderHead) (frameType : BitVec 16)
  /-- SET_REPLAY_RUN_LIMIT (R159). -/
  | setReplayRunLimit (h : OrderHead) (limit : BitVec 16)
  /-- READ_NOTICES (R162). -/
  | readNotices (h : OrderHead) (count : Nat)
  /-- READ_CONDITIONS (R165). -/
  | readConditions (h : OrderHead)
  /-- CLEAR_CONDITIONS (R166). -/
  | clearConditions (h : OrderHead) (mask : BitVec 16)
  /-- SNAP_STATS (R168). -/
  | snapStats (h : OrderHead)
  /-- UNSNAP_STATS (R168). -/
  | unsnapStats (h : OrderHead)
  /-- READ_STATS (R169). -/
  | readStats (h : OrderHead) (scope : StatsScope)
  /-- BAD_FRAME (R152): the bytes clocked in a write transaction. -/
  | badFrame (bytes : List Byte)
  /-- REPLY_READ (R153): the bytes clocked after the read sync byte. -/
  | replyRead (clocked : Nat)
  /-- RESETN_FALLS (R170). -/
  | resetnFalls
  /-- ORDER_OF_UNKNOWN_KIND (R155). -/
  | orderOfUnknownKind (kind tag : Byte)
  /-- MALFORMED_MESSAGE (R26); `bodyLength` is the header's field, absent when the frame is shorter than the header. -/
  | malformedMessage (t : Fin 8) (bodyLength : Option (BitVec 16))
  /-- MALFORMED_BACKBONE_FRAME (R42). -/
  | malformedBackboneFrame
deriving DecidableEq, Repr

end Sys2Proof
end

