-- ==== Sys2Proof/Decode.lean ====
section
/-! DEFINITION. From bits to commands. The table gives no row bits, so no word spells a command; a frame of a cell link and a
frame of the venue network are read by the layouts of section 0.7 (R20, R26, R42). -/

namespace Sys2Proof

/-- The command that a word spells by the table's bits: the table gives no row bits (log 29). -/
def decodeTableWord (_nbits _w : Nat) : Option Instr := none

/-- A big-endian field of two bytes (section 0.5). -/
def field16 (a b : Byte) : BitVec 16 := a ++ b

/-- A big-endian field of four bytes (section 0.5). -/
def field32 (a b c d : Byte) : BitVec 32 := a ++ b ++ c ++ d

/-- A big-endian field of six bytes (section 0.5). -/
def field48 (a b c d e f : Byte) : BitVec 48 := a ++ b ++ c ++ d ++ e ++ f

/-- Station addresses of six bytes each, until fewer than six bytes are left (R20). -/
def readAddresses : List Byte → List Addr
  | a :: b :: c :: d :: e :: f :: rest => field48 a b c d e f :: readAddresses rest
  | _ => []

/-- The command of a message's body, by the kind's code (R20, Table 0-6); none for a kind that is no cell-to-part kind or a
body too short or too long for its fields. -/
def decodeBody (m : MessageHead) (kind : Byte) (body : List Byte) : Option Instr :=
  if kind = 0x01#8 then if body.isEmpty then some (.attachRequest m) else none
  else if kind = 0x02#8 then match body with
    | [lost] => some (.releaseDone m lost)
    | _ => none
  else if kind = 0x03#8 then if body.isEmpty then some (.depart m) else none
  else if kind = 0x04#8 then match body with
    | mark :: count :: rest => some (.pollReply m mark count (readAddresses rest))
    | _ => none
  else if kind = 0x05#8 then match body with
    | [k, n0, n1, n2, n3, t0, t1, t2, t3, t4, t5] =>
      some (.ticketClaim m k (field32 n0 n1 n2 n3) (field48 t0 t1 t2 t3 t4 t5))
    | _ => none
  else if kind = 0x06#8 then match body with
    | [channel] => some (.join m channel)
    | _ => none
  else if kind = 0x07#8 then match body with
    | [channel] => some (.leave m channel)
    | _ => none
  else if kind = 0x08#8 then some (.stationDataUp m body)
  else none

/-- The command of a frame that arrives whole on a trunk link (Table 0-5, R26). -/
def decodeCellFrame (t : Fin 8) (bytes : List Byte) : Instr :=
  match bytes with
  | slot :: kind :: a0 :: a1 :: a2 :: a3 :: a4 :: a5 :: l0 :: l1 :: body =>
    let m : MessageHead := ⟨t, slot, field48 a0 a1 a2 a3 a4 a5, field16 l0 l1, bytes.length⟩
    (decodeBody m kind body).getD (.malformedMessage t (some (field16 l0 l1)))
  | _ => .malformedMessage t none

/-- The command of a frame that arrives whole at the backbone port, with the present replay frame type (Table 0-7, R42). -/
def decodeBackboneFrame (replayType : BitVec 16) (bytes : List Byte) : Instr :=
  match bytes with
  | d0 :: d1 :: d2 :: d3 :: d4 :: d5 :: s0 :: s1 :: s2 :: s3 :: s4 :: s5 :: t0 :: t1 :: rest =>
    let dest := field48 d0 d1 d2 d3 d4 d5
    let source := field48 s0 s1 s2 s3 s4 s5
    if field16 t0 t1 = replayType ∧ replayType ≠ 0 then
      match rest with
      | hi :: lo :: payload => .replayFrame dest source (field16 t0 t1) (field16 hi lo) payload
      | _ => .malformedBackboneFrame
    else if rest.isEmpty then .malformedBackboneFrame
    else .stationDownlinkFrame dest source (field16 t0 t1) rest
  | _ => .malformedBackboneFrame

end Sys2Proof
end

