-- ==== Sys2Proof/Machine/Table.lean ====
section
/-! DEFINITION. Sparse tables: the records of one block, keyed by number, keys strictly rising. A number with no entry is
the record's resting value: FREE, UNCONFIGURED, UNDEFINED, a buffer on its free list, a counter at 0 (log 21). -/

namespace Sys2Proof.Machine

/-- A table of records keyed by number. -/
structure Table (α : Type) where
  entries : List (Nat × α)
deriving DecidableEq, Repr

/-- The record listed under `k`, in a list of entries. -/
def lookIn {α : Type} (k : Nat) : List (Nat × α) → Option α
  | [] => none
  | (j, v) :: rest => if j = k then some v else lookIn k rest

/-- Lists `v` under `k`, keeping the keys in rising order. -/
def putIn {α : Type} (k : Nat) (v : α) : List (Nat × α) → List (Nat × α)
  | [] => [(k, v)]
  | (j, w) :: rest =>
    if k < j then (k, v) :: (j, w) :: rest
    else if k = j then (k, v) :: rest
    else (j, w) :: putIn k v rest

/-- Takes every entry of `k` out. -/
def dropIn {α : Type} (k : Nat) : List (Nat × α) → List (Nat × α)
  | [] => []
  | (j, w) :: rest => if j = k then dropIn k rest else (j, w) :: dropIn k rest

/-- The table with no entry. -/
def Table.empty {α : Type} : Table α := ⟨[]⟩

/-- The record of `k`, if listed. -/
def Table.look {α : Type} (t : Table α) (k : Nat) : Option α := lookIn k t.entries

/-- The table with `v` as the record of `k`. -/
def Table.put {α : Type} (t : Table α) (k : Nat) (v : α) : Table α := ⟨putIn k v t.entries⟩

/-- The table with no record of `k`. -/
def Table.drop {α : Type} (t : Table α) (k : Nat) : Table α := ⟨dropIn k t.entries⟩

/-- The record of `k`, or the resting value `d`. -/
def Table.lookD {α : Type} (t : Table α) (k : Nat) (d : α) : α := (t.look k).getD d

/-- Stores `v` under `k`; the resting value `d` is stored by having no entry. -/
def Table.putD {α : Type} [DecidableEq α] (t : Table α) (k : Nat) (v d : α) : Table α :=
  if v = d then t.drop k else t.put k v

/-- Changes the record of `k`, if listed. -/
def Table.modify {α : Type} (t : Table α) (k : Nat) (f : α → α) : Table α :=
  match t.look k with
  | some v => t.put k (f v)
  | none => t

/-- Changes every record. -/
def Table.mapAll {α : Type} (t : Table α) (f : Nat → α → α) : Table α :=
  ⟨t.entries.map fun e => (e.1, f e.1 e.2)⟩

/-- The numbers of the records that `p` picks, in ascending order. -/
def Table.keysWhere {α : Type} (t : Table α) (p : Nat → α → Bool) : List Nat :=
  (t.entries.filter fun e => p e.1 e.2).map (·.1)

/-- How many records `p` picks. -/
def Table.countWhere {α : Type} (t : Table α) (p : Nat → α → Bool) : Nat :=
  (t.entries.filter fun e => p e.1 e.2).length

/-- How many records are listed. -/
def Table.size {α : Type} (t : Table α) : Nat := t.entries.length

/-- The first number from `k` on, among the next `fuel`, that has no record. -/
def Table.freeFrom {α : Type} (t : Table α) : (fuel : Nat) → (k : Nat) → Option Nat
  | 0, _ => none
  | fuel + 1, k => if (t.look k).isNone then some k else t.freeFrom fuel (k + 1)

/-- The lowest number below `capacity` that has no record. -/
def Table.lowestFree {α : Type} (t : Table α) (capacity : Nat) : Option Nat := t.freeFrom capacity 0

/-- Keys strictly rising from `k` on. -/
def risingFrom {α : Type} : Nat → List (Nat × α) → Bool
  | _, [] => true
  | k, (j, _) :: rest => decide (k ≤ j) && risingFrom (j + 1) rest

/-- The canonical form: keys strictly rising. -/
def Table.wf {α : Type} (t : Table α) : Bool := risingFrom 0 t.entries

/-- Inserts `x` before the first element that it comes before; equal elements keep their order. -/
def insertBy {α : Type} (before : α → α → Bool) (x : α) : List α → List α
  | [] => [x]
  | y :: rest => if before x y then x :: y :: rest else y :: insertBy before x rest

/-- Sorts by `before`; equal elements keep their order. -/
def sortBy {α : Type} (before : α → α → Bool) : List α → List α
  | [] => []
  | x :: rest => insertBy (fun a b => !before b a) x (sortBy before rest)

/-- The element that no other comes before; among equals the first. -/
def bestBy {α : Type} (before : α → α → Bool) : List α → Option α
  | [] => none
  | x :: rest =>
    match bestBy before rest with
    | none => some x
    | some y => if before y x then some y else some x

end Sys2Proof.Machine
end

