-- ==== Sys2Proof/Machine/State.lean ====
section
/-! DEFINITION. The state of the part: every record, queue, counter and setting that the spec gives it, as plain data,
and its values after a power-on reset. INVENTORY.md lists each with its rule. -/

namespace Sys2Proof.Machine

/-- Why a step stops with a fault: the part has no fault (section "Faults" of INVENTORY.md), so there is no reason. -/
inductive Fault where
deriving DecidableEq, Repr

/-- Why a step refuses a command. -/
inductive Refusal where
  /-- A command whose meaning is not modelled; raised by exec's arm alone; safe: nothing can be proved of it. -/
  | notModelled (mnemonic : String)
deriving DecidableEq, Repr

/-! ## Names of states -/

/-- A station's class (R52). -/
inductive StationClass where
  | unticketed | general | premium | hospitality | staff
deriving DecidableEq, Repr

/-- States of a configured cell (R1, R2); UNCONFIGURED is having no record. -/
inductive CellState where
  | active | silent | down
deriving DecidableEq, Repr

/-- Whether a POLL waits in the egress arbiter, and in which class (R1). -/
inductive PollQueued where
  | none | onTime | overdue
deriving DecidableEq, Repr

/-- States of a trunk (R11). -/
inductive TrunkState where
  | active | draining | held | linkDown
deriving DecidableEq, Repr

/-- The two buffer pools (R38). -/
inductive Pool where
  | short | long
deriving DecidableEq, Repr

/-- The path that took a buffer (R38). -/
inductive BufferUse where
  | downlink | replay | upstream
deriving DecidableEq, Repr

/-- Tiers of a channel (R120). -/
inductive TierName where
  | full | reduced
deriving DecidableEq, Repr

/-- States of a copy (R125). -/
inductive CopyState where
  | active | held
deriving DecidableEq, Repr

/-- Statuses of a membership (R126). -/
inductive MemberStatus where
  | full | reduced | waiting
deriving DecidableEq, Repr

/-- Kinds of claim (R20). -/
inductive ClaimKind where
  | entry | seat | exit
deriving DecidableEq, Repr

/-- Service states (section 10.3). -/
inductive ServiceState where
  | config | service
deriving DecidableEq, Repr

/-- Reset kinds, as READY names them (R161). -/
inductive ResetKind where
  | powerOn | full | keepTickets
deriving DecidableEq, Repr

/-- Causes of CELL DOWN (R10). -/
inductive DownCause where
  | missedPolls | linkLoss | removed
deriving DecidableEq, Repr

/-- Causes of HOLD CANCELLED (R160). -/
inductive CancelCause where
  | release | linkLoss
deriving DecidableEq, Repr

/-! ## Messages to the cells -/

/-- Reasons of ATTACH REFUSE (R22). -/
inductive RefuseReason where
  | tableFull | retry | superseded | evicted
deriving DecidableEq, Repr

/-- Refusal reasons of a claim (R23). -/
inductive ClaimReason where
  | void | locked | token | inside | notInside | reentryLimit | wrongSection | wrongCell | taken | notAttached | unknown
deriving DecidableEq, Repr

/-- Verdicts (R23); only REFUSE carries a reason. -/
inductive Verdict where
  | admitted | seated | exited | deferred
  | refused (r : ClaimReason)
deriving DecidableEq, Repr

/-- Results of JOIN VERDICT (R24). -/
inductive JoinResult where
  | joinedFull | joinedReduced | waiting | left | ended
  | closed | notEntitled | limit | notHere | retry | noRoom
deriving DecidableEq, Repr

/-- Bodies of the five signalling messages (R21). -/
inductive SignalBody where
  | attachGrant (station : Nat)
  | attachRefuse (reason : RefuseReason)
  | release
  | claimVerdict (number : TicketNumber) (verdict : Verdict)
  | joinVerdict (channel : Nat) (result : JoinResult)
deriving DecidableEq, Repr

/-- A signalling message: the cell it is for, the station address of its header, its body (R21). -/
structure Signal where
  cell : Nat
  addr : Addr
  body : SignalBody
deriving DecidableEq, Repr

/-- A buffer, named by its pool and its number in it (R38; the number is the model's, log 23). -/
structure BufferRef where
  pool   : Pool
  number : Nat
deriving DecidableEq, Repr

/-- The message on a trunk link (section 2.4). -/
inductive LinkFrame where
  | poll (cell : Nat)
  | signal (m : Signal)
  | replayData (cell channel : Nat) (tier : TierName) (buffer : BufferRef)
  | stationDown (cell : Nat) (addr : Addr) (buffer : BufferRef)
deriving DecidableEq, Repr

/-! ## Records -/

/-- A cell account (R138). -/
structure Account where
  p : Nat
  h : Nat
  b : Nat
  c : Nat
  m : Nat
  w : Nat
deriving DecidableEq, Repr

/-- A cell record (R1). -/
structure Cell where
  kind    : CellKind
  state   : CellState
  missed  : Nat
  awaited : Bool
  due     : Option Clock
  queued  : PollQueued
  account : Account
deriving DecidableEq, Repr

/-- A trunk record with its egress arbiter (R11, section 2.4); the class-1 and class-5 sets are the `queued` fields of
the trunk's cells. -/
structure Trunk where
  state      : TrunkState
  holdTag    : Option Byte
  heldSince  : Option Clock
  run        : Nat
  signals    : List Signal
  lastServed : Option Nat
  frame      : Option LinkFrame
deriving DecidableEq, Repr

/-- A buffer in use (R38). -/
structure Buffer where
  use   : BufferUse
  bytes : List Byte
  refs  : Nat
deriving DecidableEq, Repr

/-- The buffers in use of both pools (R38). -/
structure Pools where
  short : Table Buffer
  long  : Table Buffer
deriving DecidableEq, Repr

/-- An entry of a station downlink queue (R45). -/
structure QueueEntry where
  buffer : BufferRef
  length : Nat
deriving DecidableEq, Repr

/-- An entry of the backbone egress queue (R49). -/
structure EgressEntry where
  buffer : BufferRef
  length : Nat
  source : Addr
deriving DecidableEq, Repr

/-- The backbone port (R49, R50). -/
structure Backbone where
  up    : Bool
  queue : List EgressEntry
  frame : Option EgressEntry
deriving DecidableEq, Repr

/-- A membership (R126). -/
structure Membership where
  channel : Nat
  status  : MemberStatus
deriving DecidableEq, Repr

/-- A station's state, with the fields that only that state has: the current cell and the attach time of an ASSOCIATED
or MOVING station (R52). FREE is having no record. -/
inductive Place where
  | associated (cell : Nat) (since : Clock)
  | moving (cell : Nat) (since : Clock)
  | dormant
deriving DecidableEq, Repr

/-- A station record that is not FREE (R52). `credit` counts the credit unit of the present tick (R150; log 8). -/
structure Station where
  addr      : Addr
  place     : Place
  prev      : Option Nat
  ticket    : Option TicketNumber
  cls       : StationClass
  weight    : Nat
  members   : List Membership
  lastHeard : Clock
  paused    : Bool
  rate      : Nat
  credit    : Nat
  queue     : List QueueEntry
deriving DecidableEq, Repr

/-- A handover record, keyed by its station (R69; log 24). -/
structure Handover where
  oldCell : Nat
  newCell : Nat
  start   : Clock
deriving DecidableEq, Repr

/-- A ticket's state; SEATED carries the bound station (R88, R89). -/
inductive TicketState where
  | loaded | inside
  | seated (station : Nat)
  | outside | void
deriving DecidableEq, Repr

/-- A ticket record, keyed by its number (R88). -/
structure Ticket where
  token       : Token
  cls         : TicketClass
  seatSection : Nat
  seat        : BitVec 16
  state       : TicketState
  locked      : Bool
  mismatches  : Nat
  admissions  : Nat
  lastGate    : Option Nat
deriving DecidableEq, Repr

/-- A purge in flight (R97, R98). `ticks` and `batches` are the model's: ticks since the last millisecond mark after the
start, and milliseconds begun whose batch has not been taken (log 17). -/
structure Purge where
  tag     : Byte
  removed : Nat
  ticks   : Nat
  batches : Nat
deriving DecidableEq, Repr

/-- A claim (R20, R102). -/
structure Claim where
  kind   : ClaimKind
  number : TicketNumber
  token  : Token
  addr   : Addr
  cell   : Nat
deriving DecidableEq, Repr

/-- A parked claim (R102). -/
structure Parked where
  id    : BitVec 16
  claim : Claim
  park  : Clock
deriving DecidableEq, Repr

/-- A tier of a defined channel (R120). -/
structure Tier where
  tag        : BitVec 16
  frameBytes : Nat
  rate       : Nat
deriving DecidableEq, Repr

/-- A channel record that is not UNDEFINED (R120). -/
structure Channel where
  isOpen   : Bool
  entitled : ClassFlags
  recovery : RecoveryCode
  full     : Tier
  reduced  : Option Tier
deriving DecidableEq, Repr

/-- A copy in use (R125). -/
structure Copy where
  channel : Nat
  cell    : Nat
  tier    : TierName
  state   : CopyState
  level   : Nat
  clean   : Nat
  members : Nat
  load    : Nat
  queue   : List BufferRef
  nextDue : Tick
  stamp   : BitVec 32
deriving DecidableEq, Repr

/-- The entry policy (R100). -/
structure EntryPolicy where
  maxEntries : Nat
  mode       : SeatMode
deriving DecidableEq, Repr

/-- The settings that orders write (R35, R149, R158, R159, R100). -/
structure Settings where
  timers     : Timers
  weights    : ClassWeights
  replayType : BitVec 16
  runLimit   : Nat
  policy     : EntryPolicy
deriving DecidableEq, Repr

/-- The service state and the clocks (R134, R156); `phase` is the tick within the present millisecond (log 34). The present tick is
cut into `grain` equal moments, of which `part` have passed (R151; log 3). -/
structure Time where
  service : ServiceState
  clock   : Clock
  tick    : Tick
  phase   : Nat
  part    : Nat
  grain   : Nat
deriving DecidableEq, Repr

/-! ## Conditions, counters, notices -/

/-- The fourteen latches (R163). -/
inductive Latch where
  | reset
  | trunkLinkLost (t : Fin 8)
  | shortPoolExhausted | longPoolExhausted
  | noticeOverflow | stationTableFull | controlLinkError
deriving DecidableEq, Repr

/-- Counters of a cell (section 11.2). -/
inductive CellCounter where
  | framesUp | framesDown | replaySent | replayDiscarded
  | pressureMarks | pollsMissed | framesLost | downlinkDropped
deriving DecidableEq, Repr

/-- Counters of a trunk (section 11.2). -/
inductive TrunkCounter where
  | framesOut | discardedWhileHeld | ingressRejected | signallingDiscarded
deriving DecidableEq, Repr

/-- Counters of a channel (section 11.2). -/
inductive ChannelCounter where
  | framesIn | noAudience
deriving DecidableEq, Repr

/-- The part-wide counters (section 11.2): forwarding (3.5), stations (R68), handover (R87), tickets (R101), claims
(R119), replay (R137), control link. -/
inductive PartCounter where
  | shortPoolDrops | longPoolDrops | backboneRejected | backboneMalformed | oversize | replayUnmatched
  | groupDropped | noStation | upstreamMalformed | upstreamRefused | egressDrops
  | tableRefusals | reclaimed | goneDormant | expired | evicted | departuresIgnored
  | handoversCompleted | handoversForced | handoversCancelled | releasesSkipped | lateReleases | retryRefusals
  | membershipsLost
  | ticketsStored | ticketsReplaced | ticketsSkipped | ticketTableFull | ticketsVoided | ticketsPurged
  | referralsPurged
  | claim (v : Verdict)
  | referralsParked | referralsDuplicate | referralsQueueFull | referralsTimedOut | referralsByLoad | lateRulings
  | copyTableFull | membershipsEnded
  | framingErrors | repliesLost | noticesLost
deriving DecidableEq, Repr

/-- Every counter of the part, by scope (section 11.2). -/
inductive Counter where
  | cell (n : Nat) (c : CellCounter)
  | trunk (n : Nat) (c : TrunkCounter)
  | channel (n : Nat) (c : ChannelCounter)
  | part (c : PartCounter)
deriving DecidableEq, Repr

/-- The capacities that READY carries (R161). -/
structure Capacities where
  cells        : Nat
  stations     : Nat
  tickets      : Nat
  sections     : Nat
  channels     : Nat
  copies       : Nat
  handovers    : Nat
  referrals    : Nat
  notices      : Nat
  shortBuffers : Nat
  longBuffers  : Nat
deriving DecidableEq, Repr

/-- The fields of each kind of notice (R112, R114, R161). -/
inductive NoticeBody where
  | ready (kind : ResetKind) (capacities : Capacities) (revision : Byte)
  | trunkHeld (trunk : Nat) (tag : Option Byte)
  | holdCancelled (trunk : Nat) (tag : Option Byte) (cause : CancelCause)
  | trunkLinkDown (trunk : Nat)
  | trunkLinkUp (trunk : Nat)
  | cellDown (cell : Nat) (cause : DownCause)
  | cellUp (cell : Nat)
  | referral (id : BitVec 16) (kind : ClaimKind) (number : TicketNumber) (token : Token) (addr : Addr) (cell : Nat)
  | duplicateEntry (number : TicketNumber) (state : TicketState) (lastGate : Option Nat) (addr : Addr) (cell : Nat)
  | duplicateSeat (number : TicketNumber) (addr : Addr) (cell : Nat) (holder : Nat) (holderPlace : Option Place)
  | ticketLocked (number : TicketNumber) (addr : Addr) (cell : Nat)
  | purgeDone (tag : Byte) (removed : Nat)
  | conditionRaised (latch : Latch)
deriving DecidableEq, Repr

/-- A notice: its service clock stamp and its fields (R161). -/
structure Notice where
  stamp : Clock
  body  : NoticeBody
deriving DecidableEq, Repr

/-- The frozen view (R168): every counter, and the snap time. -/
structure View where
  counters : Table Count
  snapTime : Clock
deriving DecidableEq, Repr

/-! ## Replies -/

/-- The orders (chapter 10); RESET stands for both of its rows. -/
inductive OrderKind where
  | reset | configureCell | removeCell | queryCell | holdTrunk | releaseTrunk | evictStation | queryStation
  | loadTickets | voidTicket | unlockTicket | queryTicket | purgeTickets | setSection | setEntryPolicy | ruleReferral
  | defineChannel | openChannel | closeChannel | queryChannel | setCellAirtime | setClassWeights | startService
  | setTimers | setReplayFrameType | setReplayRunLimit | readNotices | readConditions | clearConditions | snapStats
  | unsnapStats | readStats
deriving DecidableEq, Repr

/-- The kind a reply carries: an order's, a code the part does not know, or 00h of BAD-FRAME (R152, R155). -/
inductive ReplyKind where
  | order (k : OrderKind)
  | unknown (code : Byte)
  | badFrame
deriving DecidableEq, Repr

/-- Reply statuses (Table 0-4). -/
inductive Status where
  | done | clamped | accepted | busy | wrongState | badArgument
  | notFound | full | already | late | lateStored | badFrame
deriving DecidableEq, Repr

/-- QUERY CELL's figures of a configured cell (R5). -/
structure CellReport where
  number       : Nat
  trunk        : Nat
  slot         : Nat
  kind         : CellKind
  state        : CellState
  trunkState   : TrunkState
  missed       : Nat
  awaited      : Bool
  due          : Option Clock
  queued       : PollQueued
  account      : Account
  stations     : Nat
  activeCopies : Nat
  heldCopies   : Nat
deriving DecidableEq, Repr

/-- QUERY STATION's figures of a record that is not FREE (R67). -/
structure StationReport where
  index       : Nat
  addr        : Addr
  place       : Place
  prev        : Option Nat
  ticket      : Option TicketNumber
  cls         : StationClass
  weight      : Nat
  members     : List Membership
  lastHeard   : Clock
  age         : Nat
  paused      : Bool
  rate        : Nat
  credit      : Nat
  queueLength : Nat
  headLength  : Option Nat
  handover    : Option (Nat × Clock)
deriving DecidableEq, Repr

/-- QUERY TICKET's figures (R96): the record, and for a SEATED ticket the bound station's index, address and place. -/
structure TicketReport where
  number : TicketNumber
  ticket : Ticket
  bound  : Option (Nat × Addr × Place)
deriving DecidableEq, Repr

/-- What QUERY TICKET says of a parked number (R96). -/
structure ParkedReport where
  id   : BitVec 16
  park : Clock
  kind : ClaimKind
  cell : Nat
deriving DecidableEq, Repr

/-- A tier with its base interval (R124). -/
structure TierReport where
  tier     : Tier
  interval : Nat
deriving DecidableEq, Repr

/-- A copy entry of QUERY CHANNEL (R124). -/
structure CopyReport where
  number      : Nat
  cell        : Nat
  tier        : TierName
  state       : CopyState
  level       : Nat
  clean       : Nat
  members     : Nat
  load        : Nat
  queueLength : Nat
  nextDue     : Tick
deriving DecidableEq, Repr

/-- The parameters of a defined channel, as QUERY CHANNEL reports them (R124). -/
structure ChannelParameters where
  isOpen   : Bool
  entitled : ClassFlags
  recovery : RecoveryCode
  full     : TierReport
  reduced  : Option TierReport
deriving DecidableEq, Repr

/-- QUERY CHANNEL's figures (R124); `parameters` is absent for an UNDEFINED channel. -/
structure ChannelReport where
  number        : Nat
  parameters    : Option ChannelParameters
  copies        : Nat
  activeFull    : Nat
  activeReduced : Nat
  held          : Nat
  members       : Nat
  entries       : List CopyReport
  next          : Option Nat
deriving DecidableEq, Repr

/-- The present values of the part-wide READ STATS reply (R51, R68, R69, R101, R114, R137, R168). -/
structure PresentValues where
  freeShort     : Nat
  freeLong      : Nat
  egress        : Nat
  stationsFree  : Nat
  associated    : Nat
  moving        : Nat
  dormant       : Nat
  handovers     : Nat
  tickets       : Nat
  loaded        : Nat
  inside        : Nat
  seated        : Nat
  outside       : Nat
  void          : Nat
  parked        : Nat
  copiesActive  : Nat
  copiesHeld    : Nat
  memberships   : Nat
  clock         : Clock
deriving DecidableEq, Repr

/-- The reply body of READ STATS (R169). -/
structure StatsReport where
  snapTime   : Option Clock
  counters   : List (Counter × Count)
  present    : Option PresentValues
  trunkState : Option TrunkState
deriving DecidableEq, Repr

/-- One latch of READ CONDITIONS (R165): is it set, is its cause present. -/
structure LatchReport where
  latch : Latch
  isSet : Bool
  cause : Bool
deriving DecidableEq, Repr

/-- Reply bodies. -/
inductive ReplyBody where
  | empty
  | unconfiguredCell (number : Nat)
  | cell (r : CellReport)
  | evicted (index : Nat) (addr : Addr) (place : Place)
  | freeStation (index : Nat)
  | station (r : StationReport)
  | loadCounts (stored replaced skipped full : Nat)
  | voided (before : TicketState)
  | ticket (r : TicketReport)
  | noTicket (parked : Option ParkedReport)
  | channel (r : ChannelReport)
  | notices (list : List Notice)
  | conditions (list : List LatchReport)
  | stats (r : StatsReport)
deriving DecidableEq, Repr

/-- A reply (Table 0-3): its fields, and the bytes of its body. -/
structure Reply where
  kind   : ReplyKind
  tag    : Byte
  status : Status
  body   : ReplyBody
  bytes  : List Byte
deriving DecidableEq, Repr

/-- What the part shifted out in the last transaction (R152, R153, R170): nothing yet; 00h under a write; FFh from an
empty slot; a reply's bytes from its length field on, as many as were clocked; no value while RESETN is low. -/
inductive Sdo where
  | nothing | zeros | allOnes
  | reply (r : Reply) (clocked : Nat)
  | undriven
deriving DecidableEq, Repr

/-- The control link port (chapter 10). `incoming` holds the bytes of a transaction under way. -/
structure ControlLink where
  resetnLow : Bool
  incoming  : List Byte
  slot      : Option Reply
  sdo       : Sdo
deriving DecidableEq, Repr

/-- What the event in progress still owes when its own changes are made (log 9, 16): the cells at which a re-admission
pass is to run, and the stations that went DORMANT past the expiry age. Empty between events. -/
structure Owed where
  passes   : List Nat
  expiries : List Nat
deriving DecidableEq, Repr

/-! ## The state -/

/-- The state of the part, with the queue of commands that wait. -/
structure State where
  pending      : List Instr
  link         : ControlLink
  notices      : List Notice
  latches      : BitVec 14
  counters     : Table Count
  view         : Option View
  time         : Time
  settings     : Settings
  cells        : Table Cell
  trunks       : Table Trunk
  pools        : Pools
  backbone     : Backbone
  stations     : Table Station
  handovers    : Table Handover
  tickets      : Table Ticket
  sections     : Table (List Nat)
  purge        : Option Purge
  referrals    : List Parked
  nextReferral : BitVec 16
  channels     : Table Channel
  copies       : Table Copy
  created      : BitVec 32
  owed         : Owed
  draws        : Nat
deriving DecidableEq, Repr

/-! ## Values after reset -/

/-- The timers' defaults (R158). -/
def Timers.atReset : Timers := ⟨100, 150, 2000, 30, 600⟩

/-- The class weights' defaults (R149). -/
def ClassWeights.atReset : ClassWeights := ⟨1, 2, 4, 4, 6⟩

/-- The entry policy's defaults (R100). -/
def EntryPolicy.atReset : EntryPolicy := ⟨2, .strict⟩

/-- The settings after every reset, but for a kept entry policy (R157). -/
def Settings.atReset : Settings := ⟨Timers.atReset, ClassWeights.atReset, 0, 16, EntryPolicy.atReset⟩

/-- A trunk after a reset that found its receiver locked (R11, R37): also the resting value of the trunk table. -/
def Trunk.atReset : Trunk := ⟨.active, none, none, 0, [], none, none⟩

/-- A trunk after a reset that found its receiver without lock (R11). -/
def Trunk.linkDownAtReset : Trunk := { Trunk.atReset with state := .linkDown }

/-- The capacities READY carries (R161). -/
def Capacities.ofPart : Capacities :=
  ⟨Config.cells, Config.stations, Config.tickets, Config.sections, Config.channels, Config.copies, Config.handovers,
    Config.referrals, Config.notices, Config.shortBuffers, Config.longBuffers⟩

/-- READY, stamped 0 (R161, R170). -/
def readyNotice (kind : ResetKind) : Notice := ⟨0, .ready kind Capacities.ofPart Config.revision⟩

/-- The machine right after a power-on reset (R170), every receiver locked (log 1). Latch 0 is RESET (R164). -/
def State.reset : State where
  pending      := []
  link         := ⟨false, [], none, .nothing⟩
  notices      := [readyNotice .powerOn]
  latches      := 1
  counters     := Table.empty
  view         := none
  time         := ⟨.config, 0, 0, 0, 0, 1⟩
  settings     := Settings.atReset
  cells        := Table.empty
  trunks       := Table.empty
  pools        := ⟨Table.empty, Table.empty⟩
  backbone     := ⟨true, [], none⟩
  stations     := Table.empty
  handovers    := Table.empty
  tickets      := Table.empty
  sections     := Table.empty
  purge        := none
  referrals    := []
  nextReferral := 1
  channels     := Table.empty
  copies       := Table.empty
  created      := 0
  owed         := ⟨[], []⟩
  draws        := 0

end Sys2Proof.Machine
end

