-- ==== Sys2Proof/Machine/Operands.lean ====
section
/-! DEFINITION. Operand forms and arithmetic: addresses and frame fields, codes, ages and due times, clamping, and the
accountant's formulas (R140, R141, R148, R150). -/

namespace Sys2Proof.Machine

/-! ## Addresses, cells, frame bytes -/

/-- A group address: the least significant bit of its first byte is 1 (R26, R44). -/
def isGroup (a : Addr) : Bool := a.getLsbD 40

/-- Names no phone: all zero or a group address (R26, R66). -/
def namesNoStation (a : Addr) : Bool := a == 0 || isGroup a

/-- The trunk of a cell: its number divided by 32, rounded down (R1). -/
def trunkOf (cell : Nat) : Nat := cell / Config.slots

/-- The slot of a cell: the remainder (R1). -/
def slotOf (cell : Nat) : Nat := cell % Config.slots

/-- The cell a message came from: trunk × 32 + slot (section 0.4). -/
def cellOf (m : MessageHead) : Nat := m.trunk.val * Config.slots + m.slot.toNat

/-- The six bytes of an address, most significant first (section 0.5). -/
def addrBytes (a : Addr) : List Byte :=
  [a.extractLsb' 40 8, a.extractLsb' 32 8, a.extractLsb' 24 8, a.extractLsb' 16 8, a.extractLsb' 8 8, a.extractLsb' 0 8]

/-- The two bytes of a 16-bit field, most significant first (section 0.5). -/
def word16Bytes (w : BitVec 16) : List Byte := [w.extractLsb' 8 8, w.extractLsb' 0 8]

/-- The four bytes of a 32-bit field, most significant first (section 0.5). -/
def word32Bytes (w : BitVec 32) : List Byte :=
  [w.extractLsb' 24 8, w.extractLsb' 16 8, w.extractLsb' 8 8, w.extractLsb' 0 8]

/-- The claim kind of a TICKET CLAIM (R20). -/
def claimKindOf (code : Byte) : Option ClaimKind :=
  if code = 1 then some .entry else if code = 2 then some .seat else if code = 3 then some .exit else none

/-! ## Ages and due times -/

/-- An age: the difference of two clock times modulo 2^32 (R156). -/
def age (now since : Clock) : Nat := (now - since).toNat

/-- A clock time is reached: the difference modulo 2^32 lies in its lower half (R156; log 7). -/
def clockReached (now due : Clock) : Bool := decide (age now due < 2 ^ 31)

/-- How late a tick is: the difference modulo 2^48 (R134). -/
def lateness (now due : Tick) : Nat := (now - due).toNat

/-- A tick is reached: the difference modulo 2^48 lies in its lower half (R134; log 7). -/
def tickReached (now due : Tick) : Bool := decide (lateness now due < 2 ^ 47)

/-- Milliseconds of a timer given in seconds (R158). -/
def msOfSeconds (n : Nat) : Nat := n * 1000

/-! ## Numbers -/

/-- Division rounded up. -/
def ceilDiv (a b : Nat) : Nat := (a + b - 1) / b

/-- A value clamped into a range (section 0.5). -/
def clampInto (low high v : Nat) : Nat := max low (min high v)

/-- The value lies outside the range, so that it is clamped. -/
def outside (low high v : Nat) : Bool := decide (v < low) || decide (high < v)

/-! ## Tiers, loads, rates -/

/-- The base interval I in ticks: F × 800 / r, rounded up (R140). -/
def baseInterval (t : Tier) : Nat := ceilDiv (t.frameBytes * 800) t.rate

/-- The frame airtime A in µs: F × 8 / P, rounded up, plus H (R141). -/
def airtime (a : Account) (t : Tier) : Nat := ceilDiv (t.frameBytes * 8) a.p + a.h

/-- The effective interval in ticks: I × 2^level (R134). -/
def effectiveInterval (t : Tier) (level : Nat) : Nat := baseInterval t * 2 ^ level

/-- The load L at a level, in per-mille: A × 100 / (I × 2^level), rounded up (R141). -/
def loadOf (a : Account) (t : Tier) (level : Nat) : Nat := ceilDiv (airtime a t * 100) (effectiveInterval t level)

/-- The unicast rate R in kbit/s: C × U × w / (1000 × W), rounded down, with U = 1000 − M (R148). -/
def unicastRate (a : Account) (weight : Nat) : Nat := a.c * (1000 - a.m) * weight / (1000 * a.w)

/-- The bucket depth D in bytes: the larger of 3,000 and 4 × R (R150). -/
def bucketDepth (rate : Nat) : Nat := max 3000 (4 * rate)

/-- The credit units of one byte: a unit is what a rate of 1 kbit/s earns in one moment (R150; log 8). -/
def Time.unit (t : Time) : Nat := Config.creditUnit * t.grain

/-- A full bucket, in credit units. -/
def fullCredit (unit rate : Nat) : Nat := bucketDepth rate * unit

/-- The whole bytes of a credit (R150). -/
def creditBytes (unit credit : Nat) : Nat := credit / unit

/-- The tier of a name; a channel with no reduced tier has only its full tier. -/
def Channel.tierOf (ch : Channel) (n : TierName) : Tier :=
  match n, ch.reduced with
  | .reduced, some t => t
  | _, _ => ch.full

/-- The recovery threshold of RECOVER n; absent for FLUSH (R120). -/
def recoveryThreshold : RecoveryCode → Option Nat
  | .recover1 => some 1
  | .recover2 => some 2
  | .recover4 => some 4
  | .recover8 => some 8
  | .recover16 => some 16
  | .flush => none

/-! ## Classes -/

/-- The class a bound ticket gives (R52). -/
def StationClass.ofTicket : TicketClass → StationClass
  | .general => .general
  | .premium => .premium
  | .hospitality => .hospitality
  | .staff => .staff

/-- The weight of a class (R149). -/
def classWeight (w : ClassWeights) : StationClass → Nat
  | .unticketed => w.unticketed
  | .general => w.general
  | .premium => w.premium
  | .hospitality => w.hospitality
  | .staff => w.staff

/-- The class is in the entitlement set (R120). -/
def allows (e : ClassFlags) : StationClass → Bool
  | .unticketed => e.unticketed
  | .general => e.general
  | .premium => e.premium
  | .hospitality => e.hospitality
  | .staff => e.staff

/-- The set is empty (R121). -/
def allowsNone (e : ClassFlags) : Bool :=
  !(e.unticketed || e.general || e.premium || e.hospitality || e.staff)

/-! ## Stations, copies -/

/-- The cell a station is counted at: the current cell of an ASSOCIATED station, the old cell of a MOVING one (R53). -/
def Place.cell? : Place → Option Nat
  | .associated c _ => some c
  | .moving c _ => some c
  | .dormant => none

/-- ASSOCIATED at the cell. -/
def Place.associatedAt (p : Place) (cell : Nat) : Bool :=
  match p with
  | .associated c _ => c == cell
  | _ => false

/-- ASSOCIATED at some cell. -/
def Place.isAssociated : Place → Bool
  | .associated _ _ => true
  | _ => false

/-- MOVING. -/
def Place.isMoving : Place → Bool
  | .moving _ _ => true
  | _ => false

/-- Counted at the cell (R53). -/
def Station.countedAt (st : Station) (cell : Nat) : Bool := st.place.cell? == some cell

/-- SEATED, whichever the station. -/
def TicketState.isSeated : TicketState → Bool
  | .seated _ => true
  | _ => false

/-- The status a copy gives its members (R126). -/
def Copy.status (c : Copy) : MemberStatus :=
  match c.state, c.tier with
  | .held, _ => .waiting
  | .active, .full => .full
  | .active, .reduced => .reduced

/-- A member's status as the result of its JOIN (R127). -/
def MemberStatus.joinResult : MemberStatus → JoinResult
  | .full => .joinedFull
  | .reduced => .joinedReduced
  | .waiting => .waiting

/-- Older: a lower creation stamp (R125). -/
def Copy.olderThan (a b : Copy) : Bool := decide (a.stamp.toNat < b.stamp.toNat)

end Sys2Proof.Machine
end

