-- ==== Sys2Proof/Machine/Flags.lean ====
section
/-! DEFINITION. The condition latches and their causes (R163 to R166), the counters' keys (section 11.2). -/

namespace Sys2Proof.Machine

/-- The place of a latch in the table of R163, 0 to 13: its bit in the latch word and in the mask of CLEAR CONDITIONS
(log 28). -/
def Latch.index : Latch → Nat
  | .reset => 0
  | .trunkLinkLost t => 1 + t.val
  | .shortPoolExhausted => 9
  | .longPoolExhausted => 10
  | .noticeOverflow => 11
  | .stationTableFull => 12
  | .controlLinkError => 13

/-- The fourteen latches, in the order of R163. -/
def Latch.all : List Latch :=
  [.reset, .trunkLinkLost 0, .trunkLinkLost 1, .trunkLinkLost 2, .trunkLinkLost 3, .trunkLinkLost 4, .trunkLinkLost 5,
    .trunkLinkLost 6, .trunkLinkLost 7, .shortPoolExhausted, .longPoolExhausted, .noticeOverflow, .stationTableFull,
    .controlLinkError]

/-- The latch is set. -/
def State.latchSet (s : State) (l : Latch) : Bool := s.latches.getLsbD l.index

/-- The word with one latch's bit. -/
def Latch.bit (l : Latch) : BitVec 14 := BitVec.twoPow 14 l.index

/-- A trunk's record. -/
def State.trunk (s : State) (t : Nat) : Trunk := s.trunks.lookD t Trunk.atReset

/-- Whether the latch's cause is present (R163). -/
def State.latchCause (s : State) : Latch → Bool
  | .reset => false
  | .trunkLinkLost t => decide ((s.trunk t.val).state = .linkDown)
  | .shortPoolExhausted => decide (Config.shortBuffers ≤ s.pools.short.size)
  | .longPoolExhausted => decide (Config.longBuffers ≤ s.pools.long.size)
  | .noticeOverflow => false
  | .stationTableFull =>
    decide (Config.stations ≤ s.stations.size) && s.stations.entries.all fun e => decide (e.2.place ≠ .dormant)
  | .controlLinkError => false

/-- The latches as READ CONDITIONS gives them (R165). -/
def State.latchReports (s : State) : List LatchReport := Latch.all.map fun l => ⟨l, s.latchSet l, s.latchCause l⟩

/-- The latch word after CLEAR CONDITIONS (R166): each named latch whose cause is absent is cleared. -/
def State.clearedLatches (s : State) (mask : BitVec 16) : List Latch → BitVec 14
  | [] => s.latches
  | l :: rest =>
    if mask.getLsbD l.index && !s.latchCause l then s.clearedLatches mask rest &&& ~~~ l.bit
    else s.clearedLatches mask rest

/-- ATTN is driven low: the slot holds a reply or the queue a notice, and RESETN is high (R154, R170). -/
def State.attnLow (s : State) : Bool := !s.link.resetnLow && (s.link.slot.isSome || !s.notices.isEmpty)

/-! ## Counters -/

/-- The refusal reasons' codes (R23). -/
def ClaimReason.code : ClaimReason → Nat
  | .void => 1
  | .locked => 2
  | .token => 3
  | .inside => 4
  | .notInside => 5
  | .reentryLimit => 6
  | .wrongSection => 7
  | .wrongCell => 8
  | .taken => 9
  | .notAttached => 10
  | .unknown => 11

/-- The fifteen claims counters: the four verdicts, then REFUSE by reason (R110). -/
def Verdict.counterIndex : Verdict → Nat
  | .admitted => 0
  | .seated => 1
  | .exited => 2
  | .deferred => 3
  | .refused r => 3 + r.code

/-- The counters of a cell, in the order of section 11.2. -/
def CellCounter.index : CellCounter → Nat
  | .framesUp => 0
  | .framesDown => 1
  | .replaySent => 2
  | .replayDiscarded => 3
  | .pressureMarks => 4
  | .pollsMissed => 5
  | .framesLost => 6
  | .downlinkDropped => 7

/-- The counters of a trunk, in the order of section 11.2. -/
def TrunkCounter.index : TrunkCounter → Nat
  | .framesOut => 0
  | .discardedWhileHeld => 1
  | .ingressRejected => 2
  | .signallingDiscarded => 3

/-- The counters of a channel, in the order of section 11.2. -/
def ChannelCounter.index : ChannelCounter → Nat
  | .framesIn => 0
  | .noAudience => 1

/-- The part-wide counters, in the order of section 11.2. -/
def PartCounter.index : PartCounter → Nat
  | .shortPoolDrops => 0
  | .longPoolDrops => 1
  | .backboneRejected => 2
  | .backboneMalformed => 3
  | .oversize => 4
  | .replayUnmatched => 5
  | .groupDropped => 6
  | .noStation => 7
  | .upstreamMalformed => 8
  | .upstreamRefused => 9
  | .egressDrops => 10
  | .tableRefusals => 11
  | .reclaimed => 12
  | .goneDormant => 13
  | .expired => 14
  | .evicted => 15
  | .departuresIgnored => 16
  | .handoversCompleted => 17
  | .handoversForced => 18
  | .handoversCancelled => 19
  | .releasesSkipped => 20
  | .lateReleases => 21
  | .retryRefusals => 22
  | .membershipsLost => 23
  | .ticketsStored => 24
  | .ticketsReplaced => 25
  | .ticketsSkipped => 26
  | .ticketTableFull => 27
  | .ticketsVoided => 28
  | .ticketsPurged => 29
  | .referralsPurged => 30
  | .referralsParked => 31
  | .referralsDuplicate => 32
  | .referralsQueueFull => 33
  | .referralsTimedOut => 34
  | .referralsByLoad => 35
  | .lateRulings => 36
  | .copyTableFull => 37
  | .membershipsEnded => 38
  | .framingErrors => 39
  | .repliesLost => 40
  | .noticesLost => 41
  | .claim v => 42 + v.counterIndex

/-- A counter's key in the table of counters: the scope in the low two bits. -/
def Counter.key : Counter → Nat
  | .cell n c => (n * 8 + c.index) * 4
  | .trunk n c => (n * 4 + c.index) * 4 + 1
  | .channel n c => (n * 2 + c.index) * 4 + 2
  | .part c => c.index * 4 + 3

/-- The counters of a cell. -/
def CellCounter.all : List CellCounter :=
  [.framesUp, .framesDown, .replaySent, .replayDiscarded, .pressureMarks, .pollsMissed, .framesLost, .downlinkDropped]

/-- The counters of a trunk. -/
def TrunkCounter.all : List TrunkCounter := [.framesOut, .discardedWhileHeld, .ingressRejected, .signallingDiscarded]

/-- The counters of a channel. -/
def ChannelCounter.all : List ChannelCounter := [.framesIn, .noAudience]

/-- The eleven refusal reasons. -/
def ClaimReason.all : List ClaimReason :=
  [.void, .locked, .token, .inside, .notInside, .reentryLimit, .wrongSection, .wrongCell, .taken, .notAttached, .unknown]

/-- The fifteen verdicts that have a counter (R110). -/
def Verdict.all : List Verdict := [.admitted, .seated, .exited, .deferred] ++ ClaimReason.all.map .refused

/-- The part-wide counters. -/
def PartCounter.all : List PartCounter :=
  [.shortPoolDrops, .longPoolDrops, .backboneRejected, .backboneMalformed, .oversize, .replayUnmatched, .groupDropped,
    .noStation, .upstreamMalformed, .upstreamRefused, .egressDrops]
  ++ [.tableRefusals, .reclaimed, .goneDormant, .expired, .evicted, .departuresIgnored, .handoversCompleted,
    .handoversForced, .handoversCancelled, .releasesSkipped, .lateReleases, .retryRefusals, .membershipsLost]
  ++ [.ticketsStored, .ticketsReplaced, .ticketsSkipped, .ticketTableFull, .ticketsVoided, .ticketsPurged,
    .referralsPurged, .referralsParked, .referralsDuplicate, .referralsQueueFull, .referralsTimedOut,
    .referralsByLoad, .lateRulings]
  ++ [.copyTableFull, .membershipsEnded, .framingErrors, .repliesLost, .noticesLost]
  ++ Verdict.all.map .claim

/-- A counter's live value (R167). -/
def State.counter (s : State) (c : Counter) : Count := s.counters.lookD c.key 0

end Sys2Proof.Machine
end

