-- ==== Sys2Proof/Machine/Wire.lean ====
section
/-! DEFINITION. What the part's ports carry as bytes: the codes of R22 to R24 and of Table 0-4, the reply frames (R153, R162,
Table 0-3), the messages to the cells (R21, Tables 0-5 and 0-6), the frame on the backbone link (R50, Table 0-7). -/

namespace Sys2Proof.Machine

/-! ## Codes -/

/-- The codes of ATTACH REFUSE's reasons (R22). -/
def RefuseReason.code : RefuseReason → Byte
  | .tableFull => 0x01#8
  | .retry => 0x02#8
  | .superseded => 0x03#8
  | .evicted => 0x04#8

/-- The codes of the verdicts (R23). -/
def Verdict.code : Verdict → Byte
  | .admitted => 0x01#8
  | .seated => 0x02#8
  | .exited => 0x03#8
  | .deferred => 0x04#8
  | .refused _ => 0x05#8

/-- The reason byte of CLAIM VERDICT: 00h for every verdict but REFUSE (R23). -/
def Verdict.reasonCode : Verdict → Byte
  | .refused r => BitVec.ofNat 8 r.code
  | _ => 0x00#8

/-- The codes of the results of JOIN VERDICT (R24). -/
def JoinResult.code : JoinResult → Byte
  | .joinedFull => 0x01#8
  | .joinedReduced => 0x02#8
  | .waiting => 0x03#8
  | .left => 0x04#8
  | .ended => 0x05#8
  | .closed => 0x10#8
  | .notEntitled => 0x11#8
  | .limit => 0x12#8
  | .notHere => 0x13#8
  | .retry => 0x14#8
  | .noRoom => 0x15#8

/-- The codes of the tiers in REPLAY DATA (R21). -/
def TierName.code : TierName → Byte
  | .full => 0x01#8
  | .reduced => 0x02#8

/-- The reply status codes (Table 0-4). -/
def Status.code : Status → Byte
  | .done => 0x00#8
  | .clamped => 0x01#8
  | .accepted => 0x02#8
  | .busy => 0x10#8
  | .wrongState => 0x11#8
  | .badArgument => 0x12#8
  | .notFound => 0x13#8
  | .full => 0x14#8
  | .already => 0x15#8
  | .late => 0x16#8
  | .lateStored => 0x17#8
  | .badFrame => 0x1F#8

/-! ## Reply frames (R153, R162, Table 0-3) -/

/-- The order kinds, numbered; their codes are free (log 12). -/
def OrderKind.index : OrderKind → Nat
  | .reset => 0
  | .configureCell => 1
  | .removeCell => 2
  | .queryCell => 3
  | .holdTrunk => 4
  | .releaseTrunk => 5
  | .evictStation => 6
  | .queryStation => 7
  | .loadTickets => 8
  | .voidTicket => 9
  | .unlockTicket => 10
  | .queryTicket => 11
  | .purgeTickets => 12
  | .setSection => 13
  | .setEntryPolicy => 14
  | .ruleReferral => 15
  | .defineChannel => 16
  | .openChannel => 17
  | .closeChannel => 18
  | .queryChannel => 19
  | .setCellAirtime => 20
  | .setClassWeights => 21
  | .startService => 22
  | .setTimers => 23
  | .setReplayFrameType => 24
  | .setReplayRunLimit => 25
  | .readNotices => 26
  | .readConditions => 27
  | .clearConditions => 28
  | .snapStats => 29
  | .unsnapStats => 30
  | .readStats => 31

/-- The kind byte of a reply: that of the order answered, or 00h of BAD-FRAME (R152, R155). -/
def ReplyKind.code : ReplyKind → Byte
  | .order k => Config.orderCode k.index
  | .unknown code => code
  | .badFrame => 0x00#8

/-- The reset kinds, numbered; their codes are free (log 12). -/
def ResetKind.index : ResetKind → Nat
  | .powerOn => 0
  | .full => 1
  | .keepTickets => 2

/-- The notice kinds of R161, numbered; their codes are free (log 12). -/
def NoticeBody.index : NoticeBody → Nat
  | .ready _ _ _ => 0
  | .trunkHeld _ _ => 1
  | .holdCancelled _ _ _ => 2
  | .trunkLinkDown _ => 3
  | .trunkLinkUp _ => 4
  | .cellDown _ _ => 5
  | .cellUp _ => 6
  | .referral _ _ _ _ _ _ => 7
  | .duplicateEntry _ _ _ _ _ => 8
  | .duplicateSeat _ _ _ _ _ => 9
  | .ticketLocked _ _ _ => 10
  | .purgeDone _ _ => 11
  | .conditionRaised _ => 12

/-- The eleven capacities of READY, in the order of R161. -/
def Capacities.list (c : Capacities) : List Nat :=
  [c.cells, c.stations, c.tickets, c.sections, c.channels, c.copies, c.handovers, c.referrals, c.notices, c.shortBuffers,
    c.longBuffers]

/-- The fields of a notice as bytes: READY's by R162; any other's are free, and no more than READY's (log 12). -/
def NoticeBody.fields (draw place : Nat) : NoticeBody → List Byte
  | .ready kind capacities revision =>
    Config.resetKindCode kind.index :: (capacities.list.flatMap fun n => word32Bytes (BitVec.ofNat 32 n)) ++ [revision]
  | _ => (List.range (Config.noticeLength draw place % (Config.noticeFields + 1))).map (Config.noticeByte draw place)

/-- A notice in a READ NOTICES body: its kind, its four-byte stamp, the length of its fields, the fields (R162). -/
def Notice.bytes (draw place : Nat) (n : Notice) : List Byte :=
  [Config.noticeCode n.body.index] ++ word32Bytes n.stamp ++ [BitVec.ofNat 8 (n.body.fields draw place).length]
    ++ n.body.fields draw place

/-- The bytes of the notices of a READ NOTICES body, oldest first (R162). -/
def noticesBytes (draw : Nat) (list : List Notice) : List Byte := list.zipIdx.flatMap fun e => e.1.bytes draw e.2

/-- The body bytes of a reply, at most 1,020 (Table 0-3): none of an empty body; a count, in one byte by the model's choice (log 12), and
the notices of READ NOTICES (R162); of any other body, whose layout the manual does not give, free bytes in a free number (log 12). -/
def ReplyBody.bytes (draw : Nat) : ReplyBody → List Byte
  | .empty => []
  | .notices list => (BitVec.ofNat 8 list.length :: noticesBytes draw list).take Config.bodyBytes
  | _ => (List.range (Config.replyLength draw % (Config.bodyBytes + 1))).map (Config.replyByte draw)

/-- The number of a reply's body bytes. -/
def Reply.length (r : Reply) : Nat := r.bytes.length

/-- The bytes of a reply from its length field on: two of length, kind, tag, status, and the body (Table 0-3). -/
def Reply.frame (r : Reply) : List Byte :=
  word16Bytes (BitVec.ofNat 16 r.length) ++ [r.kind.code, r.tag, r.status.code] ++ r.bytes

/-- Byte `k` of what the last transaction shifted out, from its second byte on in a read: the reply and then 00h, FFh from an empty
slot (R153); 00h under a write (R152). None where nothing was clocked or driven. -/
def Sdo.byte : Sdo → Nat → Option Byte
  | .nothing, _ => none
  | .undriven, _ => none
  | .zeros, _ => some 0x00#8
  | .allOnes, _ => some 0xFF#8
  | .reply r clocked, k => if k < clocked then some (r.frame.getD k 0x00#8) else none

/-! ## Messages to the cells (R21) -/

/-- The kind code of a signalling message (Table 0-6). -/
def SignalBody.kindCode : SignalBody → Byte
  | .attachGrant _ => 0x81#8
  | .attachRefuse _ => 0x82#8
  | .release => 0x83#8
  | .claimVerdict _ _ => 0x85#8
  | .joinVerdict _ _ => 0x86#8

/-- The body of a signalling message (R21). -/
def SignalBody.bytes : SignalBody → List Byte
  | .attachGrant station => word16Bytes (BitVec.ofNat 16 station)
  | .attachRefuse reason => [reason.code]
  | .release => []
  | .claimVerdict number verdict => word32Bytes number ++ [verdict.code, verdict.reasonCode]
  | .joinVerdict channel result => [BitVec.ofNat 8 channel, result.code]

/-- A message with its header: slot, kind, station address, body length, body (Table 0-5). -/
def messageBytes (cell : Nat) (kind : Byte) (addr : Addr) (body : List Byte) : List Byte :=
  [BitVec.ofNat 8 (slotOf cell), kind] ++ addrBytes addr ++ word16Bytes (BitVec.ofNat 16 body.length) ++ body

/-- The stored bytes of a buffer. -/
def State.storedBytes (s : State) (r : BufferRef) : List Byte :=
  match ((match r.pool with | .short => s.pools.short | .long => s.pools.long).look r.number) with
  | some b => b.bytes
  | none => []

/-- The bytes of the message on a trunk link (R21). -/
def State.messageOn (s : State) : LinkFrame → List Byte
  | .poll cell => messageBytes cell 0x84#8 0 []
  | .signal m => messageBytes m.cell m.body.kindCode m.addr m.body.bytes
  | .replayData cell channel tier r => messageBytes cell 0x88#8 0 ([BitVec.ofNat 8 channel, tier.code] ++ s.storedBytes r)
  | .stationDown cell addr r => messageBytes cell 0x87#8 addr (s.storedBytes r)

/-- What a trunk link carries: the bytes of its frame, or nothing when it is idle (R30). -/
def State.trunkOut (s : State) (t : Nat) : Option (List Byte) := (s.trunk t).frame.map s.messageOn

/-! ## The backbone link (R50) -/

/-- The bytes of an egress entry's frame: stored bytes 0 to 5, the station's address, the stored bytes from 6 on (R50). -/
def State.frameOf (s : State) (e : EgressEntry) : List Byte :=
  (s.storedBytes e.buffer).take 6 ++ addrBytes e.source ++ (s.storedBytes e.buffer).drop 6

/-- What the backbone link carries: the bytes of its frame, or nothing when it is idle (R50). -/
def State.backboneOut (s : State) : Option (List Byte) := s.backbone.frame.map s.frameOf

end Sys2Proof.Machine
end

