-- ==== Sys2Proof/Machine/Ops.lean ====
section
/-! DEFINITION. The named operations over the state that every block uses: one update per field, counters, notices and
latches, the reply slot, signalling messages, buffers, and the records of cells, trunks, stations and tickets. -/

namespace Sys2Proof.Machine

/-! ## One update per field -/

def State.setPending (s : State) (v : List Instr) : State := { s with pending := v }
def State.setLink (s : State) (v : ControlLink) : State := { s with link := v }
def State.setNotices (s : State) (v : List Notice) : State := { s with notices := v }
def State.setLatches (s : State) (v : BitVec 14) : State := { s with latches := v }
def State.setCounters (s : State) (v : Table Count) : State := { s with counters := v }
def State.setView (s : State) (v : Option View) : State := { s with view := v }
def State.setTime (s : State) (v : Time) : State := { s with time := v }
def State.setSettings (s : State) (v : Settings) : State := { s with settings := v }
def State.setCells (s : State) (v : Table Cell) : State := { s with cells := v }
def State.setTrunks (s : State) (v : Table Trunk) : State := { s with trunks := v }
def State.setPools (s : State) (v : Pools) : State := { s with pools := v }
def State.setBackbone (s : State) (v : Backbone) : State := { s with backbone := v }
def State.setStations (s : State) (v : Table Station) : State := { s with stations := v }
def State.setHandovers (s : State) (v : Table Handover) : State := { s with handovers := v }
def State.setTickets (s : State) (v : Table Ticket) : State := { s with tickets := v }
def State.setSections (s : State) (v : Table (List Nat)) : State := { s with sections := v }
def State.setPurge (s : State) (v : Option Purge) : State := { s with purge := v }
def State.setReferrals (s : State) (v : List Parked) : State := { s with referrals := v }
def State.setNextReferral (s : State) (v : BitVec 16) : State := { s with nextReferral := v }
def State.setChannels (s : State) (v : Table Channel) : State := { s with channels := v }
def State.setCopies (s : State) (v : Table Copy) : State := { s with copies := v }
def State.setCreated (s : State) (v : BitVec 32) : State := { s with created := v }
def State.setOwed (s : State) (v : Owed) : State := { s with owed := v }
def State.setDraws (s : State) (v : Nat) : State := { s with draws := v }

/-! ## Counters (section 11.2) -/

/-- A counter advances by `n`, rolling over at 2^32 (section 11.2). -/
def advance (c : Counter) (n : Nat) (s : State) : State :=
  s.setCounters (s.counters.putD c.key (s.counter c + BitVec.ofNat 32 n) 0)

/-- A counter advances by 1. -/
def bump (c : Counter) (s : State) : State := advance c 1 s

/-- A part-wide counter advances by 1. -/
def bumpPart (c : PartCounter) (s : State) : State := bump (.part c) s

/-! ## Notices and latches (R161, R163) -/

/-- The present service clock time. -/
def State.now (s : State) : Clock := s.time.clock

/-- Sets a latch. -/
def setLatch (l : Latch) (s : State) : State := s.setLatches (s.latches ||| l.bit)

/-- A notice joins the tail of the queue, or is lost at a full one: notices lost advances and NOTICE OVERFLOW is set; if it
was clear, its own CONDITION RAISED is lost too (R161). -/
def pushNotice (b : NoticeBody) (s : State) : State :=
  if s.notices.length < Config.notices then s.setNotices (s.notices ++ [⟨s.now, b⟩])
  else if s.latchSet .noticeOverflow then bumpPart .noticesLost s
  else setLatch .noticeOverflow (bumpPart .noticesLost (bumpPart .noticesLost s))

/-- A latch is set by its event; if it was clear, one CONDITION RAISED is queued (R163). -/
def raiseLatch (l : Latch) (s : State) : State :=
  if s.latchSet l then s else pushNotice (.conditionRaised l) (setLatch l s)

/-! ## The reply slot (R153, R155) -/

/-- A reply enters the slot; one that stands there unread is lost and counted (R153). -/
def placeReply (kind : ReplyKind) (tag : Byte) (status : Status) (body : ReplyBody) (s : State) : State :=
  let counted := if s.link.slot.isSome then bumpPart .repliesLost s else s
  (counted.setLink { s.link with
      incoming := [], sdo := .zeros, slot := some ⟨kind, tag, status, body, body.bytes s.draws⟩ }).setDraws
    (if body = .empty then s.draws else s.draws + 1)

/-- What an order's rule answers: the state with its effects, the status, the reply body. -/
structure Answer where
  state  : State
  status : Status
  body   : ReplyBody

/-- An answer that changes no state and carries no body (R155). -/
def refuse (status : Status) (s : State) : Answer := ⟨s, status, .empty⟩

/-- The event of an order (R155): its body is checked, its rule is applied, its reply takes the slot. While RESETN is low
the part takes no transaction (R170). -/
def takeOrder (kind : OrderKind) (h : OrderHead) (rule : State → Answer) (s : State) : State :=
  if s.link.resetnLow then s
  else
    let a := if h.bodyFits then rule s else refuse .badArgument s
    placeReply (.order kind) h.tag a.status a.body a.state

/-! ## Trunks, cells, signalling (R29) -/

/-- Writes a trunk's record. -/
def State.setTrunk (s : State) (t : Nat) (v : Trunk) : State := s.setTrunks (s.trunks.putD t v Trunk.atReset)

/-- Changes a cell's record, if the cell is configured. -/
def updateCell (cell : Nat) (f : Cell → Cell) (s : State) : State := s.setCells (s.cells.modify cell f)

/-- The state of a cell's trunk. -/
def State.trunkStateOf (s : State) (cell : Nat) : TrunkState := (s.trunk (trunkOf cell)).state

/-- A signalling message made for a cell: placed at the tail of its trunk's class-2 queue, or discarded at making where the trunk is HELD or
LINK DOWN (R29). On a DRAINING trunk it is placed (R15). One made for an UNCONFIGURED cell is discarded and not counted, whatever the queue
holds (the model's choice, log 46). -/
def postSignal (cell : Nat) (addr : Addr) (body : SignalBody) (s : State) : State :=
  let t := s.trunk (trunkOf cell)
  if (s.cells.look cell).isNone then s
  else if t.state = .held ∨ t.state = .linkDown then s
  else if Config.signals ≤ t.signals.length then bump (.trunk (trunkOf cell) .signallingDiscarded) s
  else s.setTrunk (trunkOf cell) { t with signals := t.signals ++ [⟨cell, addr, body⟩] }

/-! ## Buffers (R38 to R41) -/

/-- The table of a pool's buffers in use. -/
def Pools.of (p : Pools) : Pool → Table Buffer
  | .short => p.short
  | .long => p.long

/-- Writes the table of a pool. -/
def Pools.set (p : Pools) (which : Pool) (t : Table Buffer) : Pools :=
  match which with
  | .short => { p with short := t }
  | .long => { p with long := t }

/-- A buffer in use. -/
def State.buffer (s : State) (r : BufferRef) : Option Buffer := (s.pools.of r.pool).look r.number

/-- Writes a buffer in use. -/
def putBuffer (r : BufferRef) (b : Buffer) (s : State) : State :=
  s.setPools (s.pools.set r.pool ((s.pools.of r.pool).put r.number b))

/-- Gives a buffer back to its pool. -/
def freeBuffer (r : BufferRef) (s : State) : State :=
  s.setPools (s.pools.set r.pool ((s.pools.of r.pool).drop r.number))

/-- One reference is released; at 0 the buffer returns to its pool (R40). -/
def releaseRef (r : BufferRef) (s : State) : State :=
  match s.buffer r with
  | none => s
  | some b => if b.refs ≤ 1 then freeBuffer r s else putBuffer r { b with refs := b.refs - 1 } s

/-- The references of discarded entries are released, one after another. -/
def releaseAll (rs : List BufferRef) (s : State) : State := rs.foldl (fun s r => releaseRef r s) s

/-- The buffer a frame of `length` bytes is given, if any (R39): a short frame takes a short buffer or spills into the long
pool, a long frame takes a long buffer. -/
def State.grant (s : State) (length : Nat) : Option BufferRef :=
  let long := (s.pools.long.lowestFree Config.longBuffers).map (BufferRef.mk .long)
  if length ≤ Config.shortBytes then
    match s.pools.short.lowestFree Config.shortBuffers with
    | some k => some ⟨.short, k⟩
    | none => long
  else long

/-- A frame is dropped for want of a buffer: the drop counter and the exhaustion latch of its size (R39, R41). -/
def dropForWant (length : Nat) (s : State) : State :=
  if length ≤ Config.shortBytes then raiseLatch .shortPoolExhausted (bumpPart .shortPoolDrops s)
  else raiseLatch .longPoolExhausted (bumpPart .longPoolDrops s)

/-! ## Stations and tickets -/

/-- Changes a station's record, if it is not FREE. -/
def updateStation (i : Nat) (f : Station → Station) (s : State) : State := s.setStations (s.stations.modify i f)

/-- The station record that is not FREE with a radio address (R55). -/
def State.stationWith (s : State) (a : Addr) : Option (Nat × Station) :=
  s.stations.entries.find? fun e => e.2.addr == a

/-- The weight of a class, by the present class weights (R149). -/
def State.weightOf (s : State) (c : StationClass) : Nat := classWeight s.settings.weights c

/-- A ticket record, by its number. -/
def State.ticket (s : State) (n : TicketNumber) : Option Ticket := s.tickets.look n.toNat

/-- Changes a ticket's record, if the table holds it. -/
def updateTicket (n : TicketNumber) (f : Ticket → Ticket) (s : State) : State :=
  s.setTickets (s.tickets.modify n.toNat f)

/-! ## What an event still owes -/

/-- A re-admission pass will run at the cell when the event's other changes are made (R144). -/
def owePass (cell : Nat) (s : State) : State :=
  if cell ∈ s.owed.passes then s else s.setOwed { s.owed with passes := s.owed.passes ++ [cell] }

/-- A station went DORMANT past the expiry age; it becomes FREE in an event that follows (R63). -/
def oweExpiry (i : Nat) (s : State) : State := s.setOwed { s.owed with expiries := s.owed.expiries ++ [i] }

end Sys2Proof.Machine
end

