-- ==== Sys2Proof/Machine/Accounts.lean ====
section
/-! DEFINITION. The airtime accountant and the replay unit as every event uses them: cell accounts, rates and credit,
copies and memberships, admission, the re-admission pass, shedding, pressure (chapters 8 and 9). -/

namespace Sys2Proof.Machine

/-! ## Cell accounts and rates -/

/-- The account of a configured cell (R138). -/
def State.account (s : State) (cell : Nat) : Option Account := (s.cells.look cell).map (·.account)

/-- Changes a cell's account. -/
def updateAccount (cell : Nat) (f : Account → Account) (s : State) : State :=
  updateCell cell (fun c => { c with account := f c.account }) s

/-- The sum of the loads of a cell's ACTIVE copies (R142). -/
def State.activeLoad (s : State) (cell : Nat) : Nat :=
  (s.copies.entries.map fun e => if e.2.cell = cell ∧ e.2.state = .active then e.2.load else 0).sum

/-- The sum of the weights of the stations counted at a cell (R147). -/
def State.countedWeight (s : State) (cell : Nat) : Nat :=
  (s.stations.entries.map fun e => if e.2.countedAt cell then e.2.weight else 0).sum

/-- M becomes the sum of the ACTIVE copies' loads (R142; log 20). -/
def refreshM (cell : Nat) (s : State) : State := updateAccount cell (fun a => { a with m := s.activeLoad cell }) s

/-- W becomes the sum of the counted stations' weights (R147; log 20). -/
def refreshW (cell : Nat) (s : State) : State := updateAccount cell (fun a => { a with w := s.countedWeight cell }) s

/-- The unicast rate of every station counted at the cell is recomputed (R148). -/
def refreshRates (cell : Nat) (s : State) : State :=
  match s.account cell with
  | none => s
  | some a => s.setStations
      (s.stations.mapAll fun _ st => if st.countedAt cell then { st with rate := unicastRate a st.weight } else st)

/-- W and the rates of a cell follow a change of its counted stations (R147, R148). -/
def reweigh (cell : Nat) (s : State) : State := refreshRates cell (refreshW cell s)

/-- The station's credit is set to its bucket depth D (R150). -/
def fillCredit (i : Nat) (s : State) : State := updateStation i (fun st => { st with credit := fullCredit s.time.unit st.rate }) s

/-- At the end of an event a credit that stands above D is cut to D (R150). -/
def trimCredits (s : State) : State :=
  s.setStations (s.stations.mapAll fun _ st => { st with credit := min st.credit (fullCredit s.time.unit st.rate) })

/-! ## Copies -/

/-- The copy of a channel at a cell (R125: at most one). -/
def State.copyAt (s : State) (channel cell : Nat) : Option (Nat × Copy) :=
  s.copies.entries.find? fun e => e.2.channel == channel && e.2.cell == cell

/-- The numbers of the copies at a cell that `p` picks, oldest first (R125). -/
def State.copiesAt (s : State) (cell : Nat) (p : Copy → Bool) : List Nat :=
  (sortBy (fun a b => a.2.olderThan b.2) (s.copies.entries.filter fun e => e.2.cell == cell && p e.2)).map (·.1)

/-- Every member of the copy of `channel` at `cell` takes the copy's status (R126). -/
def setStatuses (channel cell : Nat) (status : MemberStatus) (s : State) : State :=
  s.setStations (s.stations.mapAll fun _ st =>
    if st.countedAt cell then
      { st with members := st.members.map fun m => if m.channel = channel then { m with status := status } else m }
    else st)

/-- Writes a copy's record; its members take its status (R126). -/
def writeCopy (n : Nat) (c : Copy) (s : State) : State :=
  setStatuses c.channel c.cell c.status (s.setCopies (s.copies.put n c))

/-- Every entry of a copy's queue is discarded, each counted at the cell (R126, R137). -/
def flushCopy (n : Nat) (s : State) : State :=
  match s.copies.look n with
  | none => s
  | some c =>
    advance (.cell c.cell .replayDiscarded) c.queue.length
      (releaseAll c.queue (s.setCopies (s.copies.put n { c with queue := [] })))

/-- A copy as the accountant's decision leaves it: ACTIVE at a tier, or HELD at the full tier, at level 0 with clean count
0 and the load of that tier (R126, R141). -/
def decided (a : Account) (ch : Channel) (now : Tick) (d : Option TierName) (c : Copy) : Copy :=
  match d with
  | some n =>
    { c with state := .active, tier := n, level := 0, clean := 0, nextDue := now, load := loadOf a (ch.tierOf n) 0 }
  | none => { c with state := .held, tier := .full, level := 0, clean := 0, load := loadOf a ch.full 0 }

/-- The replay unit applies a decision to a copy, discarding its queue; M follows (R126, R142). -/
def applyDecision (n : Nat) (d : Option TierName) (s : State) : State :=
  match s.copies.look n with
  | none => s
  | some c =>
    match s.channels.look c.channel, s.account c.cell with
    | some ch, some a =>
      refreshM c.cell (writeCopy n (decided a ch s.time.tick d { c with queue := [] }) (flushCopy n s))
    | _, _ => s

/-- Admission of a copy of a channel at a cell (R143): the tier at which it is ACTIVE, or none when it is HELD. -/
def State.admission (s : State) (cell : Nat) (ch : Channel) : Option TierName :=
  match s.account cell with
  | none => none
  | some a =>
    if s.trunkStateOf cell ≠ .active then none
    else if a.m + loadOf a ch.full 0 ≤ a.b then some .full
    else
      match ch.reduced with
      | some t => if a.m + loadOf a t 0 ≤ a.b then some .reduced else none
      | none => none

/-- Phase 1 of the pass: a HELD copy is admitted if it fits (R144). -/
def tryAdmission (s : State) (n : Nat) : State :=
  match s.copies.look n with
  | none => s
  | some c =>
    match s.channels.look c.channel with
    | none => s
    | some ch => if (s.admission c.cell ch).isSome then applyDecision n (s.admission c.cell ch) s else s

/-- Phase 2 of the pass: a REDUCED copy is raised to the full tier if it fits (R144). -/
def tryRaise (s : State) (n : Nat) : State :=
  match s.copies.look n with
  | none => s
  | some c =>
    match s.channels.look c.channel, s.account c.cell with
    | some ch, some a =>
      if a.m + loadOf a ch.full 0 ≤ a.b + c.load then applyDecision n (some .full) s else s
    | _, _ => s

/-- The re-admission pass at a cell (R144): held copies oldest first, then reduced copies oldest first, then the rates. On a
trunk that is not ACTIVE it does nothing. -/
def readmit (cell : Nat) (s : State) : State :=
  if s.trunkStateOf cell ≠ .active then s
  else
    let s1 := (s.copiesAt cell fun c => c.state == .held).foldl tryAdmission s
    let s2 := (s1.copiesAt cell fun c => c.state == .active && c.tier == .reduced).foldl tryRaise s1
    refreshRates cell s2

/-- The passes that the event owes are run, one at each cell, after its other changes (R144). -/
def runPasses (s : State) : State :=
  s.owed.passes.foldl (fun s cell => readmit cell s) (s.setOwed { s.owed with passes := [] })

/-- Shedding at a cell (R145): the newest ACTIVE copy is demoted or held until M is not above B. A copy is met at most twice. -/
def shed (cell : Nat) : (fuel : Nat) → State → State
  | 0, s => s
  | fuel + 1, s =>
    match s.account cell, (s.copiesAt cell fun c => c.state == .active).getLast? with
    | some a, some n =>
      if a.m ≤ a.b then s
      else
        match s.copies.look n with
        | none => s
        | some c =>
          match s.channels.look c.channel with
          | none => s
          | some ch =>
            let demoted : Option TierName :=
              match c.tier, ch.reduced with
              | .full, some t => if loadOf a t 0 < c.load then some .reduced else none
              | _, _ => none
            shed cell fuel (applyDecision n demoted s)
    | _, _ => s

/-- Loads of every copy at a cell, at its present tier and level, from the cell's present settings (R139, step 2; R141). -/
def reload (cell : Nat) (s : State) : State :=
  match s.account cell with
  | none => s
  | some a =>
    refreshM cell (s.setCopies (s.copies.mapAll fun _ c =>
      if c.cell = cell then
        match s.channels.look c.channel with
        | some ch => { c with load := loadOf a (ch.tierOf c.tier) c.level }
        | none => c
      else c))

/-- What a pressure mark does to one ACTIVE copy (R135): FLUSH empties its queue; RECOVER raises its level. -/
def pressCopy (s : State) (n : Nat) : State :=
  match s.copies.look n with
  | none => s
  | some c =>
    match s.channels.look c.channel, s.account c.cell with
    | some ch, some a =>
      match recoveryThreshold ch.recovery with
      | none => (flushCopy n s).setCopies ((flushCopy n s).copies.put n { c with queue := [], clean := 0 })
      | some _ =>
        let level := min 3 (c.level + 1)
        s.setCopies (s.copies.put n { c with level := level, clean := 0, load := loadOf a (ch.tierOf c.tier) level })
    | _, _ => s

/-- A pressure mark at a cell (R135, R146): every ACTIVE copy is treated; M is recomputed; if it fell, the re-admission pass
runs. -/
def press (cell : Nat) (s : State) : State :=
  match s.account cell with
  | none => s
  | some before =>
    let s1 := refreshM cell ((s.copiesAt cell fun c => c.state == .active).foldl pressCopy s)
    match s1.account cell with
    | none => s1
    | some after => if after.m < before.m then refreshRates cell (readmit cell s1) else s1

/-! ## Memberships -/

/-- A copy is removed (R130, step 3): its queue is emptied, its load leaves M, and a pass is owed at its cell. -/
def removeCopy (n : Nat) (s : State) : State :=
  match s.copies.look n with
  | none => s
  | some c =>
    let s1 := flushCopy n s
    owePass c.cell (refreshRates c.cell (refreshM c.cell (s1.setCopies (s1.copies.drop n))))

/-- The copy of a channel at a cell loses one member; at 0 it is removed (R130, steps 2 and 3). -/
def dropMember (channel cell : Nat) (s : State) : State :=
  match s.copyAt channel cell with
  | none => s
  | some (n, c) =>
    if c.members ≤ 1 then removeCopy n s
    else s.setCopies (s.copies.put n { c with members := c.members - 1 })

/-- A station's list without its membership of a channel (R130, step 1). -/
def withoutChannel (channel : Nat) (ms : List Membership) : List Membership := ms.filter fun m => m.channel != channel

/-- A station that is counted at a cell loses its membership of a channel (R130). -/
def removeMembership (i channel : Nat) (s : State) : State :=
  match s.stations.look i with
  | none => s
  | some st =>
    match st.place.cell? with
    | none => s
    | some cell =>
      if st.members.any fun m => m.channel == channel then
        dropMember channel cell
          (s.setStations (s.stations.put i { st with members := withoutChannel channel st.members }))
      else s

/-- A membership ends with an unsolicited ENDED to the station's current cell, counted (R130). -/
def endMembership (i channel : Nat) (s : State) : State :=
  match s.stations.look i with
  | none => s
  | some st =>
    match st.place.cell? with
    | none => s
    | some cell =>
      bumpPart .membershipsEnded (postSignal cell st.addr (.joinVerdict channel .ended) (removeMembership i channel s))

/-- The creation counter's next value (R125); after its last value a free one (log 11). -/
def nextStamp (s : State) : BitVec 32 :=
  if s.created = BitVec.allOnes 32 then Config.creationAfterLast s.draws else s.created + 1

/-- A copy of a channel is created at a cell with one member, and admitted against the account (R128, R143). Answers its
status, or none when the copy table is full. -/
def createCopy (channel cell : Nat) (s : State) : State × Option MemberStatus :=
  match s.copies.lowestFree Config.copies with
  | none => (bumpPart .copyTableFull s, none)
  | some n =>
    match s.channels.look channel, s.account cell with
    | some ch, some a =>
      let c := decided a ch s.time.tick (s.admission cell ch)
        ⟨channel, cell, .full, .held, 0, 0, 1, 0, [], s.time.tick, s.created⟩
      let s1 := (s.setCopies (s.copies.put n c)).setCreated (nextStamp s)
      let s2 := s1.setDraws (if s.created = BitVec.allOnes 32 then s.draws + 1 else s.draws)
      (refreshRates cell (refreshM cell s2), some c.status)
    | _, _ => (s, none)

/-- A membership of a channel is placed at a cell: the copy there gains a member, or one is created (R127, checks 6 and 7;
R131, phase 2). The membership joins the tail of the station's list with the copy's status. -/
def placeMembership (i channel cell : Nat) (s : State) : State × Option MemberStatus :=
  let placed : State × Option MemberStatus :=
    match s.copyAt channel cell with
    | some (n, c) => (s.setCopies (s.copies.put n { c with members := c.members + 1 }), some c.status)
    | none => createCopy channel cell s
  match placed.2 with
  | none => placed
  | some status =>
    (updateStation i (fun st => { st with members := st.members ++ [⟨channel, status⟩] }) placed.1, some status)

/-- The NO-ROOM verdict of a carried membership that is lost: discarded at making where the new cell's trunk is not ACTIVE (R131), a
DRAINING one among them, on which R15 and R29 would queue it (log 45). -/
def postNoRoom (newCell : Nat) (addr : Addr) (channel : Nat) (s : State) : State :=
  if s.trunkStateOf newCell = .active then postSignal newCell addr (.joinVerdict channel .noRoom) s else s

/-- One channel of a carried list is placed at the new cell; a channel that finds the copy table full is lost, with
NO-ROOM to the new cell (R131). -/
def carryChannel (i newCell : Nat) (addr : Addr) (s : State) (channel : Nat) : State :=
  let p := placeMembership i channel newCell s
  match p.2 with
  | some _ => p.1
  | none => bumpPart .membershipsLost (postNoRoom newCell addr channel p.1)

/-- The station's memberships are carried from the old cell to the new one: removal of all, the pass at the old cell, then placing
in list order (R76, R131). The pass is owed, so that it runs once at that cell when the event has made its last change there, whatever
the copies kept; placing changes nothing there and the pass nothing at the new cell (R144; log 9). -/
def carryMemberships (i oldCell newCell : Nat) (s : State) : State :=
  match s.stations.look i with
  | none => s
  | some st =>
    let channels := st.members.map (·.channel)
    let s1 := s.setStations (s.stations.put i { st with members := [] })
    let s2 := owePass oldCell (channels.foldl (fun s ch => dropMember ch oldCell s) s1)
    channels.foldl (carryChannel i newCell st.addr) s2

end Sys2Proof.Machine
end

