-- ==== Sys2Proof/Machine/Service.lean ====
section
/-! DEFINITION. What happens to stations, handovers, cells and trunks inside many events: dormancy and release of a record,
attach, completion and cancellation of a handover, a cell going DOWN, a trunk entering HELD, the binding of tickets and
the class change cascade (chapters 1, 4, 5, 6). -/

namespace Sys2Proof.Machine

/-! ## Dormancy and release (R60, R65) -/

/-- A station becomes DORMANT (R60). One whose age is already at or past the expiry age becomes FREE in an event that
follows (R63). -/
def goDormant (i : Nat) (s : State) : State :=
  match s.stations.look i with
  | none => s
  | some st =>
    match st.place.cell? with
    | none => s
    | some cell =>
      let s1 := s.setStations (s.stations.put i
        { st with place := .dormant, prev := some cell, paused := false, members := [], rate := 0, credit := 0, queue := [] })
      let s2 := st.members.foldl (fun s m => dropMember m.channel cell s) s1
      let s3 := bumpPart .goneDormant (releaseAll (st.queue.map (·.buffer)) (reweigh cell s2))
      if msOfSeconds s.settings.timers.expire ≤ age s.now st.lastHeard then oweExpiry i s3 else s3

/-- The ticket bound to a station that is being freed returns to INSIDE (R65, step 3; R91). -/
def ticketToInside (n : Option TicketNumber) (s : State) : State :=
  match n with
  | none => s
  | some n => updateTicket n (fun t => { t with state := .inside }) s

/-- A station's record becomes FREE (R65): its handover record is freed, its ticket is unbound, its memberships and weight leave
its cell, its queue is emptied. Steps 2 and 3 of R65 touch different records; the ticket is unbound with the record. -/
def freeStation (i : Nat) (s : State) : State :=
  match s.stations.look i with
  | none => s
  | some st =>
    let s1 := ticketToInside st.ticket ((s.setStations (s.stations.drop i)).setHandovers (s.handovers.drop i))
    let s2 := match st.place.cell? with
      | none => s1
      | some cell => reweigh cell (st.members.foldl (fun s m => dropMember m.channel cell s) s1)
    releaseAll (st.queue.map (·.buffer)) s2

/-- A DORMANT station past the expiry age becomes FREE (R63). -/
def expireStation (i : Nat) (s : State) : State :=
  match s.stations.look i with
  | none => s
  | some st =>
    if st.place = .dormant ∧ msOfSeconds s.settings.timers.expire ≤ age s.now st.lastHeard then
      bumpPart .expired (freeStation i s)
    else s

/-- The expiries that the event owes follow it (R63). -/
def runExpiries (s : State) : State :=
  s.owed.expiries.foldl (fun s i => expireStation i s) (s.setOwed { s.owed with expiries := [] })

/-! ## Attach (R56 to R58) -/

/-- A station placed at a cell is counted there, its credit is filled, and a grant is made (R56, R58). -/
def settleAttached (i cell : Nat) (addr : Addr) (s : State) : State :=
  postSignal cell addr (.attachGrant i) (fillCredit i (reweigh cell s))

/-- A FREE record is taken for an unknown address and placed at the cell (R56). -/
def attachNew (i cell : Nat) (addr : Addr) (s : State) : State :=
  settleAttached i cell addr (s.setStations (s.stations.put i
    ⟨addr, .associated cell s.now, none, none, .unticketed, s.weightOf .unticketed, [], s.now, false, 0, 0, []⟩))

/-- The DORMANT record with the oldest last-heard time; among equals the lowest index (R57). -/
def State.reclaimable (s : State) : Option Nat :=
  (bestBy (fun a b => decide (age s.now b.2.lastHeard < age s.now a.2.lastHeard))
    (s.stations.entries.filter fun e => e.2.place == .dormant)).map (·.1)

/-- An unknown address asks to attach: a FREE record, else a reclaimed one, else the refusal TABLE FULL (R56, R57). -/
def attachUnknown (cell : Nat) (addr : Addr) (s : State) : State :=
  match s.stations.lowestFree Config.stations with
  | some i => attachNew i cell addr s
  | none =>
    match s.reclaimable with
    | some i => attachNew i cell addr (bumpPart .reclaimed (freeStation i s))
    | none =>
      raiseLatch .stationTableFull
        (bumpPart .tableRefusals (postSignal cell addr (.attachRefuse .tableFull) s))

/-- A DORMANT station returns to service at the cell (R58). -/
def attachReturning (i cell : Nat) (st : Station) (s : State) : State :=
  settleAttached i cell st.addr (s.setStations (s.stations.put i
    { st with place := .associated cell s.now, weight := s.weightOf st.cls, lastHeard := s.now }))

/-- The station is heard: its last-heard time becomes the present time (R61). -/
def hear (i : Nat) (s : State) : State := updateStation i (fun st => { st with lastHeard := s.now }) s

/-! ## Ends of a handover (R76 to R78) -/

/-- A handover from one cell to another completes (R76, steps 1 to 6). -/
def completeHandover (i oldCell newCell : Nat) (s : State) : State :=
  match s.stations.look i with
  | none => s
  | some st =>
    let s1 := s.setHandovers (s.handovers.drop i)
    let s2 := s1.setStations (s1.stations.put i
      { st with place := .associated newCell s.now, prev := some oldCell, paused := false })
    let s3 := reweigh newCell (reweigh oldCell s2)
    let s4 := postSignal newCell st.addr (.attachGrant i) s3
    fillCredit i (carryMemberships i oldCell newCell s4)

/-- A handover record completes, counted as completed (R73, R75). -/
def endHandover (i : Nat) (s : State) : State :=
  match s.handovers.look i with
  | none => s
  | some h => bumpPart .handoversCompleted (completeHandover i h.oldCell h.newCell s)

/-- A handover record completes as forced (R74, R82, R83). -/
def forceHandover (i : Nat) (s : State) : State :=
  match s.handovers.look i with
  | none => s
  | some _ => bumpPart .handoversForced (endHandover i s)

/-- A handover is cancelled back to its old cell, with a grant there (R77). -/
def cancelToOld (i : Nat) (s : State) : State :=
  match s.stations.look i with
  | none => s
  | some st =>
    match st.place with
    | .moving cell since =>
      let s1 := s.setHandovers (s.handovers.drop i)
      let s2 := s1.setStations (s1.stations.put i { st with place := .associated cell since })
      bumpPart .handoversCancelled (postSignal cell st.addr (.attachGrant i) s2)
    | _ => s

/-- A handover is cancelled to dormancy (R78). -/
def cancelToDormant (i : Nat) (s : State) : State :=
  bumpPart .handoversCancelled (goDormant i (s.setHandovers (s.handovers.drop i)))

/-! ## A cell going DOWN (R10) -/

/-- A cell goes DOWN: its handovers are forced or cancelled in ascending order of station index, its stations become DORMANT
(in the same order, log 27), CELL DOWN is queued (R10). -/
def cellDown (cell : Nat) (cause : DownCause) (s : State) : State :=
  let s1 := updateCell cell (fun c => { c with state := .down, missed := 3 }) s
  let s2 := (s1.handovers.keysWhere fun _ h => h.oldCell == cell).foldl (fun s i => forceHandover i s) s1
  let s3 := (s2.handovers.keysWhere fun _ h => h.newCell == cell).foldl (fun s i => cancelToOld i s) s2
  let s4 := (s3.stations.keysWhere fun _ st => st.place.associatedAt cell).foldl (fun s i => goDormant i s) s3
  pushNotice (.cellDown cell cause) s4

/-! ## Trunks (R15, R16) -/

/-- The configured cells of a trunk, in ascending slot order. -/
def State.cellsOf (s : State) (t : Nat) : List Nat := s.cells.keysWhere fun n _ => trunkOf n == t

/-- Changes every configured cell of a trunk. -/
def updateCellsOf (t : Nat) (f : Cell → Cell) (s : State) : State :=
  s.setCells (s.cells.mapAll fun n c => if trunkOf n = t then f c else c)

/-- On entry to DRAINING every ACTIVE copy at the trunk's cells is HELD, its queue discarded; M of each of those cells becomes the sum
of the ACTIVE loads left there, which is 0, and the rates follow (R15, R142, R148). -/
def holdCopies (t : Nat) (s : State) : State :=
  let held := (s.copies.keysWhere fun _ c => c.state == .active && trunkOf c.cell == t).foldl
    (fun s n => applyDecision n none s) s
  (s.cellsOf t).foldl (fun s cell => refreshRates cell (refreshM cell s)) held

/-- The station's current cell lies on the trunk. -/
def Station.onTrunk (st : Station) (t : Nat) : Bool :=
  match st.place.cell? with
  | some c => trunkOf c == t
  | none => false

/-- A trunk whose drain is complete enters HELD (R16). -/
def enterHeld (t : Nat) (s : State) : State :=
  let tr := s.trunk t
  let s1 := pushNotice (.trunkHeld t tr.holdTag) (s.setTrunk t { tr with state := .held, heldSince := some s.now })
  let s2 := updateCellsOf t (fun c => { c with queued := .none, awaited := false }) s1
  let s3 := (s2.handovers.keysWhere fun _ h => trunkOf h.oldCell == t).foldl (fun s i => forceHandover i s) s2
  let s4 := (s3.handovers.keysWhere fun _ h => trunkOf h.newCell == t).foldl (fun s i => cancelToOld i s) s3
  s4.setStations (s4.stations.mapAll fun _ st =>
    if st.place.isAssociated && st.onTrunk t then { st with paused := true } else st)

/-- The drain of a trunk is complete: DRAINING, no frame on the link, class 2 empty (R15). -/
def State.drained (s : State) (t : Nat) : Bool :=
  let tr := s.trunk t
  tr.state == .draining && tr.frame.isNone && tr.signals.isEmpty

/-! ## Binding and the class change cascade (R90, R91, R111) -/

/-- The station's ticket field becomes absent, its class UNTICKETED with that class's weight (R91). -/
def stripStation (i : Nat) (s : State) : State :=
  updateStation i (fun st => { st with ticket := none, cls := .unticketed, weight := s.weightOf .unticketed }) s

/-- An unbind of a SEATED ticket: both fields of the pairing, and the ticket's state after (R91). -/
def unbind (n : TicketNumber) (station : Nat) (after : TicketState) (s : State) : State :=
  updateTicket n (fun t => { t with state := after }) (stripStation station s)

/-- The claiming station's earlier ticket, if another, is unbound and returns to INSIDE (R90, step 1). -/
def unbindEarlier (n : TicketNumber) (earlier : Option TicketNumber) (s : State) : State :=
  match earlier with
  | none => s
  | some m => if m = n then s else updateTicket m (fun t => { t with state := .inside }) s

/-- Another station that the ticket is bound to is unbound from it (R90, step 2). -/
def unbindHolder (i : Nat) (state : TicketState) (s : State) : State :=
  match state with
  | .seated j => if j = i then s else stripStation j s
  | _ => s

/-- A bind of a ticket to a station (R90). -/
def bind (n : TicketNumber) (i : Nat) (s : State) : State :=
  match s.ticket n, s.stations.look i with
  | some t, some st =>
    let cls := StationClass.ofTicket t.cls
    let s1 := unbindHolder i t.state (unbindEarlier n st.ticket s)
    updateStation i (fun st => { st with ticket := some n, cls := cls, weight := s.weightOf cls })
      (updateTicket n (fun t => { t with state := .seated i }) s1)
  | _, _ => s

/-- A membership whose channel does not admit the station's class ends (R111, steps 3 to 5; R132). -/
def recheck (i : Nat) (s : State) (channel : Nat) : State :=
  match s.stations.look i, s.channels.look channel with
  | some st, some ch => if allows ch.entitled st.cls then s else endMembership i channel s
  | _, _ => s

/-- The class change cascade of a station whose class was `before` (R111): W and rates, then the memberships in list order.
It runs for an ASSOCIATED or MOVING station whose class has changed (log 35). -/
def cascade (i : Nat) (before : StationClass) (s : State) : State :=
  match s.stations.look i with
  | none => s
  | some st =>
    match st.place.cell? with
    | none => s
    | some cell =>
      if st.cls = before then s
      else (st.members.map (·.channel)).foldl (recheck i) (reweigh cell s)

/-- The class of a station; UNTICKETED for a FREE record (R52). -/
def State.classOf (s : State) (i : Nat) : StationClass :=
  match s.stations.look i with
  | some st => st.cls
  | none => .unticketed

end Sys2Proof.Machine
end

