-- ==== Sys2Proof/Machine/Claims.lean ====
section
/-! DEFINITION. The judgement of a claim (R103 to R112), used by TICKET CLAIM on arrival and by LOAD TICKETS and RULE
REFERRAL for a parked claim, and the storing of ticket records (R92, R93, R116). -/

namespace Sys2Proof.Machine

/-- A verdict is made for the claim's cell and counted (R110). -/
def giveVerdict (c : Claim) (v : Verdict) (s : State) : State :=
  bumpPart (.claim v) (postSignal c.cell c.addr (.claimVerdict c.number v) s)

/-- A claim is refused with no other change. -/
def refuseClaim (c : Claim) (r : ClaimReason) (s : State) : State := giveVerdict c (.refused r) s

/-- A token mismatch (R104, check 7): the count advances; at 3 the ticket is locked and TICKET LOCKED is queued. -/
def refuseToken (c : Claim) (t : Ticket) (s : State) : State :=
  let locks := decide (Config.mismatches ≤ t.mismatches + 1)
  let s1 := updateTicket c.number (fun t => { t with mismatches := t.mismatches + 1, locked := locks }) s
  let s2 := refuseClaim c .token s1
  if locks then pushNotice (.ticketLocked c.number c.addr c.cell) s2 else s2

/-- An ENTRY claim that has passed check 7 (R105). -/
def judgeEntry (c : Claim) (t : Ticket) (s : State) : State :=
  match t.state with
  | .loaded | .outside =>
    if t.admissions < s.settings.policy.maxEntries then
      giveVerdict c .admitted (updateTicket c.number
        (fun t => { t with state := .inside, admissions := t.admissions + 1, lastGate := some c.cell }) s)
    else refuseClaim c .reentryLimit s
  | .inside | .seated _ =>
    pushNotice (.duplicateEntry c.number t.state t.lastGate c.addr c.cell) (refuseClaim c .inside s)
  | .void => refuseClaim c .void s

/-- The ticket is bound to the claiming station, SEATED is made, and the cascade runs (R90, R110, R111). -/
def seatClaim (c : Claim) (i : Nat) (s : State) : State :=
  cascade i (s.classOf i) (giveVerdict c .seated (bind c.number i s))

/-- A SEAT claim that has passed check 7 (R106 to R108). -/
def judgeSeat (c : Claim) (i : Nat) (t : Ticket) (s : State) : State :=
  match s.sections.look t.seatSection with
  | none => refuseClaim c .wrongSection s
  | some serving =>
    if c.cell ∉ serving then refuseClaim c .wrongSection s
    else
      match t.state with
      | .inside => seatClaim c i s
      | .seated j =>
        if j = i then giveVerdict c .seated s
        else
          match s.stations.look j with
          | some holder =>
            if holder.place = .dormant then seatClaim c i s
            else pushNotice (.duplicateSeat c.number c.addr c.cell j (some holder.place)) (refuseClaim c .taken s)
          | none => seatClaim c i s
      | .loaded | .outside =>
        match s.settings.policy.mode with
        | .strict => refuseClaim c .notInside s
        | .lenient =>
          if t.admissions < s.settings.policy.maxEntries then
            seatClaim c i (updateTicket c.number (fun t => { t with admissions := t.admissions + 1 }) s)
          else refuseClaim c .reentryLimit s
      | .void => refuseClaim c .void s

/-- An EXIT claim that has passed check 7 (R109). -/
def judgeExit (c : Claim) (t : Ticket) (s : State) : State :=
  match t.state with
  | .inside =>
    giveVerdict c .exited (updateTicket c.number (fun t => { t with state := .outside, lastGate := some c.cell }) s)
  | .seated j =>
    let s1 := updateTicket c.number (fun t => { t with lastGate := some c.cell }) (unbind c.number j .outside s)
    cascade j (s.classOf j) (giveVerdict c .exited s1)
  | .loaded | .outside => refuseClaim c .notInside s
  | .void => refuseClaim c .void s

/-- Checks 5 to 7 and the judgement by kind (R104), for a claim from station `i` whose ticket the table holds. -/
def judgeTicket (c : Claim) (i : Nat) (t : Ticket) (s : State) : State :=
  if t.locked then refuseClaim c .locked s
  else if t.state = .void then refuseClaim c .void s
  else if c.token ≠ t.token then refuseToken c t s
  else
    match c.kind with
    | .entry => judgeEntry c t s
    | .seat => judgeSeat c i t s
    | .exit => judgeExit c t s

/-- The kind of cell a claim must come from (R103, check 3). -/
def ClaimKind.cellKind : ClaimKind → CellKind
  | .entry => .gate
  | .exit => .gate
  | .seat => .seat

/-- Check 2: the station that the claim names, ASSOCIATED at the claiming cell (R103). -/
def State.claimant (s : State) (c : Claim) : Option Nat :=
  match s.stationWith c.addr with
  | some (i, st) => if st.place.associatedAt c.cell then some i else none
  | none => none

/-- Check 3: the claiming cell's present kind fits the claim (R103). -/
def State.cellKindFits (s : State) (c : Claim) : Bool := (s.cells.look c.cell).map (·.kind) == some c.kind.cellKind

/-- The judgement from check 2 onward (R103, R104); `absent` is what becomes of a claim for a ticket that the table does not
hold (R113). -/
def judgeFrom (absent : State → State) (c : Claim) (s : State) : State :=
  match s.claimant c with
  | none => refuseClaim c .notAttached s
  | some i =>
    if !s.cellKindFits c then refuseClaim c .wrongCell s
    else
      match s.ticket c.number with
      | none => absent s
      | some t => judgeTicket c i t s

/-- A parked claim is judged when its ticket has been stored (R93, R115). -/
def judgeParked (c : Claim) (s : State) : State := judgeFrom id c s

/-! ## Referrals (R113) -/

/-- The first id from `id` on that no parked claim holds (R102). -/
def nextFreeId (held : List (BitVec 16)) : (fuel : Nat) → BitVec 16 → BitVec 16
  | 0, id => id
  | fuel + 1, id => if id ∈ held then nextFreeId held fuel (id + 1) else id

/-- The claim is parked at the tail of the queue, and REFERRAL is queued (R113, step 3; R114). -/
def park (c : Claim) (s : State) : State :=
  let id := s.nextReferral
  let queue := s.referrals ++ [⟨id, c, s.now⟩]
  let next := nextFreeId (queue.map (·.id)) (Config.referrals + 1) (id + 1)
  pushNotice (.referral id c.kind c.number c.token c.addr c.cell)
    (bumpPart .referralsParked ((s.setReferrals queue).setNextReferral next))

/-- A claim for a number that the table does not hold (R113). -/
def refer (c : Claim) (s : State) : State :=
  if s.referrals.any fun p => p.claim.number == c.number then bumpPart .referralsDuplicate (giveVerdict c .deferred s)
  else if Config.referrals ≤ s.referrals.length then bumpPart .referralsQueueFull (giveVerdict c .deferred s)
  else park c s

/-- A TICKET CLAIM on arrival (R103, check 1, then the rest). -/
def judgeArrival (c : Claim) (s : State) : State :=
  if s.purge.isSome then giveVerdict c .deferred s else judgeFrom (refer c) c s

/-- The parked claim with an id leaves the queue. -/
def unpark (id : BitVec 16) (s : State) : State := s.setReferrals (s.referrals.filter fun p => p.id != id)

/-- A parked claim's timer expires: DEFERRED for its cell (R117). -/
def expireReferral (p : Parked) (s : State) : State :=
  bumpPart .referralsTimedOut (giveVerdict p.claim .deferred (unpark p.id s))

/-! ## Storing tickets (R92, R93) -/

/-- The record an order's fields store (R88); absent when a field is not valid (R92). -/
def ticketRecord (f : TicketFields) : Option Ticket :=
  match f.cls with
  | none => none
  | some cls =>
    if f.number = 0 ∨ Config.sections ≤ f.seatSection then none
    else some ⟨f.token, cls, f.seatSection, f.seat, .loaded, false, 0, 0, none⟩

/-- What LOAD TICKETS does with one record (R92). -/
inductive LoadOutcome where
  | stored | replaced | skipped | full
deriving DecidableEq, Repr

/-- The outcome of one record against the table (R92). -/
def State.loadOutcome (s : State) (n : TicketNumber) : LoadOutcome :=
  match s.ticket n with
  | none => if s.tickets.size < Config.tickets then .stored else .full
  | some t => if t.state = .loaded ∧ t.locked = false then .replaced else .skipped

/-- The counter of each outcome (R101). -/
def LoadOutcome.counter : LoadOutcome → PartCounter
  | .stored => .ticketsStored
  | .replaced => .ticketsReplaced
  | .skipped => .ticketsSkipped
  | .full => .ticketTableFull

/-- The record is stored, or overwrites a LOADED one, and the outcome is counted (R92, R101). -/
def storeRecord (n : TicketNumber) (t : Ticket) (s : State) : State :=
  bumpPart (s.loadOutcome n).counter
    (match s.loadOutcome n with
    | .stored => s.setTickets (s.tickets.put n.toNat t)
    | .replaced => updateTicket n (fun old =>
        { old with token := t.token, cls := t.cls, seatSection := t.seatSection, seat := t.seat }) s
    | .skipped => s
    | .full => s)

/-- A referral parked for a number just stored is resolved: the claim leaves the queue and is judged (R93). -/
def resolveReferral (n : TicketNumber) (s : State) : State :=
  match s.referrals.find? fun p => p.claim.number == n with
  | none => s
  | some p => bumpPart .referralsByLoad (judgeParked p.claim (unpark p.id s))

/-- One record of LOAD TICKETS, or of a late ACCEPT, is handled (R92, R93, R116). -/
def loadRecord (n : TicketNumber) (t : Ticket) (s : State) : State :=
  if s.loadOutcome n = .stored then resolveReferral n (storeRecord n t s) else storeRecord n t s

end Sys2Proof.Machine
end

