-- ==== Sys2Proof/Machine/Egress.lean ====
section
/-! DEFINITION. The egress arbiter of a trunk: eligibility, the choice, and what is done at the moment a message is sent
(R7, R30 to R36, R134, R136), the backbone egress (R50), and the close of every event (R15, R30, R144, R150; log 9). -/

namespace Sys2Proof.Machine

/-! ## Eligibility and choice (R30 to R36) -/

/-- The queued POLL with the earliest due time, in one of the two classes; among equals the lowest slot (R31). -/
def State.nextPoll (s : State) (t : Nat) (q : PollQueued) : Option Nat :=
  (bestBy (fun a b => decide ((b.2.due.map (age s.now)).getD 0 < (a.2.due.map (age s.now)).getD 0))
    (s.cells.entries.filter fun e => trunkOf e.1 == t && e.2.queued == q)).map (·.1)

/-- A copy has a frame eligible in class 3, its trunk being ACTIVE (R33). -/
def State.copyReady (s : State) (c : Copy) : Bool :=
  c.state == .active && !c.queue.isEmpty && tickReached s.time.tick c.nextDue

/-- The eligible copy with the earliest next due time; among equals the lowest copy number (R33). -/
def State.nextCopy (s : State) (t : Nat) : Option Nat :=
  (bestBy (fun a b => decide (lateness s.time.tick b.2.nextDue < lateness s.time.tick a.2.nextDue))
    (s.copies.entries.filter fun e => trunkOf e.2.cell == t && s.copyReady e.2)).map (·.1)

/-- The station's oldest queued frame is ready: its rate is above 0 and its credit covers the frame (R151). -/
def Station.creditReady (unit : Nat) (st : Station) : Bool :=
  match st.queue with
  | [] => false
  | e :: _ => decide (0 < st.rate) && decide (e.length ≤ creditBytes unit st.credit)

/-- A station has a frame eligible in class 4, its trunk being ACTIVE (R34). -/
def Station.eligibleOn (unit : Nat) (st : Station) (t : Nat) : Bool :=
  st.place.isAssociated && st.onTrunk t && st.creditReady unit

/-- The eligible station with the lowest index above the round-robin position, else with the lowest index (R34). -/
def State.nextStation (s : State) (t : Nat) : Option Nat :=
  let ready := s.stations.keysWhere fun _ st => st.eligibleOn s.time.unit t
  match (s.trunk t).lastServed with
  | none => ready.head?
  | some p => (ready.find? fun i => decide (p < i)).or ready.head?

/-- A message the arbiter chooses. -/
inductive Choice where
  | poll (cell : Nat)
  | signal (m : Signal)
  | replay (copy : Nat)
  | station (i : Nat)
deriving DecidableEq, Repr

/-- Classes 3 and 4, with the run limit's exception (R35). -/
def State.choosePayload (s : State) (t : Nat) : Option Choice :=
  match s.nextCopy t, s.nextStation t with
  | some n, some i =>
    if s.settings.runLimit ≠ 0 ∧ s.settings.runLimit ≤ (s.trunk t).run then some (.station i) else some (.replay n)
  | some n, none => some (.replay n)
  | none, some i => some (.station i)
  | none, none => none

/-- The arbiter's choice on an idle link (R30, R36); none when nothing is eligible. -/
def State.choose (s : State) (t : Nat) : Option Choice :=
  let tr := s.trunk t
  if tr.frame.isSome ∨ tr.state = .held ∨ tr.state = .linkDown then none
  else
    match s.nextPoll t .overdue, tr.signals with
    | some c, _ => some (.poll c)
    | none, m :: _ => some (.signal m)
    | none, [] =>
      if tr.state = .active then (s.choosePayload t).or ((s.nextPoll t .onTime).map .poll)
      else (s.nextPoll t .onTime).map .poll

/-! ## Sending (R30) -/

/-- The link takes a message: frames out advances and the replay run count is updated (R30, R35). -/
def startFrame (t : Nat) (f : LinkFrame) (isReplay : Bool) (s : State) : State :=
  let tr := s.trunk t
  bump (.trunk t .framesOut)
    (s.setTrunk t { tr with frame := some f, run := if isReplay then min 255 (tr.run + 1) else 0 })

/-- The POLL sent settles the previous one: a miss is counted, and the third takes the cell DOWN (R7). -/
def settlePoll (cell : Nat) (s : State) : State :=
  match s.cells.look cell with
  | none => s
  | some c =>
    if !c.awaited then s
    else
      let counted := bump (.cell cell .pollsMissed) s
      if c.missed < 2 then
        updateCell cell (fun c => { c with missed := c.missed + 1, state := .silent }) counted
      else if c.missed = 2 then cellDown cell .missedPolls counted
      else counted

/-- A POLL leaves: the previous one is settled; reply awaited is set, the next due time is set, no POLL is queued (R6, R7). -/
def sendPoll (t cell : Nat) (s : State) : State :=
  let s1 := settlePoll cell (startFrame t (.poll cell) false s)
  updateCell cell (fun c =>
    { c with awaited := true, due := some (s1.now + BitVec.ofNat 32 s1.settings.timers.poll), queued := .none }) s1

/-- The oldest signalling message leaves (R32). -/
def sendSignal (t : Nat) (m : Signal) (s : State) : State :=
  let tr := s.trunk t
  startFrame t (.signal m) false (s.setTrunk t { tr with signals := tr.signals.tail })

/-- A step down in level is attempted: taken when M with the lower level's load is not above B (R136, R146). -/
def attemptRecovery (n : Nat) (s : State) : State :=
  match s.copies.look n with
  | none => s
  | some c =>
    match s.channels.look c.channel, s.account c.cell with
    | some ch, some a =>
      let lower := loadOf a (ch.tierOf c.tier) (c.level - 1)
      if 0 < c.level ∧ a.m + lower ≤ a.b + c.load then
        refreshRates c.cell (refreshM c.cell
          (s.setCopies (s.copies.put n { c with level := c.level - 1, load := lower })))
      else s
    | _, _ => s

/-- The pacer at a send (R134, R136): the next due time is one effective interval away; the clean count advances, and at the
threshold returns to 0 with an attempt. -/
def pace (n : Nat) (s : State) : State :=
  match s.copies.look n with
  | none => s
  | some c =>
    match s.channels.look c.channel with
    | none => s
    | some ch =>
      let due := s.time.tick + BitVec.ofNat 48 (effectiveInterval (ch.tierOf c.tier) c.level)
      match recoveryThreshold ch.recovery with
      | none => s.setCopies (s.copies.put n { c with nextDue := due })
      | some threshold =>
        if threshold ≤ c.clean + 1 then attemptRecovery n (s.setCopies (s.copies.put n { c with nextDue := due, clean := 0 }))
        else s.setCopies (s.copies.put n { c with nextDue := due, clean := c.clean + 1 })

/-- A copy's oldest frame leaves as REPLAY DATA (R30, R33, R134). -/
def sendReplay (t n : Nat) (s : State) : State :=
  match s.copies.look n with
  | none => s
  | some c =>
    match c.queue with
    | [] => s
    | r :: rest =>
      let s1 := s.setCopies (s.copies.put n { c with queue := rest })
      pace n (bump (.cell c.cell .replaySent) (startFrame t (.replayData c.cell c.channel c.tier r) true s1))

/-- A station's oldest frame leaves as STATION DATA DOWN, charged against its credit (R34, R46, R151). -/
def sendStation (t i : Nat) (s : State) : State :=
  match s.stations.look i with
  | none => s
  | some st =>
    match st.queue, st.place.cell? with
    | e :: rest, some cell =>
      let s1 := s.setStations
        (s.stations.put i { st with queue := rest, credit := st.credit - e.length * s.time.unit })
      let s2 := startFrame t (.stationDown cell st.addr e.buffer) false s1
      bump (.cell cell .framesDown) (s2.setTrunk t { s2.trunk t with lastServed := some i })
    | _, _ => s

/-- The chosen message is sent (R30). -/
def send (t : Nat) (c : Choice) (s : State) : State :=
  match c with
  | .poll cell => sendPoll t cell s
  | .signal m => sendSignal t m s
  | .replay n => sendReplay t n s
  | .station i => sendStation t i s

/-! ## The backbone egress (R50) -/

/-- An idle backbone link that is up takes the oldest entry of the egress queue (R50). -/
def serveBackbone (s : State) : State :=
  match s.backbone.queue with
  | [] => s
  | e :: rest =>
    if s.backbone.up ∧ s.backbone.frame = none then s.setBackbone { s.backbone with queue := rest, frame := some e } else s

/-! ## The close of an event (log 9) -/

/-- The owed passes, then the credits (R144, R150). -/
def settleAccounts (s : State) : State := trimCredits (runPasses s)

/-- The trunks, T0 to T7. -/
def allTrunks : List Nat := [0, 1, 2, 3, 4, 5, 6, 7]

/-- A trunk whose drain is complete enters HELD in the same event (R15, R16). -/
def checkDrain (s : State) (t : Nat) : State := if s.drained t then settleAccounts (enterHeld t s) else s

/-- The first trunk whose idle link has an eligible message, with the choice (log 10). -/
def State.firstChoice (s : State) : List Nat → Option (Nat × Choice)
  | [] => none
  | t :: rest =>
    match s.choose t with
    | some c => some (t, c)
    | none => s.firstChoice rest

/-- Idle links with an eligible message choose and send, until none is left (R30): at most one message a trunk. -/
def serveLinks : (fuel : Nat) → State → State
  | 0, s => s
  | fuel + 1, s =>
    match s.firstChoice allTrunks with
    | none => s
    | some (t, c) => serveLinks fuel (settleAccounts (send t c s))

/-- The close of an event: owed passes and credits; drains that are now complete; idle links; the backbone; and the expiries
that follow as events of their own (log 9). -/
def closeEvent (s : State) : State :=
  runExpiries (serveBackbone (serveLinks Config.trunks (allTrunks.foldl checkDrain (settleAccounts s))))

/-- The statuses under which an order has effects that can make a message eligible (R155). -/
def Status.acts : Status → Bool
  | .done | .clamped | .accepted | .full | .lateStored => true
  | _ => false

/-- The event of an order that can change what the links may carry: it is closed like every other event, unless the order was
refused, late or had nothing to do. -/
def takeActing (kind : OrderKind) (h : OrderHead) (rule : State → Answer) (s : State) : State :=
  if s.link.resetnLow then s
  else
    let a := if h.bodyFits then rule s else refuse .badArgument s
    let replied := placeReply (.order kind) h.tag a.status a.body a.state
    if a.status.acts then closeEvent replied else replied

/-! ## The ends of frames (R30, R40) -/

/-- The buffer that a frame on a trunk link names. -/
def LinkFrame.buffer? : LinkFrame → Option BufferRef
  | .replayData _ _ _ r => some r
  | .stationDown _ _ r => some r
  | _ => none

/-- The frame on a trunk link ends or is lost: its reference is released (R40). -/
def releaseFrame (f : Option LinkFrame) (s : State) : State :=
  match f.bind LinkFrame.buffer? with
  | some r => releaseRef r s
  | none => s

end Sys2Proof.Machine
end

