-- ==== Sys2Proof/Machine/CellLink.lean ====
section
/-! DEFINITION. Messages from the cells: the ingress checks (R25 to R28) and the meaning of each of the eight kinds and of a
malformed frame (R8, R9, R48, R49, R55, R59, R71 to R75, R79 to R81, R103, R127, R129). -/

namespace Sys2Proof.Machine

/-- The three outcomes of a step, over this machine's types. -/
abbrev Outcome := Host.Outcome State Fault Refusal

/-! ## Ingress (R25 to R27) -/

/-- What becomes of a message that arrives (R25). -/
inductive Fate where
  /-- The trunk is LINK DOWN, where no message arrives. -/
  | absent
  /-- Discarded; the counter advances. -/
  | discarded (c : Counter)
  /-- Dispatched to its owner. -/
  | taken
deriving DecidableEq, Repr

/-- The cell may send this kind (R27). -/
def State.mayTake (s : State) (cell : Nat) (isPollReply : Bool) : Bool :=
  match s.cells.look cell with
  | none => false
  | some c => isPollReply || decide (c.state ≠ .down)

/-- The first four checks of R25, on a frame of trunk `t` whose header says `bodyLength` and whose form is `wellFormed`. -/
def State.frameFate (s : State) (t : Fin 8) (bodyLength : Option (BitVec 16)) (wellFormed : Bool) : Fate :=
  match (s.trunk t.val).state with
  | .linkDown => .absent
  | .held => .discarded (.trunk t.val .discardedWhileHeld)
  | _ =>
    if s.time.service = .config then .discarded (.trunk t.val .ingressRejected)
    else if Config.longBytes < (bodyLength.map (·.toNat)).getD 0 then .discarded (.part .oversize)
    else if !wellFormed then .discarded (.trunk t.val .ingressRejected)
    else .taken

/-- The five checks of R25 in turn. -/
def State.fate (s : State) (m : MessageHead) (wellFormed isPollReply : Bool) : Fate :=
  match s.frameFate m.trunk (some m.bodyLength) wellFormed with
  | .taken =>
    if s.mayTake (cellOf m) isPollReply then .taken else .discarded (.trunk m.trunk.val .ingressRejected)
  | f => f

/-- The header's own share of R26: the frame's length fits the header, the slot exists, the body has the length its kind
gives. -/
def headerFits (m : MessageHead) (bodyLength : Nat) : Bool :=
  decide (m.frameLength = 10 + m.bodyLength.toNat) && decide (m.slot.toNat < Config.slots)
    && decide (m.bodyLength.toNat = bodyLength)

/-- R26 for the seven kinds that name a phone. -/
def phoneFits (m : MessageHead) (bodyLength : Nat) : Bool := headerFits m bodyLength && !namesNoStation m.addr

/-- A message is discarded and counted, or taken by its owner; the taken event is closed (R25, R28). -/
def takeMessage (f : Fate) (owner : State → State) (s : State) : State :=
  match f with
  | .absent => s
  | .discarded c => bump c s
  | .taken => closeEvent (owner s)

/-! ## ATTACH REQUEST (R55, R71, R72, R79 to R81) -/

/-- A handover starts, is refused RETRY, or skips its release (R71, R72). -/
def startHandover (i oldCell newCell : Nat) (addr : Addr) (since : Clock) (s : State) : State :=
  let state := s.trunkStateOf oldCell
  if state = .draining ∨ state = .held then
    bumpPart .releasesSkipped (bumpPart .handoversCompleted (completeHandover i oldCell newCell (hear i s)))
  else if Config.handovers ≤ s.handovers.size then
    bumpPart .retryRefusals (postSignal newCell addr (.attachRefuse .retry) s)
  else
    let s1 := s.setHandovers (s.handovers.put i ⟨oldCell, newCell, s.now⟩)
    let s2 := hear i (updateStation i (fun st => { st with place := .moving oldCell since }) s1)
    postSignal oldCell addr .release s2

/-- An ATTACH REQUEST for a MOVING station: duplicate, return or redirection (R79, R80, R81). -/
def requestWhileMoving (i cell : Nat) (addr : Addr) (s : State) : State :=
  match s.handovers.look i with
  | none => s
  | some h =>
    if cell = h.newCell then s
    else if cell = h.oldCell then
      postSignal h.newCell addr (.attachRefuse .superseded) (hear i (cancelToOld i s))
    else
      postSignal h.newCell addr (.attachRefuse .superseded)
        (hear i (s.setHandovers (s.handovers.put i { h with newCell := cell })))

/-- The station table's action on an ATTACH REQUEST (R55). -/
def takeAttach (cell : Nat) (addr : Addr) (s : State) : State :=
  match s.stationWith addr with
  | none => attachUnknown cell addr s
  | some (i, st) =>
    match st.place with
    | .dormant => attachReturning i cell st s
    | .associated d since =>
      if d = cell then postSignal cell addr (.attachGrant i) (hear i s) else startHandover i d cell addr since s
    | .moving _ _ => requestWhileMoving i cell addr s

/-- ATTACH_REQUEST (R55). -/
def execAttachRequest (m : MessageHead) (s : State) : Outcome :=
  .next (takeMessage (s.fate m (phoneFits m 0) false) (takeAttach (cellOf m) m.addr) s)

/-! ## RELEASE DONE, DEPART (R73, R59, R75) -/

/-- The station of a handover record that has this radio address and this old cell (R73). -/
def State.releasing (s : State) (cell : Nat) (addr : Addr) : Option Nat :=
  match s.stationWith addr with
  | none => none
  | some (i, _) =>
    match s.handovers.look i with
    | some h => if h.oldCell = cell then some i else none
    | none => none

/-- The handover engine's action on a RELEASE DONE (R73). -/
def takeRelease (cell : Nat) (addr : Addr) (framesLost : Byte) (s : State) : State :=
  let s1 := advance (.cell cell .framesLost) framesLost.toNat s
  match s.releasing cell addr with
  | some i => endHandover i s1
  | none => bumpPart .lateReleases s1

/-- RELEASE_DONE (R73). -/
def execReleaseDone (m : MessageHead) (framesLost : Byte) (s : State) : Outcome :=
  .next (takeMessage (s.fate m (phoneFits m 1) false) (takeRelease (cellOf m) m.addr framesLost) s)

/-- A DEPART for a MOVING station, by the cell that sent it (R75). -/
def departWhileMoving (i cell : Nat) (s : State) : State :=
  match s.handovers.look i with
  | none => bumpPart .departuresIgnored s
  | some h =>
    if cell = h.oldCell then endHandover i s
    else if cell = h.newCell then cancelToDormant i s
    else bumpPart .departuresIgnored s

/-- The station table's action on a DEPART (R59). -/
def takeDepart (cell : Nat) (addr : Addr) (s : State) : State :=
  match s.stationWith addr with
  | none => bumpPart .departuresIgnored s
  | some (i, st) =>
    match st.place with
    | .associated c _ => if c = cell then goDormant i s else bumpPart .departuresIgnored s
    | .moving _ _ => departWhileMoving i cell s
    | .dormant => bumpPart .departuresIgnored s

/-- DEPART (R59). -/
def execDepart (m : MessageHead) (s : State) : Outcome :=
  .next (takeMessage (s.fate m (phoneFits m 0) false) (takeDepart (cellOf m) m.addr) s)

/-! ## POLL REPLY (R8, R9) -/

/-- R26 for POLL REPLY. -/
def pollReplyFits (m : MessageHead) (mark heardCount : Byte) (heard : List Addr) : Bool :=
  headerFits m (2 + 6 * heardCount.toNat) && decide (mark.toNat ≤ 1) && decide (heardCount.toNat ≤ 64)
    && decide (heard.length = heardCount.toNat)

/-- One address of a heard list refreshes a station ASSOCIATED at the cell, and any other is passed over (R61). -/
def hearAddress (cell : Nat) (s : State) (a : Addr) : State :=
  if namesNoStation a then s
  else
    match s.stationWith a with
    | some (i, st) => if st.place.associatedAt cell then hear i s else s
    | none => s

/-- The cell has answered (R8): reply awaited no, count 0, ACTIVE; CELL UP if it was DOWN. -/
def answerPoll (cell : Nat) (s : State) : State :=
  match s.cells.look cell with
  | none => s
  | some c =>
    let s1 := s.setCells (s.cells.put cell { c with awaited := false, missed := 0, state := .active })
    if c.state = .down then pushNotice (.cellUp cell) s1 else s1

/-- The poller's action on a POLL REPLY (R8, then R9). -/
def takePollReply (cell : Nat) (mark : Byte) (heard : List Addr) (s : State) : State :=
  let s1 := heard.foldl (hearAddress cell) (answerPoll cell s)
  if mark = 1 then press cell (bump (.cell cell .pressureMarks) s1) else s1

/-- POLL_REPLY (R8). -/
def execPollReply (m : MessageHead) (mark heardCount : Byte) (heard : List Addr) (s : State) : Outcome :=
  .next (takeMessage (s.fate m (pollReplyFits m mark heardCount heard) true) (takePollReply (cellOf m) mark heard) s)

/-! ## TICKET CLAIM (R103) -/

/-- R26 for TICKET CLAIM. -/
def claimFits (m : MessageHead) (kind : Byte) (number : TicketNumber) : Bool :=
  phoneFits m 11 && (claimKindOf kind).isSome && decide (number ≠ 0)

/-- The claim checker's action on a TICKET CLAIM (R103). -/
def takeClaim (cell : Nat) (addr : Addr) (kind : Byte) (number : TicketNumber) (token : Token) (s : State) : State :=
  match claimKindOf kind with
  | none => s
  | some k => judgeArrival ⟨k, number, token, addr, cell⟩ s

/-- TICKET_CLAIM (R103). -/
def execTicketClaim (m : MessageHead) (kind : Byte) (number : TicketNumber) (token : Token) (s : State) : Outcome :=
  .next (takeMessage (s.fate m (claimFits m kind number) false) (takeClaim (cellOf m) m.addr kind number token) s)

/-! ## JOIN, LEAVE (R127, R129) -/

/-- R26 for JOIN and LEAVE. -/
def channelFits (m : MessageHead) (channel : Byte) : Bool :=
  phoneFits m 1 && decide (channel.toNat < Config.channels)

/-- Check 1 of a JOIN (R127): the station ASSOCIATED at the cell, or the refusal. -/
def State.joiner (s : State) (cell : Nat) (addr : Addr) : Except JoinResult (Nat × Station) :=
  match s.stationWith addr with
  | none => .error .notHere
  | some (i, st) =>
    match st.place with
    | .associated c _ => if c = cell then .ok (i, st) else .error .notHere
    | .moving _ _ =>
      match s.handovers.look i with
      | some h => if cell = h.oldCell ∨ cell = h.newCell then .error .retry else .error .notHere
      | none => .error .notHere
    | .dormant => .error .notHere

/-- Checks 2 to 5 of a JOIN by a station ASSOCIATED at the cell (R127): a result that ends the judgement, or none. -/
def State.joinAnswer (s : State) (st : Station) (channel : Nat) : Option JoinResult :=
  match s.channels.look channel with
  | none => some .closed
  | some ch =>
    if !ch.isOpen then some .closed
    else if !allows ch.entitled st.cls then some .notEntitled
    else
      match st.members.find? fun m => m.channel == channel with
      | some m => some m.status.joinResult
      | none => if Config.memberships ≤ st.members.length then some .limit else none

/-- The judgement of a JOIN (R127): the state and the result. -/
def judgeJoin (cell : Nat) (addr : Addr) (channel : Nat) (s : State) : State × JoinResult :=
  match s.joiner cell addr with
  | .error r => (s, r)
  | .ok (i, st) =>
    match s.joinAnswer st channel with
    | some r => (s, r)
    | none =>
      let p := placeMembership i channel cell s
      (p.1, match p.2 with
        | some status => status.joinResult
        | none => .noRoom)

/-- The replay unit's action on a JOIN (R127): the verdict goes to the joining cell. -/
def takeJoin (cell : Nat) (addr : Addr) (channel : Nat) (s : State) : State :=
  let j := judgeJoin cell addr channel s
  postSignal cell addr (.joinVerdict channel j.2) j.1

/-- JOIN (R127). -/
def execJoin (m : MessageHead) (channel : Byte) (s : State) : Outcome :=
  .next (takeMessage (s.fate m (channelFits m channel) false) (takeJoin (cellOf m) m.addr channel.toNat) s)

/-- The membership a LEAVE removes, if the station is ASSOCIATED at the cell or MOVING from it (R129). -/
def removeByLeave (cell : Nat) (addr : Addr) (channel : Nat) (s : State) : State :=
  match s.stationWith addr with
  | none => s
  | some (i, st) => if st.countedAt cell then removeMembership i channel s else s

/-- The replay unit's action on a LEAVE (R129): LEFT in every case. -/
def takeLeave (cell : Nat) (addr : Addr) (channel : Nat) (s : State) : State :=
  postSignal cell addr (.joinVerdict channel .left) (removeByLeave cell addr channel s)

/-- LEAVE (R129). -/
def execLeave (m : MessageHead) (channel : Byte) (s : State) : Outcome :=
  .next (takeMessage (s.fate m (channelFits m channel) false) (takeLeave (cellOf m) m.addr channel.toNat) s)

/-! ## STATION DATA UP (R48, R49) -/

/-- R26 for STATION DATA UP: a payload of 1 to 2,048 bytes. -/
def dataUpFits (m : MessageHead) (payload : List Byte) : Bool :=
  phoneFits m payload.length && decide (1 ≤ payload.length)

/-- The station that a STATION DATA UP is accepted for (R48). -/
def State.uplinker (s : State) (cell : Nat) (addr : Addr) : Option Nat :=
  match s.stationWith addr with
  | some (i, st) => if st.place.associatedAt cell then some i else none
  | none => none

/-- An accepted upstream frame joins the backbone egress queue, or is dropped (R49). -/
def offerUpstream (addr : Addr) (payload : List Byte) (s : State) : State :=
  if Config.egress ≤ s.backbone.queue.length then bumpPart .egressDrops s
  else
    match s.grant payload.length with
    | none => dropForWant payload.length s
    | some r =>
      let s1 := putBuffer r ⟨.upstream, payload, 1⟩ s
      s1.setBackbone { s1.backbone with queue := s1.backbone.queue ++ [⟨r, payload.length, addr⟩] }

/-- Forwarding's action on a STATION DATA UP (R48). -/
def takeDataUp (cell : Nat) (addr : Addr) (payload : List Byte) (s : State) : State :=
  if payload.length < 9 then bumpPart .upstreamMalformed s
  else
    match s.uplinker cell addr with
    | none => bumpPart .upstreamRefused s
    | some i => offerUpstream addr payload (bump (.cell cell .framesUp) (hear i s))

/-- STATION_DATA_UP (R48). -/
def execStationDataUp (m : MessageHead) (payload : List Byte) (s : State) : Outcome :=
  .next (takeMessage (s.fate m (dataUpFits m payload) false) (takeDataUp (cellOf m) m.addr payload) s)

/-! ## Frames that are no message (R26) -/

/-- MALFORMED_MESSAGE (R26): it never passes the check of its form, so it changes nothing but a counter (R25). -/
def execMalformedMessage (t : Fin 8) (bodyLength : Option (BitVec 16)) (s : State) : Outcome :=
  .next (takeMessage (s.frameFate t bodyLength false) id s)

end Sys2Proof.Machine
end

