-- ==== Sys2Proof/Machine/Backbone.lean ====
section
/-! DEFINITION. Frames from the venue network and the backbone link (R42 to R44, R50, R133). -/

namespace Sys2Proof.Machine

/-- The tier of an OPEN channel that a stream tag names (R43). -/
def Channel.tagged (ch : Channel) (tag : BitVec 16) : Option TierName :=
  if !ch.isOpen then none
  else if ch.full.tag = tag then some .full
  else if (ch.reduced.map (·.tag)) = some tag then some .reduced
  else none

/-- The channel and tier that a stream tag names (R43). -/
def State.lookupTag (s : State) (tag : BitVec 16) : Option (Nat × TierName) :=
  s.channels.entries.findSome? fun e => (e.2.tagged tag).map fun n => (e.1, n)

/-- The copies that take a frame of a channel and tier, by copy number (R133). -/
def State.takers (s : State) (channel : Nat) (tier : TierName) : List Nat :=
  s.copies.keysWhere fun _ c => c.channel == channel && c.state == .active && c.tier == tier

/-- One copy takes a frame: at 8 entries its oldest is discarded first (R133). -/
def joinCopyQueue (r : BufferRef) (s : State) (n : Nat) : State :=
  match s.copies.look n with
  | none => s
  | some c =>
    if c.queue.length < Config.copyQueue then s.setCopies (s.copies.put n { c with queue := c.queue ++ [r] })
    else
      bump (.cell c.cell .replayDiscarded)
        (releaseAll (c.queue.take 1) (s.setCopies (s.copies.put n { c with queue := c.queue.drop 1 ++ [r] })))

/-- A replay frame is stored once and fanned out (R43, R133). -/
def takeReplay (tag : BitVec 16) (payload : List Byte) (s : State) : State :=
  match s.lookupTag tag with
  | none => bumpPart .replayUnmatched s
  | some (channel, tier) =>
    let s1 := bump (.channel channel .framesIn) s
    match s1.grant payload.length with
    | none => dropForWant payload.length s1
    | some r =>
      let copies := s1.takers channel tier
      if copies.isEmpty then bump (.channel channel .noAudience) s1
      else copies.foldl (joinCopyQueue r) (putBuffer r ⟨.replay, payload, copies.length⟩ s1)

/-- A frame that is not a replay frame is queued to its station, or dropped (R44). -/
def takeDownlink (dest : Addr) (payload : List Byte) (s : State) : State :=
  if isGroup dest then bumpPart .groupDropped s
  else
    match s.stationWith dest with
    | none => bumpPart .noStation s
    | some (i, st) =>
      match st.place.cell? with
      | none => bumpPart .noStation s
      | some cell =>
        if Config.downlink ≤ st.queue.length then bump (.cell cell .downlinkDropped) s
        else
          match s.grant payload.length with
          | none => dropForWant payload.length s
          | some r =>
            let s1 := putBuffer r ⟨.downlink, payload, 1⟩ s
            s1.setStations (s1.stations.put i { st with queue := st.queue ++ [⟨r, payload.length⟩] })

/-- The frame type says replay frame, and is not 0 (R42). -/
def State.isReplayType (s : State) (frameType : BitVec 16) : Bool :=
  decide (frameType = s.settings.replayType) && decide (s.settings.replayType ≠ 0)

/-- A frame at the backbone port: the three checks, then the sorting (R42). `rest` is its bytes from byte 14 on. Nothing
arrives while the link is lost (R50). -/
def takeBackboneFrame (dest : Addr) (frameType : BitVec 16) (rest : List Byte) (s : State) : State :=
  if !s.backbone.up then s
  else if s.time.service = .config then bumpPart .backboneRejected s
  else
    match s.isReplayType frameType, rest with
    | true, hi :: lo :: byte :: more =>
      if Config.longBytes < (byte :: more).length then bumpPart .oversize s
      else closeEvent (takeReplay (hi ++ lo) (byte :: more) s)
    | true, _ => bumpPart .backboneMalformed s
    | false, [] => bumpPart .backboneMalformed s
    | false, byte :: more =>
      if Config.longBytes < (byte :: more).length then bumpPart .oversize s
      else closeEvent (takeDownlink dest (byte :: more) s)

/-- REPLAY_FRAME (R43): the frame carries its stream tag in bytes 14 and 15. Its type decides, as for every frame, whether it
is sorted as a replay frame (R42; log 38). -/
def execReplayFrame (dest _source : Addr) (frameType tag : BitVec 16) (payload : List Byte) (s : State) : Outcome :=
  .next (takeBackboneFrame dest frameType (word16Bytes tag ++ payload) s)

/-- STATION_DOWNLINK_FRAME (R44). -/
def execStationDownlinkFrame (dest _source : Addr) (frameType : BitVec 16) (payload : List Byte) (s : State) : Outcome :=
  .next (takeBackboneFrame dest frameType payload s)

/-- MALFORMED_BACKBONE_FRAME (R42): a frame whose check sequence fails or that is shorter than 15 bytes. -/
def execMalformedBackboneFrame (s : State) : Outcome :=
  .next (if !s.backbone.up then s
    else if s.time.service = .config then bumpPart .backboneRejected s
    else bumpPart .backboneMalformed s)

/-- BACKBONE_FRAME_END (R50): the frame's reference is released and the next entry is taken. -/
def execBackboneFrameEnd (s : State) : Outcome :=
  .next (match s.backbone.frame with
    | none => s
    | some e => closeEvent (releaseRef e.buffer (s.setBackbone { s.backbone with frame := none })))

/-- BACKBONE_LINK_LOST (R50): the frame on the link is lost and its reference released. -/
def execBackboneLinkLost (s : State) : Outcome :=
  let s1 := s.setBackbone { s.backbone with up := false, frame := none }
  .next (match s.backbone.frame with
    | none => s1
    | some e => releaseRef e.buffer s1)

/-- BACKBONE_LINK_RESTORED (R50): sending resumes with the oldest entry. -/
def execBackboneLinkRestored (s : State) : Outcome :=
  .next (closeEvent (s.setBackbone { s.backbone with up := true }))

end Sys2Proof.Machine
end

