-- ==== Sys2Proof/Machine/CellOrders.lean ====
section
/-! DEFINITION. The orders on cells and their airtime: CONFIGURE CELL, REMOVE CELL, QUERY CELL, SET CELL AIRTIME, SET CLASS
WEIGHTS (R3 to R5, R139, R149). -/

namespace Sys2Proof.Machine

/-! ## CONFIGURE CELL (R3) -/

/-- The account CONFIGURE CELL creates (R3, R138). -/
def Account.atConfigure : Account := ⟨24, 60, 400, 60000, 0, 0⟩

/-- The record of a newly configured cell (R3): its state by the trunk's, its poll by the service state and the trunk's. -/
def State.configured (s : State) (cell : Nat) (kind : CellKind) : Cell :=
  let t := s.trunkStateOf cell
  let inService := decide (s.time.service = .service)
  { kind := kind
    state := if t = .linkDown then .down else .active
    missed := if t = .linkDown then 3 else 0
    awaited := false
    due := if inService then some s.now else none
    queued := if inService && (t == .active || t == .draining) then .onTime else .none
    account := Account.atConfigure }

/-- The rule of CONFIGURE CELL (R3). -/
def ruleConfigureCell (cell : Nat) (kind : Option CellKind) (s : State) : Answer :=
  match kind with
  | none => refuse .badArgument s
  | some k =>
    if Config.cells ≤ cell then refuse .badArgument s
    else
      match s.cells.look cell with
      | none => ⟨s.setCells (s.cells.put cell (s.configured cell k)), .done, .empty⟩
      | some c =>
        if c.kind = k then refuse .already s
        else ⟨s.setCells (s.cells.put cell { c with kind := k }), .done, .empty⟩

/-- CONFIGURE_CELL (R3). -/
def execConfigureCell (h : OrderHead) (cell : Nat) (kind : Option CellKind) (s : State) : Outcome :=
  .next (takeActing .configureCell h (ruleConfigureCell cell kind) s)

/-! ## REMOVE CELL (R4) -/

/-- A cell's signalling messages are discarded from its trunk's class-2 queue; the others keep their order (R4, R37). -/
def discardSignals (cell : Nat) (s : State) : State :=
  let tr := s.trunk (trunkOf cell)
  s.setTrunk (trunkOf cell) { tr with signals := tr.signals.filter fun m => m.cell != cell }

/-- A configured cell is removed (R4): it goes DOWN, its messages and POLL are discarded, its record and account end. -/
def removeConfigured (cell : Nat) (c : Cell) (s : State) : State :=
  let s1 := if c.state = .down then s else cellDown cell .removed s
  let s2 := discardSignals cell s1
  s2.setCells (s2.cells.drop cell)

/-- The rule of REMOVE CELL (R4). -/
def ruleRemoveCell (cell : Nat) (s : State) : Answer :=
  if Config.cells ≤ cell then refuse .badArgument s
  else
    match s.cells.look cell with
    | none => refuse .notFound s
    | some c => ⟨removeConfigured cell c s, .done, .empty⟩

/-- REMOVE_CELL (R4). -/
def execRemoveCell (h : OrderHead) (cell : Nat) (s : State) : Outcome :=
  .next (takeActing .removeCell h (ruleRemoveCell cell) s)

/-! ## QUERY CELL (R5) -/

/-- What QUERY CELL reports of a cell (R5). -/
def State.cellReport (s : State) (cell : Nat) : ReplyBody :=
  match s.cells.look cell with
  | none => .unconfiguredCell cell
  | some c => .cell
      { number := cell, trunk := trunkOf cell, slot := slotOf cell, kind := c.kind, state := c.state
        trunkState := s.trunkStateOf cell, missed := c.missed, awaited := c.awaited, due := c.due, queued := c.queued
        account := c.account
        stations := s.stations.countWhere fun _ st => st.countedAt cell
        activeCopies := s.copies.countWhere fun _ c => c.cell == cell && c.state == .active
        heldCopies := s.copies.countWhere fun _ c => c.cell == cell && c.state == .held }

/-- The rule of QUERY CELL (R5). -/
def ruleQueryCell (cell : Nat) (s : State) : Answer :=
  if Config.cells ≤ cell then refuse .badArgument s else ⟨s, .done, s.cellReport cell⟩

/-- QUERY_CELL (R5). -/
def execQueryCell (h : OrderHead) (cell : Nat) (s : State) : Outcome :=
  .next (takeOrder .queryCell h (ruleQueryCell cell) s)

/-! ## SET CELL AIRTIME (R139) -/

/-- A given value, clamped into its range, or the present one (R139). -/
def given (flag : Bool) (low high v present : Nat) : Nat := if flag then clampInto low high v else present

/-- The account with the given settings stored (R139, step 1; the ranges of R138). -/
def storeAirtime (m : AirtimeMask) (v : AirtimeValues) (a : Account) : Account :=
  { a with
    p := given m.p 6 600 v.p a.p
    h := given m.h 20 200 v.h a.h
    b := given m.b 100 700 v.b a.b
    c := given m.c 1000 400000 v.c a.c }

/-- Some given value lay outside its range (R139). -/
def airtimeClamped (m : AirtimeMask) (v : AirtimeValues) : Bool :=
  (m.p && outside 6 600 v.p) || (m.h && outside 20 200 v.h) || (m.b && outside 100 700 v.b)
    || (m.c && outside 1000 400000 v.c)

/-- The steps of SET CELL AIRTIME (R139): store, loads, shedding, pass, rates. -/
def applyAirtime (cell : Nat) (m : AirtimeMask) (v : AirtimeValues) (before : Account) (s : State) : State :=
  let now := storeAirtime m v before
  let s1 := updateAccount cell (fun _ => now) s
  let s2 := if now.p ≠ before.p ∨ now.h ≠ before.h then reload cell s1 else s1
  let s3 := shed cell (2 * s2.copies.size + 1) s2
  let shedM := (s3.account cell).map (·.m)
  let s4 := if shedM.getD 0 < before.m ∨ before.b < now.b then readmit cell s3 else s3
  if (s4.account cell).map (·.m) ≠ some before.m ∨ now.c ≠ before.c then refreshRates cell s4 else s4

/-- The rule of SET CELL AIRTIME (R139). -/
def ruleSetCellAirtime (cell : Nat) (m : AirtimeMask) (v : AirtimeValues) (s : State) : Answer :=
  if Config.cells ≤ cell ∨ m.unknownBit = true then refuse .badArgument s
  else
    match s.account cell with
    | none => refuse .notFound s
    | some a =>
      ⟨applyAirtime cell m v a s, if airtimeClamped m v then .clamped else .done, .empty⟩

/-- SET_CELL_AIRTIME (R139). -/
def execSetCellAirtime (h : OrderHead) (cell : Nat) (mask : AirtimeMask) (values : AirtimeValues) (s : State) : Outcome :=
  .next (takeActing .setCellAirtime h (ruleSetCellAirtime cell mask values) s)

/-! ## SET CLASS WEIGHTS (R149) -/

/-- The five weights, each clamped into 1 to 15 (R149). -/
def clampWeights (w : ClassWeights) : ClassWeights :=
  ⟨clampInto 1 15 w.unticketed, clampInto 1 15 w.general, clampInto 1 15 w.premium, clampInto 1 15 w.hospitality,
    clampInto 1 15 w.staff⟩

/-- W and the rates of each configured cell (R149, steps 3 and 4). -/
def reweighAll (s : State) : State := (s.cells.keysWhere fun _ _ => true).foldl (fun s cell => reweigh cell s) s

/-- The steps of SET CLASS WEIGHTS (R149). -/
def applyWeights (w : ClassWeights) (s : State) : State :=
  let s1 := s.setSettings { s.settings with weights := w }
  reweighAll (s1.setStations (s1.stations.mapAll fun _ st => { st with weight := classWeight w st.cls }))

/-- The rule of SET CLASS WEIGHTS (R149). -/
def ruleSetClassWeights (w : ClassWeights) (s : State) : Answer :=
  ⟨applyWeights (clampWeights w) s, if clampWeights w = w then .done else .clamped, .empty⟩

/-- SET_CLASS_WEIGHTS (R149). -/
def execSetClassWeights (h : OrderHead) (weights : ClassWeights) (s : State) : Outcome :=
  .next (takeActing .setClassWeights h (ruleSetClassWeights weights) s)

end Sys2Proof.Machine
end

