-- ==== Sys2Proof/Machine/ChannelOrders.lean ====
section
/-! DEFINITION. The orders on replay channels: DEFINE, OPEN, CLOSE and QUERY CHANNEL (R121 to R124). -/

namespace Sys2Proof.Machine

/-! ## DEFINE CHANNEL (R121) -/

/-- The recovery code that the field gives: NONE stands for RECOVER 4 (R120, R121). -/
def recoveryOf : RecoveryField → Option RecoveryCode
  | .code c => some c
  | .unset => some .recover4
  | .unknown => none

/-- The full tier with F and r clamped (R121). -/
def clampFull (t : TierFields) : Tier := ⟨t.tag, clampInto 200 1400 t.frameBytes, clampInto 125 20000 t.rate⟩

/-- The reduced tier, its r clamped up to the full tier's clamped r (R121). -/
def clampReduced (full : Tier) (t : TierFields) : Tier :=
  ⟨t.tag, clampInto 200 1400 t.frameBytes, clampInto 125 full.rate t.rate⟩

/-- The clamping changed a value of the tier. -/
def tierClamped (given : TierFields) (t : Tier) : Bool := t.frameBytes != given.frameBytes || t.rate != given.rate

/-- Some value of DEFINE CHANNEL was clamped (R121). -/
def channelClamped (full : TierFields) (reduced : Option TierFields) : Bool :=
  tierClamped full (clampFull full) ||
    match reduced with
    | none => false
    | some t => tierClamped t (clampReduced (clampFull full) t)

/-- The CLOSED record that DEFINE CHANNEL stores (R121). -/
def definedChannel (entitled : ClassFlags) (code : RecoveryCode) (full : TierFields) (reduced : Option TierFields) :
    Channel :=
  ⟨false, entitled, code, clampFull full, reduced.map (clampReduced (clampFull full))⟩

/-- The channel is OPEN. -/
def State.channelOpen (s : State) (k : Nat) : Bool := (s.channels.look k).any (·.isOpen)

/-- The rule of DEFINE CHANNEL (R121). -/
def ruleDefineChannel (k : Nat) (entitled : ClassFlags) (recovery : RecoveryField) (full : TierFields)
    (reduced : Option TierFields) (s : State) : Answer :=
  match recoveryOf recovery with
  | none => refuse .badArgument s
  | some code =>
    if Config.channels ≤ k ∨ allowsNone entitled = true ∨ reduced.map (·.tag) = some full.tag then refuse .badArgument s
    else if s.channelOpen k then refuse .wrongState s
    else
      ⟨s.setChannels (s.channels.put k (definedChannel entitled code full reduced)),
        if channelClamped full reduced then .clamped else .done, .empty⟩

/-- DEFINE_CHANNEL (R121). -/
def execDefineChannel (h : OrderHead) (channel : Nat) (entitled : ClassFlags) (recovery : RecoveryField)
    (full : TierFields) (reduced : Option TierFields) (s : State) : Outcome :=
  .next (takeOrder .defineChannel h (ruleDefineChannel channel entitled recovery full reduced) s)

/-! ## OPEN CHANNEL (R122) -/

/-- The stream tags of a channel, full and reduced. -/
def Channel.tags (ch : Channel) : List (BitVec 16) := ch.full.tag :: (ch.reduced.map (·.tag)).toList

/-- One of the channel's tags equals a tag of another channel that is OPEN (R122). -/
def State.tagTaken (s : State) (k : Nat) (ch : Channel) : Bool :=
  s.channels.entries.any fun e => e.1 != k && e.2.isOpen && e.2.tags.any fun tag => ch.tags.contains tag

/-- The rule of OPEN CHANNEL (R122). -/
def ruleOpenChannel (k : Nat) (s : State) : Answer :=
  if Config.channels ≤ k then refuse .badArgument s
  else
    match s.channels.look k with
    | none => refuse .wrongState s
    | some ch =>
      if ch.isOpen then refuse .already s
      else if s.tagTaken k ch then refuse .badArgument s
      else ⟨s.setChannels (s.channels.put k { ch with isOpen := true }), .done, .empty⟩

/-- OPEN_CHANNEL (R122). -/
def execOpenChannel (h : OrderHead) (channel : Nat) (s : State) : Outcome :=
  .next (takeOrder .openChannel h (ruleOpenChannel channel) s)

/-! ## CLOSE CHANNEL (R123) -/

/-- The copies of a channel, in creation-stamp order (R120, R123). -/
def State.copiesOf (s : State) (k : Nat) : List (Nat × Copy) :=
  sortBy (fun a b => a.2.olderThan b.2) (s.copies.entries.filter fun e => e.2.channel == k)

/-- The stations that hold a membership of a channel counted at a cell, in ascending index order (R123, R126). -/
def State.membersAt (s : State) (k cell : Nat) : List Nat :=
  s.stations.keysWhere fun _ st => st.countedAt cell && st.members.any fun m => m.channel == k

/-- Every membership of one copy ends (R123, step 2). -/
def endCopy (k : Nat) (s : State) (cell : Nat) : State :=
  (s.membersAt k cell).foldl (fun s i => endMembership i k s) s

/-- An OPEN channel is closed (R123): CLOSED first, then its copies oldest first, each with its members ended. -/
def closeOpen (k : Nat) (ch : Channel) (s : State) : State :=
  ((s.copiesOf k).map (·.2.cell)).foldl (endCopy k) (s.setChannels (s.channels.put k { ch with isOpen := false }))

/-- The rule of CLOSE CHANNEL (R123). -/
def ruleCloseChannel (k : Nat) (s : State) : Answer :=
  if Config.channels ≤ k then refuse .badArgument s
  else
    match s.channels.look k with
    | none => refuse .wrongState s
    | some ch => if ch.isOpen then ⟨closeOpen k ch s, .done, .empty⟩ else refuse .already s

/-- CLOSE_CHANNEL (R123). -/
def execCloseChannel (h : OrderHead) (channel : Nat) (s : State) : Outcome :=
  .next (takeActing .closeChannel h (ruleCloseChannel channel) s)

/-! ## QUERY CHANNEL (R124) -/

/-- A tier as QUERY CHANNEL reports it, with its base interval (R124, R140). -/
def tierReport (t : Tier) : TierReport := ⟨t, baseInterval t⟩

/-- A copy entry (R124). -/
def copyReport (e : Nat × Copy) : CopyReport :=
  { number := e.1, cell := e.2.cell, tier := e.2.tier, state := e.2.state, level := e.2.level, clean := e.2.clean
    members := e.2.members, load := e.2.load, queueLength := e.2.queue.length, nextDue := e.2.nextDue }

/-- The copies of a channel whose cells are at or above a starting cell, in cell order (R124). -/
def State.copiesFrom (s : State) (k cell : Nat) : List (Nat × Copy) :=
  sortBy (fun a b => decide (a.2.cell < b.2.cell))
    (s.copies.entries.filter fun e => e.2.channel == k && decide (cell ≤ e.2.cell))

/-- What QUERY CHANNEL reports (R124). The continuation is the cell of the first copy that is not listed, the 33rd (log 43). -/
def State.channelReport (s : State) (k cell : Nat) : ChannelReport :=
  let copies := s.copies.entries.filter fun e => e.2.channel == k
  let listed := s.copiesFrom k cell
  { number := k
    parameters := (s.channels.look k).map fun ch =>
      ⟨ch.isOpen, ch.entitled, ch.recovery, tierReport ch.full, ch.reduced.map tierReport⟩
    copies := copies.length
    activeFull := copies.countP fun e => e.2.state == .active && e.2.tier == .full
    activeReduced := copies.countP fun e => e.2.state == .active && e.2.tier == .reduced
    held := copies.countP fun e => e.2.state == .held
    members := (copies.map (·.2.members)).sum
    entries := (listed.take Config.copiesPerQuery).map copyReport
    next := (listed[Config.copiesPerQuery]?).map (·.2.cell) }

/-- The rule of QUERY CHANNEL (R124). -/
def ruleQueryChannel (k cell : Nat) (s : State) : Answer :=
  if Config.channels ≤ k ∨ Config.cells ≤ cell then refuse .badArgument s
  else ⟨s, .done, .channel (s.channelReport k cell)⟩

/-- QUERY_CHANNEL (R124). -/
def execQueryChannel (h : OrderHead) (channel cell : Nat) (s : State) : Outcome :=
  .next (takeOrder .queryChannel h (ruleQueryChannel channel cell) s)

end Sys2Proof.Machine
end

