-- ==== Sys2Proof/Machine/Timed.lean ====
section
/-! DEFINITION. The timed events: each takes place when the state says that its moment has come, and otherwise has not
happened and changes nothing (R6, R62, R63, R74, R98, R117, R134, R151; log 6). -/

namespace Sys2Proof.Machine

/-! ## Polls (R6) -/

/-- A cell's next poll due time is reached, on a trunk that is polled, and no POLL of it is queued (R6). -/
def State.pollFallsDue (s : State) (n : Nat) (c : Cell) : Bool :=
  decide (s.time.service = .service) && (s.trunkStateOf n == .active || s.trunkStateOf n == .draining)
    && c.queued == .none && (c.due.map (clockReached s.now)).getD false

/-- A queued POLL has reached its overdue point: the due time plus a quarter of the poll interval, rounded down (R6). -/
def State.pollIsOverdue (s : State) (c : Cell) : Bool :=
  c.queued == .onTime &&
    (c.due.map fun d => clockReached s.now d && decide (s.settings.timers.poll / 4 ≤ age s.now d)).getD false

/-- POLL_DUE (R6): a POLL is queued in class 5. -/
def execPollDue (cell : Nat) (s : State) : Outcome :=
  .next (match s.cells.look cell with
    | none => s
    | some c =>
      if s.pollFallsDue cell c then closeEvent (s.setCells (s.cells.put cell { c with queued := .onTime })) else s)

/-- POLL_OVERDUE (R6): the POLL moves from class 5 to class 1. -/
def execPollOverdue (cell : Nat) (s : State) : Outcome :=
  .next (match s.cells.look cell with
    | none => s
    | some c =>
      if s.pollIsOverdue c then closeEvent (s.setCells (s.cells.put cell { c with queued := .overdue })) else s)

/-! ## Replay copies and station credit (R33, R151) -/

/-- COPY_DUE (R134): the copy's oldest frame is eligible from now on; the arbiter looks when the event closes. -/
def execCopyDue (copy : Nat) (s : State) : Outcome :=
  .next (match s.copies.look copy with
    | none => s
    | some c => if s.copyReady c then closeEvent s else s)

/-- STATION_CREDIT_READY (R151): the station's oldest frame is ready from now on; the arbiter looks when the event closes. -/
def execStationCreditReady (station : Nat) (s : State) : Outcome :=
  .next (match s.stations.look station with
    | none => s
    | some st => if st.creditReady s.time.unit then closeEvent s else s)

/-! ## Timers (R74, R117, R62, R63) -/

/-- The handover record's age has reached the handover timeout (R70). -/
def State.handoverTimedOut (s : State) (h : Handover) : Bool := decide (s.settings.timers.handover ≤ age s.now h.start)

/-- The parked claim's age has reached the referral timeout (R117). -/
def State.referralTimedOut (s : State) (p : Parked) : Bool := decide (s.settings.timers.referral ≤ age s.now p.park)

/-- An ASSOCIATED station whose aging is not paused has reached the dormant-after age (R62). -/
def State.agedDormant (s : State) (st : Station) : Bool :=
  st.place.isAssociated && !st.paused && decide (msOfSeconds s.settings.timers.dormant ≤ age s.now st.lastHeard)

/-- A DORMANT station has reached the expire-after age (R63). -/
def State.agedFree (s : State) (st : Station) : Bool :=
  st.place == .dormant && decide (msOfSeconds s.settings.timers.expire ≤ age s.now st.lastHeard)

/-- HANDOVER_TIMER_EXPIRY (R74): the handover completes as forced. -/
def execHandoverTimerExpiry (station : Nat) (s : State) : Outcome :=
  .next (match s.handovers.look station with
    | none => s
    | some h => if s.handoverTimedOut h then closeEvent (forceHandover station s) else s)

/-- REFERRAL_TIMER_EXPIRY (R117): the claim leaves the queue and DEFERRED is made for its cell. -/
def execReferralTimerExpiry (id : BitVec 16) (s : State) : Outcome :=
  .next (match s.referrals.find? fun p => p.id == id with
    | none => s
    | some p => if s.referralTimedOut p then closeEvent (expireReferral p s) else s)

/-- STATION_AGED_DORMANT (R62). -/
def execStationAgedDormant (station : Nat) (s : State) : Outcome :=
  .next (match s.stations.look station with
    | none => s
    | some st => if s.agedDormant st then closeEvent (goDormant station s) else s)

/-- STATION_EXPIRED (R63). -/
def execStationExpired (station : Nat) (s : State) : Outcome :=
  .next (match s.stations.look station with
    | none => s
    | some st => if s.agedFree st then closeEvent (expireStation station s) else s)

/-! ## The purge (R98) -/

/-- One ticket is removed by the purge; a SEATED one is unbound with the cascade for its station (R98). -/
def purgeTicket (s : State) (e : Nat × Ticket) : State :=
  let s1 := bumpPart .ticketsPurged (s.setTickets (s.tickets.drop e.1))
  match e.2.state with
  | .seated i => cascade i (s.classOf i) (stripStation i s1)
  | _ => s1

/-- The purge ends when the table is empty: PURGE DONE is queued (R98). -/
def endPurge (p : Purge) (s : State) : State :=
  if s.tickets.size = 0 then pushNotice (.purgeDone p.tag p.removed) (s.setPurge none) else s

/-- A batch of the purge: the 2,048 lowest-numbered tickets are removed, lowest first (R98). -/
def takePurgeBatch (p : Purge) (s : State) : State :=
  let batch := s.tickets.entries.take Config.purgeBatch
  let p1 := { p with removed := p.removed + batch.length, batches := p.batches - 1 }
  endPurge p1 (batch.foldl purgeTicket (s.setPurge (some p1)))

/-- PURGE_BATCH (R98): one in each millisecond of a purge (log 17). -/
def execPurgeBatch (s : State) : Outcome :=
  .next (match s.purge with
    | none => s
    | some p => if p.batches = 0 then s else closeEvent (takePurgeBatch p s))

end Sys2Proof.Machine
end

