-- ==== Sys2Proof/Machine/GeneralOrders.lean ====
section
/-! DEFINITION. The general orders: START SERVICE, SET TIMERS, SET REPLAY FRAME TYPE, SET REPLAY RUN LIMIT and READ NOTICES
(R156, R158, R159, R162). -/

namespace Sys2Proof.Machine

/-! ## START SERVICE (R156) -/

/-- A cell at the start of service (R156, step 3): due at 0; on an ACTIVE trunk its POLL is queued in class 5. -/
def cellAtStart (trunkActive : Bool) (c : Cell) : Cell :=
  { c with due := some 0, queued := if trunkActive then .onTime else c.queued }

/-- Service starts (R156). -/
def startServing (s : State) : State :=
  (s.setTime { s.time with service := .service, clock := 0, tick := 0, phase := 0, part := 0 }).setCells
    (s.cells.mapAll fun n c => cellAtStart (s.trunkStateOf n == .active) c)

/-- The rule of START SERVICE (R156). -/
def ruleStartService (s : State) : Answer :=
  if s.time.service = .service ∨ s.cells.size = 0 then refuse .wrongState s else ⟨startServing s, .done, .empty⟩

/-- START_SERVICE (R156). -/
def execStartService (h : OrderHead) (s : State) : Outcome := .next (takeActing .startService h ruleStartService s)

/-! ## SET TIMERS (R158) -/

/-- A timer's new value: the given one clamped, or the present one (R158). -/
def newTimer (flag : Bool) (low high v present : Nat) : Nat := if flag then clampInto low high v else present

/-- The timers that the order stores (R158). -/
def storeTimers (m : TimerMask) (v t : Timers) : Timers :=
  { poll := newTimer m.poll 20 1000 v.poll t.poll
    handover := newTimer m.handover 20 1000 v.handover t.handover
    referral := newTimer m.referral 250 10000 v.referral t.referral
    dormant := newTimer m.dormant 5 300 v.dormant t.dormant
    expire := newTimer m.expire 60 3600 v.expire t.expire }

/-- Some given value lay outside its range (R158). -/
def timersClamped (m : TimerMask) (v : Timers) : Bool :=
  (m.poll && outside 20 1000 v.poll) || (m.handover && outside 20 1000 v.handover)
    || (m.referral && outside 250 10000 v.referral) || (m.dormant && outside 5 300 v.dormant)
    || (m.expire && outside 60 3600 v.expire)

/-- The rule of SET TIMERS (R158). -/
def ruleSetTimers (m : TimerMask) (v : Timers) (s : State) : Answer :=
  if m.unknownBit then refuse .badArgument s
  else
    ⟨s.setSettings { s.settings with timers := storeTimers m v s.settings.timers },
      if timersClamped m v then .clamped else .done, .empty⟩

/-- The keys of a table's records that have come of age, oldest first; among equals the lowest number (log 15). -/
def oldestFirst {α : Type} (ageOf : α → Nat) (due : α → Bool) (t : Table α) : List Nat :=
  (sortBy (fun a b => decide (ageOf b.2 < ageOf a.2)) (t.entries.filter fun e => due e.2)).map (·.1)

/-- The state after an event that answers a next state. -/
def stateAfter (s : State) : Outcome → State
  | .next t => t
  | _ => s

/-- The expiries of handover records that a new timeout brings on, each an event of its own, oldest start first (R70; log 15). -/
def expireHandovers (s : State) : State :=
  (oldestFirst (fun h => age s.now h.start) s.handoverTimedOut s.handovers).foldl
    (fun s i => stateAfter s (execHandoverTimerExpiry i s)) s

/-- The expiries of parked claims that a new timeout brings on, each an event of its own, in queue order (R117; log 15). -/
def expireReferrals (s : State) : State :=
  (s.referrals.filter s.referralTimedOut).foldl (fun s p => stateAfter s (execReferralTimerExpiry p.id s)) s

/-- The stations that a new dormant-after age makes DORMANT, each in an event of its own (R62; log 15). -/
def ageDormant (s : State) : State :=
  (oldestFirst (fun st => age s.now st.lastHeard) s.agedDormant s.stations).foldl
    (fun s i => stateAfter s (execStationAgedDormant i s)) s

/-- The stations that a new expire-after age makes FREE, each in an event of its own (R63; log 15). -/
def ageFree (s : State) : State :=
  (oldestFirst (fun st => age s.now st.lastHeard) s.agedFree s.stations).foldl
    (fun s i => stateAfter s (execStationExpired i s)) s

/-- The events that follow SET TIMERS, for the timers whose value it changed (R158; log 15). None is for a queued POLL whose overdue point a
shorter poll interval puts into the past: it moves by the POLL_OVERDUE of the next tick's end (log 42). -/
def followTimers (before : Timers) (s : State) : State :=
  let now := s.settings.timers
  let s1 := if now.handover ≠ before.handover then expireHandovers s else s
  let s2 := if now.referral ≠ before.referral then expireReferrals s1 else s1
  let s3 := if now.dormant ≠ before.dormant then ageDormant s2 else s2
  if now.expire ≠ before.expire then ageFree s3 else s3

/-- SET_TIMERS (R158). -/
def execSetTimers (h : OrderHead) (mask : TimerMask) (values : Timers) (s : State) : Outcome :=
  .next (followTimers s.settings.timers (takeActing .setTimers h (ruleSetTimers mask values) s))

/-! ## SET REPLAY FRAME TYPE, SET REPLAY RUN LIMIT (R159) -/

/-- The rule of SET REPLAY FRAME TYPE (R159). -/
def ruleSetReplayFrameType (frameType : BitVec 16) (s : State) : Answer :=
  ⟨s.setSettings { s.settings with replayType := frameType }, .done, .empty⟩

/-- SET_REPLAY_FRAME_TYPE (R159). -/
def execSetReplayFrameType (h : OrderHead) (frameType : BitVec 16) (s : State) : Outcome :=
  .next (takeOrder .setReplayFrameType h (ruleSetReplayFrameType frameType) s)

/-- The rule of SET REPLAY RUN LIMIT (R159). -/
def ruleSetReplayRunLimit (limit : BitVec 16) (s : State) : Answer :=
  ⟨s.setSettings { s.settings with runLimit := min 255 limit.toNat },
    if 255 < limit.toNat then .clamped else .done, .empty⟩

/-- SET_REPLAY_RUN_LIMIT (R159). -/
def execSetReplayRunLimit (h : OrderHead) (limit : BitVec 16) (s : State) : Outcome :=
  .next (takeOrder .setReplayRunLimit h (ruleSetReplayRunLimit limit) s)

/-! ## READ NOTICES (R162) -/

/-- The rule of READ NOTICES (R162): the oldest notices leave the queue into the reply. -/
def ruleReadNotices (count : Nat) (s : State) : Answer :=
  if count = 0 ∨ Config.noticesPerRead < count then refuse .badArgument s
  else ⟨s.setNotices (s.notices.drop count), .done, .notices (s.notices.take count)⟩

/-- READ_NOTICES (R162). -/
def execReadNotices (h : OrderHead) (count : Nat) (s : State) : Outcome :=
  .next (takeOrder .readNotices h (ruleReadNotices count) s)

end Sys2Proof.Machine
end

