-- ==== Sys2Proof/Machine/Port.lean ====
section
/-! DEFINITION. The control link port: a frame that fails its checks, a read of the reply, RESETN falling, an order of a kind the
part does not know (R152, R153, R155, R170). -/

namespace Sys2Proof.Machine

/-- The checks of R152 on the bytes of a write transaction. -/
def frameChecks (bytes : List Byte) : Bool :=
  match bytes with
  | sync :: hi :: lo :: _ =>
    sync == 0xA5#8 && decide (5 ≤ bytes.length) && decide ((hi ++ lo : BitVec 16).toNat ≤ Config.bodyBytes)
      && decide (bytes.length = 5 + (hi ++ lo : BitVec 16).toNat)
  | _ => false

/-- The transaction is discarded as BAD-FRAME: it is not empty, not a read, and fails the checks (R152). -/
def isBadFrame (bytes : List Byte) : Bool := !bytes.isEmpty && bytes.head? != some 0x5A#8 && !frameChecks bytes

/-- The BAD-FRAME reply, the counter and the latch (R152). -/
def answerBadFrame (s : State) : State :=
  raiseLatch .controlLinkError (bumpPart .framingErrors (placeReply .badFrame 0 .badFrame .empty s))

/-- BAD_FRAME (R152): bytes that are no bad frame are no such event (log 19), and while RESETN is low there is no transaction. -/
def execBadFrame (bytes : List Byte) (s : State) : Outcome :=
  .next (if !s.link.resetnLow && isBadFrame bytes then answerBadFrame s else s)

/-- A read transaction (R153): what is shifted out is `Sdo.byte`; the slot is emptied when every byte of the reply has been clocked
out. -/
def readReply (clocked : Nat) (s : State) : State :=
  match s.link.slot with
  | none => s.setLink { s.link with sdo := .allOnes }
  | some r =>
    s.setLink { s.link with sdo := .reply r clocked, slot := if r.frame.length ≤ clocked then none else some r }

/-- REPLY_READ (R153). -/
def execReplyRead (clocked : Nat) (s : State) : Outcome := .next (if s.link.resetnLow then s else readReply clocked s)

/-- RESETN_FALLS (R170): a transaction under way is abandoned, SDO and ATTN are released. -/
def execResetnFalls (s : State) : Outcome :=
  .next (s.setLink { s.link with resetnLow := true, incoming := [], sdo := .undriven })

/-- ORDER_OF_UNKNOWN_KIND (R155, check 1): BAD-ARGUMENT with the order's kind and tag. -/
def execOrderOfUnknownKind (kind tag : Byte) (s : State) : Outcome :=
  .next (if s.link.resetnLow then s else placeReply (.unknown kind) tag .badArgument .empty s)

end Sys2Proof.Machine
end

