-- ==== Sys2Proof/Machine/Resets.lean ====
section
/-! DEFINITION. The three resets (R157, R164, R170, R171). -/

namespace Sys2Proof.Machine

/-- The trunks after a reset: LINK DOWN where the receiver reports no symbol lock, else ACTIVE (R11; log 2). -/
def trunksAtReset (locks : BitVec 8) : Table Trunk :=
  ⟨([0, 1, 2, 3, 4, 5, 6, 7].filter fun t => !locks.getLsbD t).map fun t => (t, Trunk.linkDownAtReset)⟩

/-- Every SEATED ticket becomes INSIDE with no bound station (R171). -/
def keptTicket (t : Ticket) : Ticket := { t with state := if t.state.isSeated then .inside else t.state }

/-- Every block at its values after reset, READY alone in the notice queue (R170). The commands that wait are the senders'. -/
def resetAll (kind : ResetKind) (locks : Locks) (s : State) : State :=
  { State.reset with
    pending := s.pending
    notices := [readyNotice kind]
    trunks := trunksAtReset locks.trunks
    backbone := { State.reset.backbone with up := locks.backbone }
    draws := s.draws }

/-- The reset that keeps the ticket table, the section map and the entry policy (R157, R171). -/
def resetKeeping (locks : Locks) (s : State) : State :=
  { resetAll .keepTickets locks s with
    tickets := s.tickets.mapAll fun _ t => keptTicket t
    sections := s.sections
    settings := { Settings.atReset with policy := s.settings.policy } }

/-- POWER_ON_RESET (R170): RESETN rises. -/
def execPowerOnReset (locks : Locks) (s : State) : Outcome := .next (resetAll .powerOn locks s)

/-- A RESET order (R157): refused for its body or its mode with a reply, else taken with none; no transaction is taken while
RESETN is low. -/
def takeReset (h : OrderHead) (badMode : Bool) (reset : State → State) (s : State) : State :=
  if s.link.resetnLow then s
  else if !h.bodyFits || badMode then placeReply (.order .reset) h.tag .badArgument .empty s
  else (reset s).setLink { State.reset.link with sdo := .zeros }

/-- RESET_FULL (R157); a mode byte that names no mode arrives by this row (log 30). -/
def execResetFull (h : OrderHead) (badMode : Option Byte) (locks : Locks) (s : State) : Outcome :=
  .next (takeReset h badMode.isSome (resetAll .full locks) s)

/-- RESET_KEEP_TICKETS (R157, R171). -/
def execResetKeepTickets (h : OrderHead) (locks : Locks) (s : State) : Outcome :=
  .next (takeReset h false (resetKeeping locks) s)

end Sys2Proof.Machine
end

