-- ==== Sys2Proof/Machine/StationOrders.lean ====
section
/-! DEFINITION. The orders on stations: EVICT STATION and QUERY STATION (R66, R67, R85). -/

namespace Sys2Proof.Machine

/-- What a selector names (section 4.6). -/
inductive Named where
  | invalid
  | absent (index : Option Nat)
  | record (index : Nat) (st : Station)

/-- The checks both orders make of their selector (R66, R67). -/
def State.named (s : State) : StationSelector → Named
  | .unknown => .invalid
  | .index n =>
    if Config.stations ≤ n.toNat then .invalid
    else
      match s.stations.look n.toNat with
      | some st => .record n.toNat st
      | none => .absent (some n.toNat)
  | .address a =>
    if namesNoStation a then .invalid
    else
      match s.stationWith a with
      | some (i, st) => .record i st
      | none => .absent none

/-- A MOVING station is evicted: EVICTED goes to its handover's new cell (R66, R85). -/
def refuseEvicted (i : Nat) (addr : Addr) (s : State) : State :=
  match s.handovers.look i with
  | none => s
  | some h => postSignal h.newCell addr (.attachRefuse .evicted) s

/-- The named station is freed and counted (R65, R66). -/
def evict (i : Nat) (st : Station) (s : State) : State :=
  bumpPart .evicted (freeStation i (if st.place.isMoving then refuseEvicted i st.addr s else s))

/-- The rule of EVICT STATION (R66). -/
def ruleEvictStation (sel : StationSelector) (s : State) : Answer :=
  match s.named sel with
  | .invalid => refuse .badArgument s
  | .absent _ => refuse .notFound s
  | .record i st => ⟨evict i st s, .done, .evicted i st.addr st.place⟩

/-- EVICT_STATION (R66). -/
def execEvictStation (h : OrderHead) (sel : StationSelector) (s : State) : Outcome :=
  .next (takeActing .evictStation h (ruleEvictStation sel) s)

/-- What QUERY STATION reports of a record that is not FREE (R67). -/
def State.stationReport (s : State) (i : Nat) (st : Station) : StationReport :=
  { index := i, addr := st.addr, place := st.place, prev := st.prev, ticket := st.ticket, cls := st.cls
    weight := st.weight, members := st.members, lastHeard := st.lastHeard, age := age s.now st.lastHeard
    paused := st.paused, rate := st.rate, credit := creditBytes s.time.unit st.credit, queueLength := st.queue.length
    headLength := st.queue.head?.map (·.length)
    handover := (s.handovers.look i).map fun h => (h.newCell, h.start) }

/-- The rule of QUERY STATION (R67). -/
def ruleQueryStation (sel : StationSelector) (s : State) : Answer :=
  match s.named sel with
  | .invalid => refuse .badArgument s
  | .absent none => refuse .notFound s
  | .absent (some n) => ⟨s, .done, .freeStation n⟩
  | .record i st => ⟨s, .done, .station (s.stationReport i st)⟩

/-- QUERY_STATION (R67). -/
def execQueryStation (h : OrderHead) (sel : StationSelector) (s : State) : Outcome :=
  .next (takeOrder .queryStation h (ruleQueryStation sel) s)

end Sys2Proof.Machine
end

