-- ==== Sys2Proof/Machine/StatsOrders.lean ====
section
/-! DEFINITION. The orders on conditions and statistics: READ and CLEAR CONDITIONS, SNAP and UNSNAP STATS, READ STATS (R165,
R166, R168, R169). -/

namespace Sys2Proof.Machine

/-! ## Conditions (R165, R166) -/

/-- The rule of READ CONDITIONS (R165). -/
def ruleReadConditions (s : State) : Answer := ⟨s, .done, .conditions s.latchReports⟩

/-- READ_CONDITIONS (R165). -/
def execReadConditions (h : OrderHead) (s : State) : Outcome := .next (takeOrder .readConditions h ruleReadConditions s)

/-- The named latches whose cause is absent are cleared (R166). -/
def clearLatches (mask : BitVec 16) (s : State) : State := s.setLatches (s.clearedLatches mask Latch.all)

/-- The rule of CLEAR CONDITIONS (R166). -/
def ruleClearConditions (mask : BitVec 16) (s : State) : Answer :=
  if 2 ^ 14 ≤ mask.toNat then refuse .badArgument s
  else ⟨clearLatches mask s, .done, .conditions (clearLatches mask s).latchReports⟩

/-- CLEAR_CONDITIONS (R166). -/
def execClearConditions (h : OrderHead) (mask : BitVec 16) (s : State) : Outcome :=
  .next (takeOrder .clearConditions h (ruleClearConditions mask) s)

/-! ## The frozen view (R168) -/

/-- The rule of SNAP STATS (R168). -/
def ruleSnapStats (s : State) : Answer :=
  if s.view.isSome then refuse .already s else ⟨s.setView (some ⟨s.counters, s.now⟩), .done, .empty⟩

/-- SNAP_STATS (R168). -/
def execSnapStats (h : OrderHead) (s : State) : Outcome := .next (takeOrder .snapStats h ruleSnapStats s)

/-- The rule of UNSNAP STATS (R168). -/
def ruleUnsnapStats (s : State) : Answer :=
  if s.view.isSome then ⟨s.setView none, .done, .empty⟩ else refuse .already s

/-- UNSNAP_STATS (R168). -/
def execUnsnapStats (h : OrderHead) (s : State) : Outcome := .next (takeOrder .unsnapStats h ruleUnsnapStats s)

/-! ## READ STATS (R169) -/

/-- A counter's value as READ STATS gives it: from the frozen view while one exists, else live (R169). -/
def State.reading (s : State) (c : Counter) : Count :=
  match s.view with
  | some v => v.counters.lookD c.key 0
  | none => s.counter c

/-- The stations in a state (R68). -/
def State.stationsIn (s : State) (p : Place → Bool) : Nat := s.stations.countWhere fun _ st => p st.place

/-- The tickets in a state (R101). -/
def State.ticketsIn (s : State) (p : TicketState → Bool) : Nat := s.tickets.countWhere fun _ t => p t.state

/-- The present values of the part-wide scope (R51, R68, R101, R168). -/
def State.presentValues (s : State) : PresentValues :=
  { freeShort := Config.shortBuffers - s.pools.short.size
    freeLong := Config.longBuffers - s.pools.long.size
    egress := s.backbone.queue.length
    stationsFree := Config.stations - s.stations.size
    associated := s.stationsIn Place.isAssociated
    moving := s.stationsIn Place.isMoving
    dormant := s.stationsIn fun p => p == .dormant
    handovers := s.handovers.size
    tickets := s.tickets.size
    loaded := s.ticketsIn fun t => t == .loaded
    inside := s.ticketsIn fun t => t == .inside
    seated := s.ticketsIn TicketState.isSeated
    outside := s.ticketsIn fun t => t == .outside
    void := s.ticketsIn fun t => t == .void
    parked := s.referrals.length
    copiesActive := s.copies.countWhere fun _ c => c.state == .active
    copiesHeld := s.copies.countWhere fun _ c => c.state == .held
    memberships := (s.stations.entries.map fun e => e.2.members.length).sum
    clock := s.now }

/-- The counters of a scope; none for a scope that is unknown or a number out of its range (R169). -/
def scopeCounters : StatsScope → Option (List Counter)
  | .partWide => some (PartCounter.all.map .part)
  | .cell n => if n < Config.cells then some (CellCounter.all.map (.cell n)) else none
  | .trunk n => if n < Config.trunks then some (TrunkCounter.all.map (.trunk n)) else none
  | .channel n => if n < Config.channels then some (ChannelCounter.all.map (.channel n)) else none
  | .unknown => none

/-- The reply body of READ STATS (R169). -/
def State.statsReport (s : State) (scope : StatsScope) (counters : List Counter) : StatsReport :=
  { snapTime := s.view.map (·.snapTime)
    counters := counters.map fun c => (c, s.reading c)
    present := if scope = .partWide then some s.presentValues else none
    trunkState := match scope with
      | .trunk n => some (s.trunk n).state
      | _ => none }

/-- The rule of READ STATS (R169). -/
def ruleReadStats (scope : StatsScope) (s : State) : Answer :=
  match scopeCounters scope with
  | none => refuse .badArgument s
  | some counters => ⟨s, .done, .stats (s.statsReport scope counters)⟩

/-- READ_STATS (R169). -/
def execReadStats (h : OrderHead) (scope : StatsScope) (s : State) : Outcome :=
  .next (takeOrder .readStats h (ruleReadStats scope) s)

end Sys2Proof.Machine
end

