-- ==== Sys2Proof/Machine/TicketOrders.lean ====
section
/-! DEFINITION. The orders on tickets, sections, the entry policy and referrals (R92 to R100, R115, R116). -/

namespace Sys2Proof.Machine

/-! ## LOAD TICKETS (R92, R93) -/

/-- How many records met each outcome (R92). -/
structure LoadCounts where
  stored   : Nat
  replaced : Nat
  skipped  : Nat
  full     : Nat
deriving DecidableEq, Repr

/-- One more record met an outcome. -/
def LoadCounts.add (c : LoadCounts) : LoadOutcome → LoadCounts
  | .stored => { c with stored := c.stored + 1 }
  | .replaced => { c with replaced := c.replaced + 1 }
  | .skipped => { c with skipped := c.skipped + 1 }
  | .full => { c with full := c.full + 1 }

/-- The records are handled one at a time, each seeing the outcome of those before it (R92). -/
def loadAll : List TicketFields → State → LoadCounts → State × LoadCounts
  | [], s, counts => (s, counts)
  | f :: rest, s, counts =>
    match ticketRecord f with
    | none => loadAll rest s counts
    | some t => loadAll rest (loadRecord f.number t s) (counts.add (s.loadOutcome f.number))

/-- The rule of LOAD TICKETS (R92): checked as a whole before any record is handled. -/
def ruleLoadTickets (count : Nat) (records : List TicketFields) (s : State) : Answer :=
  if count = 0 ∨ 16 < count ∨ records.length ≠ count ∨ (records.any fun f => (ticketRecord f).isNone) = true then
    refuse .badArgument s
  else if s.purge.isSome then refuse .busy s
  else
    let r := loadAll records s ⟨0, 0, 0, 0⟩
    ⟨r.1, .done, .loadCounts r.2.stored r.2.replaced r.2.skipped r.2.full⟩

/-- LOAD_TICKETS (R92). -/
def execLoadTickets (h : OrderHead) (count : Nat) (records : List TicketFields) (s : State) : Outcome :=
  .next (takeActing .loadTickets h (ruleLoadTickets count records) s)

/-! ## VOID, UNLOCK, QUERY TICKET (R94 to R96) -/

/-- A ticket becomes VOID; a SEATED one is unbound with the cascade for its station (R94). -/
def voidOne (n : TicketNumber) (t : Ticket) (s : State) : State :=
  bumpPart .ticketsVoided
    (match t.state with
    | .seated i => cascade i (s.classOf i) (unbind n i .void s)
    | _ => updateTicket n (fun t => { t with state := .void }) s)

/-- The rule of VOID TICKET (R94). -/
def ruleVoidTicket (n : TicketNumber) (s : State) : Answer :=
  if n = 0 then refuse .badArgument s
  else if s.purge.isSome then refuse .busy s
  else
    match s.ticket n with
    | none => refuse .notFound s
    | some t => if t.state = .void then refuse .already s else ⟨voidOne n t s, .done, .voided t.state⟩

/-- VOID_TICKET (R94). -/
def execVoidTicket (h : OrderHead) (number : TicketNumber) (s : State) : Outcome :=
  .next (takeActing .voidTicket h (ruleVoidTicket number) s)

/-- The rule of UNLOCK TICKET (R95). -/
def ruleUnlockTicket (n : TicketNumber) (s : State) : Answer :=
  if n = 0 then refuse .badArgument s
  else if s.purge.isSome then refuse .busy s
  else
    match s.ticket n with
    | none => refuse .notFound s
    | some t =>
      if t.locked = false ∧ t.mismatches = 0 then refuse .already s
      else ⟨updateTicket n (fun t => { t with locked := false, mismatches := 0 }) s, .done, .empty⟩

/-- UNLOCK_TICKET (R95). -/
def execUnlockTicket (h : OrderHead) (number : TicketNumber) (s : State) : Outcome :=
  .next (takeOrder .unlockTicket h (ruleUnlockTicket number) s)

/-- What QUERY TICKET reports of a ticket (R96). -/
def State.ticketReport (s : State) (n : TicketNumber) (t : Ticket) : TicketReport :=
  { number := n, ticket := t
    bound := match t.state with
      | .seated i => (s.stations.look i).map fun st => (i, st.addr, st.place)
      | _ => none }

/-- What QUERY TICKET reports of a number parked as a referral (R96). -/
def State.parkedReport (s : State) (n : TicketNumber) : Option ParkedReport :=
  (s.referrals.find? fun p => p.claim.number == n).map fun p => ⟨p.id, p.park, p.claim.kind, p.claim.cell⟩

/-- The rule of QUERY TICKET (R96). -/
def ruleQueryTicket (n : TicketNumber) (s : State) : Answer :=
  if n = 0 then refuse .badArgument s
  else if s.purge.isSome then refuse .busy s
  else
    match s.ticket n with
    | some t => ⟨s, .done, .ticket (s.ticketReport n t)⟩
    | none => ⟨s, .notFound, .noTicket (s.parkedReport n)⟩

/-- QUERY_TICKET (R96). -/
def execQueryTicket (h : OrderHead) (number : TicketNumber) (s : State) : Outcome :=
  .next (takeOrder .queryTicket h (ruleQueryTicket number) s)

/-! ## PURGE TICKETS (R97) -/

/-- One parked claim is answered DEFERRED at the start of a purge (R97). -/
def deferParked (s : State) (p : Parked) : State :=
  bumpPart .referralsPurged (giveVerdict p.claim .deferred (unpark p.id s))

/-- A purge starts: the referral queue is answered, oldest first, and the purge is in flight (R97). -/
def startPurge (tag : Byte) (s : State) : State := (s.referrals.foldl deferParked s).setPurge (some ⟨tag, 0, 0, 1⟩)

/-- The rule of PURGE TICKETS (R97). -/
def rulePurgeTickets (tag : Byte) (s : State) : Answer :=
  if s.purge.isSome then refuse .busy s else ⟨startPurge tag s, .accepted, .empty⟩

/-- A purge that has just started on an empty table ends in the event after its start (R98; log 17). -/
def endEmptyPurge (before s : State) : State :=
  match before.purge, s.purge with
  | none, some p => if s.tickets.size = 0 then closeEvent (endPurge p s) else s
  | _, _ => s

/-- PURGE_TICKETS (R97), and the event that follows its start on an empty table (R98). -/
def execPurgeTickets (h : OrderHead) (s : State) : Outcome :=
  .next (endEmptyPurge s (takeActing .purgeTickets h (rulePurgeTickets h.tag) s))

/-! ## SET SECTION, SET ENTRY POLICY (R99, R100) -/

/-- No cell is named twice (R99). -/
def allDistinct : List Nat → Bool
  | [] => true
  | c :: rest => !rest.contains c && allDistinct rest

/-- The rule of SET SECTION (R99); an empty list makes the section undefined. The manual gives the numbers of the list no width, and a cell
above 255 no answer of its own: it is BAD-ARGUMENT, by R155 (the model's choice, logs 14 and 40). -/
def ruleSetSection (sect : Nat) (list : List Nat) (s : State) : Answer :=
  if Config.sections ≤ sect ∨ 4 < list.length ∨ allDistinct list = false ∨ (list.any fun c => decide (Config.cells ≤ c)) = true then
    refuse .badArgument s
  else ⟨s.setSections (s.sections.putD sect list []), .done, .empty⟩

/-- SET_SECTION (R99). -/
def execSetSection (h : OrderHead) (sect : Nat) (list : List Nat) (s : State) : Outcome :=
  .next (takeOrder .setSection h (ruleSetSection sect list) s)

/-- The rule of SET ENTRY POLICY (R100). -/
def ruleSetEntryPolicy (maxEntries : Nat) (mode : Option SeatMode) (s : State) : Answer :=
  if s.time.service = .service then refuse .wrongState s
  else
    match mode with
    | none => refuse .badArgument s
    | some m =>
      ⟨s.setSettings { s.settings with policy := ⟨clampInto 1 15 maxEntries, m⟩ },
        if outside 1 15 maxEntries then .clamped else .done, .empty⟩

/-- SET_ENTRY_POLICY (R100). -/
def execSetEntryPolicy (h : OrderHead) (maxEntries : Nat) (mode : Option SeatMode) (s : State) : Outcome :=
  .next (takeOrder .setEntryPolicy h (ruleSetEntryPolicy maxEntries mode) s)

/-! ## RULE REFERRAL (R115, R116) -/

/-- An ACCEPT ruling on a parked claim whose record is valid (R115). -/
def acceptParked (p : Parked) (n : TicketNumber) (t : Ticket) (s : State) : Answer :=
  let s1 := unpark p.id s
  if s1.tickets.size < Config.tickets then
    ⟨judgeParked p.claim (bumpPart .ticketsStored (s1.setTickets (s1.tickets.put n.toNat t))), .done, .empty⟩
  else ⟨bumpPart .ticketTableFull (giveVerdict p.claim .deferred s1), .full, .empty⟩

/-- The reply to a late ACCEPT, by the outcome of its record (R116). -/
def lateStatus : LoadOutcome → Status
  | .stored => .lateStored
  | .replaced => .lateStored
  | .skipped => .late
  | .full => .full

/-- An ACCEPT ruling: on a parked claim, or late (R115, R116). -/
def ruleAccept (id : BitVec 16) (n : TicketNumber) (t : Ticket) (s : State) : Answer :=
  match s.referrals.find? fun p => p.id == id with
  | some p =>
    if p.claim.number ≠ n then refuse .badArgument s
    else if s.purge.isSome then refuse .busy s
    else acceptParked p n t s
  | none =>
    if s.purge.isSome then refuse .busy s
    else ⟨bumpPart .lateRulings (loadRecord n t s), lateStatus (s.loadOutcome n), .empty⟩

/-- A REJECT ruling: on a parked claim, or late (R115, R116). -/
def ruleReject (id : BitVec 16) (s : State) : Answer :=
  if s.purge.isSome then refuse .busy s
  else
    match s.referrals.find? fun p => p.id == id with
    | some p => ⟨refuseClaim p.claim .unknown (unpark id s), .done, .empty⟩
    | none => ⟨bumpPart .lateRulings s, .late, .empty⟩

/-- The rule of RULE REFERRAL (R115, R116). -/
def ruleRuleReferral (id : BitVec 16) (ruling : Ruling) (s : State) : Answer :=
  match ruling with
  | .unknown => refuse .badArgument s
  | .reject => ruleReject id s
  | .accept none => refuse .badArgument s
  | .accept (some f) =>
    match ticketRecord f with
    | none => refuse .badArgument s
    | some t => ruleAccept id f.number t s

/-- RULE_REFERRAL (R115). -/
def execRuleReferral (h : OrderHead) (id : BitVec 16) (ruling : Ruling) (s : State) : Outcome :=
  .next (takeActing .ruleReferral h (ruleRuleReferral id ruling) s)

end Sys2Proof.Machine
end

