-- ==== Sys2Proof/Machine/Trunks.lean ====
section
/-! DEFINITION. Trunk link loss and restore, the end of a frame on a trunk link, the completion of a drain, and the orders HOLD
TRUNK and RELEASE TRUNK (R12 to R19, R30). -/

namespace Sys2Proof.Machine

/-! ## Link loss and restore (R12, R13) -/

/-- Step 1 of R12: a hold in flight ends with HOLD CANCELLED. -/
def cancelHoldByLoss (t : Nat) (s : State) : State :=
  let tr := s.trunk t
  if tr.state = .draining ∨ tr.state = .held then pushNotice (.holdCancelled t tr.holdTag .linkLoss) s else s

/-- Step 2 of R12: the trunk becomes LINK DOWN; its frame is lost, its messages and its cells' POLLs are discarded. -/
def dropLink (t : Nat) (s : State) : State :=
  let tr := s.trunk t
  let s1 := s.setTrunk t
    { tr with state := .linkDown, holdTag := none, heldSince := none, run := 0, signals := [], frame := none }
  updateCellsOf t (fun c => { c with queued := .none }) (releaseFrame tr.frame s1)

/-- Step 3 of R12 for one cell: it goes DOWN with cause LINK LOSS; of a cell already DOWN the reply awaited becomes no. -/
def loseCell (s : State) (cell : Nat) : State :=
  match s.cells.look cell with
  | none => s
  | some c =>
    if c.state = .down then updateCell cell (fun c => { c with awaited := false }) s else cellDown cell .linkLoss s

/-- A trunk's link is declared lost (R12). -/
def loseTrunk (t : Fin 8) (s : State) : State :=
  let s1 := dropLink t.val (cancelHoldByLoss t.val s)
  let s2 := (s1.cellsOf t.val).foldl loseCell s1
  pushNotice (.trunkLinkDown t.val) (raiseLatch (.trunkLinkLost t) s2)

/-- TRUNK_LINK_LOST (R12): declared in any trunk state but LINK DOWN. -/
def execTrunkLinkLost (t : Fin 8) (s : State) : Outcome :=
  .next (if (s.trunk t.val).state = .linkDown then s else closeEvent (loseTrunk t s))

/-- A cell's next poll becomes due at the present time, with its POLL queued in a class (R13, R19). -/
def pollNow (q : PollQueued) (now : Clock) (c : Cell) : Cell := { c with due := some now, queued := q }

/-- A trunk's link is declared restored (R13). -/
def restoreTrunk (t : Nat) (s : State) : State :=
  let s1 := pushNotice (.trunkLinkUp t) (s.setTrunk t { s.trunk t with state := .active })
  if s.time.service = .service then updateCellsOf t (pollNow .onTime s.now) s1 else s1

/-- TRUNK_LINK_RESTORED (R13): declared of a LINK DOWN trunk. -/
def execTrunkLinkRestored (t : Fin 8) (s : State) : Outcome :=
  .next (if (s.trunk t.val).state = .linkDown then closeEvent (restoreTrunk t.val s) else s)

/-! ## The end of a frame, the end of a drain (R30, R15, R16) -/

/-- The frame on a trunk link ends: its reference is released and the link is idle (R30, R40). -/
def endFrame (t : Nat) (s : State) : State :=
  releaseFrame (s.trunk t).frame (s.setTrunk t { s.trunk t with frame := none })

/-- TRUNK_FRAME_END (R30): the arbiter chooses the next message when the event closes. -/
def execTrunkFrameEnd (t : Fin 8) (s : State) : Outcome :=
  .next (if (s.trunk t.val).frame.isNone then s else closeEvent (endFrame t.val s))

/-- DRAIN_COMPLETE (R16): a DRAINING trunk with an idle link and an empty class-2 queue enters HELD. -/
def execDrainComplete (t : Fin 8) (s : State) : Outcome :=
  .next (if s.drained t.val then closeEvent (enterHeld t.val s) else s)

/-! ## HOLD TRUNK, RELEASE TRUNK (R14, R18, R19) -/

/-- A hold begins: the trunk becomes DRAINING with the order's tag, and its copies are HELD (R14, R15). -/
def startDrain (t : Nat) (tag : Byte) (s : State) : State :=
  holdCopies t (s.setTrunk t { s.trunk t with state := .draining, holdTag := some tag, run := 0 })

/-- The rule of HOLD TRUNK (R14). -/
def ruleHoldTrunk (t : Nat) (tag : Byte) (s : State) : Answer :=
  if Config.trunks ≤ t then refuse .badArgument s
  else if s.time.service = .config then refuse .wrongState s
  else
    match (s.trunk t).state with
    | .active => ⟨startDrain t tag s, .accepted, .empty⟩
    | .draining | .held => refuse .already s
    | .linkDown => refuse .wrongState s

/-- HOLD_TRUNK (R14). -/
def execHoldTrunk (h : OrderHead) (trunk : Nat) (s : State) : Outcome :=
  .next (takeActing .holdTrunk h (ruleHoldTrunk trunk h.tag) s)

/-- The re-admission pass runs in each configured cell of a trunk (R18, R19). -/
def readmitTrunk (t : Nat) (s : State) : State := (s.cellsOf t).foldl (fun s cell => readmit cell s) s

/-- A drain is cancelled: the trunk is ACTIVE again (R18). -/
def cancelDrain (t : Nat) (s : State) : State :=
  let tr := s.trunk t
  readmitTrunk t
    (pushNotice (.holdCancelled t tr.holdTag .release) (s.setTrunk t { tr with state := .active, holdTag := none }))

/-- The hold length (R19): the present time less held since. -/
def State.holdLength (s : State) (t : Nat) : Clock :=
  match (s.trunk t).heldSince with
  | some since => s.now - since
  | none => 0

/-- A cell on release from HELD (R19, steps 1 and 2): ACTIVE with count 0 unless DOWN; its POLL queued in class 1. -/
def releaseCell (now : Clock) (c : Cell) : Cell :=
  let c := if c.state = .down then c else { c with state := .active, missed := 0 }
  pollNow .overdue now c

/-- A HELD trunk is released (R19). A station whose age, the hold length aside, is at or past a dormant-after age that was made shorter
during the hold stays ASSOCIATED in this event: it becomes DORMANT by an event of its own that follows (R62; log 44). -/
def releaseHeld (t : Nat) (s : State) : State :=
  let length := s.holdLength t
  let s1 := s.setTrunk t { s.trunk t with state := .active, holdTag := none, heldSince := none }
  let s2 := updateCellsOf t (releaseCell s.now) s1
  let s3 := s2.setStations (s2.stations.mapAll fun _ st =>
    if st.onTrunk t then { st with paused := false, lastHeard := st.lastHeard + length } else st)
  readmitTrunk t s3

/-- The rule of RELEASE TRUNK (R18). -/
def ruleReleaseTrunk (t : Nat) (s : State) : Answer :=
  if Config.trunks ≤ t then refuse .badArgument s
  else if s.time.service = .config then refuse .wrongState s
  else
    match (s.trunk t).state with
    | .active => refuse .already s
    | .linkDown => refuse .wrongState s
    | .draining => ⟨cancelDrain t s, .done, .empty⟩
    | .held => ⟨releaseHeld t s, .done, .empty⟩

/-- RELEASE_TRUNK (R18). -/
def execReleaseTrunk (h : OrderHead) (trunk : Nat) (s : State) : Outcome :=
  .next (takeActing .releaseTrunk h (ruleReleaseTrunk trunk) s)

end Sys2Proof.Machine
end

