-- ==== Sys2Proof/Machine/Dispatch.lean ====
section
/-! DEFINITION. One arm per command: its meaning. -/

namespace Sys2Proof.Machine

/-- The effect of a command on everything but the queue of commands that wait. -/
def exec (i : Instr) (s : State) : Host.Outcome State Fault Refusal :=
  match i with
  | .powerOnReset locks => Sys2Proof.Machine.execPowerOnReset locks s
  | .resetFull h badMode locks => Sys2Proof.Machine.execResetFull h badMode locks s
  | .resetKeepTickets h locks => Sys2Proof.Machine.execResetKeepTickets h locks s
  | .trunkLinkLost t => Sys2Proof.Machine.execTrunkLinkLost t s
  | .trunkLinkRestored t => Sys2Proof.Machine.execTrunkLinkRestored t s
  | .backboneLinkLost => Sys2Proof.Machine.execBackboneLinkLost s
  | .backboneLinkRestored => Sys2Proof.Machine.execBackboneLinkRestored s
  | .attachRequest m => Sys2Proof.Machine.execAttachRequest m s
  | .releaseDone m framesLost => Sys2Proof.Machine.execReleaseDone m framesLost s
  | .depart m => Sys2Proof.Machine.execDepart m s
  | .pollReply m mark heardCount heard => Sys2Proof.Machine.execPollReply m mark heardCount heard s
  | .ticketClaim m kind number token => Sys2Proof.Machine.execTicketClaim m kind number token s
  | .join m channel => Sys2Proof.Machine.execJoin m channel s
  | .leave m channel => Sys2Proof.Machine.execLeave m channel s
  | .stationDataUp m payload => Sys2Proof.Machine.execStationDataUp m payload s
  | .replayFrame dest source frameType tag payload => Sys2Proof.Machine.execReplayFrame dest source frameType tag payload s
  | .stationDownlinkFrame dest source frameType payload => Sys2Proof.Machine.execStationDownlinkFrame dest source frameType payload s
  | .trunkFrameEnd t => Sys2Proof.Machine.execTrunkFrameEnd t s
  | .backboneFrameEnd => Sys2Proof.Machine.execBackboneFrameEnd s
  | .pollDue cell => Sys2Proof.Machine.execPollDue cell s
  | .pollOverdue cell => Sys2Proof.Machine.execPollOverdue cell s
  | .copyDue copy => Sys2Proof.Machine.execCopyDue copy s
  | .stationCreditReady station => Sys2Proof.Machine.execStationCreditReady station s
  | .drainComplete t => Sys2Proof.Machine.execDrainComplete t s
  | .handoverTimerExpiry station => Sys2Proof.Machine.execHandoverTimerExpiry station s
  | .referralTimerExpiry id => Sys2Proof.Machine.execReferralTimerExpiry id s
  | .stationAgedDormant station => Sys2Proof.Machine.execStationAgedDormant station s
  | .stationExpired station => Sys2Proof.Machine.execStationExpired station s
  | .purgeBatch => Sys2Proof.Machine.execPurgeBatch s
  | .configureCell h cell kind => Sys2Proof.Machine.execConfigureCell h cell kind s
  | .removeCell h cell => Sys2Proof.Machine.execRemoveCell h cell s
  | .queryCell h cell => Sys2Proof.Machine.execQueryCell h cell s
  | .holdTrunk h trunk => Sys2Proof.Machine.execHoldTrunk h trunk s
  | .releaseTrunk h trunk => Sys2Proof.Machine.execReleaseTrunk h trunk s
  | .evictStation h sel => Sys2Proof.Machine.execEvictStation h sel s
  | .queryStation h sel => Sys2Proof.Machine.execQueryStation h sel s
  | .loadTickets h count records => Sys2Proof.Machine.execLoadTickets h count records s
  | .voidTicket h number => Sys2Proof.Machine.execVoidTicket h number s
  | .unlockTicket h number => Sys2Proof.Machine.execUnlockTicket h number s
  | .queryTicket h number => Sys2Proof.Machine.execQueryTicket h number s
  | .purgeTickets h => Sys2Proof.Machine.execPurgeTickets h s
  | .setSection h sect list => Sys2Proof.Machine.execSetSection h sect list s
  | .setEntryPolicy h maxEntries mode => Sys2Proof.Machine.execSetEntryPolicy h maxEntries mode s
  | .ruleReferral h id ruling => Sys2Proof.Machine.execRuleReferral h id ruling s
  | .defineChannel h channel entitled recovery full reduced => Sys2Proof.Machine.execDefineChannel h channel entitled recovery full reduced s
  | .openChannel h channel => Sys2Proof.Machine.execOpenChannel h channel s
  | .closeChannel h channel => Sys2Proof.Machine.execCloseChannel h channel s
  | .queryChannel h channel cell => Sys2Proof.Machine.execQueryChannel h channel cell s
  | .setCellAirtime h cell mask values => Sys2Proof.Machine.execSetCellAirtime h cell mask values s
  | .setClassWeights h weights => Sys2Proof.Machine.execSetClassWeights h weights s
  | .startService h => Sys2Proof.Machine.execStartService h s
  | .setTimers h mask values => Sys2Proof.Machine.execSetTimers h mask values s
  | .setReplayFrameType h frameType => Sys2Proof.Machine.execSetReplayFrameType h frameType s
  | .setReplayRunLimit h limit => Sys2Proof.Machine.execSetReplayRunLimit h limit s
  | .readNotices h count => Sys2Proof.Machine.execReadNotices h count s
  | .readConditions h => Sys2Proof.Machine.execReadConditions h s
  | .clearConditions h mask => Sys2Proof.Machine.execClearConditions h mask s
  | .snapStats h => Sys2Proof.Machine.execSnapStats h s
  | .unsnapStats h => Sys2Proof.Machine.execUnsnapStats h s
  | .readStats h scope => Sys2Proof.Machine.execReadStats h scope s
  | .badFrame bytes => Sys2Proof.Machine.execBadFrame bytes s
  | .replyRead clocked => Sys2Proof.Machine.execReplyRead clocked s
  | .resetnFalls => Sys2Proof.Machine.execResetnFalls s
  | .orderOfUnknownKind kind tag => Sys2Proof.Machine.execOrderOfUnknownKind kind tag s
  | .malformedMessage t bodyLength => Sys2Proof.Machine.execMalformedMessage t bodyLength s
  | .malformedBackboneFrame => Sys2Proof.Machine.execMalformedBackboneFrame s

end Sys2Proof.Machine
end

