-- ==== Sys2Proof/Machine/Tick.lean ====
section
/-! DEFINITION. The passage of time, taken when no command waits (log 3). Time passes to the end of the present tick of 10 µs, or to the
exact moment before it at which a station's credit first reaches its oldest frame (R151). Credits grow all the while; at the end of the
tick the clocks advance and the purge's milliseconds count. What has then come due joins the queue of commands (log 4, log 5). -/

namespace Sys2Proof.Machine

/-! ## Clocks (R134, R156) -/

/-- The clocks at the end of a tick: the pacing time base advances by 1, the service clock once in 100 ticks; in CONFIG both stand
at 0 (R134, R156). -/
def Time.tickOn (t : Time) : Time :=
  match t.service with
  | .config => { t with part := 0 }
  | .service =>
    if t.phase + 1 < Config.ticksPerMs then { t with tick := t.tick + 1, phase := t.phase + 1, part := 0 }
    else { t with tick := t.tick + 1, phase := 0, clock := t.clock + 1, part := 0 }

/-- A purge after one tick; at each millisecond after its start one more batch may be taken (R98; log 17). -/
def Purge.tickOn (p : Purge) : Purge :=
  if p.ticks + 1 < Config.ticksPerMs then { p with ticks := p.ticks + 1 }
  else { p with ticks := 0, batches := p.batches + 1 }

/-- A batch falls due at this tick (R98; log 17). -/
def Purge.batchDue (p : Purge) : Bool := decide (Config.ticksPerMs ≤ p.ticks + 1) && decide (1 ≤ p.batches)

/-! ## Credit, exactly (R150, R151; log 3, log 8) -/

/-- The credit of a station after some moments: rate units more in each, and no more than D (R150). -/
def Station.accrue (unit moments : Nat) (st : Station) : Station :=
  { st with credit :=
      if st.place = .dormant then st.credit else min (fullCredit unit st.rate) (st.credit + st.rate * moments) }

/-- The same time and the same credits, with every moment cut into `n` (log 3). -/
def refine (n : Nat) (s : State) : State :=
  (s.setTime { s.time with part := s.time.part * n, grain := s.time.grain * n }).setStations
    (s.stations.mapAll fun _ st => { st with credit := st.credit * n })

/-- The largest number of moments that divides the grain and every credit. -/
def State.coarsest (s : State) : Nat := s.stations.entries.foldl (fun g e => Nat.gcd g e.2.credit) s.time.grain

/-- At the start of a tick: the same credits, in the coarsest moments that hold them all (log 3). -/
def coarsen (s : State) : State :=
  (s.setTime { s.time with grain := s.time.grain / s.coarsest }).setStations
    (s.stations.mapAll fun _ st => { st with credit := st.credit / s.coarsest })

/-- Every credit grows for some moments of the present tick. -/
def passMoments (n : Nat) (s : State) : State :=
  (s.setTime { s.time with part := s.time.part + n }).setStations (s.stations.mapAll fun _ st => st.accrue s.time.unit n)

/-- The credit units that a station's oldest frame still wants; none when its rate is 0, when it is ready, and when its bucket can
never hold the frame (R150, R151). -/
def Station.wants (unit : Nat) (st : Station) : Option Nat :=
  match st.queue with
  | [] => none
  | e :: _ =>
    if 0 < st.rate ∧ st.credit < e.length * unit ∧ e.length ≤ bucketDepth st.rate then some (e.length * unit - st.credit)
    else none

/-- The station's current cell is on an ACTIVE trunk, where its readiness is an event (R34). -/
def State.onActiveTrunk (s : State) (st : Station) : Bool :=
  st.place.cell?.any fun cell => s.trunkStateOf cell == .active

/-- The units wanted and the rate of a station that becomes ready before the tick ends; none of any other (R151). -/
def State.readyWithin (s : State) (st : Station) : Option (Nat × Nat) :=
  match st.wants s.time.unit with
  | none => none
  | some lack =>
    if s.onActiveTrunk st ∧ lack < st.rate * (s.time.grain - s.time.part) then some (lack, st.rate) else none

/-- The first exact moment before the end of the tick at which a station becomes ready: the units it wants and its rate. The wait is
their quotient, in moments, with no rounding (R151). -/
def State.firstReady (s : State) : Option (Nat × Nat) :=
  bestBy (fun a b => decide (a.1 * b.2 < b.1 * a.2)) (s.stations.entries.filterMap fun e => s.readyWithin e.2)

/-- The state at the end of the present tick. -/
def passTick (s : State) : State :=
  let s1 := passMoments (s.time.grain - s.time.part) s
  (coarsen (s1.setTime s1.time.tickOn)).setPurge (s.purge.map (·.tickOn))

/-! ## What falls due (R6, R62, R63, R74, R98, R117, R134, R151) -/

/-- The cells that `p` picks, the earliest due time first, then the lowest cell (R31). -/
def State.earliestFirst (s : State) (p : Nat → Cell → Bool) : List Nat :=
  (sortBy (fun a b => decide ((b.2.due.map (age s.now)).getD 0 < (a.2.due.map (age s.now)).getD 0))
    (s.cells.entries.filter fun e => p e.1 e.2)).map (·.1)

/-- Polls that become overdue, and polls that fall due, each in the order in which their class sends them (R6, R31). A POLL whose overdue
point an order has moved into the past is among them at the end of the tick (log 42). -/
def State.duePolls (s : State) : List Instr :=
  (s.earliestFirst fun _ c => s.pollIsOverdue c).map .pollOverdue ++ (s.earliestFirst s.pollFallsDue).map .pollDue

/-- Copies whose next due time this tick is, on ACTIVE trunks, with a frame waiting (R134). -/
def State.dueCopies (s : State) : List Instr :=
  (s.copies.keysWhere fun _ c =>
    s.copyReady c && c.nextDue == s.time.tick && s.trunkStateOf c.cell == .active).map .copyDue

/-- Stations whose head frame the credit grown since `before` makes ready, on ACTIVE trunks (R151). -/
def State.dueCredits (before s : State) : List Instr :=
  (s.stations.keysWhere fun i st =>
    st.creditReady s.time.unit && !((before.stations.look i).any (·.creditReady before.time.unit))
      && s.onActiveTrunk st).map .stationCreditReady

/-- Handovers, referrals and stations whose timers have expired. A station whose age was past dormant after before its aging began again,
released from a hold or at the end of a handover, is among them at the next tick's end (R62; log 44). -/
def State.dueTimers (s : State) : List Instr :=
  (s.handovers.keysWhere fun _ h => s.handoverTimedOut h).map .handoverTimerExpiry
  ++ (s.referrals.filter s.referralTimedOut).map (fun p => .referralTimerExpiry p.id)
  ++ (s.stations.keysWhere fun _ st => s.agedDormant st).map .stationAgedDormant
  ++ (s.stations.keysWhere fun _ st => s.agedFree st).map .stationExpired

/-- The batch of a purge, if one falls due. -/
def duePurge (before : Option Purge) : List Instr :=
  match before with
  | none => []
  | some p => if p.batchDue then [.purgeBatch] else []

/-- Every event that the end of a tick brings due. -/
def dueEvents (before s : State) : List Instr :=
  s.duePolls ++ s.dueCopies ++ State.dueCredits before s ++ s.dueTimers ++ duePurge before.purge

/-! ## Their order -/

/-- The place by which an event of one moment is ranked: its place in the list, but one place for the POLLs of a trunk, whose order is
that of R31. -/
def rankPlace (e : Instr × Nat) : Nat :=
  match e.1 with
  | .pollDue cell => trunkOf cell
  | .pollOverdue cell => trunkOf cell
  | _ => Config.trunks + e.2

/-- Events due at one moment are taken in either order, but for the POLLs of one trunk: sorted by a free rank, equal ranks keeping
their order (R31; log 5). -/
def inSomeOrder (draw : Nat) (events : List Instr) : List Instr :=
  (sortBy (fun a b => decide (Config.eventRank draw (rankPlace a) < Config.eventRank draw (rankPlace b)))
    events.zipIdx).map (·.1)

/-- What has come due joins the queue; the order of more events than one is drawn (log 5). -/
def queueDue (due : List Instr) (s : State) : State :=
  if due.length ≤ 1 then s.setPending (s.pending ++ due)
  else (s.setPending (s.pending ++ inSomeOrder s.draws due)).setDraws (s.draws + 1)

/-- Time passes: to the exact moment at which a station becomes ready, or to the end of the tick (R151; log 3). -/
def passTime (s : State) : State :=
  match s.firstReady with
  | some (lack, rate) =>
    let s1 := passMoments lack (refine rate s)
    queueDue (State.dueCredits s s1) s1
  | none =>
    let s1 := passTick s
    queueDue (dueEvents s s1) s1

end Sys2Proof.Machine
end

