-- ==== Sys2Proof/Safety.lean ====
section
/-! DEFINITION. The terms the statements use: what the records of a sound state satisfy (capacities, canonical tables, the laws of
cells, trunks, handovers, bindings and referrals), which commands are orders and which are messages, and what a reply, a notice
and a counter show. -/

namespace Sys2Proof.Machine

/-! ## Capacities and the canonical form -/

/-- Every listed number is below the capacity. -/
def Table.below {α : Type} (t : Table α) (capacity : Nat) : Prop := ∀ k v, t.look k = some v → k < capacity

/-- Every listed record satisfies `p`. -/
def Table.holds {α : Type} (t : Table α) (p : α → Prop) : Prop := ∀ k v, t.look k = some v → p v

/-- The table is in canonical form, its numbers are below the capacity, and its records satisfy `p`. -/
structure Table.Fits {α : Type} (t : Table α) (capacity : Nat) (p : α → Prop) : Prop where
  form  : t.wf = true
  below : t.below capacity
  holds : t.holds p

/-- A trunk holds no more than its queue and its run count can (R11, R32). -/
def Trunk.Fits (t : Trunk) : Prop := t.signals.length ≤ Config.signals ∧ t.run ≤ 255

/-- A station's downlink queue holds no more than 16 entries (R45), its list no more than two memberships, of different channels (R52,
R127). -/
def Station.Fits (st : Station) : Prop :=
  st.queue.length ≤ Config.downlink ∧ st.members.length ≤ Config.memberships ∧ (st.members.map (·.channel)).Nodup

/-- A copy's queue holds no more than 8 entries and its level is at most 3 (R125). -/
def Copy.Fits (c : Copy) : Prop := c.queue.length ≤ Config.copyQueue ∧ c.level ≤ 3

/-- A buffer holds at least one byte and no more than its pool's buffers can (R38). -/
def Buffer.Fits (capacity : Nat) (b : Buffer) : Prop := 1 ≤ b.bytes.length ∧ b.bytes.length ≤ capacity

/-- A serving list of the section map: 1 to 4 cell numbers, each 0 to 255, no cell named twice (R99). -/
def ServingList (l : List Nat) : Prop := l ≠ [] ∧ l.length ≤ 4 ∧ l.Nodup ∧ ∀ c ∈ l, c < Config.cells

/-- No record, queue or table of the part holds more than the manual gives it room for, every table is in canonical form, a cell has at most
one copy of a channel and every copy is of a defined channel (R125), every list of the section map is one of R99, and the present tick has not
ended. -/
structure State.Fits (s : State) : Prop where
  notices   : s.notices.length ≤ Config.notices
  counters  : s.counters.wf = true
  cells     : s.cells.Fits Config.cells fun _ => True
  trunks    : s.trunks.wf = true
  trunk     : ∀ t, (s.trunk t).Fits
  short     : s.pools.short.Fits Config.shortBuffers (Buffer.Fits Config.shortBytes)
  long      : s.pools.long.Fits Config.longBuffers (Buffer.Fits Config.longBytes)
  egress    : s.backbone.queue.length ≤ Config.egress
  stations  : s.stations.Fits Config.stations Station.Fits
  handovers : s.handovers.wf = true ∧ s.handovers.size ≤ Config.handovers
  tickets   : s.tickets.Fits (2 ^ 32) fun _ => True
  ticketed  : s.tickets.size ≤ Config.tickets
  sections  : s.sections.Fits Config.sections ServingList
  referrals : s.referrals.length ≤ Config.referrals
  channels  : s.channels.Fits Config.channels fun _ => True
  copies    : s.copies.Fits Config.copies Copy.Fits
  single    : ∀ n m c d, s.copies.look n = some c → s.copies.look m = some d → c.channel = d.channel → c.cell = d.cell → n = m
  named     : ∀ n c, s.copies.look n = some c → (s.channels.look c.channel).isSome = true
  time      : s.time.part < s.time.grain

/-! ## Laws of cells and trunks (R1, R11, R36) -/

/-- The missed-poll count and the state agree (R1): 0 in ACTIVE, 1 or 2 in SILENT, 3 in DOWN. -/
def Cell.Agrees (c : Cell) : Prop :=
  match c.state with
  | .active => c.missed = 0
  | .silent => c.missed = 1 ∨ c.missed = 2
  | .down => c.missed = 3

/-- A trunk's fields agree with its state (R11, R36): the hold tag is present while a hold is in force, held since only in HELD, the
run count is 0 outside ACTIVE, and a HELD or LINK DOWN trunk has no signalling and no frame on its link. -/
structure Trunk.Agrees (t : Trunk) : Prop where
  tag   : t.holdTag.isSome = true ↔ t.state = .draining ∨ t.state = .held
  since : t.heldSince.isSome = true ↔ t.state = .held
  run   : t.state ≠ .active → t.run = 0
  still : t.state = .held ∨ t.state = .linkDown → t.signals = [] ∧ t.frame = none

/-- Every cell and every trunk agrees with its state. -/
structure State.Agrees (s : State) : Prop where
  cells  : s.cells.holds Cell.Agrees
  trunks : ∀ t, (s.trunk t).Agrees

/-! ## Laws of handovers, bindings and referrals (R53, R69, R89, R90, R93, R102) -/

/-- A station is MOVING exactly while a handover record names it; the record's old cell is the station's current cell, and differs
from its new cell (R53, R69). -/
structure State.HandoverLaw (s : State) : Prop where
  moving : ∀ i h, s.handovers.look i = some h →
    ∃ st since, s.stations.look i = some st ∧ st.place = .moving h.oldCell since ∧ h.oldCell ≠ h.newCell
  record : ∀ i st, s.stations.look i = some st → st.place.isMoving = true → (s.handovers.look i).isSome = true

/-- The binding law (R90): a ticket is SEATED at a station exactly when the station's ticket field names it. No parked claim's
number is in the ticket table, no two parked claims have one number or one referral id (R93, R102), and the next referral id is held by
none of them (R102, passed over at the parking by log 32). -/
structure State.BindingLaw (s : State) : Prop where
  bound  : ∀ (n : TicketNumber) (i : Nat),
    (∃ t, s.ticket n = some t ∧ t.state = .seated i) ↔ ∃ st, s.stations.look i = some st ∧ st.ticket = some n
  absent : ∀ p ∈ s.referrals, s.ticket p.claim.number = none
  single : (s.referrals.map (·.claim.number)).Nodup
  ids    : (s.referrals.map (·.id)).Nodup
  next   : ∀ p ∈ s.referrals, p.id ≠ s.nextReferral

/-! ## Orders and messages -/

/-- The order that a command is, with its head; none for a command that is no order of a known kind. -/
def orderOf : Instr → Option (OrderKind × OrderHead)
  | .resetFull h _ _ => some (.reset, h)
  | .resetKeepTickets h _ => some (.reset, h)
  | .configureCell h _ _ => some (.configureCell, h)
  | .removeCell h _ => some (.removeCell, h)
  | .queryCell h _ => some (.queryCell, h)
  | .holdTrunk h _ => some (.holdTrunk, h)
  | .releaseTrunk h _ => some (.releaseTrunk, h)
  | .evictStation h _ => some (.evictStation, h)
  | .queryStation h _ => some (.queryStation, h)
  | .loadTickets h _ _ => some (.loadTickets, h)
  | .voidTicket h _ => some (.voidTicket, h)
  | .unlockTicket h _ => some (.unlockTicket, h)
  | .queryTicket h _ => some (.queryTicket, h)
  | .purgeTickets h => some (.purgeTickets, h)
  | .setSection h _ _ => some (.setSection, h)
  | .setEntryPolicy h _ _ => some (.setEntryPolicy, h)
  | .ruleReferral h _ _ => some (.ruleReferral, h)
  | .defineChannel h _ _ _ _ _ => some (.defineChannel, h)
  | .openChannel h _ => some (.openChannel, h)
  | .closeChannel h _ => some (.closeChannel, h)
  | .queryChannel h _ _ => some (.queryChannel, h)
  | .setCellAirtime h _ _ _ => some (.setCellAirtime, h)
  | .setClassWeights h _ => some (.setClassWeights, h)
  | .startService h => some (.startService, h)
  | .setTimers h _ _ => some (.setTimers, h)
  | .setReplayFrameType h _ => some (.setReplayFrameType, h)
  | .setReplayRunLimit h _ => some (.setReplayRunLimit, h)
  | .readNotices h _ => some (.readNotices, h)
  | .readConditions h => some (.readConditions, h)
  | .clearConditions h _ => some (.clearConditions, h)
  | .snapStats h => some (.snapStats, h)
  | .unsnapStats h => some (.unsnapStats, h)
  | .readStats h _ => some (.readStats, h)
  | _ => none

/-- The message that a command is, by its head; none for a command that is no cell link message of a known kind. -/
def messageOf : Instr → Option MessageHead
  | .attachRequest m => some m
  | .releaseDone m _ => some m
  | .depart m => some m
  | .pollReply m _ _ _ => some m
  | .ticketClaim m _ _ _ => some m
  | .join m _ => some m
  | .leave m _ => some m
  | .stationDataUp m _ => some m
  | _ => none

/-- The command is a reset of the part. -/
def isReset : Instr → Bool
  | .powerOnReset _ => true
  | .resetFull _ _ _ => true
  | .resetKeepTickets _ _ => true
  | _ => false

/-! ## What shows -/

/-- The order's frame is taken and its body fits its kind: RESETN is high (R155, R170). -/
def State.Takes (s : State) (h : OrderHead) : Prop := s.link.resetnLow = false ∧ h.bodyFits = true

/-- From `s` to `t`, one reply takes the slot: it has this kind, tag, status and body, an empty body has no byte and any other at
most 1,020; a reply that stood unread is lost and counted; no other counter moves (R153, R155). -/
structure Replied (s t : State) (kind : ReplyKind) (tag : Byte) (status : Status) (body : ReplyBody) : Prop where
  slot  : ∃ bytes, t.link.slot = some ⟨kind, tag, status, body, bytes⟩ ∧ bytes.length ≤ Config.bodyBytes
    ∧ (body = .empty → bytes = [])
  port  : t.link.resetnLow = s.link.resetnLow ∧ t.link.incoming = [] ∧ t.link.sdo = .zeros
  lost  : t.counter (.part .repliesLost) = s.counter (.part .repliesLost) + if s.link.slot.isSome then 1 else 0

/-- No counter but those that `p` names has moved. -/
def CountersKept (s t : State) (p : Counter → Prop) : Prop := ∀ c, ¬ p c → t.counter c = s.counter c

/-- The counter has advanced by `n` (section 11.2). -/
def Advanced (s t : State) (c : Counter) (n : Nat) : Prop := t.counter c = s.counter c + BitVec.ofNat 32 n

/-- From `s` to `t` one counter has advanced by 1, and nothing else has changed. -/
structure OnlyCounts (s t : State) (c : Counter) : Prop where
  moved : Advanced s t c 1
  kept  : CountersKept s t (· = c)
  frame : t = { s with counters := t.counters }

/-- The message was accepted by all five checks of R25, for a kind that only a cell that is not DOWN may send. -/
def State.Accepts (s : State) (m : MessageHead) : Prop :=
  ((s.trunk m.trunk.val).state = .active ∨ (s.trunk m.trunk.val).state = .draining) ∧ s.time.service = .service
    ∧ m.bodyLength.toNat ≤ Config.longBytes ∧ m.slot.toNat < Config.slots ∧ m.frameLength = 10 + m.bodyLength.toNat
    ∧ ∃ c, s.cells.look (cellOf m) = some c ∧ c.state ≠ .down

/-- The message names a phone: its address is neither zero nor a group address (R26). -/
def NamesPhone (m : MessageHead) : Prop := m.addr ≠ 0 ∧ isGroup m.addr = false

/-- Nothing waits that an idle link could carry, no drain is complete, nothing is owed, and no credit stands above its depth. -/
structure State.Settled (s : State) : Prop where
  owed     : s.owed = ⟨[], []⟩
  links    : ∀ t ∈ allTrunks, s.choose t = none
  drains   : ∀ t ∈ allTrunks, s.drained t = false
  backbone : s.backbone.queue = [] ∨ s.backbone.up = false ∨ s.backbone.frame ≠ none
  credits  : ∀ e ∈ s.stations.entries, e.2.credit ≤ fullCredit s.time.unit e.2.rate

/-- The order is answered with this status and an empty body, and changes nothing else (R155). -/
structure Refused (s t : State) (k : OrderKind) (tag : Byte) (status : Status) : Prop where
  reply : Replied s t (.order k) tag status .empty
  kept  : CountersKept s t (· = .part .repliesLost)
  frame : t = { s with link := t.link, counters := t.counters }

/-- A signalling message made for the cell joins its trunk's class-2 queue: the cell is configured, the trunk ACTIVE or DRAINING, the
queue not full (R29). -/
def State.HasRoom (s : State) (cell : Nat) : Prop :=
  (s.cells.look cell).isSome = true ∧ ((s.trunk (cell / 32)).state = .active ∨ (s.trunk (cell / 32)).state = .draining)
    ∧ (s.trunk (cell / 32)).signals.length < 1024

/-- From `s` to `e` one signalling message has joined the tail of its trunk's class-2 queue, and no trunk has changed otherwise. -/
def Posted (s e : State) (cell : Nat) (addr : Addr) (body : SignalBody) : Prop :=
  ∀ k, e.trunk k = if k = cell / 32 then
    { s.trunk k with signals := (s.trunk k).signals ++ [⟨cell, addr, body⟩] } else s.trunk k

/-- A trunk after these signalling messages have been made one after another: each for a configured cell of the trunk joins class 2, where
the trunk is ACTIVE or DRAINING (R29). -/
def State.trunkAfter (s : State) (ms : List Signal) (k : Nat) : Trunk :=
  if (s.trunk k).state = .active ∨ (s.trunk k).state = .draining then
    { s.trunk k with
      signals := (s.trunk k).signals ++ ms.filter fun m => m.cell / 32 == k && (s.cells.look m.cell).isSome }
  else s.trunk k

/-- The class-2 queue of the trunk has room for those of these messages that join it. One made for an UNCONFIGURED cell takes no room and, by
the model's choice, advances no counter even at a full queue (log 46). -/
def State.RoomFor (s : State) (ms : List Signal) (k : Nat) : Prop := (s.trunkAfter ms k).signals.length ≤ 1024

/-- From `s` to `e` one reference to the buffer is released, if one is named: the last one frees it (R40); no other buffer has
changed. -/
structure Released (s e : State) (r : Option BufferRef) : Prop where
  one  : ∀ q, r = some q → e.buffer q = (s.buffer q).bind fun b =>
    if b.refs ≤ 1 then none else some { b with refs := b.refs - 1 }
  rest : ∀ q, r ≠ some q → e.buffer q = s.buffer q

/-- From `s` to `e` a buffer has lost as many references as it is named times in the list, the last one freeing it (R40); no other buffer
has changed. -/
def ReleasedAll (s e : State) (rs : List BufferRef) : Prop :=
  ∀ q, e.buffer q = if q ∈ rs then
    (s.buffer q).bind fun b => if b.refs ≤ rs.count q then none else some { b with refs := b.refs - rs.count q }
  else s.buffer q

/-- W is the sum of the counted stations' weights, and each of those stations has its rate (R147, R148). -/
def State.RatesLaw (s : State) (cell : Nat) : Prop :=
  ∀ a, s.account cell = some a → a.w = s.countedWeight cell ∧
    ∀ i st, s.stations.look i = some st → st.place.cell? = some cell →
      st.rate = a.c * (1000 - a.m) * st.weight / (1000 * a.w)

/-- The rate that R148 gives a station counted at the cell; where the cell is UNCONFIGURED, its own. -/
def State.rateAt (s : State) (cell : Nat) (st : Station) : Nat :=
  match s.account cell with
  | some a => a.c * (1000 - a.m) * st.weight / (1000 * a.w)
  | none => st.rate

/-- The records of the stations but `i` are as before, their rates aside. -/
def OthersKept (s e : State) (i : Nat) : Prop :=
  ∀ j st, j ≠ i → s.stations.look j = some st → ∃ rate, e.stations.look j = some { st with rate := rate }

/-! ## Time (R6, R33, R74, R98, R117, R134, R151) -/

/-- The station's oldest frame will be covered by its credit before the present tick ends: `lack` credit units are still wanted, which its
rate gives in `lack / rate` moments (R151). -/
def State.GetsReady (s : State) (st : Station) (lack : Nat) : Prop :=
  ∃ x cell, st.queue.head? = some x ∧ st.place.cell? = some cell ∧ (s.trunk (cell / 32)).state = .active ∧ 0 < st.rate
    ∧ x.length ≤ max 3000 (4 * st.rate) ∧ st.credit + lack = x.length * (800 * s.time.grain) ∧ 0 < lack
    ∧ lack < st.rate * (s.time.grain - s.time.part)

/-- The credit of a station covers its oldest frame (R151). -/
def State.Covered (s : State) (st : Station) : Prop :=
  ∃ x, st.queue.head? = some x ∧ 0 < st.rate ∧ x.length ≤ st.credit / (800 * s.time.grain)

/-- What has fallen due when time has passed from `s` to the end of a tick in `t`. -/
def State.FallsDue (s t : State) : Instr → Prop
  | .pollDue cell => ∃ c d, t.cells.look cell = some c ∧ c.due = some d ∧ t.time.service = .service
      ∧ ((t.trunk (cell / 32)).state = .active ∨ (t.trunk (cell / 32)).state = .draining) ∧ c.queued = .none
      ∧ (t.time.clock - d).toNat < 2 ^ 31
  | .pollOverdue cell => ∃ c d, t.cells.look cell = some c ∧ c.due = some d ∧ c.queued = .onTime
      ∧ (t.time.clock - d).toNat < 2 ^ 31 ∧ t.settings.timers.poll / 4 ≤ (t.time.clock - d).toNat
  | .copyDue n => ∃ c, t.copies.look n = some c ∧ c.state = .active ∧ c.queue ≠ [] ∧ c.nextDue = t.time.tick
      ∧ (t.trunk (c.cell / 32)).state = .active
  | .stationCreditReady i => ∃ st now cell, s.stations.look i = some st ∧ t.stations.look i = some now ∧ ¬ s.Covered st
      ∧ t.Covered now ∧ st.place.cell? = some cell ∧ (t.trunk (cell / 32)).state = .active
  | .handoverTimerExpiry i => ∃ h, t.handovers.look i = some h
      ∧ t.settings.timers.handover ≤ (t.time.clock - h.start).toNat
  | .referralTimerExpiry id => ∃ p ∈ t.referrals, p.id = id ∧ t.settings.timers.referral ≤ (t.time.clock - p.park).toNat
  | .stationAgedDormant i => ∃ st cell since, t.stations.look i = some st ∧ st.place = .associated cell since
      ∧ st.paused = false ∧ t.settings.timers.dormant * 1000 ≤ (t.time.clock - st.lastHeard).toNat
  | .stationExpired i => ∃ st, t.stations.look i = some st ∧ st.place = .dormant
      ∧ t.settings.timers.expire * 1000 ≤ (t.time.clock - st.lastHeard).toNat
  | .purgeBatch => ∃ p, s.purge = some p ∧ 99 ≤ p.ticks ∧ 1 ≤ p.batches
  | _ => False

/-- How long ago a poll was due. -/
def State.pollAge (s : State) (c : Cell) : Nat := (c.due.map fun d => (s.time.clock - d).toNat).getD 0

/-- R31: of two cells, this one's POLL goes first: its due time is earlier, or equal with the lower slot. -/
def State.PollBefore (s : State) (m n : Nat) (c d : Cell) : Prop :=
  s.pollAge d < s.pollAge c ∨ (s.pollAge d = s.pollAge c ∧ m ≤ n)

/-- Two POLLs of one trunk that join one class stand in the order of R31. -/
def State.PollsInOrder (s : State) (a b : Instr) : Prop :=
  ∀ m n c d, (a = .pollDue m ∧ b = .pollDue n) ∨ (a = .pollOverdue m ∧ b = .pollOverdue n) → m / 32 = n / 32 →
    s.cells.look m = some c → s.cells.look n = some d → s.PollBefore m n c d

/-- From `s` to `t` these events take place one after another. -/
inductive Follow : State → List Instr → State → Prop
  | done (s : State) : Follow s [] s
  | step {s t u : State} {c : Instr} {rest : List Instr} : exec c s = .next t → Follow t rest u → Follow s (c :: rest) u

/-! ## The arbiter's choice (R30 to R36) -/

/-- The cell's POLL is the first of its class on the trunk (R31). -/
def State.FirstPoll (s : State) (t : Nat) (q : PollQueued) (cell : Nat) : Prop :=
  ∃ c, s.cells.look cell = some c ∧ cell / 32 = t ∧ c.queued = q
    ∧ ∀ n d, s.cells.look n = some d → n / 32 = t → d.queued = q → s.PollBefore cell n c d

/-- No POLL of the class waits on the trunk. -/
def State.NoPoll (s : State) (t : Nat) (q : PollQueued) : Prop :=
  ∀ n d, s.cells.look n = some d → n / 32 = t → d.queued ≠ q

/-- A copy at one of the trunk's cells has a frame eligible, the trunk being ACTIVE (R33). -/
def State.ReadyCopy (s : State) (t : Nat) (c : Copy) : Prop :=
  c.cell / 32 = t ∧ c.state = .active ∧ c.queue ≠ [] ∧ (s.time.tick - c.nextDue).toNat < 2 ^ 47

/-- The eligible copy with the earliest due time, then the lowest number (R33). -/
def State.FirstCopy (s : State) (t n : Nat) : Prop :=
  ∃ c, s.copies.look n = some c ∧ s.ReadyCopy t c ∧ ∀ m d, s.copies.look m = some d → s.ReadyCopy t d →
    (s.time.tick - d.nextDue).toNat < (s.time.tick - c.nextDue).toNat
      ∨ ((s.time.tick - d.nextDue).toNat = (s.time.tick - c.nextDue).toNat ∧ n ≤ m)

/-- A station ASSOCIATED at one of the trunk's cells has a frame that its credit covers, the trunk being ACTIVE (R34). -/
def State.ReadyStation (s : State) (t i : Nat) : Prop :=
  ∃ st cell since, s.stations.look i = some st ∧ st.place = .associated cell since ∧ cell / 32 = t ∧ s.Covered st

/-- The eligible station with the lowest index above the round-robin position, else the one with the lowest index (R34). -/
def State.NextStation (s : State) (t i : Nat) : Prop :=
  s.ReadyStation t i ∧
    match (s.trunk t).lastServed with
    | none => ∀ j, s.ReadyStation t j → i ≤ j
    | some p => (p < i ∧ ∀ j, s.ReadyStation t j → p < j → i ≤ j)
        ∨ ((∀ j, s.ReadyStation t j → j ≤ p) ∧ ∀ j, s.ReadyStation t j → i ≤ j)

/-- The message is the right one for the trunk's idle link: of the highest class that has an eligible one, but for the run limit; classes
3 and 4 on an ACTIVE trunk only (R30 to R36). -/
def State.RightChoice (s : State) (t : Nat) (c : Choice) : Prop :=
  (s.trunk t).frame = none ∧ ((s.trunk t).state = .active ∨ (s.trunk t).state = .draining) ∧
    match c with
    | .poll cell => s.FirstPoll t .overdue cell
        ∨ (s.NoPoll t .overdue ∧ (s.trunk t).signals = [] ∧ s.FirstPoll t .onTime cell
          ∧ ((s.trunk t).state = .active → (∀ n d, s.copies.look n = some d → ¬ s.ReadyCopy t d) ∧ ∀ i, ¬ s.ReadyStation t i))
    | .signal m => s.NoPoll t .overdue ∧ (s.trunk t).signals.head? = some m
    | .replay n => s.NoPoll t .overdue ∧ (s.trunk t).signals = [] ∧ (s.trunk t).state = .active ∧ s.FirstCopy t n
        ∧ ¬ (s.settings.runLimit ≠ 0 ∧ s.settings.runLimit ≤ (s.trunk t).run ∧ ∃ i, s.ReadyStation t i)
    | .station i => s.NoPoll t .overdue ∧ (s.trunk t).signals = [] ∧ (s.trunk t).state = .active ∧ s.NextStation t i
        ∧ ((∀ n d, s.copies.look n = some d → ¬ s.ReadyCopy t d)
          ∨ (s.settings.runLimit ≠ 0 ∧ s.settings.runLimit ≤ (s.trunk t).run))

/-- From `s` to `e` the trunk's idle link has taken a frame: frames out advances, the run count becomes `run` (R30, R35). -/
structure Took (s e : State) (t : Nat) (f : LinkFrame) (run : Nat) : Prop where
  frame : (e.trunk t).frame = some f
  run   : (e.trunk t).run = run
  count : Advanced s e (.trunk t .framesOut) 1

/-- Nothing is owed but what follows the event, no credit stands above its depth, and no drain is complete. -/
structure State.AtRest (s : State) : Prop where
  passes  : s.owed.passes = []
  credits : ∀ e ∈ s.stations.entries, e.2.credit ≤ fullCredit s.time.unit e.2.rate
  drains  : ∀ t ∈ allTrunks, s.drained t = false

/-! ## Loads (R140, R141) -/

/-- The load of a tier at a level under an account: the frame airtime over the effective interval, in per-mille, each rounded up. -/
def loadAt (a : Account) (t : Tier) (level : Nat) : Nat :=
  let interval := (t.frameBytes * 800 + t.rate - 1) / t.rate * 2 ^ level
  (((t.frameBytes * 8 + a.p - 1) / a.p + a.h) * 100 + interval - 1) / interval

/-- What a pressure mark makes of an ACTIVE copy (R135): FLUSH empties its queue, RECOVER raises its level to 3 at most. -/
def pressed (a : Account) (ch : Channel) (c : Copy) : Copy :=
  if ch.recovery = .flush then { c with queue := [], clean := 0 }
  else { c with level := min 3 (c.level + 1), clean := 0, load := loadAt a (ch.tierOf c.tier) (min 3 (c.level + 1)) }

/-- Each copy at the cell has the load of its tier at its level (R141), and M is the sum of the ACTIVE ones' loads (R142). -/
structure State.LoadsLaw (s : State) (cell : Nat) : Prop where
  each : ∀ a n c ch, s.account cell = some a → s.copies.look n = some c → c.cell = cell →
    s.channels.look c.channel = some ch → c.load = loadAt a (ch.tierOf c.tier) c.level
  sum  : ∀ a, s.account cell = some a → a.m = s.activeLoad cell

/-- From `s` to `u` the accountant has left a copy, which was `c`, as `now`: its queue is discarded and counted, its members take `status`, M
of its cell is the sum of the ACTIVE loads, and nothing else changes (R126, R142). -/
structure Redecided (s u : State) (n : Nat) (c now : Copy) (status : MemberStatus) : Prop where
  copies   : ∀ j, u.copies.look j = if j = n then some now else s.copies.look j
  members  : ∀ i, u.stations.look i = (s.stations.look i).map fun st =>
    if st.place.cell? = some c.cell then
      { st with members := st.members.map fun x => if x.channel = c.channel then { x with status := status } else x }
    else st
  load     : ∀ k, u.cells.look k = (s.cells.look k).map fun x =>
    if k = c.cell then { x with account := { x.account with m := u.activeLoad k } } else x
  counted  : Advanced s u (.cell c.cell .replayDiscarded) c.queue.length
    ∧ CountersKept s u (· = .cell c.cell .replayDiscarded)
  released : ReleasedAll s u c.queue
  frame    : u = { s with
    counters := u.counters, cells := u.cells, pools := u.pools, stations := u.stations, copies := u.copies }

/-! ## Holds (R15, R18, R19) -/

/-- The ACTIVE copies at the configured cells of a trunk. -/
def State.activeOn (s : State) (k : Nat) : List (Nat × Copy) :=
  s.copies.entries.filter fun x => x.2.state == .active && x.2.cell / 32 == k && (s.cells.look x.2.cell).isSome

/-- From `s` to `e` the re-admission pass (R144) has run in each configured cell of the trunk, in slot order. -/
def TrunkReadmitted (k : Nat) (s e : State) : Prop :=
  ∃ cells : List Nat, cells.Pairwise (· < ·) ∧ (∀ n, n ∈ cells ↔ n / 32 = k ∧ (s.cells.look n).isSome = true)
    ∧ e = cells.foldl (fun v n => readmit n v) s

/-- From `s` to `e` the cells, the stations and the copies that do not lie on the trunk are as before. -/
structure OffTrunkKept (s e : State) (k : Nat) : Prop where
  cells    : ∀ n, n / 32 ≠ k → e.cells.look n = s.cells.look n
  stations : ∀ i st, s.stations.look i = some st → (∀ cell, st.place.cell? = some cell → cell / 32 ≠ k) →
    e.stations.look i = some st
  copies   : ∀ n c, s.copies.look n = some c → c.cell / 32 ≠ k → e.copies.look n = some c

/-! ## Causes of the latches (R163) -/

/-- The cause of a latch is present (the third column of R163). -/
def State.CausePresent (s : State) : Latch → Prop
  | .reset => False
  | .trunkLinkLost k => (s.trunk k.val).state = .linkDown
  | .shortPoolExhausted => ∀ j, j < 8192 → (s.pools.short.look j).isSome = true
  | .longPoolExhausted => ∀ j, j < 4096 → (s.pools.long.look j).isSome = true
  | .noticeOverflow => False
  | .stationTableFull => ∀ i, i < 16384 → ∃ st, s.stations.look i = some st ∧ st.place ≠ .dormant
  | .controlLinkError => False

/-- The reports name the fourteen latches in the order of R163, each with whether it is set and whether its cause is present (R165). -/
structure State.Reports (s : State) (list : List LatchReport) : Prop where
  order : list.map (·.latch) = [.reset, .trunkLinkLost 0, .trunkLinkLost 1, .trunkLinkLost 2, .trunkLinkLost 3,
    .trunkLinkLost 4, .trunkLinkLost 5, .trunkLinkLost 6, .trunkLinkLost 7, .shortPoolExhausted,
    .longPoolExhausted, .noticeOverflow, .stationTableFull, .controlLinkError]
  each  : ∀ r ∈ list, r.isSet = s.latchSet r.latch ∧ (r.cause = true ↔ s.CausePresent r.latch)

/-! ## Form (R20, R26, R42) -/

/-- The message is malformed by its kind: the wrong body length, a pressure mark above 1, a heard count above 64, a claim kind that is not
1, 2 or 3, the ticket number 0, a channel above 63 (R20, R26). -/
def BadForm : Instr → Prop
  | .attachRequest m => m.bodyLength ≠ 0
  | .releaseDone m _ => m.bodyLength ≠ 1
  | .depart m => m.bodyLength ≠ 0
  | .pollReply m mark count _ => m.bodyLength.toNat ≠ 2 + 6 * count.toNat ∨ 1 < mark.toNat ∨ 64 < count.toNat
  | .ticketClaim m code n _ => m.bodyLength ≠ 11 ∨ (code ≠ 1 ∧ code ≠ 2 ∧ code ≠ 3) ∨ n = 0
  | .join m channel => m.bodyLength ≠ 1 ∨ 63 < channel.toNat
  | .leave m channel => m.bodyLength ≠ 1 ∨ 63 < channel.toNat
  | .stationDataUp m payload => m.bodyLength.toNat ≠ payload.length ∨ payload = []
  | _ => False

/-- The command is a backbone frame of this type with so many bytes after its first 14, of which a REPLAY_FRAME's stream tag is two. -/
def IsBackboneFrame (c : Instr) (type : BitVec 16) (n : Nat) : Prop :=
  (∃ dest source payload, c = .stationDownlinkFrame dest source type payload ∧ n = payload.length)
    ∨ ∃ dest source tag payload, c = .replayFrame dest source type tag payload ∧ n = 2 + payload.length

/-! ## Statistics (R167 to R169) -/

/-- The value that READ STATS shows of a counter: the view's while one stands, else the live one (R169). -/
def State.shown (s : State) (c : Counter) : Count :=
  match s.view with
  | some v => v.counters.lookD c.key 0
  | none => s.counter c

/-! ## A cell going DOWN (R10), memberships that follow a handover (R131) or a class (R111, R132) -/

/-- The grants that the ends of handovers make: of each that completes, in ascending order of station index, at its new cell, then of each
that is cancelled at its old cell (R10, R16, R76, R77). -/
def State.grantsOf (s : State) (forced cancelled : Handover → Bool) : List Signal :=
  (s.handovers.entries.filter fun x => forced x.2).filterMap (fun x =>
      (s.stations.look x.1).map fun st => ⟨x.2.newCell, st.addr, .attachGrant x.1⟩)
    ++ (s.handovers.entries.filter fun x => cancelled x.2).filterMap fun x =>
      (s.stations.look x.1).map fun st => ⟨x.2.oldCell, st.addr, .attachGrant x.1⟩

/-- Every membership of a MOVING station can be carried: its channel is defined, its new cell configured, and the copy table has room. -/
structure State.CarryRoom (s : State) : Prop where
  copies   : s.copies.size + 2 * s.handovers.size ≤ 2048
  channels : ∀ i st x, s.stations.look i = some st → st.place.isMoving = true → x ∈ st.members →
    (s.channels.look x.channel).isSome = true
  cells    : ∀ i h, s.handovers.look i = some h → (s.cells.look h.newCell).isSome = true

/-- The station's memberships have followed it to a cell: the same channels in list order, each with the status of its copy there (R131). -/
def FollowedTo (e : State) (before now : List Membership) (cell : Nat) : Prop :=
  now.map (·.channel) = before.map (·.channel) ∧ ∀ x ∈ now, ∃ n c, e.copies.look n = some c ∧ c.channel = x.channel
    ∧ c.cell = cell ∧ x.status = if c.state = .held then .waiting else if c.tier = .full then .full else .reduced

/-- From `s` to `e` these handovers have ended as forced and those as cancelled, each counted (R82, R83). -/
structure HandoversCounted (s e : State) (forced cancelled : Handover → Bool) : Prop where
  asForced  : Advanced s e (.part .handoversForced) (s.handovers.entries.filter fun x => forced x.2).length
  completed : Advanced s e (.part .handoversCompleted) (s.handovers.entries.filter fun x => forced x.2).length
  toOld     : Advanced s e (.part .handoversCancelled) (s.handovers.entries.filter fun x => cancelled x.2).length

/-- The member count of each copy is that of the stations counted at its cell that name its channel, and is not 0 (R125). -/
def State.MembersLaw (s : State) : Prop :=
  ∀ n c, s.copies.look n = some c → 0 < c.members ∧ c.members =
    (s.stations.entries.filter fun x =>
      x.2.place.cell? == some c.cell && x.2.members.any fun y => y.channel == c.channel).length

/-- The stations that have become DORMANT between `s` and `e`. -/
def State.wentDormant (s e : State) : List (Nat × Station) :=
  s.stations.entries.filter fun x => x.2.place != .dormant && (e.stations.look x.1).any fun y => y.place == .dormant

/-- The copies of `s` that are gone in `e`. -/
def State.goneCopies (s e : State) : List (Nat × Copy) :=
  s.copies.entries.filter fun x =>
    !(e.copies.look x.1).any fun y => y.channel == x.2.channel && y.cell == x.2.cell

/-- The record of a station that has become DORMANT from a cell (R60). -/
def dormantFrom (cell : Nat) (st : Station) : Station :=
  { st with place := .dormant, prev := some cell, paused := false, members := [], rate := 0, credit := 0, queue := [] }

/-- From `s` to `e` a cell has gone DOWN (R10): its ASSOCIATED stations are DORMANT, handovers from it are forced, handovers to it are
cancelled, no other station has changed but for its rate, and each end is counted. -/
structure WentDown (s e : State) (cell : Nat) : Prop where
  dormant   : ∀ i st since, s.stations.look i = some st → st.place = .associated cell since →
    e.stations.look i = some (dormantFrom cell st)
  forced    : ∀ i h st, s.handovers.look i = some h → s.stations.look i = some st → h.oldCell = cell →
    e.handovers.look i = none ∧ ∃ members rate credit, e.stations.look i = some { st with
      place := .associated h.newCell s.time.clock, prev := some cell, paused := false, members := members, rate := rate
      credit := credit }
  cancelled : ∀ i h st since, s.handovers.look i = some h → s.stations.look i = some st → h.newCell = cell →
    st.place = .moving h.oldCell since →
    e.handovers.look i = none ∧ ∃ rate, e.stations.look i = some { st with place := .associated h.oldCell since, rate := rate }
  others    : ∀ i st, s.stations.look i = some st → st.place.associatedAt cell = false →
    (∀ h, s.handovers.look i = some h → h.oldCell ≠ cell ∧ h.newCell ≠ cell) →
    e.handovers.look i = s.handovers.look i ∧ ∃ rate, e.stations.look i = some { st with rate := rate }
  counted   : Advanced s e (.part .goneDormant) (s.stations.entries.filter fun x => x.2.place.associatedAt cell).length
    ∧ Advanced s e (.part .handoversForced) (s.handovers.entries.filter fun x => x.2.oldCell == cell).length
    ∧ Advanced s e (.part .handoversCompleted) (s.handovers.entries.filter fun x => x.2.oldCell == cell).length
    ∧ Advanced s e (.part .handoversCancelled) (s.handovers.entries.filter fun x => x.2.newCell == cell).length

/-- From `s` to `e` the memberships of a station have followed it from its old cell to its new one (R131): the copies at the old cell have
lost a member each or are gone, a pass is owed there, and each channel, in list order, has a member more at the new cell, whose copy gives
its status. The grant for the new cell is made ahead of the NO-ROOM verdict of a membership that finds the copy table full (R76); that a
DRAINING trunk's class-2 queue takes the grant and not the verdict is the model's choice (log 45). Stated for a station with one membership
a channel. -/
structure Carried (s e : State) (i : Nat) (st : Station) (old new : Nat) : Prop where
  pass  : old ∈ e.owed.passes
  left  : ∀ n c, s.copies.look n = some c → c.cell = old →
    (∀ j x, s.copies.look j = some x → x.channel = c.channel → x.cell = old → j = n) →
    if ∃ x ∈ st.members, x.channel = c.channel then
      (2 ≤ c.members → e.copies.look n = some { c with members := c.members - 1 })
        ∧ (c.members ≤ 1 → ∀ x, e.copies.look n = some x → x.cell = new)
    else e.copies.look n = some c
  apart : ∀ n c, s.copies.look n = some c → c.cell ≠ old → c.cell ≠ new → e.copies.look n = some c
  found : ∀ now, e.stations.look i = some now → s.copies.size + st.members.length ≤ 2048 →
    (s.cells.look new).isSome = true → (∀ x ∈ st.members, (s.channels.look x.channel).isSome = true) →
    now.members.map (·.channel) = st.members.map (·.channel)
      ∧ ∀ x ∈ now.members, ∃ n c, e.copies.look n = some c ∧ c.channel = x.channel ∧ c.cell = new
        ∧ x.status = if c.state = .held then .waiting else if c.tier = .full then .full else .reduced
  told  : s.copies.size + st.members.length ≤ 2048 → (s.cells.look new).isSome = true →
    (∀ x ∈ st.members, (s.channels.look x.channel).isSome = true) → (∀ k, s.RoomFor [⟨new, st.addr, .attachGrant i⟩] k) →
    ∀ k, e.trunk k = s.trunkAfter [⟨new, st.addr, .attachGrant i⟩] k
  lost  : ∀ x, st.members = [x] → 2048 ≤ s.copies.size →
    (∀ n y, s.copies.look n = some y → ¬ (y.channel = x.channel ∧ y.cell = new)) →
    (∀ n c, s.copies.look n = some c → c.channel = x.channel → c.cell = old → 2 ≤ c.members) →
    (∃ now, e.stations.look i = some now ∧ now.members = []) ∧ Advanced s e (.part .membershipsLost) 1
      ∧ ∀ ms : List Signal, ms = ⟨new, st.addr, .attachGrant i⟩ ::
          (if (s.trunk (new / 32)).state = .active then [⟨new, st.addr, .joinVerdict x.channel .noRoom⟩] else []) →
        (∀ k, s.RoomFor ms k) → ∀ k, e.trunk k = s.trunkAfter ms k

/-- The copies at the cell that have the station as their last member (R130, step 3). -/
def State.lastCopies (s : State) (st : Station) (cell : Nat) : List (Nat × Copy) :=
  s.copies.entries.filter fun x =>
    x.2.cell == cell && decide (x.2.members ≤ 1) && st.members.any fun y => y.channel == x.2.channel

/-- From `s` to `e` station `i` has left the copies at its cell (R60, step 2; R130): each copy of its channels there has lost one member or,
having had one, is gone, its queue counted, its load out of M and a pass owed there; the station's weight aside, no cell and no station of
another cell has changed. -/
structure LeavesCopies (s e : State) (i : Nat) (st : Station) (cell : Nat) : Prop where
  copies  : ∀ n, e.copies.look n = (s.copies.look n).bind fun c =>
    if c.cell = cell ∧ ∃ x ∈ st.members, x.channel = c.channel then
      if c.members ≤ 1 then none else some { c with members := c.members - 1 }
    else some c
  passes  : ∀ n, n ∈ e.owed.passes ↔ n ∈ s.owed.passes ∨ (n = cell ∧ s.lastCopies st cell ≠ [])
  cells   : ∀ n c, s.cells.look n = some c → ∃ w, (n ≠ cell → w = c.account.w) ∧ e.cells.look n = some
    { c with account := { c.account with
        m := if n = cell ∧ s.lastCopies st cell ≠ [] then e.activeLoad cell else c.account.m, w := w } }
  absent  : ∀ n, s.cells.look n = none → e.cells.look n = none
  apart   : ∀ j y, j ≠ i → s.stations.look j = some y → y.place.cell? ≠ some cell → e.stations.look j = some y
  counted : ∀ n, Advanced s e (.cell n .replayDiscarded)
    (if n = cell then ((s.lastCopies st cell).map fun x => x.2.queue.length).sum else 0)

/-- The buffers of the station's downlink queue and of the copies that go with it (R47, R130). -/
def State.leftBuffers (s : State) (st : Station) (cell : Nat) : List BufferRef :=
  st.queue.map (·.buffer) ++ (s.lastCopies st cell).flatMap fun x => x.2.queue

/-- The memberships that a station keeps when its class becomes `cls`: all, if it does not change or the station is DORMANT; else those
whose channel admits the new class (R111, R132). -/
def State.keptMembers (s : State) (st : Station) (cls : StationClass) : List Membership :=
  if st.cls = cls ∨ st.place = .dormant then st.members
  else st.members.filter fun x => (s.channels.look x.channel).all fun ch => allows ch.entitled cls

/-- The memberships that it loses. -/
def State.endedMembers (s : State) (st : Station) (cls : StationClass) : List Membership :=
  if st.cls = cls ∨ st.place = .dormant then []
  else st.members.filter fun x => !(s.channels.look x.channel).all fun ch => allows ch.entitled cls

/-- The ENDED verdicts that a change of its class makes for the station's current cell, in list order (R111, step 4). -/
def State.endedSignals (s : State) (st : Station) (cls : StationClass) : List Signal :=
  match st.place.cell? with
  | some cell => (s.endedMembers st cls).map fun x => ⟨cell, st.addr, .joinVerdict x.channel .ended⟩
  | none => []

/-- The ENDED verdicts that the removal of these tickets makes, in their order (R98). -/
def State.purgeSignals (s : State) (batch : List (Nat × Ticket)) : List Signal :=
  batch.flatMap fun x =>
    match x.2.state with
    | .seated i => ((s.stations.look i).map fun st => s.endedSignals st .unticketed).getD []
    | _ => []

/-- The class change cascade of one station has run from `s` to `e` (R111): where the class has changed and the station is counted at a
cell, W and the rates there follow; every membership that ends is counted. -/
structure Cascaded (s e : State) (st : Station) (cls : StationClass) : Prop where
  rates : ∀ cell, st.place.cell? = some cell → st.cls ≠ cls → e.RatesLaw cell
  ended : Advanced s e (.part .membershipsEnded) (s.endedMembers st cls).length

/-- The LOADED ticket that a valid record of LOAD TICKETS stores, its counts 0, not locked (R88, R92). -/
def loadedTicket (f : TicketFields) : Ticket :=
  ⟨f.token, f.cls.getD .general, f.seatSection, f.seat, .loaded, false, 0, 0, none⟩

/-! ## Claims (R103, R104, R110) -/

/-- A TICKET CLAIM is accepted, names a phone and a number, and its verdict joins its trunk's queue. -/
structure State.Claims (s : State) (m : MessageHead) (code : Byte) (n : TicketNumber) : Prop where
  fits   : s.Fits
  taken  : s.Accepts m
  length : m.bodyLength = 11
  phone  : NamesPhone m
  code   : code = 1 ∨ code = 2 ∨ code = 3
  number : n ≠ 0
  room   : s.HasRoom (cellOf m)

/-- The claim comes from a station ASSOCIATED at a cell of the kind that the claim needs (R103, checks 2 and 3). -/
structure State.ClaimsAt (s : State) (m : MessageHead) (code : Byte) (i : Nat) (st : Station) : Prop where
  known : s.stationWith m.addr = some (i, st)
  here  : st.place.associatedAt (cellOf m) = true
  kind  : ∃ c, s.cells.look (cellOf m) = some c ∧ c.kind = if code = 2 then .seat else .gate

/-- The ticket passes checks 5 to 7 (R104): not locked, not VOID, the claim's token its own. -/
def Ticket.Passes (k : Ticket) (token : Token) : Prop := k.locked = false ∧ k.state ≠ .void ∧ k.token = token

/-- From `s` to `e` the claim's verdict is made for its cell and counted, and nothing else changes. -/
structure OnlyVerdict (s e : State) (m : MessageHead) (n : TicketNumber) (v : Verdict) : Prop where
  made  : Posted s e (cellOf m) m.addr (.claimVerdict n v)
  moved : Advanced s e (.part (.claim v)) 1
  kept  : CountersKept s e (· = .part (.claim v))
  frame : e = { s with trunks := e.trunks, counters := e.counters }

/-- From `s` to `e` the ticket is bound to the claiming station, SEATED is made and counted, and the station's earlier ticket is
INSIDE (R90, R110). -/
structure Seats (s e : State) (m : MessageHead) (n : TicketNumber) (k : Ticket) (i : Nat) (st : Station) : Prop where
  ticket  : e.ticket n = some { k with state := .seated i }
  station : ∃ rate, e.stations.look i = some { st with
    ticket := some n, cls := StationClass.ofTicket k.cls
    weight := classWeight s.settings.weights (StationClass.ofTicket k.cls)
    members := s.keptMembers st (StationClass.ofTicket k.cls), rate := rate }
  cascade : Cascaded s e st (StationClass.ofTicket k.cls)
  earlier : ∀ x, st.ticket = some x → x ≠ n → e.ticket x = (s.ticket x).map fun t => { t with state := .inside }
  others  : ∀ x, x ≠ n → st.ticket ≠ some x → e.ticket x = s.ticket x
  verdict : ∃ more, (e.trunk (cellOf m / 32)).signals =
      (s.trunk (cellOf m / 32)).signals ++ ⟨cellOf m, m.addr, .claimVerdict n .seated⟩ :: more
    ∧ ((s.trunk (cellOf m / 32)).signals.length + 1 + (s.endedMembers st (StationClass.ofTicket k.cls)).length ≤ 1024 →
      more = (s.endedMembers st (StationClass.ofTicket k.cls)).map fun x => ⟨cellOf m, st.addr, .joinVerdict x.channel .ended⟩)
  counted : Advanced s e (.part (.claim .seated)) 1
  frame   : e = { s with
    counters := e.counters, cells := e.cells, trunks := e.trunks, pools := e.pools, stations := e.stations
    tickets := e.tickets, copies := e.copies, owed := e.owed }

end Sys2Proof.Machine
end

