-- ==== Sys2Proof/Certificates/Slice0/Obligations.lean ====
section
/-! DEFINITION. The statements for the provers. An event that can change what the links carry answers `closeEvent e`: `e` is the
state with the command's own effect, as its rule gives it, and the close is stated on its own (ClosingServesAndKeepsTheRest). -/

open Sys2Proof Sys2Proof.Machine

/-! ## The machine -/

/-- The queue of commands is first in, first out (log 29). -/
def Obligations.StepRunsTheFrontCommand : Prop :=
  ∀ (c : Instr) (rest : List Instr) (s : State), step (s.setPending (c :: rest)) = exec c (s.setPending rest)

/-- No command stops the part, and none touches the queue (95_what_each_step_holds.md; log 29). -/
def Obligations.NoCommandStops : Prop :=
  ∀ (c : Instr) (s : State), ∃ t, exec c s = .next t ∧ t.pending = s.pending

/-- Time passes on an empty queue (log 3). When no station becomes ready before the tick ends, the tick ends: clocks (R134, R156), credits
grown by the rate and never above D (R150), exact in units of 1/(800 × grain) byte (log 8), and just the events that fall due join the queue
(R6, R33, R62, R63, R74, R98, R117, R151), the POLLs of a trunk in the order of R31 (log 4, log 5). Else time passes to the exact moment at
which the first station becomes ready, its wait the quotient of the units it lacks and its rate (R151). The model's choices, beside those: a
due time is reached while the difference lies in the lower half of the clock's range (log 7), where in a millisecond a purge's batch falls
and how untaken batches are counted (log 17), and that a POLL whose overdue point SET TIMERS moved into the past is taken up at a tick's end
(log 42), as is a station past dormant after whose aging begins again (log 44). -/
def Obligations.AnEmptyQueueLetsOneTickPass : Prop :=
  ∀ s : State, s.Fits → s.pending = [] → ∃ t, step s = .next t
    ∧ ((∀ i st lack, s.stations.look i = some st → ¬ s.GetsReady st lack) →
      (s.time.service = .config → t.time = { s.time with part := 0, grain := t.time.grain })
      ∧ (s.time.service = .service → t.time.service = .service ∧ t.time.tick = s.time.tick + 1 ∧ t.time.part = 0
          ∧ (if s.time.phase + 1 < 100 then t.time.phase = s.time.phase + 1 ∧ t.time.clock = s.time.clock
              else t.time.phase = 0 ∧ t.time.clock = s.time.clock + 1))
      ∧ (∀ i st, s.stations.look i = some st → ∃ credit, t.stations.look i = some { st with credit := credit }
          ∧ credit * s.time.grain = t.time.grain * if st.place = .dormant then st.credit else
            min (max 3000 (4 * st.rate) * (800 * s.time.grain)) (st.credit + st.rate * (s.time.grain - s.time.part)))
      ∧ t.time.grain ∣ s.time.grain ∧ (∀ i, s.stations.look i = none → t.stations.look i = none)
      ∧ t.purge = s.purge.map (fun p => if p.ticks + 1 < 100 then { p with ticks := p.ticks + 1 }
          else { p with ticks := 0, batches := p.batches + 1 })
      ∧ (∀ c, c ∈ t.pending ↔ s.FallsDue t c) ∧ t.pending.Pairwise t.PollsInOrder ∧ t.pending.Perm (dueEvents s t)
      ∧ t = { s with pending := t.pending, time := t.time, stations := t.stations, purge := t.purge, draws := t.draws })
    ∧ ((∃ i st lack, s.stations.look i = some st ∧ s.GetsReady st lack) →
      ∃ i first lack, s.stations.look i = some first ∧ s.GetsReady first lack
        ∧ (∀ j st other, s.stations.look j = some st → s.GetsReady st other → lack * st.rate ≤ other * first.rate)
        ∧ t.time = { s.time with part := s.time.part * first.rate + lack, grain := s.time.grain * first.rate }
        ∧ (∀ j, t.stations.look j = (s.stations.look j).map fun st =>
            { st with
              credit := (if st.place = .dormant then st.credit * first.rate
                else min (max 3000 (4 * st.rate) * (800 * t.time.grain)) (st.credit * first.rate + st.rate * lack)) })
        ∧ .stationCreditReady i ∈ t.pending
        ∧ (∀ c, c ∈ t.pending ↔ s.FallsDue t c ∧ ∃ j, c = .stationCreditReady j) ∧ t.pending.Nodup
        ∧ t = { s with pending := t.pending, time := t.time, stations := t.stations, draws := t.draws })

/-- Capacities, canonical form, and one copy of a channel at a cell, of a defined channel (R125), are kept by every step: R11, R32, R38, R45,
R49, R52, R69, R88, R99 (the serving lists of the section map), R102, R127, R161. -/
def Obligations.EveryStepKeepsTheCapacities : Prop := ∀ s t : State, s.Fits → step s = .next t → t.Fits

/-- The laws of R1 (missed-poll count and state), R11 and R36 (trunk fields and state) are kept by every step. -/
def Obligations.EveryStepKeepsCellsAndTrunksAgreeing : Prop := ∀ s t : State, s.Agrees → step s = .next t → t.Agrees

/-- MOVING exactly while a handover record names the station (R53, R69), kept by every step. -/
def Obligations.EveryStepKeepsTheHandoverLaw : Prop :=
  ∀ s t : State, s.Fits → s.HandoverLaw → step s = .next t → t.HandoverLaw

/-- The binding law of R90 and the referral laws of R93 and R102, kept by every step: a ticket is SEATED at a station exactly when the
station names it; a parked claim's number is not in the table; no two parked claims carry one number or one referral id. That the next
referral id is held by no parked claim, since held ids are passed over at the parking, is the model's choice (log 32). -/
def Obligations.EveryStepKeepsTheBindingLaw : Prop :=
  ∀ s t : State, s.Fits → s.BindingLaw → step s = .next t → t.BindingLaw

/-- The state after reset meets the four laws. -/
def Obligations.TheResetStateMeetsTheLaws : Prop :=
  State.reset.Fits ∧ State.reset.Agrees ∧ State.reset.HandoverLaw ∧ State.reset.BindingLaw

/-- Section 10.3: every reset leaves the part in CONFIG, and only a reset leaves SERVICE. -/
def Obligations.OnlyAResetLeavesService : Prop :=
  (∀ (c : Instr) (s t : State), s.time.service = .service → exec c s = .next t → t.time.service = .config → isReset c = true)
  ∧ (∀ (locks : Locks) (s : State), ∃ t, exec (.powerOnReset locks) s = .next t ∧ t.time.service = .config)
  ∧ (∀ (h : OrderHead) (locks : Locks) (s : State), s.Takes h →
      (∃ t, exec (.resetFull h none locks) s = .next t ∧ t.time.service = .config)
      ∧ ∃ t, exec (.resetKeepTickets h locks) s = .next t ∧ t.time.service = .config)

/-- The close of an event (log 9) leaves the port, the clocks, the settings, the section map, the channels, the purge, the referrals, the
view and the queue as they stand, and afterwards nothing is owed, no idle link has an eligible message, no drain is complete and the backbone
is served. It works off, in this order: each owed re-admission pass (R144), a complete drain (R15, R16), then the idle links from T0 on
(log 10), each by the choice of R30 to R36, then the backbone (R50), then the expiries that follow (R63); a state that leaves nothing to do
closes as it stands. What a message sent does to its trunk, its copy's pacing and its station's credit is R30, R34 to R36, R46, R134
and R136: M and the rates of the cell follow a step down in level, and no other trunk changes, but for a POLL that takes its cell DOWN (R10).
That a copy's due time is reached while the difference is below 2^47 ticks, half the range of the pacing time base, is the model's
choice (log 7). -/
def Obligations.ClosingServesAndKeepsTheRest : Prop :=
  (∀ e : State, (closeEvent e).owed = ⟨[], []⟩
    ∧ closeEvent e =
      { e with
        notices := (closeEvent e).notices, latches := (closeEvent e).latches, counters := (closeEvent e).counters
        cells := (closeEvent e).cells, trunks := (closeEvent e).trunks, pools := (closeEvent e).pools
        backbone := (closeEvent e).backbone, stations := (closeEvent e).stations
        handovers := (closeEvent e).handovers, tickets := (closeEvent e).tickets, copies := (closeEvent e).copies
        created := (closeEvent e).created, owed := ⟨[], []⟩, draws := (closeEvent e).draws })
  ∧ (∀ e : State, e.Settled → closeEvent e = e)
  ∧ (∀ e : State, e.Fits → (closeEvent e).Settled
    ∧ (∀ cell rest, e.owed.passes = cell :: rest →
        closeEvent e = closeEvent (readmit cell { e with owed := { e.owed with passes := rest } }))
    ∧ (∀ t, t < 8 → e.owed.passes = [] → (∀ x ∈ e.stations.entries, x.2.credit ≤ fullCredit e.time.unit x.2.rate) →
        (∀ k, k < t → e.drained k = false) → e.drained t = true → closeEvent e = closeEvent (enterHeld t e))
    ∧ (∀ t c, t < 8 → e.AtRest → (∀ k, k < t → ∀ x, ¬ e.RightChoice k x) → e.RightChoice t c →
        closeEvent e = closeEvent (send t c e))
    ∧ (e.AtRest → (∀ k, k < 8 → ∀ x, ¬ e.RightChoice k x) →
        (∀ x rest, e.backbone.queue = x :: rest → e.backbone.up = true → e.backbone.frame = none →
          closeEvent e = closeEvent { e with backbone := { e.backbone with queue := rest, frame := some x } })
        ∧ (∀ i rest, e.owed.expiries = i :: rest →
          (e.backbone.queue = [] ∨ e.backbone.up = false ∨ e.backbone.frame ≠ none) →
          closeEvent e = closeEvent (expireStation i { e with owed := { e.owed with expiries := rest } }))))
  ∧ (∀ (s : State) (t : Nat), s.Fits → (∀ c, s.choose t = some c ↔ s.RightChoice t c)
    ∧ ∀ e c, e = send t c s →
      (∀ cell k, c = .poll cell → s.cells.look cell = some k → Took s e t (.poll cell) 0
        ∧ (k.awaited = false ∨ k.missed ≠ 2 →
          (∀ j, e.trunk j = if j = t then { s.trunk t with frame := some (.poll cell), run := 0 } else s.trunk j)
          ∧ e = { s with trunks := e.trunks, counters := e.counters, cells := e.cells }))
      ∧ (∀ m, c = .signal m → Took s e t (.signal m) 0
        ∧ (∀ j, e.trunk j = if j = t then
            { s.trunk t with frame := some (.signal m), run := 0, signals := (s.trunk t).signals.drop 1 } else s.trunk j)
        ∧ CountersKept s e (· = .trunk t .framesOut) ∧ e = { s with trunks := e.trunks, counters := e.counters })
      ∧ (∀ i st x rest cell, c = .station i → s.stations.look i = some st → st.queue = x :: rest →
          st.place.cell? = some cell → Took s e t (.stationDown cell st.addr x.buffer) 0
        ∧ (∀ j, e.trunk j = if j = t then
            { s.trunk t with frame := some (.stationDown cell st.addr x.buffer), run := 0, lastServed := some i } else s.trunk j)
        ∧ Advanced s e (.cell cell .framesDown) 1
        ∧ CountersKept s e (fun y => y = .trunk t .framesOut ∨ y = .cell cell .framesDown)
        ∧ (∀ j, e.stations.look j = if j = i then
            some { st with queue := rest, credit := st.credit - x.length * (800 * s.time.grain) } else s.stations.look j)
        ∧ e = { s with trunks := e.trunks, counters := e.counters, stations := e.stations })
      ∧ ∀ n k r rest ch a, c = .replay n → s.copies.look n = some k → k.queue = r :: rest →
          s.channels.look k.channel = some ch → s.account k.cell = some a →
        Took s e t (.replayData k.cell k.channel k.tier r) (min 255 ((s.trunk t).run + 1))
        ∧ (∀ j, e.trunk j = if j = t then
            { s.trunk t with frame := some (.replayData k.cell k.channel k.tier r), run := min 255 ((s.trunk t).run + 1) }
            else s.trunk j)
        ∧ Advanced s e (.cell k.cell .replaySent) 1
        ∧ CountersKept s e (fun y => y = .trunk t .framesOut ∨ y = .cell k.cell .replaySent)
        ∧ (∀ j, j ≠ n → e.copies.look j = s.copies.look j)
        ∧ (∀ down, down = loadAt a (ch.tierOf k.tier) (k.level - 1) →
          if (∃ most, recoveryThreshold ch.recovery = some most ∧ most ≤ k.clean + 1) ∧ 0 < k.level ∧ a.m + down ≤ a.b + k.load then
            (∀ x, e.cells.look x = (s.cells.look x).map fun y =>
              if x = k.cell then { y with account := { a with m := e.activeLoad k.cell } } else y)
            ∧ (k.state = .active → e.activeLoad k.cell + k.load = s.activeLoad k.cell + down)
            ∧ (∀ i, e.stations.look i = (s.stations.look i).map fun st =>
              if st.place.cell? = some k.cell then { st with rate := e.rateAt k.cell st } else st)
          else e.cells = s.cells ∧ e.stations = s.stations)
        ∧ (∃ due, due = s.time.tick + BitVec.ofNat 48
            (((ch.tierOf k.tier).frameBytes * 800 + (ch.tierOf k.tier).rate - 1) / (ch.tierOf k.tier).rate * 2 ^ k.level)
          ∧ e.copies.look n = some (match recoveryThreshold ch.recovery with
            | none => { k with queue := rest, nextDue := due }
            | some most =>
              if k.clean + 1 < most then { k with queue := rest, nextDue := due, clean := k.clean + 1 }
              else if 0 < k.level ∧ a.m + loadAt a (ch.tierOf k.tier) (k.level - 1) ≤ a.b + k.load then
                { k with
                  queue := rest, nextDue := due, clean := 0, level := k.level - 1
                  load := loadAt a (ch.tierOf k.tier) (k.level - 1) }
              else { k with queue := rest, nextDue := due, clean := 0 }))
        ∧ e = { s with
            trunks := e.trunks, counters := e.counters, copies := e.copies, cells := e.cells, stations := e.stations })

/-! ## Resets and the control link port -/

/-- R170 for the power-on reset, with R11, R37, R50, R164, R167 and the values after reset of every block. -/
def Obligations.PowerOnResetGivesTheValuesAfterReset : Prop :=
  ∀ (locks : Locks) (s : State), ∃ t, exec (.powerOnReset locks) s = .next t
    ∧ t.notices = [⟨0, .ready .powerOn ⟨256, 16384, 65536, 128, 64, 2048, 128, 64, 256, 8192, 4096⟩ 0x01#8⟩]
    ∧ t.link.slot = none ∧ t.link.resetnLow = false ∧ t.attnLow = true
    ∧ (∀ l, t.latchSet l = decide (l = .reset)) ∧ (∀ c, t.counter c = 0) ∧ t.view = none
    ∧ t.time.service = .config ∧ t.time.clock = 0
    ∧ t.settings = ⟨⟨100, 150, 2000, 30, 600⟩, ⟨1, 2, 4, 4, 6⟩, 0, 16, ⟨2, .strict⟩⟩
    ∧ (∀ n, t.cells.look n = none) ∧ (∀ i, t.stations.look i = none) ∧ (∀ i, t.handovers.look i = none)
    ∧ (∀ n, t.ticket n = none) ∧ (∀ n, t.sections.look n = none) ∧ t.purge = none
    ∧ t.referrals = [] ∧ t.nextReferral = 1
    ∧ (∀ k, t.channels.look k = none) ∧ (∀ n, t.copies.look n = none) ∧ t.created = 0
    ∧ (∀ r, t.buffer r = none)
    ∧ (∀ k : Fin 8, t.trunk k.val =
        ⟨if locks.trunks.getLsbD k.val then .active else .linkDown, none, none, 0, [], none, none⟩)
    ∧ t.backbone = ⟨locks.backbone, [], none⟩

/-- R157, R171: RESET FULL gives the state that RESETN gives, READY naming FULL; a body that does not fit or an unknown mode (log 30) is
answered BAD-ARGUMENT and resets nothing. RESET KEEP TICKETS gives the state of RESET FULL, but keeps tickets (a SEATED one INSIDE),
sections and policy. -/
def Obligations.ResetOrdersGiveTheStateOfResetn : Prop :=
  (∀ (h : OrderHead) (bad : Option Byte) (locks : Locks) (s : State), s.link.resetnLow = false →
    (h.bodyFits = true → bad = none → ∃ p t, exec (.powerOnReset locks) s = .next p
        ∧ exec (.resetFull h bad locks) s = .next t
        ∧ t = { p with notices := [readyNotice .full], link := { p.link with sdo := .zeros } })
    ∧ (h.bodyFits = false ∨ bad ≠ none → ∃ t, exec (.resetFull h bad locks) s = .next t
        ∧ Replied s t (.order .reset) h.tag .badArgument .empty
        ∧ t = { s with link := t.link, counters := t.counters }))
  ∧ (∀ (h : OrderHead) (locks : Locks) (s : State), s.Takes h → ∃ f t, exec (.resetFull h none locks) s = .next f
    ∧ exec (.resetKeepTickets h locks) s = .next t
    ∧ (∀ n, t.ticket n = (s.ticket n).map fun k =>
        { k with state := match k.state with
          | .seated _ => .inside
          | other => other })
    ∧ t = { f with
        notices := [readyNotice .keepTickets], tickets := t.tickets, sections := s.sections
        settings := { f.settings with policy := s.settings.policy } })

/-- R170: when RESETN falls, a transaction under way is abandoned, SDO is undriven and ATTN is released, and nothing else changes;
while RESETN is low the part takes no transaction. -/
def Obligations.ResetnLowReleasesThePort : Prop :=
  (∀ s : State, ∃ t, exec .resetnFalls s = .next t ∧ t.attnLow = false
    ∧ t = { s with link := { s.link with resetnLow := true, incoming := [], sdo := .undriven } })
  ∧ ∀ s : State, s.link.resetnLow = true →
    (∀ c, (orderOf c).isSome = true → exec c s = .next s)
    ∧ (∀ bytes, exec (.badFrame bytes) s = .next s) ∧ (∀ n, exec (.replyRead n) s = .next s)
    ∧ ∀ kind tag, exec (.orderOfUnknownKind kind tag) s = .next s

/-- R152: a write transaction whose frame fails a check is answered BAD-FRAME, counted, and sets CONTROL LINK ERROR; one with no
byte is ignored. The notice is stated for a queue with room. -/
def Obligations.BadFramesAreAnsweredAndCounted : Prop :=
  ∀ (bytes : List Byte) (s : State), s.link.resetnLow = false →
    (bytes = [] → exec (.badFrame bytes) s = .next s)
    ∧ (bytes ≠ [] → bytes.head? ≠ some 0x5A#8 →
        (¬ ∃ hi lo kind tag body, bytes = 0xA5#8 :: hi :: lo :: kind :: tag :: body
            ∧ (hi ++ lo : BitVec 16).toNat ≤ 1020 ∧ body.length = (hi ++ lo : BitVec 16).toNat) →
        s.notices.length < Config.notices →
        ∃ t, exec (.badFrame bytes) s = .next t ∧ Replied s t .badFrame 0 .badFrame .empty
          ∧ Advanced s t (.part .framingErrors) 1
          ∧ CountersKept s t (fun c => c = .part .framingErrors ∨ c = .part .repliesLost)
          ∧ (∀ l, t.latchSet l = (s.latchSet l || decide (l = .controlLinkError)))
          ∧ t.notices = s.notices ++
              (if s.latchSet .controlLinkError then [] else [⟨s.time.clock, .conditionRaised .controlLinkError⟩])
          ∧ t = { s with link := t.link, counters := t.counters, latches := t.latches, notices := t.notices })

/-- R153: a read of an empty slot shifts out FFh; a read empties the slot when every byte of the reply (five and its body) has been
clocked out, and otherwise leaves it; it changes nothing else and counts nothing. The bytes shifted out are those of Table 0-3: the body's
length in two bytes, the kind, the tag, the status code of Table 0-4, the body, and 00h beyond its end. Only BAD-FRAME's kind, 00h, is the
manual's: the codes of the orders are free (log 12). -/
def Obligations.AReadEmptiesTheSlotOnceItIsWhole : Prop :=
  (∀ (n : Nat) (s : State), s.link.resetnLow = false →
    (s.link.slot = none → exec (.replyRead n) s = .next { s with link := { s.link with sdo := .allOnes } })
    ∧ ∀ r, s.link.slot = some r →
        exec (.replyRead n) s = .next { s with
          link := { s.link with sdo := .reply r n, slot := if n < 5 + r.length then some r else none } })
  ∧ (∀ (r : Reply) (n k : Nat), k < n →
    (∀ hi lo : Byte, hi ++ lo = BitVec.ofNat 16 r.bytes.length →
      (Sdo.reply r n).byte 0 = some hi ∧ (Sdo.reply r n).byte 1 = (if 1 < n then some lo else none))
    ∧ (k = 2 → (Sdo.reply r n).byte k = some r.kind.code) ∧ (k = 3 → (Sdo.reply r n).byte k = some r.tag)
    ∧ (k = 4 → (Sdo.reply r n).byte k = some
        (match r.status with
        | .done => 0x00#8
        | .clamped => 0x01#8
        | .accepted => 0x02#8
        | .busy => 0x10#8
        | .wrongState => 0x11#8
        | .badArgument => 0x12#8
        | .notFound => 0x13#8
        | .full => 0x14#8
        | .already => 0x15#8
        | .late => 0x16#8
        | .lateStored => 0x17#8
        | .badFrame => 0x1F#8))
    ∧ (∀ j b, k = 5 + j → r.bytes[j]? = some b → (Sdo.reply r n).byte k = some b)
    ∧ (5 + r.bytes.length ≤ k → (Sdo.reply r n).byte k = some 0x00#8) ∧ Sdo.allOnes.byte k = some 0xFF#8)
  ∧ ReplyKind.badFrame.code = 0x00#8 ∧ (∀ code : Byte, (ReplyKind.unknown code).code = code)

/-- R155: an order of a kind the part does not know, and every order whose body does not fit its kind, is answered BAD-ARGUMENT with its kind
and tag; an order answered BUSY, WRONG-STATE or BAD-ARGUMENT changes no state and carries an empty body. -/
def Obligations.RefusedOrdersChangeNothing : Prop :=
  ((∀ (kind tag : Byte) (s : State), s.link.resetnLow = false → ∃ t, exec (.orderOfUnknownKind kind tag) s = .next t
    ∧ Replied s t (.unknown kind) tag .badArgument .empty
    ∧ CountersKept s t (fun c => c = .part .repliesLost) ∧ t = { s with link := t.link, counters := t.counters })
  ∧ ∀ (c : Instr) (k : OrderKind) (h : OrderHead) (s : State), orderOf c = some (k, h) → s.link.resetnLow = false →
    h.bodyFits = false → ∃ t, exec c s = .next t ∧ Replied s t (.order k) h.tag .badArgument .empty
      ∧ CountersKept s t (fun c => c = .part .repliesLost) ∧ t = { s with link := t.link, counters := t.counters })
  ∧ (∀ (c : Instr) (k : OrderKind) (h : OrderHead) (s t : State) (r : Reply), orderOf c = some (k, h) →
    s.link.resetnLow = false → exec c s = .next t → t.link.slot = some r →
    r.status = .busy ∨ r.status = .wrongState ∨ r.status = .badArgument →
    r.kind = .order k ∧ r.tag = h.tag ∧ r.body = .empty ∧ CountersKept s t (fun c => c = .part .repliesLost)
      ∧ t = { s with link := t.link, counters := t.counters })

/-! ## Notices, conditions, statistics -/

/-- R161: a notice joins the tail, stamped with the clock; at a full queue it is dropped, notices lost advances by 2 for the first overflow
and by 1 for each later one, and NOTICE OVERFLOW is set. R163: a latch set from clear queues one CONDITION RAISED (stated for a queue
with room); a set latch stays set and queues nothing. -/
def Obligations.NoticesAndLatchesAreQueuedOrLost : Prop :=
  (∀ (b : NoticeBody) (s : State),
    (s.notices.length < 256 → pushNotice b s = { s with notices := s.notices ++ [⟨s.time.clock, b⟩] })
    ∧ (256 ≤ s.notices.length → (pushNotice b s).latchSet .noticeOverflow = true
        ∧ Advanced s (pushNotice b s) (.part .noticesLost) (if s.latchSet .noticeOverflow then 1 else 2)
        ∧ CountersKept s (pushNotice b s) (fun c => c = .part .noticesLost)
        ∧ (∀ l, l ≠ .noticeOverflow → (pushNotice b s).latchSet l = s.latchSet l)
        ∧ pushNotice b s =
            { s with counters := (pushNotice b s).counters, latches := (pushNotice b s).latches }))
  ∧ (∀ (l : Latch) (s : State), (raiseLatch l s).latchSet l = true
    ∧ (s.latchSet l = true → raiseLatch l s = s)
    ∧ (s.latchSet l = false → s.notices.length < Config.notices →
        (∀ o, o ≠ l → (raiseLatch l s).latchSet o = s.latchSet o)
        ∧ raiseLatch l s = { s with
            latches := (raiseLatch l s).latches
            notices := s.notices ++ [⟨s.time.clock, .conditionRaised l⟩] }))

/-- R162: READ NOTICES takes the oldest notices, and its body is a count and, for each, a kind, the stamp in four bytes, the length of the
fields, the fields: READY, with its eleven capacities of four bytes (R161), takes 52 bytes, no other notice more, and eight of them fit the
1,020 bytes of a body. That the count is one byte is the model's choice; the kind codes and the fields of the other notices are free
(log 12). -/
def Obligations.ReadNoticesTakesTheOldest : Prop :=
  (∀ (h : OrderHead) (n : Nat) (s : State), s.Takes h → ∃ t, exec (.readNotices h n) s = .next t
    ∧ if 1 ≤ n ∧ n ≤ 8 then
        Replied s t (.order .readNotices) h.tag .done (.notices (s.notices.take n))
          ∧ (∃ r, t.link.slot = some r ∧ r.bytes =
              BitVec.ofNat 8 (min n s.notices.length) ::
                ((s.notices.take n).mapIdx fun place x => x.bytes s.draws place).flatten)
          ∧ t.notices = s.notices.drop n
          ∧ CountersKept s t (fun c => c = .part .repliesLost)
          ∧ t = { s with link := t.link, notices := t.notices, counters := t.counters, draws := t.draws }
      else Replied s t (.order .readNotices) h.tag .badArgument .empty ∧ t.notices = s.notices)
  ∧ ∀ (x : Notice) (draw place : Nat), ∃ kind fields,
    x.bytes draw place =
      kind :: x.stamp.extractLsb' 24 8 :: x.stamp.extractLsb' 16 8 :: x.stamp.extractLsb' 8 8 :: x.stamp.extractLsb' 0 8
        :: BitVec.ofNat 8 fields.length :: fields
    ∧ (x.bytes draw place).length ≤ 52
    ∧ ∀ k c revision, x.body = .ready k c revision → (x.bytes draw place).length = 52 ∧ fields.getLast? = some revision
      ∧ ∀ j w, [c.cells, c.stations, c.tickets, c.sections, c.channels, c.copies, c.handovers, c.referrals, c.notices, c.shortBuffers,
          c.longBuffers][j]? = some w →
        (fields[4 * j + 1]?, fields[4 * j + 2]?, fields[4 * j + 3]?, fields[4 * j + 4]?) =
          (some (BitVec.ofNat 8 (w / 2 ^ 24)), some (BitVec.ofNat 8 (w / 2 ^ 16)), some (BitVec.ofNat 8 (w / 2 ^ 8)),
            some (BitVec.ofNat 8 w))

/-- R163, R165, R166: READ CONDITIONS gives two bits for each of the fourteen latches, in the order of R163: whether it is set, and whether
its cause is present, which is never for RESET, NOTICE OVERFLOW and CONTROL LINK ERROR, while its trunk is LINK DOWN for TRUNK LINK LOST,
while its pool has no free buffer for the two exhaustions, and while no station record is FREE and none DORMANT for STATION TABLE FULL.
CLEAR CONDITIONS clears each named latch whose cause is absent and reports the same, or refuses an unknown mask bit (latch i is bit i of the
mask, log 28). -/
def Obligations.ConditionsAreReportedAndCleared : Prop :=
  (∀ (h : OrderHead) (s : State), s.Takes h → s.Fits → ∃ t list, exec (.readConditions h) s = .next t
    ∧ Replied s t (.order .readConditions) h.tag .done (.conditions list) ∧ s.Reports list
    ∧ CountersKept s t (fun c => c = .part .repliesLost)
    ∧ t = { s with link := t.link, counters := t.counters, draws := t.draws })
  ∧ (∀ (h : OrderHead) (mask : BitVec 16) (s : State), s.Takes h → s.Fits → ∃ t list, exec (.clearConditions h mask) s = .next t
    ∧ if mask.toNat < 2 ^ 14 then
        Replied s t (.order .clearConditions) h.tag .done (.conditions list) ∧ t.Reports list
          ∧ (∀ l : Latch, t.latchSet l = true ↔ s.latchSet l = true ∧ (mask.getLsbD l.index = true → s.CausePresent l))
          ∧ CountersKept s t (fun c => c = .part .repliesLost)
          ∧ t = { s with link := t.link, latches := t.latches, counters := t.counters, draws := t.draws }
      else Replied s t (.order .clearConditions) h.tag .badArgument .empty ∧ t.latches = s.latches)

/-- R168: the frozen view is made with every counter and the snap time, and discarded. That the view holds the counters as they are before
this order's own reply can lose an unread one is the model's choice (log 22). -/
def Obligations.SnapAndUnsnapMakeAndDiscardTheView : Prop :=
  ∀ (h : OrderHead) (s : State), s.Takes h → ∃ t u, exec (.snapStats h) s = .next t ∧ exec (.unsnapStats h) s = .next u
    ∧ (s.view = none → t.view = some ⟨s.counters, s.time.clock⟩ ∧ Replied s t (.order .snapStats) h.tag .done .empty
        ∧ u.view = none ∧ Replied s u (.order .unsnapStats) h.tag .already .empty)
    ∧ (∀ v, s.view = some v → t.view = some v ∧ Replied s t (.order .snapStats) h.tag .already .empty
        ∧ u.view = none ∧ Replied s u (.order .unsnapStats) h.tag .done .empty)
    ∧ CountersKept s t (fun c => c = .part .repliesLost) ∧ CountersKept s u (fun c => c = .part .repliesLost)
    ∧ t = { s with link := t.link, view := t.view, counters := t.counters }
    ∧ u = { s with link := u.link, view := u.view, counters := u.counters }

/-- R169: READ STATS gives every counter of its scope by name (section 11.2), from the view with its snap time while one stands and else
live, and beside them the present values of R11, R51, R68, R69, R101, R114, R137 and R168; it changes nothing. A scope that is unknown or
out of range is BAD-ARGUMENT. That the live values are those before this order's own reply can lose an unread one is the model's choice
(log 22). -/
def Obligations.ReadStatsReadsTheViewWhileItStands : Prop :=
  ∀ (h : OrderHead) (scope : StatsScope) (s : State), s.Takes h → ∃ t, exec (.readStats h scope) s = .next t
    ∧ CountersKept s t (fun c => c = .part .repliesLost)
    ∧ t = { s with link := t.link, counters := t.counters, draws := t.draws }
    ∧ ((scope = .unknown ∨ (∃ n, scope = .cell n ∧ 256 ≤ n) ∨ (∃ n, scope = .trunk n ∧ 8 ≤ n)
          ∨ ∃ n, scope = .channel n ∧ 64 ≤ n) → Replied s t (.order .readStats) h.tag .badArgument .empty)
    ∧ (∀ n, scope = .cell n → n < 256 → ∃ r, Replied s t (.order .readStats) h.tag .done (.stats r)
        ∧ r.snapTime = s.view.map (·.snapTime) ∧ r.present = none ∧ r.trunkState = none ∧ r.counters.length = 8
        ∧ ∀ k, (Counter.cell n k, s.shown (.cell n k)) ∈ r.counters)
    ∧ (∀ n, scope = .trunk n → n < 8 → ∃ r, Replied s t (.order .readStats) h.tag .done (.stats r)
        ∧ r.snapTime = s.view.map (·.snapTime) ∧ r.present = none ∧ r.trunkState = some (s.trunk n).state
        ∧ r.counters.length = 4 ∧ ∀ k, (Counter.trunk n k, s.shown (.trunk n k)) ∈ r.counters)
    ∧ (∀ n, scope = .channel n → n < 64 → ∃ r, Replied s t (.order .readStats) h.tag .done (.stats r)
        ∧ r.snapTime = s.view.map (·.snapTime) ∧ r.present = none ∧ r.trunkState = none ∧ r.counters.length = 2
        ∧ ∀ k, (Counter.channel n k, s.shown (.channel n k)) ∈ r.counters)
    ∧ (scope = .partWide → ∃ r, Replied s t (.order .readStats) h.tag .done (.stats r)
        ∧ r.snapTime = s.view.map (·.snapTime) ∧ r.trunkState = none ∧ r.counters.length = 57
        ∧ (∀ k, (Counter.part k, s.shown (.part k)) ∈ r.counters)
        ∧ r.present = some
          { freeShort := 8192 - s.pools.short.size, freeLong := 4096 - s.pools.long.size
            egress := s.backbone.queue.length, stationsFree := 16384 - s.stations.size
            associated := (s.stations.entries.filter fun x => x.2.place.isAssociated).length
            moving := (s.stations.entries.filter fun x => x.2.place.isMoving).length
            dormant := (s.stations.entries.filter fun x => x.2.place == .dormant).length
            handovers := s.handovers.size, tickets := s.tickets.size
            loaded := (s.tickets.entries.filter fun x => x.2.state == .loaded).length
            inside := (s.tickets.entries.filter fun x => x.2.state == .inside).length
            seated := (s.tickets.entries.filter fun x => x.2.state.isSeated).length
            outside := (s.tickets.entries.filter fun x => x.2.state == .outside).length
            void := (s.tickets.entries.filter fun x => x.2.state == .void).length
            parked := s.referrals.length
            copiesActive := (s.copies.entries.filter fun x => x.2.state == .active).length
            copiesHeld := (s.copies.entries.filter fun x => x.2.state == .held).length
            memberships := (s.stations.entries.map fun x => x.2.members.length).sum, clock := s.time.clock })

/-! ## Cells and polling -/

/-- R3: CONFIGURE CELL, by the cell's state and kind; an unknown kind code is answered BAD-ARGUMENT. That a cell configured in SERVICE on an
ACTIVE or DRAINING trunk has its POLL queued on time in the order's own effect, as R6 asks at a due time reached, where R3's table gives a
new cell none, is the model's choice (log 41). -/
def Obligations.ConfigureCellFollowsItsTable : Prop :=
  ∀ (h : OrderHead) (cell : Nat) (kind : CellKind) (s : State), s.Takes h → cell < 256 →
    (∃ t, exec (.configureCell h cell none) s = .next t
      ∧ Replied s t (.order .configureCell) h.tag .badArgument .empty
      ∧ t = { s with link := t.link, counters := t.counters })
    ∧ (s.cells.look cell = none → ∃ e, exec (.configureCell h cell (some kind)) s = .next (closeEvent e)
      ∧ Replied s e (.order .configureCell) h.tag .done .empty ∧ CountersKept s e (fun c => c = .part .repliesLost)
      ∧ (∀ n, e.cells.look n = if n = cell then some
          { kind := kind
            state := if (s.trunk (cell / 32)).state = .linkDown then .down else .active
            missed := if (s.trunk (cell / 32)).state = .linkDown then 3 else 0
            awaited := false
            due := if s.time.service = .service then some s.time.clock else none
            queued := if s.time.service = .service ∧
              ((s.trunk (cell / 32)).state = .active ∨ (s.trunk (cell / 32)).state = .draining) then .onTime else .none
            account := ⟨24, 60, 400, 60000, 0, 0⟩ } else s.cells.look n)
      ∧ e = { s with link := e.link, cells := e.cells, counters := e.counters })
    ∧ (∀ c, s.cells.look cell = some c → c.kind = kind → ∃ t, exec (.configureCell h cell (some kind)) s = .next t
      ∧ Replied s t (.order .configureCell) h.tag .already .empty
      ∧ t = { s with link := t.link, counters := t.counters })
    ∧ (∀ c, s.cells.look cell = some c → c.kind ≠ kind →
      ∃ e, exec (.configureCell h cell (some kind)) s = .next (closeEvent e)
      ∧ Replied s e (.order .configureCell) h.tag .done .empty
      ∧ (∀ n, e.cells.look n = if n = cell then some { c with kind := kind } else s.cells.look n)
      ∧ e = { s with link := e.link, cells := e.cells, counters := e.counters })

/-- R4: REMOVE CELL of an UNCONFIGURED cell, of a DOWN cell, and of a cell that is not DOWN: it goes DOWN by R10 with what it serves, CELL
DOWN says REMOVED, its messages leave its trunk's queue and its record ends. -/
def Obligations.RemoveCellDiscardsTheCell : Prop :=
  ∀ (h : OrderHead) (cell : Nat) (s : State), s.Takes h → cell < 256 →
    (s.cells.look cell = none → ∃ t, exec (.removeCell h cell) s = .next t
      ∧ Replied s t (.order .removeCell) h.tag .notFound .empty ∧ t = { s with link := t.link, counters := t.counters })
    ∧ (∀ c, s.cells.look cell = some c →
      (∀ e ∈ s.stations.entries, e.2.place.associatedAt cell = false) →
      (∀ e ∈ s.handovers.entries, e.2.oldCell ≠ cell ∧ e.2.newCell ≠ cell) → s.notices.length < Config.notices →
      ∃ e, exec (.removeCell h cell) s = .next (closeEvent e)
        ∧ Replied s e (.order .removeCell) h.tag .done .empty ∧ CountersKept s e (fun c => c = .part .repliesLost)
        ∧ (∀ n, e.cells.look n = if n = cell then none else s.cells.look n)
        ∧ (∀ t, e.trunk t = if t = cell / 32 then
            { s.trunk t with signals := (s.trunk t).signals.filter fun m => m.cell != cell } else s.trunk t)
        ∧ e.notices = s.notices ++ (if c.state = .down then [] else [⟨s.time.clock, .cellDown cell .removed⟩])
        ∧ e = { s with
            link := e.link, notices := e.notices, cells := e.cells, trunks := e.trunks, counters := e.counters })
    ∧ ∀ c, s.cells.look cell = some c → c.state ≠ .down → s.Fits → s.HandoverLaw →
      ∃ e, exec (.removeCell h cell) s = .next (closeEvent e)
        ∧ Replied s e (.order .removeCell) h.tag .done .empty ∧ WentDown s e cell
        ∧ (∀ n k, n ≠ cell → s.cells.look n = some k → ∃ account, e.cells.look n = some { k with account := account })
        ∧ e.cells.look cell = none ∧ (∀ x ∈ (e.trunk (cell / 32)).signals, x.cell ≠ cell)
        ∧ (s.notices.length < Config.notices → e.notices = s.notices ++ [⟨s.time.clock, .cellDown cell .removed⟩])
        ∧ e = { s with
            link := e.link, notices := e.notices, latches := e.latches, counters := e.counters, cells := e.cells
            trunks := e.trunks, pools := e.pools, stations := e.stations, handovers := e.handovers
            copies := e.copies, created := e.created, owed := e.owed, draws := e.draws }

/-- R5, R67, R96, R124, R155: the four queries are answered with every figure that the rule lists, as it stands, and change nothing. A
number out of range, an unknown selector and an address that names no phone are BAD-ARGUMENT, an address of no record NOT-FOUND, a ticket
query during a purge BUSY; an absent ticket is NOT-FOUND with the claim parked for it. QUERY CHANNEL lists 32 copies in cell order. Two
choices are the model's: that a QUERY CELL of a number above 255, on which R5 is silent, is BAD-ARGUMENT as R155 has it for a value that the
order's rule does not allow (log 14), and that the continuation is the cell of the first copy not listed (log 43). -/
def Obligations.QueriesReportAndChangeNothing : Prop :=
  ∀ (h : OrderHead) (s : State), s.Takes h →
    (∀ cell, ∃ t, exec (.queryCell h cell) s = .next t ∧ CountersKept s t (· = .part .repliesLost)
      ∧ t = { s with link := t.link, counters := t.counters, draws := t.draws }
      ∧ (256 ≤ cell → Replied s t (.order .queryCell) h.tag .badArgument .empty)
      ∧ (cell < 256 → s.cells.look cell = none → Replied s t (.order .queryCell) h.tag .done (.unconfiguredCell cell))
      ∧ ∀ c, cell < 256 → s.cells.look cell = some c → Replied s t (.order .queryCell) h.tag .done (.cell
          { number := cell, trunk := cell / 32, slot := cell % 32, kind := c.kind, state := c.state
            trunkState := (s.trunk (cell / 32)).state, missed := c.missed, awaited := c.awaited, due := c.due
            queued := c.queued, account := c.account
            stations := (s.stations.entries.filter fun x => x.2.place.cell? == some cell).length
            activeCopies := (s.copies.entries.filter fun x => x.2.cell == cell && x.2.state == .active).length
            heldCopies := (s.copies.entries.filter fun x => x.2.cell == cell && x.2.state == .held).length }))
    ∧ (∀ sel, ∃ t, exec (.queryStation h sel) s = .next t ∧ CountersKept s t (· = .part .repliesLost)
      ∧ t = { s with link := t.link, counters := t.counters, draws := t.draws }
      ∧ (sel = .unknown ∨ (∃ i, sel = .index i ∧ 16384 ≤ i.toNat) ∨ (∃ a, sel = .address a ∧ (a = 0 ∨ isGroup a = true)) →
        Replied s t (.order .queryStation) h.tag .badArgument .empty)
      ∧ (∀ a, sel = .address a → a ≠ 0 → isGroup a = false → s.stationWith a = none →
        Replied s t (.order .queryStation) h.tag .notFound .empty)
      ∧ (∀ i, sel = .index i → i.toNat < 16384 → s.stations.look i.toNat = none →
        Replied s t (.order .queryStation) h.tag .done (.freeStation i.toNat))
      ∧ ∀ i st, (∃ n, sel = .index n ∧ n.toNat = i ∧ i < 16384 ∧ s.stations.look i = some st)
          ∨ (∃ a, sel = .address a ∧ a ≠ 0 ∧ isGroup a = false ∧ s.stationWith a = some (i, st)) →
        Replied s t (.order .queryStation) h.tag .done (.station
          { index := i, addr := st.addr, place := st.place, prev := st.prev, ticket := st.ticket, cls := st.cls
            weight := st.weight, members := st.members, lastHeard := st.lastHeard
            age := (s.time.clock - st.lastHeard).toNat, paused := st.paused, rate := st.rate
            credit := st.credit / (800 * s.time.grain), queueLength := st.queue.length
            headLength := st.queue.head?.map (·.length)
            handover := (s.handovers.look i).map fun x => (x.newCell, x.start) }))
    ∧ (∀ n : TicketNumber, ∃ t, exec (.queryTicket h n) s = .next t ∧ CountersKept s t (· = .part .repliesLost)
      ∧ t = { s with link := t.link, counters := t.counters, draws := t.draws }
      ∧ (n = 0 → Replied s t (.order .queryTicket) h.tag .badArgument .empty)
      ∧ (n ≠ 0 → s.purge ≠ none → Replied s t (.order .queryTicket) h.tag .busy .empty)
      ∧ (n ≠ 0 → s.purge = none → s.ticket n = none → Replied s t (.order .queryTicket) h.tag .notFound (.noTicket
          ((s.referrals.find? fun q => q.claim.number == n).map fun q => ⟨q.id, q.park, q.claim.kind, q.claim.cell⟩)))
      ∧ ∀ k, n ≠ 0 → s.purge = none → s.ticket n = some k → Replied s t (.order .queryTicket) h.tag .done (.ticket
          ⟨n, k, match k.state with
            | .seated i => (s.stations.look i).map fun st => (i, st.addr, st.place)
            | _ => none⟩))
    ∧ ∀ k cell, ∃ t, exec (.queryChannel h k cell) s = .next t ∧ CountersKept s t (· = .part .repliesLost)
      ∧ t = { s with link := t.link, counters := t.counters, draws := t.draws }
      ∧ (64 ≤ k ∨ 256 ≤ cell → Replied s t (.order .queryChannel) h.tag .badArgument .empty)
      ∧ (k < 64 → cell < 256 → ∃ list : List (Nat × Copy),
        list.Perm (s.copies.entries.filter fun x => x.2.channel == k && decide (cell ≤ x.2.cell))
        ∧ list.Pairwise (fun x y => x.2.cell ≤ y.2.cell)
        ∧ Replied s t (.order .queryChannel) h.tag .done (.channel
          { number := k
            parameters := (s.channels.look k).map fun ch =>
              { isOpen := ch.isOpen, entitled := ch.entitled, recovery := ch.recovery
                full := ⟨ch.full, (ch.full.frameBytes * 800 + ch.full.rate - 1) / ch.full.rate⟩
                reduced := ch.reduced.map fun r => ⟨r, (r.frameBytes * 800 + r.rate - 1) / r.rate⟩ }
            copies := (s.copies.entries.filter fun x => x.2.channel == k).length
            activeFull := (s.copies.entries.filter fun x =>
              x.2.channel == k && x.2.state == .active && x.2.tier == .full).length
            activeReduced := (s.copies.entries.filter fun x =>
              x.2.channel == k && x.2.state == .active && x.2.tier == .reduced).length
            held := (s.copies.entries.filter fun x => x.2.channel == k && x.2.state == .held).length
            members := ((s.copies.entries.filter fun x => x.2.channel == k).map fun x => x.2.members).sum
            entries := (list.take 32).map fun x =>
              { number := x.1, cell := x.2.cell, tier := x.2.tier, state := x.2.state, level := x.2.level
                clean := x.2.clean, members := x.2.members, load := x.2.load, queueLength := x.2.queue.length
                nextDue := x.2.nextDue }
            next := list[32]?.map fun x => x.2.cell }))

/-- R6, R33, R34: a POLL whose due time is reached is queued in class 5, one past its overdue point moves to class 1, and the due time of a
copy and the credit of a station that are reached only let the arbiter look; before its moment each event changes nothing (log 6): a POLL
due in CONFIG, on a trunk that is HELD or LINK DOWN, without a due time or with a POLL queued already, and one overdue before its overdue
point or with no POLL queued in class 5; so does an event of an UNCONFIGURED cell, a FREE copy or a FREE station. That a time is reached
while the difference lies in the lower half of the clock's range, 2^31 ms or 2^47 ticks, is the model's choice (log 7). -/
def Obligations.TimedEventsOpenTheArbiter : Prop :=
  (∀ (cell : Nat) (s : State), s.cells.look cell = none →
    exec (.pollDue cell) s = .next s ∧ exec (.pollOverdue cell) s = .next s)
  ∧ (∀ (cell : Nat) (c : Cell) (s : State), s.cells.look cell = some c →
    (s.time.service = .config ∨ (s.trunk (cell / 32)).state = .held ∨ (s.trunk (cell / 32)).state = .linkDown
      ∨ c.queued ≠ .none ∨ c.due = none → exec (.pollDue cell) s = .next s)
    ∧ (c.queued ≠ .onTime ∨ c.due = none → exec (.pollOverdue cell) s = .next s)
    ∧ ∀ d, c.due = some d → (s.time.clock - d).toNat < s.settings.timers.poll / 4 → exec (.pollOverdue cell) s = .next s)
  ∧ (∀ (cell : Nat) (c : Cell) (d : Clock) (s : State), s.cells.look cell = some c → c.due = some d →
    (s.time.service = .service → (s.trunk (cell / 32)).state = .active ∨ (s.trunk (cell / 32)).state = .draining →
      c.queued = .none → (s.time.clock - d).toNat < 2 ^ 31 →
      ∃ e, exec (.pollDue cell) s = .next (closeEvent e)
        ∧ (∀ n, e.cells.look n = if n = cell then some { c with queued := .onTime } else s.cells.look n)
        ∧ e = { s with cells := e.cells })
    ∧ (c.queued = .onTime → (s.time.clock - d).toNat < 2 ^ 31 → s.settings.timers.poll / 4 ≤ (s.time.clock - d).toNat →
      ∃ e, exec (.pollOverdue cell) s = .next (closeEvent e)
        ∧ (∀ n, e.cells.look n = if n = cell then some { c with queued := .overdue } else s.cells.look n)
        ∧ e = { s with cells := e.cells })
    ∧ (2 ^ 31 ≤ (s.time.clock - d).toNat →
      exec (.pollDue cell) s = .next s ∧ exec (.pollOverdue cell) s = .next s))
  ∧ (∀ (n : Nat) (s : State), (s.copies.look n = none → exec (.copyDue n) s = .next s)
    ∧ (s.stations.look n = none → exec (.stationCreditReady n) s = .next s))
  ∧ (∀ (n : Nat) (c : Copy) (s : State), s.copies.look n = some c →
    exec (.copyDue n) s = .next
      (if c.state = .active ∧ c.queue ≠ [] ∧ (s.time.tick - c.nextDue).toNat < 2 ^ 47 then closeEvent s else s))
  ∧ ∀ (i : Nat) (st : Station) (s : State), s.stations.look i = some st →
    exec (.stationCreditReady i) s = .next
      (if 0 < st.rate ∧ st.queue.head?.any (fun x => x.length ≤ st.credit / (800 * s.time.grain)) = true then closeEvent s else s)

/-- R7, R6: a POLL sent settles the previous one by the table of R7 and sets the next due time; the account aside, nothing else of the
cell changes. The third miss takes the cell DOWN with what it serves (R10). -/
def Obligations.APollSentSettlesThePreviousOne : Prop :=
  ∀ (t cell : Nat) (c : Cell) (s : State), s.cells.look cell = some c → c.missed ≤ 3 →
    (∃ account, (sendPoll t cell s).cells.look cell = some
        { kind := c.kind
          state := if c.awaited = false then c.state else
            if c.missed < 2 then .silent else if c.missed = 2 then .down else c.state
          missed := if c.awaited = false then c.missed else if c.missed < 3 then c.missed + 1 else 3
          awaited := true, due := some (s.time.clock + BitVec.ofNat 32 s.settings.timers.poll), queued := .none
          account := account }
      ∧ Advanced s (sendPoll t cell s) (.cell cell .pollsMissed) (if c.awaited = true then 1 else 0)
      ∧ (sendPoll t cell s).time = s.time ∧ (sendPoll t cell s).settings = s.settings)
    ∧ (s.Fits → s.HandoverLaw → c.awaited = true → c.missed = 2 → WentDown s (sendPoll t cell s) cell
      ∧ (s.notices.length < Config.notices →
        (sendPoll t cell s).notices = s.notices ++ [⟨s.time.clock, .cellDown cell .missedPolls⟩]))
    ∧ (c.awaited = false ∨ c.missed ≠ 2 → (sendPoll t cell s).stations = s.stations
      ∧ (sendPoll t cell s).handovers = s.handovers ∧ (sendPoll t cell s).notices = s.notices)

/-- R8, R9, R61: a POLL REPLY brings its cell to ACTIVE with count 0, reports CELL UP only from DOWN, and refreshes the heard stations
ASSOCIATED at the cell. R135, R146: a set pressure mark is counted, treats every ACTIVE copy of the cell by its recovery code, a FLUSH copy's
discarded entries counted and their buffers released, and recomputes M; if M fell, a re-admission pass runs and the rates follow. -/
def Obligations.APollReplyBringsItsCellToActive : Prop :=
  ∀ (m : MessageHead) (mark count : Byte) (heard : List Addr) (c : Cell) (s : State), s.Fits →
    (s.trunk m.trunk.val).state = .active ∨ (s.trunk m.trunk.val).state = .draining → s.time.service = .service →
    m.slot.toNat < 32 → m.frameLength = 10 + m.bodyLength.toNat → m.bodyLength.toNat = 2 + 6 * count.toNat →
    count.toNat ≤ 64 → heard.length = count.toNat → s.cells.look (cellOf m) = some c →
    s.notices.length < Config.notices →
    (mark = 0 → ∃ e, exec (.pollReply m mark count heard) s = .next (closeEvent e)
      ∧ (∀ n, e.cells.look n = if n = cellOf m then
          some { c with awaited := false, missed := 0, state := .active } else s.cells.look n)
      ∧ e.notices = s.notices ++ (if c.state = .down then [⟨s.time.clock, .cellUp (cellOf m)⟩] else [])
      ∧ (∀ i st, s.stationWith st.addr = some (i, st) → st.place.associatedAt (cellOf m) = true →
          st.addr ∈ heard → st.addr ≠ 0 → isGroup st.addr = false →
          e.stations.look i = some { st with lastHeard := s.time.clock })
      ∧ (∀ i st, s.stations.look i = some st → st.place.associatedAt (cellOf m) = false ∨ st.addr ∉ heard →
          e.stations.look i = some st)
      ∧ e = { s with cells := e.cells, notices := e.notices, stations := e.stations })
    ∧ (mark = 1 → ∃ e, exec (.pollReply m mark count heard) s = .next (closeEvent e)
      ∧ Advanced s e (.cell (cellOf m) .pressureMarks) 1
      ∧ (∃ k account, e.cells.look (cellOf m) = some k
          ∧ k = { c with awaited := false, missed := 0, state := .active, account := account })
      ∧ ∃ u, u.account (cellOf m) = some { c.account with m := u.activeLoad (cellOf m) }
        ∧ (∀ n k ch, s.copies.look n = some k → k.cell = cellOf m → k.state = .active →
            s.channels.look k.channel = some ch → u.copies.look n = some (pressed c.account ch k))
        ∧ (∀ n k, s.copies.look n = some k → k.cell ≠ cellOf m ∨ k.state = .held → u.copies.look n = some k)
        ∧ (∀ i st, s.stations.look i = some st → u.stations.look i = some
            (if st.place.associatedAt (cellOf m) = true ∧ st.addr ∈ heard ∧ st.addr ≠ 0 ∧ isGroup st.addr = false
                ∧ s.stationWith st.addr = some (i, st) then { st with lastHeard := s.time.clock } else st))
        ∧ u.notices = s.notices ++ (if c.state = .down then [⟨s.time.clock, .cellUp (cellOf m)⟩] else [])
        ∧ (∀ n, n ≠ cellOf m → u.cells.look n = s.cells.look n)
        ∧ (∀ lost, lost = (s.copies.entries.filter fun x => x.2.cell == cellOf m && x.2.state == .active
              && (s.channels.look x.2.channel).any fun ch => ch.recovery == .flush).flatMap (fun x => x.2.queue) →
          Advanced s u (.cell (cellOf m) .pressureMarks) 1 ∧ Advanced s u (.cell (cellOf m) .replayDiscarded) lost.length
            ∧ CountersKept s u (fun x => x = .cell (cellOf m) .pressureMarks ∨ x = .cell (cellOf m) .replayDiscarded)
            ∧ ReleasedAll s u lost)
        ∧ u = { s with
            notices := u.notices, counters := u.counters, cells := u.cells, pools := u.pools, stations := u.stations
            copies := u.copies }
        ∧ e = if u.activeLoad (cellOf m) < c.account.m then refreshRates (cellOf m) (readmit (cellOf m) u) else u)

/-- R25, R26, R27: a message on a HELD trunk, in CONFIG, oversize, from an UNCONFIGURED cell or (but for POLL REPLY) a DOWN one, or naming
no phone where it must, and every frame that is no message, changes nothing but the one counter its check names; on a LINK DOWN trunk
nothing arrives. So does a message malformed by its kind: a body of another length than R20 gives, a pressure mark above 1, a heard count
above 64, a claim kind other than 1 to 3, ticket number 0, a channel above 63. R42, R50: the same of frames at the backbone port, a replay
frame under 17 bytes, any other under 15, and an oversize one among them, each sorted by its type alone (log 38). -/
def Obligations.DiscardedFramesOnlyCount : Prop :=
  ((∀ (c : Instr) (m : MessageHead) (s : State), messageOf c = some m → ∃ t, exec c s = .next t ∧
    let trunk := s.trunk m.trunk.val
    (trunk.state = .linkDown → t = s)
    ∧ (trunk.state = .held → OnlyCounts s t (.trunk m.trunk.val .discardedWhileHeld))
    ∧ (trunk.state = .active ∨ trunk.state = .draining →
      (s.time.service = .config → OnlyCounts s t (.trunk m.trunk.val .ingressRejected))
      ∧ (s.time.service = .service →
        (2048 < m.bodyLength.toNat → OnlyCounts s t (.part .oversize))
        ∧ (m.bodyLength.toNat ≤ 2048 →
          m.frameLength ≠ 10 + m.bodyLength.toNat ∨ 31 < m.slot.toNat ∨ s.cells.look (cellOf m) = none
            ∨ ((m.addr = 0 ∨ isGroup m.addr = true ∨ ∃ k, s.cells.look (cellOf m) = some k ∧ k.state = .down)
              ∧ ∀ mark count heard, c ≠ .pollReply m mark count heard)
            ∨ BadForm c →
          OnlyCounts s t (.trunk m.trunk.val .ingressRejected)))))
  ∧ ∀ (k : Fin 8) (len : Option (BitVec 16)) (s : State), ∃ t, exec (.malformedMessage k len) s = .next t ∧
    match (s.trunk k.val).state with
    | .linkDown => t = s
    | .held => OnlyCounts s t (.trunk k.val .discardedWhileHeld)
    | _ => OnlyCounts s t (if s.time.service = .service ∧ 2048 < len.elim 0 (·.toNat) then .part .oversize
        else .trunk k.val .ingressRejected))
  ∧ (∀ s : State,
    (∀ c, (c = Instr.malformedBackboneFrame ∨ (∃ d o y g p, c = .replayFrame d o y g p)
        ∨ ∃ d o y p, c = .stationDownlinkFrame d o y p) →
      (s.backbone.up = false → exec c s = .next s)
      ∧ (s.backbone.up = true → s.time.service = .config → ∃ t, exec c s = .next t
        ∧ OnlyCounts s t (.part .backboneRejected)))
    ∧ (s.backbone.up = true → s.time.service = .service → (∃ t, exec .malformedBackboneFrame s = .next t
        ∧ OnlyCounts s t (.part .backboneMalformed))
      ∧ ∀ c type n, IsBackboneFrame c type n →
        (type = s.settings.replayType ∧ type ≠ 0 →
          (14 + n < 17 → ∃ t, exec c s = .next t ∧ OnlyCounts s t (.part .backboneMalformed))
          ∧ (2048 < n - 2 → ∃ t, exec c s = .next t ∧ OnlyCounts s t (.part .oversize)))
        ∧ (type ≠ s.settings.replayType ∨ type = 0 →
          (14 + n < 15 → ∃ t, exec c s = .next t ∧ OnlyCounts s t (.part .backboneMalformed))
          ∧ (2048 < n → ∃ t, exec c s = .next t ∧ OnlyCounts s t (.part .oversize)))))

/-! ## Airtime -/

/-- R139, with the ranges of R138: an unknown cell or mask bit, an UNCONFIGURED cell, and its five steps: the four settings as stored (each
given one clamped, each other kept); if P or H changed, every copy's load as R141 gives it at its tier and level, and M their sum; shedding
(R145); the pass (R144) if M is below M before or B was raised; the rates (R148) if M or C changed. In the end M is the sum of the ACTIVE
loads, each as R141 gives it, and not above B. Only records of that cell change. -/
def Obligations.SetCellAirtimeStoresItsSettings : Prop :=
  ∀ (h : OrderHead) (cell : Nat) (m : AirtimeMask) (v : AirtimeValues) (s : State), s.Takes h → s.Fits →
    (256 ≤ cell ∨ m.unknownBit = true → ∃ t, exec (.setCellAirtime h cell m v) s = .next t
      ∧ Refused s t .setCellAirtime h.tag .badArgument)
    ∧ (cell < 256 → m.unknownBit = false →
      (s.cells.look cell = none → ∃ t, exec (.setCellAirtime h cell m v) s = .next t
        ∧ Refused s t .setCellAirtime h.tag .notFound)
      ∧ ∀ c, s.cells.look cell = some c → ∃ e u w a shedM load, exec (.setCellAirtime h cell m v) s = .next (closeEvent e)
        ∧ Replied s e (.order .setCellAirtime) h.tag
            (if (m.p = true ∧ (v.p < 6 ∨ 600 < v.p)) ∨ (m.h = true ∧ (v.h < 20 ∨ 200 < v.h))
                ∨ (m.b = true ∧ (v.b < 100 ∨ 700 < v.b)) ∨ (m.c = true ∧ (v.c < 1000 ∨ 400000 < v.c))
              then .clamped else .done) .empty
        ∧ a = { p := if m.p = true then max 6 (min 600 v.p) else c.account.p
                h := if m.h = true then max 20 (min 200 v.h) else c.account.h
                b := if m.b = true then max 100 (min 700 v.b) else c.account.b
                c := if m.c = true then max 1000 (min 400000 v.c) else c.account.c
                m := c.account.m, w := c.account.w }
        ∧ (∀ n, u.cells.look n = if n = cell then some
            { c with account := { a with
                m := if a.p ≠ c.account.p ∨ a.h ≠ c.account.h then u.activeLoad cell else c.account.m } }
            else s.cells.look n)
        ∧ (∀ n k ch, s.copies.look n = some k → s.channels.look k.channel = some ch → u.copies.look n = some
            (if k.cell = cell ∧ (a.p ≠ c.account.p ∨ a.h ≠ c.account.h) then
              { k with load := loadAt a (ch.tierOf k.tier) k.level } else k))
        ∧ u = { s with cells := u.cells, copies := u.copies }
        ∧ (shed cell (2 * u.copies.size + 1) u).account cell = some { a with m := shedM }
        ∧ w = (if shedM < c.account.m ∨ c.account.b < a.b then readmit cell (shed cell (2 * u.copies.size + 1) u)
            else shed cell (2 * u.copies.size + 1) u)
        ∧ w.account cell = some { a with m := load } ∧ CountersKept w e (· = .part .repliesLost)
        ∧ e = { (if load ≠ c.account.m ∨ a.c ≠ c.account.c then refreshRates cell w else w) with
            link := e.link, counters := e.counters }
        ∧ e.cells.look cell = some { c with account := { a with m := load } }
        ∧ ((a.p ≠ c.account.p ∨ a.h ≠ c.account.h) ∨ s.LoadsLaw cell → e.LoadsLaw cell ∧ load ≤ a.b)
        ∧ (∀ n, n ≠ cell → e.cells.look n = s.cells.look n)
        ∧ (∀ n k, s.copies.look n = some k → k.cell ≠ cell → e.copies.look n = some k)
        ∧ (∀ i st, s.stations.look i = some st → st.place.cell? ≠ some cell → e.stations.look i = some st)
        ∧ e = { s with
            link := e.link, counters := e.counters, cells := e.cells, pools := e.pools, stations := e.stations
            copies := e.copies })

/-- R145: shedding brings the ACTIVE load of a cell within its budget, touches no copy of another cell, and does nothing when the load is
within it; M stays the sum of the ACTIVE loads (R142). While M is above B, each round takes the newest ACTIVE copy: one at the full tier is
demoted to a reduced tier whose level-0 load is less than its own, any other is HELD; the next round starts from what that leaves. R144: the
re-admission pass does nothing on a trunk that is not ACTIVE; else the oldest HELD copy is admitted just when it fits at a tier, with none
HELD the oldest REDUCED copy is raised just when its full load fits in place of its own; M stays within the budget, and every rate follows
M. With no reduced tier in play, a copy that stays HELD does not fit. -/
def Obligations.SheddingBringsTheLoadWithinTheBudget : Prop :=
  ∀ (cell : Nat) (a : Account) (s : State), s.copies.wf = true → s.account cell = some a → a.m = s.activeLoad cell →
    (∀ n c, s.copies.look n = some c → c.cell = cell → (s.channels.look c.channel).isSome = true) →
    ((a.m ≤ a.b → shed cell (2 * s.copies.size + 1) s = s)
    ∧ (∀ fuel n c ch, a.b < a.m → s.copies.look n = some c → c.cell = cell → c.state = .active →
      s.channels.look c.channel = some ch →
      (∀ j d, s.copies.look j = some d → d.cell = cell → d.state = .active → j = n ∨ d.stamp.toNat < c.stamp.toNat) →
      ∃ u now status, shed cell (fuel + 1) s = shed cell fuel u ∧ Redecided s u n c now status
        ∧ (∀ r, c.tier = .full → ch.reduced = some r → loadAt a r 0 < c.load → status = .reduced ∧ now =
            { c with
              state := .active, tier := .reduced, level := 0, clean := 0, queue := [], nextDue := s.time.tick
              load := loadAt a r 0 })
        ∧ ((∀ r, c.tier = .full → ch.reduced = some r → c.load ≤ loadAt a r 0) → status = .waiting ∧ now =
            { c with state := .held, tier := .full, level := 0, clean := 0, queue := [], load := loadAt a ch.full 0 }))
    ∧ ∃ m, (shed cell (2 * s.copies.size + 1) s).account cell = some { a with m := m } ∧ m ≤ a.b
      ∧ m = (shed cell (2 * s.copies.size + 1) s).activeLoad cell
      ∧ ∀ n c, s.copies.look n = some c → c.cell ≠ cell →
          (shed cell (2 * s.copies.size + 1) s).copies.look n = some c)
    ∧ ((s.trunk (cell / 32)).state ≠ .active → readmit cell s = s)
    ∧ ((s.trunk (cell / 32)).state = .active → s.stations.wf = true → a.m ≤ a.b → ∀ e, e = readmit cell s →
      (∃ m, e.account cell = some { a with m := m } ∧ m ≤ a.b ∧ m = e.activeLoad cell
        ∧ (∀ i st, e.stations.look i = some st → st.place.cell? = some cell →
          st.rate = a.c * (1000 - m) * st.weight / (1000 * a.w))
        ∧ ((∀ n c ch, s.copies.look n = some c → c.cell = cell → s.channels.look c.channel = some ch →
            ch.reduced = none ∧ c.tier = .full) →
          ∀ n c ch, e.copies.look n = some c → c.cell = cell → c.state = .held → s.channels.look c.channel = some ch →
            a.b < m + loadAt a ch.full 0))
      ∧ (∀ n c ch, s.copies.look n = some c → c.cell = cell → c.state = .held → s.channels.look c.channel = some ch →
        (∀ j d, s.copies.look j = some d → d.cell = cell → d.state = .held → j = n ∨ c.stamp.toNat < d.stamp.toNat) →
        (a.b < a.m + loadAt a ch.full 0 → (∀ r, ch.reduced = some r → a.b < a.m + loadAt a r 0) →
          e.copies.look n = some c)
        ∧ (a.m + loadAt a ch.full 0 ≤ a.b → e.copies.look n = some
            { c with
              state := .active, tier := .full, level := 0, clean := 0, queue := [], nextDue := s.time.tick
              load := loadAt a ch.full 0 })
        ∧ (∀ r, a.b < a.m + loadAt a ch.full 0 → ch.reduced = some r → a.m + loadAt a r 0 ≤ a.b →
          ∃ tier, e.copies.look n = some
            { c with
              state := .active, tier := tier, level := 0, clean := 0, queue := [], nextDue := s.time.tick
              load := loadAt a (ch.tierOf tier) 0 }))
      ∧ ((∀ j d, s.copies.look j = some d → d.cell = cell → d.state = .active) →
        ∀ n c ch, s.copies.look n = some c → c.cell = cell → c.tier = .reduced → s.channels.look c.channel = some ch →
          (∀ j d, s.copies.look j = some d → d.cell = cell → d.tier = .reduced → j = n ∨ c.stamp.toNat < d.stamp.toNat) →
          e.copies.look n = some (if a.m + loadAt a ch.full 0 ≤ a.b + c.load then
            { c with
              tier := .full, level := 0, clean := 0, queue := [], nextDue := s.time.tick
              load := loadAt a ch.full 0 } else c))
      ∧ (∀ n c, s.copies.look n = some c → c.cell ≠ cell ∨ (c.state = .active ∧ c.tier = .full) → e.copies.look n = some c)
      ∧ e = { s with
          counters := e.counters, cells := e.cells, pools := e.pools, stations := e.stations, copies := e.copies })

/-- R149: the five weights are clamped into 1 to 15 and stored, every station takes the weight of its class, and W and the rates of
every configured cell follow (R147, R148; log 36). -/
def Obligations.SetClassWeightsReweighsEveryStation : Prop :=
  ∀ (h : OrderHead) (w : ClassWeights) (s : State), s.Takes h →
    ∃ e x, exec (.setClassWeights h w) s = .next (closeEvent e)
      ∧ x = (⟨max 1 (min 15 w.unticketed), max 1 (min 15 w.general), max 1 (min 15 w.premium),
          max 1 (min 15 w.hospitality), max 1 (min 15 w.staff)⟩ : ClassWeights)
      ∧ Replied s e (.order .setClassWeights) h.tag (if x = w then .done else .clamped) .empty
      ∧ e.settings = { s.settings with weights := x }
      ∧ (∀ i st, s.stations.look i = some st → ∃ rate, e.stations.look i =
          some { st with weight := classWeight x st.cls, rate := rate })
      ∧ (∀ n c, s.cells.look n = some c → ∃ sum, e.cells.look n = some { c with account := { c.account with w := sum } })
      ∧ (∀ n, e.RatesLaw n)
      ∧ e = { s with
          link := e.link, counters := e.counters, settings := e.settings, cells := e.cells, stations := e.stations }

/-! ## Trunks and links -/

/-- R14 and R15: HOLD TRUNK by service and trunk state; on an ACTIVE trunk the hold begins: DRAINING with the order's tag, run count 0,
every ACTIVE copy at its cells HELD with an empty queue, its entries counted and their buffers released, and the load of the full tier at
level 0 (R141); their members are WAITING, M of each of the trunk's cells is 0, and the rates follow (R148). The rest stays as it is. -/
def Obligations.HoldTrunkStartsTheDrain : Prop :=
  ∀ (h : OrderHead) (k : Nat) (s : State), s.Takes h → s.Fits →
    (8 ≤ k → ∃ t, exec (.holdTrunk h k) s = .next t ∧ Refused s t .holdTrunk h.tag .badArgument)
    ∧ (k < 8 →
      (s.time.service = .config ∨ (s.trunk k).state = .linkDown → ∃ t, exec (.holdTrunk h k) s = .next t
        ∧ Refused s t .holdTrunk h.tag .wrongState)
      ∧ (s.time.service = .service → (s.trunk k).state = .draining ∨ (s.trunk k).state = .held →
        ∃ t, exec (.holdTrunk h k) s = .next t ∧ Refused s t .holdTrunk h.tag .already)
      ∧ (s.time.service = .service → (s.trunk k).state = .active →
        ∃ e, exec (.holdTrunk h k) s = .next (closeEvent e)
          ∧ Replied s e (.order .holdTrunk) h.tag .accepted .empty
          ∧ (∀ j, e.trunk j = if j = k then
              { s.trunk k with state := .draining, holdTag := some h.tag, run := 0 } else s.trunk j)
          ∧ (∀ n c a ch, s.copies.look n = some c → c.state = .active → c.cell / 32 = k → s.account c.cell = some a →
              s.channels.look c.channel = some ch → e.copies.look n = some
                { c with state := .held, tier := .full, level := 0, clean := 0, queue := [], load := loadAt a ch.full 0 })
          ∧ (∀ n c, s.copies.look n = some c → c.state = .held ∨ c.cell / 32 ≠ k → e.copies.look n = some c)
          ∧ (∀ n, s.copies.look n = none → e.copies.look n = none)
          ∧ (∀ n, e.cells.look n = (s.cells.look n).map fun c =>
              if n / 32 = k then { c with account := { c.account with m := 0 } } else c)
          ∧ (∀ i, e.stations.look i = (s.stations.look i).map fun st =>
              match st.place.cell? with
              | some n => if n / 32 = k then
                  { st with
                    members := st.members.map fun x =>
                      if ∃ y ∈ s.activeOn k, y.2.channel = x.channel ∧ y.2.cell = n then { x with status := .waiting } else x
                    rate := e.rateAt n st }
                else st
              | none => st)
          ∧ (∀ n, Advanced s e (.cell n .replayDiscarded)
              (((s.activeOn k).filter fun x => x.2.cell == n).map fun x => x.2.queue.length).sum)
          ∧ CountersKept s e (fun x => x = .part .repliesLost ∨ ∃ n, x = .cell n .replayDiscarded)
          ∧ ReleasedAll s e ((s.activeOn k).flatMap fun x => x.2.queue)
          ∧ e = { s with
              link := e.link, counters := e.counters, cells := e.cells, trunks := e.trunks, pools := e.pools
              stations := e.stations, copies := e.copies }))

/-- R18 and R19: RELEASE TRUNK by service and trunk state; a drain is cancelled with HOLD CANCELLED; a HELD trunk is ACTIVE again, its
cells polled at once in class 1 and ACTIVE with count 0 unless DOWN, its stations' aging resumed by the hold length. Then, in both, the
re-admission pass (R144) runs in each configured cell of the trunk, and the rest is as before. A station past dormant after at its release is
DORMANT by an event that follows (log 44). -/
def Obligations.ReleaseTrunkEndsTheHold : Prop :=
  ∀ (h : OrderHead) (k : Nat) (s : State), s.Takes h → s.Fits →
    (8 ≤ k → ∃ t, exec (.releaseTrunk h k) s = .next t ∧ Refused s t .releaseTrunk h.tag .badArgument)
    ∧ (k < 8 →
      (s.time.service = .config ∨ (s.trunk k).state = .linkDown → ∃ t, exec (.releaseTrunk h k) s = .next t
        ∧ Refused s t .releaseTrunk h.tag .wrongState)
      ∧ (s.time.service = .service → (s.trunk k).state = .active →
        ∃ t, exec (.releaseTrunk h k) s = .next t ∧ Refused s t .releaseTrunk h.tag .already)
      ∧ (s.time.service = .service → (s.trunk k).state = .draining → s.notices.length < Config.notices →
        ∃ e, exec (.releaseTrunk h k) s = .next (closeEvent e)
          ∧ Replied s e (.order .releaseTrunk) h.tag .done .empty
          ∧ (∀ j, e.trunk j = if j = k then { s.trunk k with state := .active, holdTag := none } else s.trunk j)
          ∧ e.notices = s.notices ++ [⟨s.time.clock, .holdCancelled k (s.trunk k).holdTag .release⟩]
          ∧ (∃ v, TrunkReadmitted k { s with notices := e.notices, trunks := e.trunks } v
            ∧ CountersKept v e (· = .part .repliesLost) ∧ e = { v with link := e.link, counters := e.counters })
          ∧ OffTrunkKept s e k
          ∧ e = { s with
              link := e.link, notices := e.notices, counters := e.counters, cells := e.cells, trunks := e.trunks
              pools := e.pools, stations := e.stations, copies := e.copies })
      ∧ (∀ since, s.time.service = .service → (s.trunk k).state = .held → (s.trunk k).heldSince = some since →
        ∃ e, exec (.releaseTrunk h k) s = .next (closeEvent e)
          ∧ Replied s e (.order .releaseTrunk) h.tag .done .empty
          ∧ (∀ j, e.trunk j = if j = k then
              { s.trunk k with state := .active, holdTag := none, heldSince := none } else s.trunk j)
          ∧ (∀ n c, s.cells.look n = some c → if n / 32 = k then
              ∃ account, e.cells.look n = some
                { c with
                  state := if c.state = .down then .down else .active
                  missed := if c.state = .down then c.missed else 0
                  due := some s.time.clock, queued := .overdue, account := account }
              else e.cells.look n = some c)
          ∧ (∀ i st cell, s.stations.look i = some st → st.place.cell? = some cell → cell / 32 = k →
              ∃ members rate, e.stations.look i = some
                { st with
                  paused := false, lastHeard := st.lastHeard + (s.time.clock - since), members := members, rate := rate })
          ∧ (∃ u v : State, (∀ n, u.cells.look n = (s.cells.look n).map fun c => if n / 32 = k then
                { c with
                  state := if c.state = .down then .down else .active
                  missed := if c.state = .down then c.missed else 0
                  due := some s.time.clock, queued := .overdue }
                else c)
            ∧ (∀ i, u.stations.look i = (s.stations.look i).map fun st => if st.place.cell?.map (· / 32) = some k then
                { st with paused := false, lastHeard := st.lastHeard + (s.time.clock - since) } else st)
            ∧ u = { s with trunks := e.trunks, cells := u.cells, stations := u.stations }
            ∧ TrunkReadmitted k u v
            ∧ CountersKept v e (· = .part .repliesLost) ∧ e = { v with link := e.link, counters := e.counters })
          ∧ OffTrunkKept s e k
          ∧ e = { s with
              link := e.link, counters := e.counters, cells := e.cells, trunks := e.trunks, pools := e.pools
              stations := e.stations, copies := e.copies }))

/-- R12, with R10 for what its cells serve: a trunk's link is lost in any state but LINK DOWN: hold cancelled, queue and frame gone, every
cell DOWN and not polled, the latch set, TRUNK LINK DOWN the last notice; its stations are DORMANT, handovers from it to another trunk are
forced, handovers to it from another are cancelled, and one between two of its cells ends DORMANT (R84). The notices stand in this order:
HOLD CANCELLED with the hold's tag and LINK LOSS where a hold was in force, CELL DOWN of each cell lost in slot order, CONDITION RAISED
where the latch was clear, TRUNK LINK DOWN. The grants of the handovers that end join the queues of the other trunks, cell by cell. The lost
frame's buffer is released, with those of the queues of the stations that go DORMANT and of the copies that go; where member counts are
those of R125 no copy is left at a cell lost, and its M and W are 0. Messages, notices and carried memberships are stated where there is
room for them. That a message for an UNCONFIGURED cell counts nothing at a full queue is the model's choice (log 46). R13: a LINK DOWN
trunk's link is restored: ACTIVE, TRUNK LINK UP, and in SERVICE every cell of it due now with its POLL queued in class 5. Declared of a
trunk in the other state, either has not happened (log 6). -/
def Obligations.TrunkLinkLossAndRestore : Prop :=
  (∀ (k : Fin 8) (s : State), s.Fits →
    ((s.trunk k.val).state = .linkDown → exec (.trunkLinkLost k) s = .next s)
    ∧ ((s.trunk k.val).state ≠ .linkDown → ∃ e, exec (.trunkLinkLost k) s = .next (closeEvent e)
      ∧ e.trunk k.val = { s.trunk k.val with
          state := .linkDown, holdTag := none, heldSince := none, run := 0, signals := [], frame := none }
      ∧ (∀ n c, s.cells.look n = some c → n / 32 = k.val → ∃ account, e.cells.look n = some
          { c with
            state := .down, missed := if c.state = .down then c.missed else 3, queued := .none
            awaited := if c.state = .down then false else c.awaited, account := account })
      ∧ e.latchSet (.trunkLinkLost k) = true
      ∧ (e.notices.length < Config.notices → e.notices.getLast? = some ⟨s.time.clock, .trunkLinkDown k.val⟩)
      ∧ (s.handovers.entries = [] ∨ s.HandoverLaw → ∀ i st n since, s.stations.look i = some st →
          st.place = .associated n since → n / 32 = k.val → (∃ c, s.cells.look n = some c ∧ c.state ≠ .down) →
          e.stations.look i = some { st with
            place := .dormant, prev := some n, paused := false, members := [], rate := 0, credit := 0, queue := [] })
      ∧ (s.HandoverLaw → ∀ i h st since, s.handovers.look i = some h → s.stations.look i = some st →
          st.place = .moving h.oldCell since →
          (h.oldCell / 32 = k.val → (∃ c, s.cells.look h.oldCell = some c ∧ c.state ≠ .down) → h.newCell / 32 ≠ k.val →
            e.handovers.look i = none ∧ ∃ members rate credit, e.stations.look i = some { st with
              place := .associated h.newCell s.time.clock, prev := some h.oldCell, paused := false, members := members
              rate := rate, credit := credit })
          ∧ (h.newCell / 32 = k.val → (∃ c, s.cells.look h.newCell = some c ∧ c.state ≠ .down) → h.oldCell / 32 ≠ k.val →
            e.handovers.look i = none
              ∧ ∃ rate, e.stations.look i = some { st with place := .associated h.oldCell since, rate := rate })
          ∧ (h.oldCell / 32 = k.val → h.newCell / 32 = k.val → (∃ c, s.cells.look h.oldCell = some c ∧ c.state ≠ .down) →
            (∃ c, s.cells.look h.newCell = some c ∧ c.state ≠ .down) →
            e.handovers.look i = none ∧ e.stations.look i = some (dormantFrom (max h.oldCell h.newCell) st)))
      ∧ (∀ lost : List Nat, lost.Pairwise (· < ·) →
        (∀ n, n ∈ lost ↔ n / 32 = k.val ∧ ∃ c, s.cells.look n = some c ∧ c.state ≠ .down) →
        (s.notices.length + lost.length + 3 ≤ Config.notices → e.notices = s.notices
            ++ (if (s.trunk k.val).state = .draining ∨ (s.trunk k.val).state = .held then
                [⟨s.time.clock, .holdCancelled k.val (s.trunk k.val).holdTag .linkLoss⟩] else [])
            ++ lost.map (fun n => ⟨s.time.clock, .cellDown n .linkLoss⟩)
            ++ (if s.latchSet (.trunkLinkLost k) = true then [] else [⟨s.time.clock, .conditionRaised (.trunkLinkLost k)⟩])
            ++ [⟨s.time.clock, .trunkLinkDown k.val⟩])
        ∧ (s.HandoverLaw →
          HandoversCounted s e (fun h => decide (h.oldCell ∈ lost) && !decide (h.newCell ∈ lost ∧ h.newCell < h.oldCell))
              (fun h => decide (h.newCell ∈ lost) && !decide (h.oldCell ∈ lost ∧ h.oldCell < h.newCell))
          ∧ Advanced s e (.part .goneDormant) (s.wentDormant e).length
          ∧ (∀ n, Advanced s e (.cell n .replayDiscarded)
              (((s.goneCopies e).filter fun x => x.2.cell == n).map fun x => x.2.queue.length).sum)
          ∧ ReleasedAll s e (((s.trunk k.val).frame.bind LinkFrame.buffer?).toList
              ++ (s.wentDormant e).flatMap (fun x => x.2.queue.map (·.buffer)) ++ (s.goneCopies e).flatMap (fun x => x.2.queue))
          ∧ (∀ i, i ∈ e.owed.expiries ↔ i ∈ s.owed.expiries ∨ ∃ st, (i, st) ∈ s.wentDormant e
              ∧ s.settings.timers.expire * 1000 ≤ (s.time.clock - st.lastHeard).toNat)
          ∧ (∀ i st, s.stations.look i = some st → (∀ n, st.place.cell? = some n → n ∉ lost) →
              (∀ h, s.handovers.look i = some h → h.newCell ∉ lost) →
              e.handovers.look i = s.handovers.look i ∧ ∃ rate, e.stations.look i = some { st with rate := rate })
          ∧ (∀ n c, s.cells.look n = some c → n / 32 ≠ k.val → ∃ m w, e.cells.look n = some
              { c with account := { c.account with m := m, w := w } })
          ∧ (∀ n c, s.copies.look n = some c → c.cell ∉ lost → ∃ members, e.copies.look n = some { c with members := members })
          ∧ (s.MembersLaw → (∀ n c, e.copies.look n = some c → c.cell ∉ lost)
            ∧ ∀ n a, n ∈ lost → s.account n = some a → a.m = s.activeLoad n → a.w = s.countedWeight n →
              e.account n = some { a with m := 0, w := 0 })
          ∧ (∀ i h, s.handovers.look i = some h → h.oldCell ∈ lost → h.newCell / 32 ≠ k.val → e.RatesLaw h.newCell)
          ∧ (s.CarryRoom →
            (∀ i h st, s.handovers.look i = some h → s.stations.look i = some st → h.oldCell ∈ lost → h.newCell / 32 ≠ k.val →
              ∃ now, e.stations.look i = some now ∧ FollowedTo e st.members now.members h.newCell)
            ∧ ∀ grants, grants = lost.flatMap (fun n => s.grantsOf (fun h => h.oldCell == n) (fun h => h.newCell == n)) →
              (∀ j, j ≠ k.val → s.RoomFor grants j) → (∀ j, j ≠ k.val → e.trunk j = s.trunkAfter grants j)
                ∧ CountersKept s e (fun x => x = .part .handoversForced ∨ x = .part .handoversCompleted
                  ∨ x = .part .handoversCancelled ∨ x = .part .goneDormant ∨ x = .part .noticesLost
                  ∨ ∃ n, x = .cell n .replayDiscarded))))
      ∧ e = { s with
          notices := e.notices, latches := e.latches, counters := e.counters, cells := e.cells, trunks := e.trunks
          pools := e.pools, stations := e.stations, handovers := e.handovers, copies := e.copies
          created := e.created, owed := e.owed, draws := e.draws }))
  ∧ (∀ (k : Fin 8) (s : State),
    ((s.trunk k.val).state ≠ .linkDown → exec (.trunkLinkRestored k) s = .next s)
    ∧ ((s.trunk k.val).state = .linkDown → s.notices.length < Config.notices →
      ∃ e, exec (.trunkLinkRestored k) s = .next (closeEvent e)
        ∧ (∀ j, e.trunk j = if j = k.val then { s.trunk k.val with state := .active } else s.trunk j)
        ∧ e.notices = s.notices ++ [⟨s.time.clock, .trunkLinkUp k.val⟩]
        ∧ (∀ n c, s.cells.look n = some c → e.cells.look n = some
            (if s.time.service = .service ∧ n / 32 = k.val then { c with due := some s.time.clock, queued := .onTime }
              else c))
        ∧ (∀ n, s.cells.look n = none → e.cells.look n = none)
        ∧ e = { s with notices := e.notices, cells := e.cells, trunks := e.trunks }))

/-- R16, by the condition of R15: a DRAINING trunk with an idle link and an empty class-2 queue enters HELD, TRUNK HELD is queued, no POLL
of its cells is queued or awaited, and the aging of its stations is paused. R83: every handover from it has completed as forced, the station
ASSOCIATED at the new cell with its memberships carried there (R131) and W and the rates of both cells following, and then every one left to
it is cancelled, the station ASSOCIATED at its old cell again; each is counted, and its grant joins the queue of another trunk, in ascending
order of station index (a grant for a cell of the trunk itself is discarded). Messages and carried memberships are stated where there is
room for them. That a message for an UNCONFIGURED cell counts nothing at a full queue is the model's choice (log 46). While the condition
does not hold the event has not happened (log 6). -/
def Obligations.ACompleteDrainEntersHeld : Prop :=
  ∀ (k : Fin 8) (s : State), s.Fits → s.HandoverLaw →
    ((s.trunk k.val).state ≠ .draining ∨ (s.trunk k.val).frame ≠ none ∨ (s.trunk k.val).signals ≠ [] →
      exec (.drainComplete k) s = .next s)
    ∧ ((s.trunk k.val).state = .draining → (s.trunk k.val).frame = none → (s.trunk k.val).signals = [] →
      s.notices.length < Config.notices → ∃ e, exec (.drainComplete k) s = .next (closeEvent e)
        ∧ e.trunk k.val = { s.trunk k.val with state := .held, heldSince := some s.time.clock }
        ∧ e.notices = s.notices ++ [⟨s.time.clock, .trunkHeld k.val (s.trunk k.val).holdTag⟩]
        ∧ (∀ n c, s.cells.look n = some c → n / 32 = k.val → ∃ account, e.cells.look n = some
            { c with queued := .none, awaited := false, account := account })
        ∧ (∀ i h, e.handovers.look i = some h → h.oldCell / 32 ≠ k.val ∧ h.newCell / 32 ≠ k.val)
        ∧ (∀ i st n since, e.stations.look i = some st → st.place = .associated n since → n / 32 = k.val →
            st.paused = true)
        ∧ (∀ i h st since, s.handovers.look i = some h → s.stations.look i = some st → st.place = .moving h.oldCell since →
          (h.oldCell / 32 = k.val → e.RatesLaw h.oldCell ∧ e.RatesLaw h.newCell ∧ ∃ members rate credit, e.stations.look i = some
            { st with
              place := .associated h.newCell s.time.clock, prev := some h.oldCell
              paused := decide (h.newCell / 32 = k.val), members := members, rate := rate, credit := credit })
          ∧ (h.oldCell / 32 ≠ k.val → h.newCell / 32 = k.val →
            ∃ rate, e.stations.look i = some { st with place := .associated h.oldCell since, rate := rate })
          ∧ (s.CarryRoom → h.oldCell / 32 = k.val → h.newCell / 32 ≠ k.val →
            ∃ now, e.stations.look i = some now ∧ FollowedTo e st.members now.members h.newCell))
        ∧ (∀ i st, s.stations.look i = some st →
            (∀ h, s.handovers.look i = some h → h.oldCell / 32 ≠ k.val ∧ h.newCell / 32 ≠ k.val) →
            e.handovers.look i = s.handovers.look i ∧ ∃ rate, e.stations.look i = some
              { st with
                paused := st.paused || (st.place.isAssociated && st.place.cell?.map (· / 32) == some k.val), rate := rate })
        ∧ (∀ n c, s.cells.look n = some c → n / 32 ≠ k.val → ∃ m w, e.cells.look n = some
            { c with account := { c.account with m := m, w := w } })
        ∧ HandoversCounted s e (fun h => h.oldCell / 32 == k.val) (fun h => h.oldCell / 32 != k.val && h.newCell / 32 == k.val)
        ∧ ((∀ n c, s.copies.look n = some c → c.cell / 32 = k.val → c.queue = []) → e.pools = s.pools)
        ∧ (∀ grants, grants = s.grantsOf (fun h => h.oldCell / 32 == k.val)
              (fun h => h.oldCell / 32 != k.val && h.newCell / 32 == k.val) →
            s.CarryRoom → (∀ j, j ≠ k.val → s.RoomFor grants j) → (∀ j, j ≠ k.val → e.trunk j = s.trunkAfter grants j)
              ∧ CountersKept s e (fun x => x = .part .handoversForced ∨ x = .part .handoversCompleted
                ∨ x = .part .handoversCancelled ∨ ∃ n, n / 32 = k.val ∧ x = .cell n .replayDiscarded))
        ∧ e = { s with
            notices := e.notices, counters := e.counters, cells := e.cells, trunks := e.trunks, pools := e.pools
            stations := e.stations, handovers := e.handovers, copies := e.copies, created := e.created
            owed := e.owed, draws := e.draws })

/-- R30, R40, R50: the end of a frame on a trunk link or on the backbone link leaves the link idle and releases the frame's reference;
on an idle link it has not happened (log 6). The backbone's loss loses its frame; its restore lets the next one go. -/
def Obligations.FrameEndsReleaseTheirReference : Prop :=
  (∀ (k : Fin 8) (s : State),
    ((s.trunk k.val).frame = none → exec (.trunkFrameEnd k) s = .next s)
    ∧ ∀ f, (s.trunk k.val).frame = some f → ∃ e, exec (.trunkFrameEnd k) s = .next (closeEvent e)
      ∧ (∀ j, e.trunk j = if j = k.val then { s.trunk k.val with frame := none } else s.trunk j)
      ∧ Released s e (match f with
          | .replayData _ _ _ r => some r
          | .stationDown _ _ r => some r
          | .poll _ => none
          | .signal _ => none)
      ∧ e = { s with trunks := e.trunks, pools := e.pools })
  ∧ ∀ s : State,
    (s.backbone.frame = none → exec .backboneFrameEnd s = .next s)
    ∧ (∀ x, s.backbone.frame = some x → ∃ e, exec .backboneFrameEnd s = .next (closeEvent e)
      ∧ Released s e (some x.buffer)
      ∧ e = { s with backbone := { s.backbone with frame := none }, pools := e.pools })
    ∧ (∃ t, exec .backboneLinkLost s = .next t ∧ Released s t (s.backbone.frame.map (·.buffer))
      ∧ t = { s with backbone := { s.backbone with up := false, frame := none }, pools := t.pools })
    ∧ exec .backboneLinkRestored s = .next (closeEvent { s with backbone := { s.backbone with up := true } })

/-! ## Stations and handovers -/

/-- R55, R56, R57: an ATTACH REQUEST of an unknown phone takes the lowest FREE record, else that of the DORMANT station heard longest
ago (its ticket goes to INSIDE, R65), else is refused TABLE FULL. Stated for a class-2 queue with room. -/
def Obligations.AnUnknownPhoneTakesARecord : Prop :=
  ∀ (m : MessageHead) (s : State), s.Fits → s.Accepts m → m.bodyLength = 0 → NamesPhone m → s.stationWith m.addr = none →
    s.HasRoom (cellOf m) →
    (∀ i, i < 16384 → s.stations.look i = none → (∀ j, j < i → (s.stations.look j).isSome = true) →
      ∃ e rate, exec (.attachRequest m) s = .next (closeEvent e)
        ∧ e.stations.look i = some
          { addr := m.addr, place := .associated (cellOf m) s.time.clock, prev := none, ticket := none
            cls := .unticketed, weight := s.settings.weights.unticketed, members := [], lastHeard := s.time.clock
            paused := false, rate := rate, credit := max 3000 (4 * rate) * (800 * s.time.grain), queue := [] }
        ∧ e.RatesLaw (cellOf m) ∧ OthersKept s e i ∧ Posted s e (cellOf m) m.addr (.attachGrant i)
        ∧ e = { s with cells := e.cells, trunks := e.trunks, stations := e.stations })
    ∧ (∀ i st, (∀ j, j < 16384 → (s.stations.look j).isSome = true) → s.stations.look i = some st →
      st.place = .dormant →
      (∀ j x, s.stations.look j = some x → x.place = .dormant →
        (s.time.clock - x.lastHeard).toNat < (s.time.clock - st.lastHeard).toNat
          ∨ (x.lastHeard = st.lastHeard ∧ i ≤ j)) →
      ∃ e rate, exec (.attachRequest m) s = .next (closeEvent e)
        ∧ e.stations.look i = some
          { addr := m.addr, place := .associated (cellOf m) s.time.clock, prev := none, ticket := none
            cls := .unticketed, weight := s.settings.weights.unticketed, members := [], lastHeard := s.time.clock
            paused := false, rate := rate, credit := max 3000 (4 * rate) * (800 * s.time.grain), queue := [] }
        ∧ OthersKept s e i ∧ Posted s e (cellOf m) m.addr (.attachGrant i)
        ∧ Advanced s e (.part .reclaimed) 1 ∧ CountersKept s e (· = .part .reclaimed)
        ∧ (∀ n, st.ticket = some n → e.ticket n = (s.ticket n).map fun k => { k with state := .inside })
        ∧ e = { s with
            counters := e.counters, cells := e.cells, trunks := e.trunks, pools := e.pools, stations := e.stations
            handovers := e.handovers, tickets := e.tickets })
    ∧ ((∀ j, j < 16384 → ∃ st, s.stations.look j = some st ∧ st.place ≠ .dormant) →
      ∃ e, exec (.attachRequest m) s = .next (closeEvent e)
        ∧ Posted s e (cellOf m) m.addr (.attachRefuse .tableFull)
        ∧ e.latchSet .stationTableFull = true ∧ e.stations = s.stations
        ∧ (s.notices.length < Config.notices → Advanced s e (.part .tableRefusals) 1
          ∧ CountersKept s e (· = .part .tableRefusals))
        ∧ e = { s with
            notices := e.notices, latches := e.latches, counters := e.counters, trunks := e.trunks })

/-- R55, R58, R61, R71, R72, R79, R80, R81: an ATTACH REQUEST of a known phone: ASSOCIATED there, DORMANT, ASSOCIATED elsewhere (a handover
starts, RETRY at 128 records, or, its old cell's trunk DRAINING or HELD, the release is skipped and the handover completes at once by R76
with the memberships carried by R131; that a DRAINING trunk of the new cell takes the grant and not the NO-ROOM verdict of a lost one is the
model's choice, log 45), and MOVING (duplicate, return, redirection). -/
def Obligations.AKnownPhoneAttachesByItsState : Prop :=
  ∀ (m : MessageHead) (i : Nat) (st : Station) (s : State), s.Fits → s.Accepts m → m.bodyLength = 0 → NamesPhone m →
    s.stationWith m.addr = some (i, st) →
    (∀ since, st.place = .associated (cellOf m) since → s.HasRoom (cellOf m) →
      ∃ e, exec (.attachRequest m) s = .next (closeEvent e)
        ∧ (∀ j, e.stations.look j = if j = i then some { st with lastHeard := s.time.clock } else s.stations.look j)
        ∧ Posted s e (cellOf m) m.addr (.attachGrant i)
        ∧ e = { s with trunks := e.trunks, stations := e.stations })
    ∧ (st.place = .dormant → s.HasRoom (cellOf m) → ∃ e rate, exec (.attachRequest m) s = .next (closeEvent e)
        ∧ e.stations.look i = some
          { st with
            place := .associated (cellOf m) s.time.clock, weight := classWeight s.settings.weights st.cls
            lastHeard := s.time.clock, rate := rate, credit := max 3000 (4 * rate) * (800 * s.time.grain) }
        ∧ e.RatesLaw (cellOf m) ∧ OthersKept s e i ∧ Posted s e (cellOf m) m.addr (.attachGrant i)
        ∧ e = { s with cells := e.cells, trunks := e.trunks, stations := e.stations })
    ∧ (∀ d since, st.place = .associated d since → d ≠ cellOf m → (s.trunk (d / 32)).state ≠ .draining →
      (s.trunk (d / 32)).state ≠ .held →
      (s.handovers.size < 128 → s.HasRoom d → ∃ e, exec (.attachRequest m) s = .next (closeEvent e)
        ∧ (∀ j, e.stations.look j = if j = i then
            some { st with place := .moving d since, lastHeard := s.time.clock } else s.stations.look j)
        ∧ (∀ j, e.handovers.look j = if j = i then some ⟨d, cellOf m, s.time.clock⟩ else s.handovers.look j)
        ∧ Posted s e d m.addr .release
        ∧ e = { s with trunks := e.trunks, stations := e.stations, handovers := e.handovers })
      ∧ (128 ≤ s.handovers.size → s.HasRoom (cellOf m) → ∃ e, exec (.attachRequest m) s = .next (closeEvent e)
        ∧ Posted s e (cellOf m) m.addr (.attachRefuse .retry)
        ∧ Advanced s e (.part .retryRefusals) 1 ∧ CountersKept s e (· = .part .retryRefusals)
        ∧ e = { s with trunks := e.trunks, counters := e.counters }))
    ∧ (∀ d since, st.place = .associated d since → d ≠ cellOf m →
      (s.trunk (d / 32)).state = .draining ∨ (s.trunk (d / 32)).state = .held →
      ∃ e members rate, exec (.attachRequest m) s = .next (closeEvent e)
        ∧ e.stations.look i = some { st with
            place := .associated (cellOf m) s.time.clock, prev := some d, paused := false, members := members
            lastHeard := s.time.clock, rate := rate, credit := max 3000 (4 * rate) * (800 * s.time.grain) }
        ∧ (∀ j, e.handovers.look j = if j = i then none else s.handovers.look j)
        ∧ Carried s e i st d (cellOf m) ∧ e.RatesLaw d ∧ e.RatesLaw (cellOf m) ∧ OthersKept s e i
        ∧ (s.HasRoom (cellOf m) → st.members = [] → Posted s e (cellOf m) st.addr (.attachGrant i))
        ∧ Advanced s e (.part .handoversCompleted) 1 ∧ Advanced s e (.part .releasesSkipped) 1
        ∧ e = { s with
            counters := e.counters, cells := e.cells, trunks := e.trunks, pools := e.pools, stations := e.stations
            handovers := e.handovers, copies := e.copies, created := e.created, owed := e.owed, draws := e.draws })
    ∧ ∀ h since, s.handovers.look i = some h → st.place = .moving h.oldCell since → h.oldCell ≠ h.newCell →
      (cellOf m = h.newCell → exec (.attachRequest m) s = .next (closeEvent s))
      ∧ (cellOf m = h.oldCell → ∃ e, exec (.attachRequest m) s = .next (closeEvent e)
        ∧ (∀ j, e.stations.look j = if j = i then
            some { st with place := .associated h.oldCell since, lastHeard := s.time.clock } else s.stations.look j)
        ∧ (∀ j, e.handovers.look j = if j = i then none else s.handovers.look j)
        ∧ (s.HasRoom h.oldCell → s.HasRoom h.newCell → h.oldCell / 32 ≠ h.newCell / 32 →
          (e.trunk (h.oldCell / 32)).signals =
              (s.trunk (h.oldCell / 32)).signals ++ [⟨h.oldCell, st.addr, .attachGrant i⟩]
            ∧ (e.trunk (h.newCell / 32)).signals =
              (s.trunk (h.newCell / 32)).signals ++ [⟨h.newCell, m.addr, .attachRefuse .superseded⟩]
            ∧ Advanced s e (.part .handoversCancelled) 1)
        ∧ e = { s with trunks := e.trunks, counters := e.counters, stations := e.stations, handovers := e.handovers })
      ∧ (cellOf m ≠ h.newCell → cellOf m ≠ h.oldCell → s.HasRoom h.newCell →
        ∃ e, exec (.attachRequest m) s = .next (closeEvent e)
        ∧ (∀ j, e.stations.look j = if j = i then some { st with lastHeard := s.time.clock } else s.stations.look j)
        ∧ (∀ j, e.handovers.look j = if j = i then some { h with newCell := cellOf m } else s.handovers.look j)
        ∧ Posted s e h.newCell m.addr (.attachRefuse .superseded)
        ∧ e = { s with trunks := e.trunks, stations := e.stations, handovers := e.handovers })

/-- R59, R60, R62: a DEPART from the station's cell, and the dormant-after age of one whose aging is not paused, make it DORMANT with its
binding, class, address and last-heard time kept; it leaves the copies at its cell, which lose a member or are gone with their entries
counted and a pass owed (R130), W and the rates follow, its queue's buffers are released, and at an age past expire after its expiry follows
(R63). R75, R78: a DEPART from the new cell of a MOVING station cancels its handover to dormancy; a DEPART that fits no rule, from a third
cell or of an address without a record too, is counted and ignored. Before its moment, or while aging is paused, the dormant-after age has
not been reached (log 6). -/
def Obligations.DepartingAndAgingMakeAStationDormant : Prop :=
  (∀ (m : MessageHead) (s : State), s.Accepts m → m.bodyLength = 0 → NamesPhone m → s.stationWith m.addr = none →
    ∃ e, exec (.depart m) s = .next (closeEvent e) ∧ OnlyCounts s e (.part .departuresIgnored))
  ∧ ∀ (i : Nat) (st : Station) (s : State), s.Fits → s.stations.look i = some st →
    (∀ cell since, st.place = .associated cell since →
      (∀ c, c = Instr.stationAgedDormant i ∧ st.paused = false
            ∧ s.settings.timers.dormant * 1000 ≤ (s.time.clock - st.lastHeard).toNat
          ∨ (∃ m, c = .depart m ∧ s.Accepts m ∧ m.bodyLength = 0 ∧ NamesPhone m ∧ cellOf m = cell
              ∧ s.stationWith m.addr = some (i, st)) →
        ∃ e, exec c s = .next (closeEvent e)
          ∧ e.stations.look i = some { st with
              place := .dormant, prev := some cell, paused := false, members := [], rate := 0, credit := 0, queue := [] }
          ∧ e.RatesLaw cell ∧ OthersKept s e i ∧ Advanced s e (.part .goneDormant) 1
          ∧ LeavesCopies s e i st cell ∧ ReleasedAll s e (s.leftBuffers st cell)
          ∧ CountersKept s e (fun x => x = .part .goneDormant ∨ x = .cell cell .replayDiscarded)
          ∧ e.owed.expiries = s.owed.expiries ++
              (if s.settings.timers.expire * 1000 ≤ (s.time.clock - st.lastHeard).toNat then [i] else [])
          ∧ e = { s with
              counters := e.counters, cells := e.cells, pools := e.pools, stations := e.stations, copies := e.copies
              owed := e.owed })
      ∧ (st.paused = true ∨ (s.time.clock - st.lastHeard).toNat < s.settings.timers.dormant * 1000 →
        exec (.stationAgedDormant i) s = .next s))
    ∧ ∀ m, s.Accepts m → m.bodyLength = 0 → NamesPhone m → s.stationWith m.addr = some (i, st) →
      (st.place = .dormant ∨ (∃ cell since, st.place = .associated cell since ∧ cell ≠ cellOf m) →
        ∃ e, exec (.depart m) s = .next (closeEvent e) ∧ OnlyCounts s e (.part .departuresIgnored))
      ∧ ∀ h since, s.handovers.look i = some h → st.place = .moving h.oldCell since → h.oldCell ≠ h.newCell →
        (cellOf m = h.newCell → ∃ e, exec (.depart m) s = .next (closeEvent e)
          ∧ e.stations.look i = some (dormantFrom h.oldCell st)
          ∧ (∀ j, e.handovers.look j = if j = i then none else s.handovers.look j)
          ∧ e.RatesLaw h.oldCell ∧ OthersKept s e i
          ∧ Advanced s e (.part .goneDormant) 1 ∧ Advanced s e (.part .handoversCancelled) 1
          ∧ LeavesCopies s e i st h.oldCell ∧ ReleasedAll s e (s.leftBuffers st h.oldCell)
          ∧ CountersKept s e (fun x =>
              x = .part .goneDormant ∨ x = .part .handoversCancelled ∨ x = .cell h.oldCell .replayDiscarded)
          ∧ e.owed.expiries = s.owed.expiries ++
              (if s.settings.timers.expire * 1000 ≤ (s.time.clock - st.lastHeard).toNat then [i] else [])
          ∧ e = { s with
              counters := e.counters, cells := e.cells, pools := e.pools, stations := e.stations
              handovers := e.handovers, copies := e.copies, owed := e.owed })
        ∧ (cellOf m ≠ h.newCell → cellOf m ≠ h.oldCell →
          ∃ e, exec (.depart m) s = .next (closeEvent e) ∧ OnlyCounts s e (.part .departuresIgnored))

/-- R63, R65, R66, R85: the expire-after age of a DORMANT station, and EVICT STATION of any station, free its record and handover record,
return its ticket to INSIDE and release its queue's buffers; EVICT answers a bad index, a FREE record, and, for a MOVING station, tells its
new cell; a station counted at a cell leaves the copies there, which lose a member or are gone with their entries counted and a pass owed
(R60, step 2; R130), and W and the rates follow. Before its moment the expire-after age has not been reached (log 6). -/
def Obligations.ExpiryAndEvictionFreeARecord : Prop :=
  (∀ (i : Nat) (st : Station) (s : State), s.Fits → s.stations.look i = some st → st.place = .dormant →
    ((s.time.clock - st.lastHeard).toNat < s.settings.timers.expire * 1000 → exec (.stationExpired i) s = .next s)
    ∧ (s.settings.timers.expire * 1000 ≤ (s.time.clock - st.lastHeard).toNat →
      ∃ e, exec (.stationExpired i) s = .next (closeEvent e)
        ∧ (∀ j, e.stations.look j = if j = i then none else s.stations.look j)
        ∧ (∀ j, e.handovers.look j = if j = i then none else s.handovers.look j)
        ∧ (∀ n, e.ticket n = (s.ticket n).map fun k => if st.ticket = some n then { k with state := .inside } else k)
        ∧ Advanced s e (.part .expired) 1 ∧ CountersKept s e (· = .part .expired)
        ∧ ReleasedAll s e (st.queue.map (·.buffer))
        ∧ e = { s with
            counters := e.counters, pools := e.pools, stations := e.stations, handovers := e.handovers
            tickets := e.tickets }))
  ∧ ∀ (h : OrderHead) (n : BitVec 16) (s : State), s.Takes h → s.Fits →
    (16384 ≤ n.toNat → ∃ t, exec (.evictStation h (.index n)) s = .next t ∧ Refused s t .evictStation h.tag .badArgument)
    ∧ (n.toNat < 16384 → s.stations.look n.toNat = none → ∃ t, exec (.evictStation h (.index n)) s = .next t
      ∧ Refused s t .evictStation h.tag .notFound)
    ∧ (∀ a, s.stationWith a = none → ∃ t, exec (.evictStation h (.address a)) s = .next t
      ∧ Refused s t .evictStation h.tag (if a = 0 ∨ isGroup a = true then .badArgument else .notFound))
    ∧ (∃ t, exec (.evictStation h .unknown) s = .next t ∧ Refused s t .evictStation h.tag .badArgument)
    ∧ ∀ st sel, s.stations.look n.toNat = some st →
      (sel = .index n ∨ ∃ a, sel = .address a ∧ a ≠ 0 ∧ isGroup a = false ∧ s.stationWith a = some (n.toNat, st)) →
      ∃ e, exec (.evictStation h sel) s = .next (closeEvent e)
        ∧ Replied s e (.order .evictStation) h.tag .done (.evicted n.toNat st.addr st.place)
        ∧ e.stations.look n.toNat = none ∧ OthersKept s e n.toNat
        ∧ (∀ j, e.handovers.look j = if j = n.toNat then none else s.handovers.look j)
        ∧ (∀ x, e.ticket x = (s.ticket x).map fun k => if st.ticket = some x then { k with state := .inside } else k)
        ∧ (∀ k, s.handovers.look n.toNat = some k → st.place.isMoving = true → s.HasRoom k.newCell →
            Posted s e k.newCell st.addr (.attachRefuse .evicted))
        ∧ (st.place.isMoving = false → e.trunks = s.trunks)
        ∧ Advanced s e (.part .evicted) 1
        ∧ (∀ cell, st.place.cell? = some cell → e.RatesLaw cell ∧ LeavesCopies s e n.toNat st cell
          ∧ ReleasedAll s e (s.leftBuffers st cell) ∧ e.owed.expiries = s.owed.expiries)
        ∧ (st.place = .dormant → (∀ j, e.stations.look j = if j = n.toNat then none else s.stations.look j)
          ∧ ReleasedAll s e (st.queue.map (·.buffer)) ∧ e.cells = s.cells ∧ e.copies = s.copies ∧ e.owed = s.owed)
        ∧ e = { s with
            link := e.link, counters := e.counters, cells := e.cells, trunks := e.trunks, pools := e.pools
            stations := e.stations, handovers := e.handovers, tickets := e.tickets, copies := e.copies
            owed := e.owed, draws := e.draws }

/-- R73, R74, R75, R76: a RELEASE DONE or a DEPART from the old cell completes the handover, and so, counted as forced too, does the
handover timeout; the station is ASSOCIATED at the new cell with a full bucket, and its memberships are carried there (R131), with a pass
owed at the old cell. The grant, and the NO-ROOM verdict of a membership that finds the copy table full, are made for the new cell; that a
DRAINING trunk takes the grant alone is the model's choice (log 45). The frames that a RELEASE DONE says were lost are counted. A RELEASE
DONE that fits no record only counts. Before its moment the timeout has not happened (log 6). -/
def Obligations.AReleaseOrItsTimeoutCompletesAHandover : Prop :=
  (∀ (i : Nat) (h : Handover) (st : Station) (since : Clock) (s : State), s.Fits → s.handovers.look i = some h →
    s.stations.look i = some st → st.place = .moving h.oldCell since → h.oldCell ≠ h.newCell →
    ((s.time.clock - h.start).toNat < s.settings.timers.handover → exec (.handoverTimerExpiry i) s = .next s)
    ∧ ∀ c forced, (c = Instr.handoverTimerExpiry i ∧ forced = 1
          ∧ s.settings.timers.handover ≤ (s.time.clock - h.start).toNat)
        ∨ (∃ m, (c = .depart m ∧ m.bodyLength = 0 ∨ ∃ lost, c = .releaseDone m lost ∧ m.bodyLength = 1) ∧ forced = 0
            ∧ s.Accepts m ∧ NamesPhone m ∧ cellOf m = h.oldCell ∧ s.stationWith m.addr = some (i, st)) →
      ∃ e members rate, exec c s = .next (closeEvent e)
        ∧ e.stations.look i = some { st with
            place := .associated h.newCell s.time.clock, prev := some h.oldCell, paused := false, members := members
            rate := rate, credit := max 3000 (4 * rate) * (800 * s.time.grain) }
        ∧ (∀ j, e.handovers.look j = if j = i then none else s.handovers.look j)
        ∧ Carried s e i st h.oldCell h.newCell
        ∧ e.RatesLaw h.oldCell ∧ e.RatesLaw h.newCell
        ∧ OthersKept s e i
        ∧ (∀ m lost, c = .releaseDone m lost → Advanced s e (.cell h.oldCell .framesLost) lost.toNat)
        ∧ (s.HasRoom h.newCell → st.members = [] → Posted s e h.newCell st.addr (.attachGrant i))
        ∧ Advanced s e (.part .handoversCompleted) 1 ∧ Advanced s e (.part .handoversForced) forced
        ∧ e = { s with
            counters := e.counters, cells := e.cells, trunks := e.trunks, pools := e.pools, stations := e.stations
            handovers := e.handovers, copies := e.copies, created := e.created, owed := e.owed, draws := e.draws })
  ∧ ∀ (m : MessageHead) (lost : Byte) (s : State), s.Accepts m → m.bodyLength = 1 → NamesPhone m →
    (∀ i st h, s.stationWith m.addr = some (i, st) → s.handovers.look i = some h → h.oldCell ≠ cellOf m) →
    ∃ e, exec (.releaseDone m lost) s = .next (closeEvent e)
      ∧ Advanced s e (.cell (cellOf m) .framesLost) lost.toNat ∧ Advanced s e (.part .lateReleases) 1
      ∧ CountersKept s e (fun c => c = .cell (cellOf m) .framesLost ∨ c = .part .lateReleases)
      ∧ e = { s with counters := e.counters }

/-! ## Forwarding -/

/-- R39, R41: a frame of up to 256 bytes takes a short buffer, or a long one when every short one is in use; a longer frame takes a long
buffer; a frame that gets none is counted under its size and sets that pool's latch. -/
def Obligations.BuffersAreGrantedByLength : Prop :=
  ∀ (n : Nat) (s : State), s.Fits →
    (∀ r, s.grant n = some r → s.buffer r = none ∧
      match r.pool with
      | .short => n ≤ 256 ∧ r.number < 8192
      | .long => r.number < 4096 ∧ (n ≤ 256 → s.pools.short.size = 8192))
    ∧ (s.grant n = none → s.pools.long.size = 4096 ∧ (n ≤ 256 → s.pools.short.size = 8192))
    ∧ (s.pools.long.size < 4096 ∨ (n ≤ 256 ∧ s.pools.short.size < 8192) → ∃ r, s.grant n = some r)
    ∧ (dropForWant n s).latchSet (if n ≤ 256 then .shortPoolExhausted else .longPoolExhausted) = true
    ∧ Advanced s (dropForWant n s) (.part (if n ≤ 256 then .shortPoolDrops else .longPoolDrops)) 1
    ∧ dropForWant n s = { s with
        notices := (dropForWant n s).notices, latches := (dropForWant n s).latches
        counters := (dropForWant n s).counters }

/-- R48, R49: STATION DATA UP: a payload under 9 bytes, a phone not ASSOCIATED at the cell, a full egress queue, and the frame that joins
the queue with a buffer of its own. -/
def Obligations.StationDataUpJoinsTheEgressQueue : Prop :=
  ∀ (m : MessageHead) (payload : List Byte) (s : State), s.Fits → s.Accepts m → m.bodyLength.toNat = payload.length →
    NamesPhone m → payload ≠ [] →
    (payload.length < 9 → ∃ e, exec (.stationDataUp m payload) s = .next (closeEvent e)
      ∧ OnlyCounts s e (.part .upstreamMalformed))
    ∧ (9 ≤ payload.length →
      ((∀ i st, s.stationWith m.addr = some (i, st) → st.place.associatedAt (cellOf m) = false) →
        ∃ e, exec (.stationDataUp m payload) s = .next (closeEvent e) ∧ OnlyCounts s e (.part .upstreamRefused))
      ∧ ∀ i st, s.stationWith m.addr = some (i, st) → st.place.associatedAt (cellOf m) = true →
        ∃ e, exec (.stationDataUp m payload) s = .next (closeEvent e)
          ∧ (∀ j, e.stations.look j = if j = i then some { st with lastHeard := s.time.clock } else s.stations.look j)
          ∧ Advanced s e (.cell (cellOf m) .framesUp) 1
          ∧ (512 ≤ s.backbone.queue.length → Advanced s e (.part .egressDrops) 1 ∧ e.backbone = s.backbone
            ∧ e.pools = s.pools)
          ∧ (∀ r, s.backbone.queue.length < 512 → s.grant payload.length = some r →
            e.backbone = { s.backbone with queue := s.backbone.queue ++ [⟨r, payload.length, m.addr⟩] }
            ∧ (∀ q, e.buffer q = if q = r then some ⟨.upstream, payload, 1⟩ else s.buffer q))
          ∧ (s.backbone.queue.length < 512 → s.grant payload.length = none →
            e.backbone = s.backbone ∧ e.pools = s.pools)
          ∧ e = { s with
              notices := e.notices, latches := e.latches, counters := e.counters, pools := e.pools
              backbone := e.backbone, stations := e.stations })

/-- R42, R44, R45: a frame that is no replay frame joins its station's queue with a buffer of its own, or is dropped for its length, its
group address, its want of a station counted at a cell, or a full queue. -/
def Obligations.DownlinkFramesJoinTheirStationsQueue : Prop :=
  ∀ (dest source : Addr) (type : BitVec 16) (payload : List Byte) (s : State), s.Fits → s.backbone.up = true →
    s.time.service = .service → (type ≠ s.settings.replayType ∨ type = 0) → payload ≠ [] →
    (2048 < payload.length → ∃ t, exec (.stationDownlinkFrame dest source type payload) s = .next t
      ∧ OnlyCounts s t (.part .oversize))
    ∧ (payload.length ≤ 2048 →
      (isGroup dest = true → ∃ e, exec (.stationDownlinkFrame dest source type payload) s = .next (closeEvent e)
        ∧ OnlyCounts s e (.part .groupDropped))
      ∧ (isGroup dest = false → (∀ i st, s.stationWith dest = some (i, st) → st.place = .dormant) →
        ∃ e, exec (.stationDownlinkFrame dest source type payload) s = .next (closeEvent e)
          ∧ OnlyCounts s e (.part .noStation))
      ∧ ∀ i st cell, isGroup dest = false → s.stationWith dest = some (i, st) → st.place.cell? = some cell →
        (16 ≤ st.queue.length → ∃ e, exec (.stationDownlinkFrame dest source type payload) s = .next (closeEvent e)
          ∧ OnlyCounts s e (.cell cell .downlinkDropped))
        ∧ ∀ r, st.queue.length < 16 → s.grant payload.length = some r →
          ∃ e, exec (.stationDownlinkFrame dest source type payload) s = .next (closeEvent e)
            ∧ (∀ j, e.stations.look j = if j = i then
                some { st with queue := st.queue ++ [⟨r, payload.length⟩] } else s.stations.look j)
            ∧ (∀ q, e.buffer q = if q = r then some ⟨.downlink, payload, 1⟩ else s.buffer q)
            ∧ e = { s with pools := e.pools, stations := e.stations })

/-- R43, R133: a replay frame whose tag names no OPEN channel is counted; with no ACTIVE copy of its channel and tier it takes no buffer;
else each such copy's queue takes it at its tail, a full one losing its oldest entry first, and no other copy changes. The buffer starts with
one reference a copy; each oldest entry lost is counted at its copy's cell and its buffer's reference released. -/
def Obligations.ReplayFramesFanOutToTheirTiersCopies : Prop :=
  ∀ (dest source : Addr) (tag : BitVec 16) (payload : List Byte) (s : State), s.Fits → s.backbone.up = true →
    s.time.service = .service → s.settings.replayType ≠ 0 → payload ≠ [] → payload.length ≤ 2048 →
    ((∀ k ch, s.channels.look k = some ch → ch.tagged tag = none) →
      ∃ e, exec (.replayFrame dest source s.settings.replayType tag payload) s = .next (closeEvent e)
        ∧ OnlyCounts s e (.part .replayUnmatched))
    ∧ ∀ k ch tier r, s.channels.look k = some ch → ch.tagged tag = some tier →
      (∀ j other, j ≠ k → s.channels.look j = some other → other.tagged tag = none) →
      s.grant payload.length = some r →
      ((∀ n c, s.copies.look n = some c → c.channel = k → c.state = .active → c.tier ≠ tier) →
        ∃ e, exec (.replayFrame dest source s.settings.replayType tag payload) s = .next (closeEvent e)
          ∧ Advanced s e (.channel k .framesIn) 1 ∧ Advanced s e (.channel k .noAudience) 1
          ∧ e = { s with counters := e.counters })
      ∧ ((∃ n c, s.copies.look n = some c ∧ c.channel = k ∧ c.state = .active ∧ c.tier = tier) →
        ∃ e, exec (.replayFrame dest source s.settings.replayType tag payload) s = .next (closeEvent e)
          ∧ Advanced s e (.channel k .framesIn) 1
          ∧ (∀ n c, s.copies.look n = some c → e.copies.look n = some
              (if c.channel = k ∧ c.state = .active ∧ c.tier = tier then
                { c with queue := (if c.queue.length < 8 then c.queue else c.queue.drop 1) ++ [r] } else c))
          ∧ (∀ takers, takers = (s.copies.entries.filter fun x =>
                x.2.channel == k && x.2.state == .active && x.2.tier == tier) → ∃ u : State,
            (∀ q, u.buffer q = if q = r then some ⟨.replay, payload, takers.length⟩ else s.buffer q)
            ∧ ReleasedAll u e ((takers.filter fun x => decide (8 ≤ x.2.queue.length)).flatMap fun x => x.2.queue.take 1)
            ∧ ∀ n, Advanced s e (.cell n .replayDiscarded)
                (takers.filter fun x => x.2.cell == n && decide (8 ≤ x.2.queue.length)).length)
          ∧ CountersKept s e (fun x => x = .channel k .framesIn ∨ ∃ n, x = .cell n .replayDiscarded)
          ∧ e = { s with counters := e.counters, pools := e.pools, copies := e.copies })

/-! ## Tickets, claims, referrals -/

/-- R92, R101: LOAD TICKETS checks its body as a whole, is BUSY during a purge, and else handles its records one after another, each seeing
the table that those before it left: what the order does is the fold of `loadRecord` over them, each with the LOADED ticket of R88, its four
outcomes counted in the reply and part-wide. One record: a new number is stored, a LOADED unlocked ticket takes the new fields, any other is
left, a full table takes no new number; every other ticket is as it was. A claim parked for a number just stored leaves the queue and is
judged as on arrival (R93). -/
def Obligations.LoadTicketsStoresReplacesOrSkips : Prop :=
  (∀ (h : OrderHead) (n : Nat) (records : List TicketFields) (s : State), s.Takes h →
    (n = 0 ∨ 16 < n ∨ records.length ≠ n
        ∨ (∃ f ∈ records, f.number = 0 ∨ f.cls = none ∨ 128 ≤ f.seatSection) →
      ∃ t, exec (.loadTickets h n records) s = .next t ∧ Refused s t .loadTickets h.tag .badArgument)
    ∧ (1 ≤ n → n ≤ 16 → records.length = n →
      (∀ f ∈ records, f.number ≠ 0 ∧ f.cls ≠ none ∧ f.seatSection < 128) →
      (s.purge ≠ none → ∃ t, exec (.loadTickets h n records) s = .next t ∧ Refused s t .loadTickets h.tag .busy)
      ∧ (s.purge = none → ∃ e u stored replaced skipped full, exec (.loadTickets h n records) s = .next (closeEvent e)
        ∧ u = records.foldl (fun v f => loadRecord f.number (loadedTicket f) v) s
        ∧ Replied u e (.order .loadTickets) h.tag .done (.loadCounts stored replaced skipped full)
        ∧ CountersKept u e (· = .part .repliesLost)
        ∧ e = { u with link := e.link, counters := e.counters, draws := e.draws }
        ∧ stored + replaced + skipped + full = n
        ∧ Advanced s e (.part .ticketsStored) stored ∧ Advanced s e (.part .ticketsReplaced) replaced
        ∧ Advanced s e (.part .ticketsSkipped) skipped ∧ Advanced s e (.part .ticketTableFull) full
        ∧ e.settings = s.settings ∧ e.sections = s.sections ∧ e.purge = none)))
  ∧ (∀ (n : TicketNumber) (k : Ticket) (s : State), (∀ p ∈ s.referrals, p.claim.number ≠ n) →
    (∀ m, m ≠ n → (loadRecord n k s).ticket m = s.ticket m)
    ∧ (s.ticket n = none → (loadRecord n k s).ticket n = if s.tickets.size < 65536 then some k else none)
    ∧ (∀ old, s.ticket n = some old → (loadRecord n k s).ticket n = some
        (if old.state = .loaded ∧ old.locked = false then
          { old with token := k.token, cls := k.cls, seatSection := k.seatSection, seat := k.seat } else old))
    ∧ (∀ c, c = (match s.ticket n with
          | none => if s.tickets.size < 65536 then PartCounter.ticketsStored else .ticketTableFull
          | some old => if old.state = .loaded ∧ old.locked = false then .ticketsReplaced else .ticketsSkipped) →
        Advanced s (loadRecord n k s) (.part c) 1 ∧ CountersKept s (loadRecord n k s) (· = .part c))
    ∧ loadRecord n k s = { s with tickets := (loadRecord n k s).tickets, counters := (loadRecord n k s).counters })
  ∧ (∀ f : TicketFields, ∀ cls, f.cls = some cls →
    loadedTicket f = ⟨f.token, cls, f.seatSection, f.seat, .loaded, false, 0, 0, none⟩)
  ∧ ∀ (n : TicketNumber) (k : Ticket) (p : Parked) (s : State), s.ticket n = none → s.tickets.size < 65536 → s.purge = none →
    s.referrals.find? (fun q => q.claim.number == n) = some p → ∃ u,
      (∀ m, u.ticket m = if m = n then some k else s.ticket m) ∧ u.referrals = s.referrals.filter (fun q => q.id != p.id)
      ∧ Advanced s u (.part .ticketsStored) 1 ∧ CountersKept s u (· = .part .ticketsStored)
      ∧ u = { s with tickets := u.tickets, referrals := u.referrals, counters := u.counters }
      ∧ Advanced (judgeArrival p.claim u) (loadRecord n k s) (.part .referralsByLoad) 1
      ∧ CountersKept (judgeArrival p.claim u) (loadRecord n k s) (· = .part .referralsByLoad)
      ∧ loadRecord n k s = { judgeArrival p.claim u with counters := (loadRecord n k s).counters }

/-- R94: VOID TICKET by the ticket's state; a SEATED ticket is unbound from its station, which becomes UNTICKETED, with the class change
cascade of R111 (W, rates, the memberships that end by R132). -/
def Obligations.VoidTicketVoidsAndUnbinds : Prop :=
  ∀ (h : OrderHead) (n : TicketNumber) (s : State), s.Takes h →
    (n = 0 → ∃ t, exec (.voidTicket h n) s = .next t ∧ Refused s t .voidTicket h.tag .badArgument)
    ∧ (n ≠ 0 → s.purge ≠ none → ∃ t, exec (.voidTicket h n) s = .next t ∧ Refused s t .voidTicket h.tag .busy)
    ∧ (n ≠ 0 → s.purge = none →
      (s.ticket n = none → ∃ t, exec (.voidTicket h n) s = .next t ∧ Refused s t .voidTicket h.tag .notFound)
      ∧ ∀ k, s.ticket n = some k →
        (k.state = .void → ∃ t, exec (.voidTicket h n) s = .next t ∧ Refused s t .voidTicket h.tag .already)
        ∧ (k.state ≠ .void → ∃ e, exec (.voidTicket h n) s = .next (closeEvent e)
          ∧ Replied s e (.order .voidTicket) h.tag .done (.voided k.state)
          ∧ (∀ m, e.ticket m = if m = n then some { k with state := .void } else s.ticket m)
          ∧ Advanced s e (.part .ticketsVoided) 1
          ∧ (∀ i st, k.state = .seated i → s.stations.look i = some st → s.Fits → (∃ rate, e.stations.look i = some
              { st with
                ticket := none, cls := .unticketed, weight := s.settings.weights.unticketed
                members := s.keptMembers st .unticketed, rate := rate })
            ∧ Cascaded s e st .unticketed
            ∧ ∀ cell, st.place.cell? = some cell → s.HasRoom cell →
              (s.trunk (cell / 32)).signals.length + (s.endedMembers st .unticketed).length ≤ 1024 →
              (e.trunk (cell / 32)).signals = (s.trunk (cell / 32)).signals
                ++ (s.endedMembers st .unticketed).map fun x => ⟨cell, st.addr, .joinVerdict x.channel .ended⟩)
          ∧ (k.state.isSeated = false → e = { s with
              link := e.link, counters := e.counters, tickets := e.tickets, draws := e.draws })
          ∧ e = { s with
              link := e.link, counters := e.counters, cells := e.cells, trunks := e.trunks, pools := e.pools
              stations := e.stations, tickets := e.tickets, copies := e.copies, owed := e.owed, draws := e.draws }))

/-- R95: UNLOCK TICKET clears the mismatch count and the lock. -/
def Obligations.UnlockTicketClearsTheLock : Prop :=
  ∀ (h : OrderHead) (n : TicketNumber) (s : State), s.Takes h →
    (n = 0 → ∃ t, exec (.unlockTicket h n) s = .next t ∧ Refused s t .unlockTicket h.tag .badArgument)
    ∧ (n ≠ 0 → s.purge ≠ none → ∃ t, exec (.unlockTicket h n) s = .next t ∧ Refused s t .unlockTicket h.tag .busy)
    ∧ (n ≠ 0 → s.purge = none →
      (s.ticket n = none → ∃ t, exec (.unlockTicket h n) s = .next t ∧ Refused s t .unlockTicket h.tag .notFound)
      ∧ ∀ k, s.ticket n = some k →
        (k.locked = false ∧ k.mismatches = 0 → ∃ t, exec (.unlockTicket h n) s = .next t
          ∧ Refused s t .unlockTicket h.tag .already)
        ∧ (k.locked = true ∨ k.mismatches ≠ 0 → ∃ t, exec (.unlockTicket h n) s = .next t
          ∧ Replied s t (.order .unlockTicket) h.tag .done .empty
          ∧ (∀ m, t.ticket m = if m = n then some { k with locked := false, mismatches := 0 } else s.ticket m)
          ∧ CountersKept s t (· = .part .repliesLost)
          ∧ t = { s with link := t.link, counters := t.counters, tickets := t.tickets }))

/-- R97, R98: PURGE TICKETS answers every parked claim, oldest first, with DEFERRED for its cell and starts the purge, or is BUSY; on an
empty table the purge ends in the event after its start. Each batch removes the 2,048 lowest-numbered tickets, unbinding each SEATED one
with the class change cascade of R111 and R132, which tells the station's cell ENDED for each membership lost, counted; the batch that
empties the table ends the purge with PURGE DONE. The messages are stated for class-2 queues with room. That a message for an UNCONFIGURED
cell counts nothing at a full queue is the model's choice (log 46). A batch not due has not happened (log 6, log 17). -/
def Obligations.APurgeRemovesTheTableInBatches : Prop :=
  (∀ (h : OrderHead) (s : State), s.Takes h →
    (s.purge ≠ none → ∃ t, exec (.purgeTickets h) s = .next t ∧ Refused s t .purgeTickets h.tag .busy)
    ∧ (s.purge = none → ∃ e p t, exec (.purgeTickets h) s = .next t
      ∧ (s.tickets.entries ≠ [] → t = closeEvent e)
      ∧ (s.tickets.entries = [] → (closeEvent e).notices.length < Config.notices → t = closeEvent { closeEvent e with
          purge := none, notices := (closeEvent e).notices ++ [⟨s.time.clock, .purgeDone h.tag 0⟩] })
      ∧ (s.tickets.entries = [] → t.purge = none)
      ∧ Replied s e (.order .purgeTickets) h.tag .accepted .empty
      ∧ e.referrals = [] ∧ e.purge = some p ∧ p.tag = h.tag ∧ p.removed = 0 ∧ p.batches = 1
      ∧ Advanced s e (.part .referralsPurged) s.referrals.length
      ∧ Advanced s e (.part (.claim .deferred)) s.referrals.length
      ∧ (∀ ms, ms = s.referrals.map (fun p => ⟨p.claim.cell, p.claim.addr, .claimVerdict p.claim.number .deferred⟩) →
        (∀ k, s.RoomFor ms k) → (∀ k, e.trunk k = s.trunkAfter ms k)
          ∧ CountersKept s e (fun x => x = .part .referralsPurged ∨ x = .part (.claim .deferred) ∨ x = .part .repliesLost))
      ∧ e = { s with
          link := e.link, counters := e.counters, trunks := e.trunks, purge := e.purge, referrals := e.referrals }))
  ∧ ∀ s : State, s.Fits →
    (s.purge = none ∨ (∃ p, s.purge = some p ∧ p.batches = 0) → exec .purgeBatch s = .next s)
    ∧ ∀ p, s.purge = some p → 0 < p.batches → ∃ e, exec .purgeBatch s = .next (closeEvent e)
      ∧ e.tickets.entries = s.tickets.entries.drop 2048
      ∧ Advanced s e (.part .ticketsPurged) (min 2048 s.tickets.size)
      ∧ (2048 < s.tickets.size → e.purge = some { p with removed := p.removed + 2048, batches := p.batches - 1 }
        ∧ e.notices = s.notices)
      ∧ (s.tickets.size ≤ 2048 → e.purge = none ∧ (s.notices.length < Config.notices →
        e.notices = s.notices ++ [⟨s.time.clock, .purgeDone p.tag (p.removed + s.tickets.size)⟩]))
      ∧ (∀ i st, s.stations.look i = some st →
        (∃ x ∈ s.tickets.entries.take 2048, x.2.state = .seated i) → ∃ rate, e.stations.look i = some
          { st with
            ticket := none, cls := .unticketed, weight := s.settings.weights.unticketed
            members := s.keptMembers st .unticketed, rate := rate })
      ∧ (∀ i st, s.stations.look i = some st → (∀ x ∈ s.tickets.entries.take 2048, x.2.state ≠ .seated i) →
        ∃ rate, e.stations.look i = some { st with rate := rate })
      ∧ ((∀ j x, s.stations.look j = some x → x.weight = classWeight s.settings.weights x.cls) →
        ∀ i st cell, s.stations.look i = some st → st.place.cell? = some cell → st.cls ≠ .unticketed →
        (∃ x ∈ s.tickets.entries.take 2048, x.2.state = .seated i) → e.RatesLaw cell)
      ∧ (s.BindingLaw → ∀ ended, ended = s.purgeSignals (s.tickets.entries.take 2048) →
        Advanced s e (.part .membershipsEnded) ended.length
        ∧ ((∀ k, s.RoomFor ended k) → (∀ k, e.trunk k = s.trunkAfter ended k)
          ∧ CountersKept s e (fun x => x = .part .ticketsPurged ∨ x = .part .membershipsEnded ∨ x = .part .noticesLost
            ∨ ∃ n, x = .cell n .replayDiscarded)))
      ∧ e = { s with
          notices := e.notices, latches := e.latches, counters := e.counters, cells := e.cells, trunks := e.trunks
          pools := e.pools, stations := e.stations, tickets := e.tickets, purge := e.purge, copies := e.copies
          owed := e.owed }

/-- R103, R104, R113: a claim is DEFERRED during a purge; refused NOT-ATTACHED, WRONG-CELL, LOCKED, VOID, TOKEN (the third mismatch locks)
in this order; for an absent number it is parked, or DEFERRED at a number already parked or a full queue, each counted. A parked claim takes
the next referral id, which then becomes the first id after it that no parked claim holds (R102; that held ids are passed over at the
parking, not at the next one, is log 32). -/
def Obligations.ClaimsAreCheckedInOrder : Prop :=
  ∀ (m : MessageHead) (code : Byte) (n : TicketNumber) (token : Token) (s : State), s.Claims m code n →
    ∃ e, exec (.ticketClaim m code n token) s = .next (closeEvent e)
      ∧ (s.purge ≠ none → OnlyVerdict s e m n .deferred)
      ∧ (s.purge = none →
        ((∀ i st, s.stationWith m.addr = some (i, st) → st.place.associatedAt (cellOf m) = false) →
          OnlyVerdict s e m n (.refused .notAttached))
        ∧ (∀ i st, s.stationWith m.addr = some (i, st) → st.place.associatedAt (cellOf m) = true →
          ¬ s.ClaimsAt m code i st → OnlyVerdict s e m n (.refused .wrongCell))
        ∧ ∀ i st, s.ClaimsAt m code i st →
          (s.ticket n = none →
            (∀ cause, ((∃ p ∈ s.referrals, p.claim.number = n) ∧ cause = .referralsDuplicate)
                ∨ ((∀ p ∈ s.referrals, p.claim.number ≠ n) ∧ 64 ≤ s.referrals.length ∧ cause = .referralsQueueFull) →
              Posted s e (cellOf m) m.addr (.claimVerdict n .deferred) ∧ Advanced s e (.part (.claim .deferred)) 1
                ∧ Advanced s e (.part cause) 1
                ∧ CountersKept s e (fun x => x = .part (.claim .deferred) ∨ x = .part cause)
                ∧ e = { s with trunks := e.trunks, counters := e.counters })
            ∧ ((∀ p ∈ s.referrals, p.claim.number ≠ n) → s.referrals.length < 64 →
              s.notices.length < Config.notices → ∃ kind,
                kind = (if code = 1 then .entry else if code = 2 then .seat else .exit : ClaimKind)
                ∧ e.referrals = s.referrals ++
                  [⟨s.nextReferral, ⟨kind, n, token, m.addr, cellOf m⟩, s.time.clock⟩]
                ∧ e.notices = s.notices ++
                  [⟨s.time.clock, .referral s.nextReferral kind n token m.addr (cellOf m)⟩]
                ∧ Advanced s e (.part .referralsParked) 1 ∧ CountersKept s e (· = .part .referralsParked)
                ∧ (∃ k, k ≤ 64 ∧ e.nextReferral = s.nextReferral + 1 + BitVec.ofNat 16 k
                  ∧ (∀ p ∈ e.referrals, p.id ≠ e.nextReferral)
                  ∧ ∀ j, j < k → ∃ p ∈ e.referrals, p.id = s.nextReferral + 1 + BitVec.ofNat 16 j)
                ∧ e = { s with
                    notices := e.notices, counters := e.counters, referrals := e.referrals
                    nextReferral := e.nextReferral }))
          ∧ ∀ k, s.ticket n = some k →
            (k.locked = true → OnlyVerdict s e m n (.refused .locked))
            ∧ (k.locked = false → k.state = .void → OnlyVerdict s e m n (.refused .void))
            ∧ (k.locked = false → k.state ≠ .void → k.token ≠ token → s.notices.length < Config.notices →
              (∀ x, e.ticket x = if x = n then
                some { k with mismatches := k.mismatches + 1, locked := decide (3 ≤ k.mismatches + 1) }
                else s.ticket x)
              ∧ Posted s e (cellOf m) m.addr (.claimVerdict n (.refused .token))
              ∧ Advanced s e (.part (.claim (.refused .token))) 1
              ∧ e.notices = s.notices ++ (if 3 ≤ k.mismatches + 1 then
                  [⟨s.time.clock, .ticketLocked n m.addr (cellOf m)⟩] else [])
              ∧ e = { s with
                  notices := e.notices, counters := e.counters, trunks := e.trunks, tickets := e.tickets }))

/-- R105, R109, R112: an ENTRY claim (code 1) and an EXIT claim (code 3) that pass every check, by the ticket's state; an EXIT unbinds a
SEATED ticket, with the class change cascade of R111 and R132 for its station. Its EXITED verdict stands in class 2 ahead of the cascade's
ENDED verdicts (R110), which is stated for class-2 queues with room. That a message for an UNCONFIGURED cell counts nothing at a full queue
is the model's choice (log 46). -/
def Obligations.EntryAndExitFollowTheTicketsState : Prop :=
  ∀ (m : MessageHead) (n : TicketNumber) (token : Token) (i : Nat) (st : Station) (k : Ticket) (s : State),
    s.purge = none → s.ticket n = some k → k.Passes token →
    (s.Claims m 1 n → s.ClaimsAt m 1 i st → ∃ e, exec (.ticketClaim m 1 n token) s = .next (closeEvent e)
      ∧ (k.state = .loaded ∨ k.state = .outside →
        (k.admissions < s.settings.policy.maxEntries →
          Posted s e (cellOf m) m.addr (.claimVerdict n .admitted) ∧ Advanced s e (.part (.claim .admitted)) 1
          ∧ (∀ x, e.ticket x = if x = n then
              some { k with state := .inside, admissions := k.admissions + 1, lastGate := some (cellOf m) }
              else s.ticket x)
          ∧ e = { s with counters := e.counters, trunks := e.trunks, tickets := e.tickets })
        ∧ (s.settings.policy.maxEntries ≤ k.admissions → OnlyVerdict s e m n (.refused .reentryLimit)))
      ∧ (k.state = .inside ∨ k.state.isSeated = true → s.notices.length < Config.notices →
        Posted s e (cellOf m) m.addr (.claimVerdict n (.refused .inside))
        ∧ Advanced s e (.part (.claim (.refused .inside))) 1
        ∧ e.notices = s.notices ++ [⟨s.time.clock, .duplicateEntry n k.state k.lastGate m.addr (cellOf m)⟩]
        ∧ e = { s with notices := e.notices, counters := e.counters, trunks := e.trunks }))
    ∧ (s.Claims m 3 n → s.ClaimsAt m 3 i st → ∃ e, exec (.ticketClaim m 3 n token) s = .next (closeEvent e)
      ∧ (k.state = .loaded ∨ k.state = .outside → OnlyVerdict s e m n (.refused .notInside))
      ∧ (k.state = .inside ∨ k.state.isSeated = true →
        Advanced s e (.part (.claim .exited)) 1
        ∧ (∀ x, e.ticket x = if x = n then some { k with state := .outside, lastGate := some (cellOf m) }
            else s.ticket x)
        ∧ (k.state = .inside → Posted s e (cellOf m) m.addr (.claimVerdict n .exited)
          ∧ e = { s with counters := e.counters, trunks := e.trunks, tickets := e.tickets })
        ∧ ∀ j holder, k.state = .seated j → s.stations.look j = some holder →
          (∃ rate, e.stations.look j = some { holder with
            ticket := none, cls := .unticketed, weight := s.settings.weights.unticketed
            members := s.keptMembers holder .unticketed, rate := rate })
          ∧ Cascaded s e holder .unticketed
          ∧ (∀ ms, ms = ⟨cellOf m, m.addr, .claimVerdict n .exited⟩ :: s.endedSignals holder .unticketed →
            (∀ t, s.RoomFor ms t) → (∀ t, e.trunk t = s.trunkAfter ms t)
              ∧ CountersKept s e (fun x => x = .part (.claim .exited) ∨ x = .part .membershipsEnded
                ∨ ∃ c, holder.place.cell? = some c ∧ x = .cell c .replayDiscarded))
          ∧ e = { s with
              counters := e.counters, cells := e.cells, trunks := e.trunks, pools := e.pools, stations := e.stations
              tickets := e.tickets, copies := e.copies, owed := e.owed }))

/-- R90, R106, R107, R108: a SEAT claim (code 2) that passes every check: its section, then the ticket's state, the holder of a ticket SEATED
elsewhere, and the seat mode and maximum of the entry policy. A bind that changes the station's class is followed by the cascade of R111:
W and rates, and the memberships that its new class does not admit end (R132). -/
def Obligations.SeatClaimsBindOrAreRefused : Prop :=
  ∀ (m : MessageHead) (n : TicketNumber) (token : Token) (i : Nat) (st : Station) (k : Ticket) (s : State),
    s.purge = none → s.ticket n = some k → k.Passes token → s.Claims m 2 n → s.ClaimsAt m 2 i st →
    ∃ e, exec (.ticketClaim m 2 n token) s = .next (closeEvent e)
      ∧ ((∀ list, s.sections.look k.seatSection = some list → cellOf m ∉ list) →
        OnlyVerdict s e m n (.refused .wrongSection))
      ∧ ∀ list, s.sections.look k.seatSection = some list → cellOf m ∈ list →
        (k.state = .inside → Seats s e m n k i st)
        ∧ (k.state = .seated i → OnlyVerdict s e m n .seated)
        ∧ (∀ j holder, k.state = .seated j → j ≠ i → s.stations.look j = some holder →
          (holder.place = .dormant → Seats s e m n k i st ∧ ∃ now, e.stations.look j = some now ∧ now.ticket = none
            ∧ now.cls = .unticketed ∧ now.place = .dormant)
          ∧ (holder.place ≠ .dormant → s.notices.length < Config.notices →
            Posted s e (cellOf m) m.addr (.claimVerdict n (.refused .taken))
            ∧ Advanced s e (.part (.claim (.refused .taken))) 1
            ∧ e.notices = s.notices ++
              [⟨s.time.clock, .duplicateSeat n m.addr (cellOf m) j (some holder.place)⟩]
            ∧ e = { s with notices := e.notices, counters := e.counters, trunks := e.trunks }))
        ∧ (k.state = .loaded ∨ k.state = .outside →
          (s.settings.policy.mode = .strict → OnlyVerdict s e m n (.refused .notInside))
          ∧ (s.settings.policy.mode = .lenient → s.settings.policy.maxEntries ≤ k.admissions →
            OnlyVerdict s e m n (.refused .reentryLimit))
          ∧ (s.settings.policy.mode = .lenient → k.admissions < s.settings.policy.maxEntries →
            Seats s e m n { k with admissions := k.admissions + 1 } i st))

/-- R115, R116, R117: a parked claim leaves the queue by an ACCEPT (its ticket stored and the claim judged as on arrival, from check 2 on,
with its verdict to the claim's cell; or FULL), by a REJECT (refused UNKNOWN) or at the referral timeout (DEFERRED); a late ruling is
counted, a late ACCEPT's record handled as LOAD TICKETS handles it, so that one stored for a number parked again resolves that referral; an
unknown ruling or record is BAD-ARGUMENT, a purge BUSY. Before its moment the timeout has not happened (log 6). -/
def Obligations.ReferralsEndByRulingOrTimeout : Prop :=
  (∀ (h : OrderHead) (id : BitVec 16) (f : TicketFields) (cls : TicketClass) (s : State), s.Takes h →
    (∀ r, r = .unknown ∨ r = .accept none → ∃ t, exec (.ruleReferral h id r) s = .next t
      ∧ Refused s t .ruleReferral h.tag .badArgument)
    ∧ (s.purge ≠ none → ∃ t, exec (.ruleReferral h id .reject) s = .next t ∧ Refused s t .ruleReferral h.tag .busy)
    ∧ (s.purge = none → (∀ p ∈ s.referrals, p.id ≠ id) → ∃ t, exec (.ruleReferral h id .reject) s = .next t
      ∧ Replied s t (.order .ruleReferral) h.tag .late .empty ∧ Advanced s t (.part .lateRulings) 1
      ∧ t = { s with link := t.link, counters := t.counters })
    ∧ (s.purge = none → f.cls = some cls → f.number ≠ 0 → f.seatSection < 128 →
      (∀ p ∈ s.referrals, p.id ≠ id ∧ p.claim.number ≠ f.number) →
      (s.ticket f.number = none → s.tickets.size < 65536 →
        ∃ e, exec (.ruleReferral h id (.accept (some f))) s = .next (closeEvent e)
          ∧ Replied s e (.order .ruleReferral) h.tag .lateStored .empty
          ∧ Advanced s e (.part .lateRulings) 1
          ∧ (∀ x, e.ticket x = if x = f.number then
              some ⟨f.token, cls, f.seatSection, f.seat, .loaded, false, 0, 0, none⟩ else s.ticket x)
          ∧ e = { s with link := e.link, counters := e.counters, tickets := e.tickets })
      ∧ (∀ k, s.ticket f.number = some k → k.state ≠ .loaded ∨ k.locked = true →
        ∃ t, exec (.ruleReferral h id (.accept (some f))) s = .next t
          ∧ Replied s t (.order .ruleReferral) h.tag .late .empty ∧ Advanced s t (.part .lateRulings) 1
          ∧ t = { s with link := t.link, counters := t.counters }))
    ∧ (s.purge = none → f.cls = some cls → f.number ≠ 0 → f.seatSection < 128 → (∀ p ∈ s.referrals, p.id ≠ id) →
      (s.ticket f.number = none ∨ ∃ k, s.ticket f.number = some k ∧ k.state = .loaded ∧ k.locked = false →
        ∃ e u, exec (.ruleReferral h id (.accept (some f))) s = .next (closeEvent e)
          ∧ u = loadRecord f.number (loadedTicket f) s
          ∧ Replied u e (.order .ruleReferral) h.tag
              (if s.ticket f.number = none ∧ 65536 ≤ s.tickets.size then .full else .lateStored) .empty
          ∧ Advanced u e (.part .lateRulings) 1
          ∧ CountersKept u e (fun x => x = .part .lateRulings ∨ x = .part .repliesLost)
          ∧ e = { u with link := e.link, counters := e.counters })
      ∧ ∀ p, s.ticket f.number = none → s.tickets.size < 65536 →
        s.referrals.find? (fun q => q.claim.number == f.number) = some p →
        ∃ e u v, exec (.ruleReferral h id (.accept (some f))) s = .next (closeEvent e)
          ∧ (∀ x, u.ticket x = if x = f.number then
              some ⟨f.token, cls, f.seatSection, f.seat, .loaded, false, 0, 0, none⟩ else s.ticket x)
          ∧ u.referrals = s.referrals.filter (fun q => q.id != p.id)
          ∧ Advanced s u (.part .ticketsStored) 1 ∧ CountersKept s u (· = .part .ticketsStored)
          ∧ u = { s with tickets := u.tickets, referrals := u.referrals, counters := u.counters }
          ∧ v = judgeArrival p.claim u ∧ Replied v e (.order .ruleReferral) h.tag .lateStored .empty
          ∧ Advanced v e (.part .referralsByLoad) 1 ∧ Advanced v e (.part .lateRulings) 1
          ∧ CountersKept v e (fun x => x = .part .referralsByLoad ∨ x = .part .lateRulings ∨ x = .part .repliesLost)
          ∧ e = { v with link := e.link, counters := e.counters })
    ∧ ∀ p, s.referrals.find? (fun q => q.id == id) = some p → s.purge = none →
      (∃ e, exec (.ruleReferral h id .reject) s = .next (closeEvent e)
        ∧ Replied s e (.order .ruleReferral) h.tag .done .empty
        ∧ e.referrals = s.referrals.filter (fun q => q.id != id)
        ∧ Advanced s e (.part (.claim (.refused .unknown))) 1
        ∧ (s.HasRoom p.claim.cell →
          Posted s e p.claim.cell p.claim.addr (.claimVerdict p.claim.number (.refused .unknown)))
        ∧ e = { s with link := e.link, counters := e.counters, trunks := e.trunks, referrals := e.referrals })
      ∧ (f.cls = some cls → f.number ≠ 0 → f.seatSection < 128 →
        (p.claim.number ≠ f.number → ∃ t, exec (.ruleReferral h id (.accept (some f))) s = .next t
          ∧ Refused s t .ruleReferral h.tag .badArgument)
        ∧ (p.claim.number = f.number → s.tickets.size < 65536 →
          ∃ e k u v, exec (.ruleReferral h id (.accept (some f))) s = .next (closeEvent e)
            ∧ Replied s e (.order .ruleReferral) h.tag .done .empty
            ∧ e.referrals = s.referrals.filter (fun q => q.id != id)
            ∧ Advanced s e (.part .ticketsStored) 1
            ∧ e.ticket f.number = some k ∧ k.token = f.token ∧ k.cls = cls ∧ k.seatSection = f.seatSection
            ∧ k.seat = f.seat
            ∧ (∀ x, u.ticket x = if x = f.number then
                some ⟨f.token, cls, f.seatSection, f.seat, .loaded, false, 0, 0, none⟩ else s.ticket x)
            ∧ u.referrals = s.referrals.filter (fun q => q.id != id)
            ∧ Advanced s u (.part .ticketsStored) 1 ∧ CountersKept s u (· = .part .ticketsStored)
            ∧ u = { s with tickets := u.tickets, referrals := u.referrals, counters := u.counters }
            ∧ v = judgeArrival p.claim u ∧ CountersKept v e (· = .part .repliesLost)
            ∧ e = { v with link := e.link, counters := e.counters }
            ∧ ((∀ i st, s.stationWith p.claim.addr = some (i, st) → st.place.associatedAt p.claim.cell = false) →
              s.HasRoom p.claim.cell →
              Posted s e p.claim.cell p.claim.addr (.claimVerdict p.claim.number (.refused .notAttached)) ∧ k.state = .loaded)
            ∧ ((∃ i st c, s.stationWith p.claim.addr = some (i, st) ∧ st.place.associatedAt p.claim.cell = true
                ∧ s.cells.look p.claim.cell = some c ∧ c.kind = (if p.claim.kind = .seat then .seat else .gate)) →
              f.token ≠ p.claim.token → s.HasRoom p.claim.cell →
              Posted s e p.claim.cell p.claim.addr (.claimVerdict p.claim.number (.refused .token)) ∧ k.mismatches = 1))
        ∧ (p.claim.number = f.number → 65536 ≤ s.tickets.size →
          ∃ e, exec (.ruleReferral h id (.accept (some f))) s = .next (closeEvent e)
            ∧ Replied s e (.order .ruleReferral) h.tag .full .empty
            ∧ e.referrals = s.referrals.filter (fun q => q.id != id) ∧ e.tickets = s.tickets
            ∧ Advanced s e (.part (.claim .deferred)) 1 ∧ Advanced s e (.part .ticketTableFull) 1)))
  ∧ ∀ (id : BitVec 16) (p : Parked) (s : State), s.referrals.find? (fun q => q.id == id) = some p →
    ((s.time.clock - p.park).toNat < s.settings.timers.referral → exec (.referralTimerExpiry id) s = .next s)
    ∧ (s.settings.timers.referral ≤ (s.time.clock - p.park).toNat →
      ∃ e, exec (.referralTimerExpiry id) s = .next (closeEvent e)
        ∧ e.referrals = s.referrals.filter (fun q => q.id != id)
        ∧ Advanced s e (.part (.claim .deferred)) 1 ∧ Advanced s e (.part .referralsTimedOut) 1
        ∧ (s.HasRoom p.claim.cell →
          Posted s e p.claim.cell p.claim.addr (.claimVerdict p.claim.number .deferred))
        ∧ e = { s with counters := e.counters, trunks := e.trunks, referrals := e.referrals })

/-! ## Settings and service -/

/-- R99, R100, R159: the orders that write one setting: the section map, the entry policy (in CONFIG only), the replay frame type and the
replay run limit, with their checks and clamps. That a cell above 255 in the list is BAD-ARGUMENT is the model's choice (logs 14 and 40). -/
def Obligations.SettingOrdersStoreTheirSetting : Prop :=
  ∀ (h : OrderHead) (s : State), s.Takes h →
    (∀ (n : Nat) (list : List Nat),
      (128 ≤ n ∨ 4 < list.length ∨ ¬ list.Nodup ∨ (∃ c ∈ list, 256 ≤ c) → ∃ t, exec (.setSection h n list) s = .next t
        ∧ Refused s t .setSection h.tag .badArgument)
      ∧ (n < 128 → list.length ≤ 4 → list.Nodup → (∀ c ∈ list, c < 256) → ∃ t, exec (.setSection h n list) s = .next t
        ∧ Replied s t (.order .setSection) h.tag .done .empty
        ∧ (∀ m, t.sections.look m = if m = n then (if list = [] then none else some list)
            else s.sections.look m)
        ∧ t = { s with link := t.link, counters := t.counters, sections := t.sections }))
    ∧ (∀ (n : Nat) (mode : Option SeatMode),
      (s.time.service = .service → ∃ t, exec (.setEntryPolicy h n mode) s = .next t
        ∧ Refused s t .setEntryPolicy h.tag .wrongState)
      ∧ (s.time.service = .config → mode = none → ∃ t, exec (.setEntryPolicy h n mode) s = .next t
        ∧ Refused s t .setEntryPolicy h.tag .badArgument)
      ∧ (∀ m, s.time.service = .config → mode = some m → ∃ t, exec (.setEntryPolicy h n mode) s = .next t
        ∧ Replied s t (.order .setEntryPolicy) h.tag (if 1 ≤ n ∧ n ≤ 15 then .done else .clamped) .empty
        ∧ t = { s with
            link := t.link, counters := t.counters
            settings := { s.settings with policy := ⟨max 1 (min 15 n), m⟩ } }))
    ∧ (∀ w : BitVec 16, ∃ t, exec (.setReplayFrameType h w) s = .next t
      ∧ Replied s t (.order .setReplayFrameType) h.tag .done .empty
      ∧ t = { s with link := t.link, counters := t.counters, settings := { s.settings with replayType := w } })
    ∧ ∀ w : BitVec 16, ∃ t, exec (.setReplayRunLimit h w) s = .next t
      ∧ Replied s t (.order .setReplayRunLimit) h.tag (if w.toNat ≤ 255 then .done else .clamped) .empty
      ∧ t = { s with
          link := t.link, counters := t.counters, settings := { s.settings with runLimit := min 255 w.toNat } }

/-- R156: START SERVICE is refused in SERVICE and with no cell configured; else both clocks start at 0 and every cell is due at 0, its
POLL queued in class 5 on an ACTIVE trunk. -/
def Obligations.StartServiceStartsTheClocks : Prop :=
  ∀ (h : OrderHead) (s : State), s.Takes h →
    (s.time.service = .service ∨ s.cells.entries = [] → ∃ t, exec (.startService h) s = .next t
      ∧ Refused s t .startService h.tag .wrongState)
    ∧ (s.time.service = .config → s.cells.entries ≠ [] → ∃ e, exec (.startService h) s = .next (closeEvent e)
      ∧ Replied s e (.order .startService) h.tag .done .empty
      ∧ e.time.service = .service ∧ e.time.clock = 0 ∧ e.time.tick = 0
      ∧ (∀ n, e.cells.look n = (s.cells.look n).map fun c => { c with
          due := some 0, queued := if (s.trunk (n / 32)).state = .active then .onTime else c.queued })
      ∧ e = { s with link := e.link, counters := e.counters, time := e.time, cells := e.cells })

/-- R158: SET TIMERS stores the given timers, each clamped, and keeps the others. What the new values bring due follows at once in events of
its own: for each timer that changed, the handover timeouts (R70, R74), the referral timeouts (R117), the stations that come of age to be
DORMANT (R62), those to be FREE (R63); of one timer the oldest first, among equals the lowest station index (R62, R63, R70), the referrals
in queue order (R117); each is the timed event, whose own statement says what it does. Two choices are the model's: the order among the
timers (log 15), and that the poll timer alone brings no event and the order leaves the cells as they are, a queued POLL whose overdue point
it moves into the past among them, which a later POLL_OVERDUE takes up (log 42). -/
def Obligations.SetTimersStoresTheGivenTimers : Prop :=
  ∀ (h : OrderHead) (m : TimerMask) (v : Timers) (s : State), s.Takes h →
    (m.unknownBit = true → ∃ t, exec (.setTimers h m v) s = .next t ∧ Refused s t .setTimers h.tag .badArgument)
    ∧ (m.unknownBit = false → ∃ e, exec (.setTimers h m v) s = .next (followTimers s.settings.timers (closeEvent e))
      ∧ Replied s e (.order .setTimers) h.tag
          (if (m.poll = true ∧ (v.poll < 20 ∨ 1000 < v.poll)) ∨ (m.handover = true ∧ (v.handover < 20 ∨ 1000 < v.handover))
              ∨ (m.referral = true ∧ (v.referral < 250 ∨ 10000 < v.referral))
              ∨ (m.dormant = true ∧ (v.dormant < 5 ∨ 300 < v.dormant))
              ∨ (m.expire = true ∧ (v.expire < 60 ∨ 3600 < v.expire)) then .clamped else .done) .empty
      ∧ e.settings = { s.settings with timers :=
          { poll := if m.poll = true then max 20 (min 1000 v.poll) else s.settings.timers.poll
            handover := if m.handover = true then max 20 (min 1000 v.handover) else s.settings.timers.handover
            referral := if m.referral = true then max 250 (min 10000 v.referral) else s.settings.timers.referral
            dormant := if m.dormant = true then max 5 (min 300 v.dormant) else s.settings.timers.dormant
            expire := if m.expire = true then max 60 (min 3600 v.expire) else s.settings.timers.expire } }
      ∧ e = { s with link := e.link, counters := e.counters, settings := e.settings }
      ∧ (e.settings.timers = { s.settings.timers with poll := e.settings.timers.poll } →
        followTimers s.settings.timers (closeEvent e) = closeEvent e)
      ∧ (followTimers s.settings.timers (closeEvent e)).settings = e.settings
      ∧ (s.Fits → ∃ a b c d : List Instr, ∃ u1 u2 u3 : State, Follow (closeEvent e) a u1 ∧ Follow u1 b u2 ∧ Follow u2 c u3
        ∧ Follow u3 d (followTimers s.settings.timers (closeEvent e))
        ∧ (∀ x, x ∈ a ↔ e.settings.timers.handover ≠ s.settings.timers.handover ∧ ∃ i k, x = .handoverTimerExpiry i
            ∧ (closeEvent e).handovers.look i = some k
            ∧ e.settings.timers.handover ≤ (s.time.clock - k.start).toNat)
        ∧ b = (if e.settings.timers.referral = s.settings.timers.referral then [] else
            (u1.referrals.filter fun p => decide (e.settings.timers.referral ≤ (s.time.clock - p.park).toNat)).map
              fun p => .referralTimerExpiry p.id)
        ∧ (∀ x, x ∈ c ↔ e.settings.timers.dormant ≠ s.settings.timers.dormant ∧ ∃ i st cell since,
            x = .stationAgedDormant i ∧ u2.stations.look i = some st ∧ st.place = .associated cell since
            ∧ st.paused = false ∧ e.settings.timers.dormant * 1000 ≤ (s.time.clock - st.lastHeard).toNat)
        ∧ (∀ x, x ∈ d ↔ e.settings.timers.expire ≠ s.settings.timers.expire ∧ ∃ i st, x = .stationExpired i
            ∧ u3.stations.look i = some st ∧ st.place = .dormant
            ∧ e.settings.timers.expire * 1000 ≤ (s.time.clock - st.lastHeard).toNat)
        ∧ a.Nodup ∧ c.Nodup ∧ d.Nodup
        ∧ a.Pairwise (fun x y => ∀ i j v w, x = .handoverTimerExpiry i → y = .handoverTimerExpiry j →
            (closeEvent e).handovers.look i = some v → (closeEvent e).handovers.look j = some w →
            (s.time.clock - w.start).toNat < (s.time.clock - v.start).toNat ∨ (v.start = w.start ∧ i < j))
        ∧ c.Pairwise (fun x y => ∀ i j v w, x = .stationAgedDormant i → y = .stationAgedDormant j →
            u2.stations.look i = some v → u2.stations.look j = some w →
            (s.time.clock - w.lastHeard).toNat < (s.time.clock - v.lastHeard).toNat ∨ (v.lastHeard = w.lastHeard ∧ i < j))
        ∧ d.Pairwise (fun x y => ∀ i j v w, x = .stationExpired i → y = .stationExpired j →
            u3.stations.look i = some v → u3.stations.look j = some w →
            (s.time.clock - w.lastHeard).toNat < (s.time.clock - v.lastHeard).toNat ∨ (v.lastHeard = w.lastHeard ∧ i < j))))

/-! ## Replay channels and memberships -/

/-- R121, R122: DEFINE CHANNEL stores a CLOSED record with F and r clamped, unless its fields name nothing or the channel is OPEN; OPEN
CHANNEL opens a defined channel whose tags no other OPEN channel has. -/
def Obligations.ChannelsAreDefinedThenOpened : Prop :=
  ∀ (h : OrderHead) (k : Nat) (s : State), s.Takes h →
    (∀ (who : ClassFlags) (code : RecoveryField) (full : TierFields) (reduced : Option TierFields),
      (64 ≤ k ∨ code = .unknown ∨ who = ⟨false, false, false, false, false⟩
          ∨ (∃ r, reduced = some r ∧ r.tag = full.tag) →
        ∃ t, exec (.defineChannel h k who code full reduced) s = .next t
          ∧ Refused s t .defineChannel h.tag .badArgument)
      ∧ (k < 64 → who ≠ ⟨false, false, false, false, false⟩ → (∀ r, reduced = some r → r.tag ≠ full.tag) →
        ∀ stored, (code = .code stored ∨ (code = .unset ∧ stored = .recover4)) →
        ((∃ ch, s.channels.look k = some ch ∧ ch.isOpen = true) →
          ∃ t, exec (.defineChannel h k who code full reduced) s = .next t
            ∧ Refused s t .defineChannel h.tag .wrongState)
        ∧ ((∀ ch, s.channels.look k = some ch → ch.isOpen = false) →
          ∃ t ch, exec (.defineChannel h k who code full reduced) s = .next t
            ∧ ch = ⟨false, who, stored,
                ⟨full.tag, max 200 (min 1400 full.frameBytes), max 125 (min 20000 full.rate)⟩,
                reduced.map fun r => ⟨r.tag, max 200 (min 1400 r.frameBytes),
                  max 125 (min (max 125 (min 20000 full.rate)) r.rate)⟩⟩
            ∧ Replied s t (.order .defineChannel) h.tag
                (if ch.full.frameBytes = full.frameBytes ∧ ch.full.rate = full.rate
                    ∧ ch.reduced.map (·.frameBytes) = reduced.map (·.frameBytes)
                    ∧ ch.reduced.map (·.rate) = reduced.map (·.rate) then .done else .clamped) .empty
            ∧ (∀ j, t.channels.look j = if j = k then some ch else s.channels.look j)
            ∧ CountersKept s t (· = .part .repliesLost)
            ∧ t = { s with link := t.link, counters := t.counters, channels := t.channels })))
    ∧ (64 ≤ k → ∃ t, exec (.openChannel h k) s = .next t ∧ Refused s t .openChannel h.tag .badArgument)
    ∧ (k < 64 → s.channels.look k = none → ∃ t, exec (.openChannel h k) s = .next t
      ∧ Refused s t .openChannel h.tag .wrongState)
    ∧ ∀ ch, k < 64 → s.channels.look k = some ch → s.channels.wf = true →
      (ch.isOpen = true → ∃ t, exec (.openChannel h k) s = .next t ∧ Refused s t .openChannel h.tag .already)
      ∧ (ch.isOpen = false → (∃ j other tag, j ≠ k ∧ s.channels.look j = some other ∧ other.isOpen = true
          ∧ tag ∈ ch.full.tag :: (ch.reduced.map (·.tag)).toList
          ∧ tag ∈ other.full.tag :: (other.reduced.map (·.tag)).toList) →
        ∃ t, exec (.openChannel h k) s = .next t ∧ Refused s t .openChannel h.tag .badArgument)
      ∧ (ch.isOpen = false → (∀ j other tag, j ≠ k → s.channels.look j = some other → other.isOpen = true →
          tag ∈ ch.full.tag :: (ch.reduced.map (·.tag)).toList →
          tag ∉ other.full.tag :: (other.reduced.map (·.tag)).toList) →
        ∃ t, exec (.openChannel h k) s = .next t ∧ Replied s t (.order .openChannel) h.tag .done .empty
          ∧ (∀ j, t.channels.look j = if j = k then some { ch with isOpen := true } else s.channels.look j)
          ∧ CountersKept s t (· = .part .repliesLost)
          ∧ t = { s with link := t.link, counters := t.counters, channels := t.channels })

/-- R123, R130: CLOSE CHANNEL closes an OPEN channel and ends every membership of it, at whose cell there is a copy of the channel (R125,
R126). Where each copy's member count is that of the stations that name it (R125), the copies are gone, their entries counted and their
buffers released, a pass is owed at each of their cells, whose M and rates follow; and each member, by copy from the oldest on and by index,
is told ENDED at its current cell, counted. The verdicts are stated for class-2 queues with room. -/
def Obligations.CloseChannelEndsItsMemberships : Prop :=
  ∀ (h : OrderHead) (k : Nat) (s : State), s.Takes h → s.Fits →
    (64 ≤ k → ∃ t, exec (.closeChannel h k) s = .next t ∧ Refused s t .closeChannel h.tag .badArgument)
    ∧ (k < 64 → s.channels.look k = none → ∃ t, exec (.closeChannel h k) s = .next t
      ∧ Refused s t .closeChannel h.tag .wrongState)
    ∧ ∀ ch, k < 64 → s.channels.look k = some ch →
      (ch.isOpen = false → ∃ t, exec (.closeChannel h k) s = .next t ∧ Refused s t .closeChannel h.tag .already)
      ∧ (ch.isOpen = true → (∀ i st x, s.stations.look i = some st → x ∈ st.members → x.channel = k →
          ∃ cell n c, st.place.cell? = some cell ∧ s.copies.look n = some c ∧ c.channel = k ∧ c.cell = cell) →
        ∃ e, exec (.closeChannel h k) s = .next (closeEvent e)
          ∧ Replied s e (.order .closeChannel) h.tag .done .empty
          ∧ (∀ j, e.channels.look j = if j = k then some { ch with isOpen := false } else s.channels.look j)
          ∧ (∀ i st, s.stations.look i = some st → ∃ rate, e.stations.look i = some
              { st with members := st.members.filter fun x => x.channel != k, rate := rate })
          ∧ (∀ n c, s.copies.look n = some c → c.channel ≠ k → e.copies.look n = some c)
          ∧ ((∀ n c, s.copies.look n = some c → c.channel = k → 0 < c.members ∧ c.members =
                (s.stations.entries.filter fun x => x.2.place.cell? == some c.cell && x.2.members.any fun y => y.channel == k).length) →
            (∀ n c, e.copies.look n = some c → c.channel ≠ k)
            ∧ (∀ x, x ∈ e.owed.passes ↔ x ∈ s.owed.passes ∨ ∃ n c, s.copies.look n = some c ∧ c.channel = k ∧ c.cell = x)
            ∧ e.owed.expiries = s.owed.expiries
            ∧ (∀ x, e.cells.look x = (s.cells.look x).map fun y =>
                if ∃ z ∈ s.copies.entries, z.2.channel = k ∧ z.2.cell = x then
                  { y with account := { y.account with m := e.activeLoad x } }
                else y)
            ∧ (∀ i, e.stations.look i = (s.stations.look i).map fun st =>
                { st with
                  members := st.members.filter fun x => x.channel != k
                  rate := match st.place.cell? with
                    | some x => if ∃ z ∈ s.copies.entries, z.2.channel = k ∧ z.2.cell = x then e.rateAt x st else st.rate
                    | none => st.rate })
            ∧ (∀ x, Advanced s e (.cell x .replayDiscarded)
                ((s.copies.entries.filter fun z => z.2.channel == k && z.2.cell == x).map fun z => z.2.queue.length).sum)
            ∧ ReleasedAll s e ((s.copies.entries.filter fun z => z.2.channel == k).flatMap fun z => z.2.queue)
            ∧ ∀ (list : List (Nat × Copy)) (ended : List Signal), list.Perm (s.copies.entries.filter fun z => z.2.channel == k) →
              list.Pairwise (fun y z => y.2.stamp.toNat < z.2.stamp.toNat) →
              ended = list.flatMap (fun z => (s.stations.entries.filter fun x =>
                  x.2.place.cell? == some z.2.cell && x.2.members.any fun y => y.channel == k).map fun x =>
                ⟨z.2.cell, x.2.addr, .joinVerdict k .ended⟩) →
              Advanced s e (.part .membershipsEnded) ended.length
              ∧ ((∀ t, (s.trunk t).signals.length + (ended.filter fun x => x.cell / 32 == t).length ≤ 1024) →
                (∀ t, e.trunk t = if (s.trunk t).state = .active ∨ (s.trunk t).state = .draining then
                    { s.trunk t with signals := (s.trunk t).signals
                        ++ ended.filter fun x => x.cell / 32 == t && (s.cells.look x.cell).isSome }
                  else s.trunk t)
                ∧ CountersKept s e (fun x =>
                  x = .part .repliesLost ∨ x = .part .membershipsEnded ∨ ∃ n, x = .cell n .replayDiscarded)))
          ∧ e = { s with
              link := e.link, counters := e.counters, cells := e.cells, trunks := e.trunks, pools := e.pools
              stations := e.stations, channels := e.channels, copies := e.copies, owed := e.owed })

/-- R127, R128, R140, R141, R143: the checks of a JOIN in their order, the JOIN that adds a member to a copy, and the JOIN that makes a
copy: ACTIVE at the full tier when its load fits the cell's budget on an ACTIVE trunk, else at the reduced tier when that fits, else HELD,
as it is on every other trunk. M is advanced by the load of an ACTIVE copy, and the rates of the cell's stations follow (R142, R148). -/
def Obligations.JoinsAreCheckedThenPlaced : Prop :=
  ∀ (m : MessageHead) (k : Byte) (s : State), s.Fits → s.Accepts m → m.bodyLength = 1 → NamesPhone m →
    k.toNat < 64 → s.HasRoom (cellOf m) → ∃ e, exec (.join m k) s = .next (closeEvent e)
      ∧ ((∀ i st, s.stationWith m.addr = some (i, st) → st.place = .dormant
          ∨ ∃ c since, st.place = .associated c since ∧ c ≠ cellOf m) →
        Posted s e (cellOf m) m.addr (.joinVerdict k.toNat .notHere) ∧ e = { s with trunks := e.trunks })
      ∧ (∀ i st h, s.stationWith m.addr = some (i, st) → st.place.isMoving = true → s.handovers.look i = some h →
        Posted s e (cellOf m) m.addr (.joinVerdict k.toNat
            (if cellOf m = h.oldCell ∨ cellOf m = h.newCell then .retry else .notHere))
          ∧ e = { s with trunks := e.trunks })
      ∧ ∀ i st, s.stationWith m.addr = some (i, st) → st.place.associatedAt (cellOf m) = true →
        ((∀ ch, s.channels.look k.toNat = some ch → ch.isOpen = false) →
          Posted s e (cellOf m) m.addr (.joinVerdict k.toNat .closed) ∧ e = { s with trunks := e.trunks })
        ∧ ∀ ch, s.channels.look k.toNat = some ch → ch.isOpen = true →
          (allows ch.entitled st.cls = false →
            Posted s e (cellOf m) m.addr (.joinVerdict k.toNat .notEntitled) ∧ e = { s with trunks := e.trunks })
          ∧ (allows ch.entitled st.cls = true →
            (∀ x, st.members.find? (fun y => y.channel == k.toNat) = some x →
              Posted s e (cellOf m) m.addr (.joinVerdict k.toNat
                  (match x.status with | .full => .joinedFull | .reduced => .joinedReduced | .waiting => .waiting))
                ∧ e = { s with trunks := e.trunks })
            ∧ ((∀ x ∈ st.members, x.channel ≠ k.toNat) → 2 ≤ st.members.length →
              Posted s e (cellOf m) m.addr (.joinVerdict k.toNat .limit) ∧ e = { s with trunks := e.trunks })
            ∧ ((∀ x ∈ st.members, x.channel ≠ k.toNat) → st.members.length < 2 →
              (∀ n c, s.copies.look n = some c → c.channel = k.toNat → c.cell = cellOf m →
                Posted s e (cellOf m) m.addr (.joinVerdict k.toNat (if c.state = .held then .waiting
                    else if c.tier = .full then .joinedFull else .joinedReduced))
                ∧ (∀ j, e.copies.look j = if j = n then some { c with members := c.members + 1 } else s.copies.look j)
                ∧ (∀ j, e.stations.look j = if j = i then some { st with members := st.members ++
                      [⟨k.toNat, if c.state = .held then .waiting else if c.tier = .full then .full else .reduced⟩] }
                    else s.stations.look j)
                ∧ e = { s with trunks := e.trunks, stations := e.stations, copies := e.copies })
              ∧ ((∀ j x, s.copies.look j = some x → ¬ (x.channel = k.toNat ∧ x.cell = cellOf m)) →
                (2048 ≤ s.copies.size → Posted s e (cellOf m) m.addr (.joinVerdict k.toNat .noRoom)
                  ∧ Advanced s e (.part .copyTableFull) 1
                  ∧ e = { s with trunks := e.trunks, counters := e.counters })
                ∧ ∀ n a, s.copies.look n = none → n < 2048 →
                  (∀ j, j < n → (s.copies.look j).isSome = true) → s.account (cellOf m) = some a →
                  s.created ≠ BitVec.allOnes 32 → ∀ result status tier state load,
                  ((s.trunk (cellOf m / 32)).state = .active ∧ a.m + loadAt a ch.full 0 ≤ a.b ∧ result = .joinedFull
                      ∧ status = .full ∧ tier = .full ∧ state = .active ∧ load = loadAt a ch.full 0)
                    ∨ ((s.trunk (cellOf m / 32)).state = .active ∧ a.b < a.m + loadAt a ch.full 0
                      ∧ (∃ r, ch.reduced = some r ∧ a.m + loadAt a r 0 ≤ a.b ∧ load = loadAt a r 0) ∧ result = .joinedReduced
                      ∧ status = .reduced ∧ tier = .reduced ∧ state = .active)
                    ∨ (((s.trunk (cellOf m / 32)).state ≠ .active ∨ (a.b < a.m + loadAt a ch.full 0
                        ∧ ∀ r, ch.reduced = some r → a.b < a.m + loadAt a r 0)) ∧ result = .waiting ∧ status = .waiting
                      ∧ tier = .full ∧ state = .held ∧ load = loadAt a ch.full 0) →
                  Posted s e (cellOf m) m.addr (.joinVerdict k.toNat result)
                  ∧ (∀ j, e.copies.look j = if j = n then
                      some ⟨k.toNat, cellOf m, tier, state, 0, 0, 1, load, [], s.time.tick, s.created⟩
                      else s.copies.look j)
                  ∧ e.created = s.created + 1
                  ∧ e.account (cellOf m) = some { a with m := e.activeLoad (cellOf m) }
                  ∧ e.activeLoad (cellOf m) = s.activeLoad (cellOf m) + (if state = .active then load else 0)
                  ∧ (∀ x, e.cells.look x = (s.cells.look x).map fun y =>
                      if x = cellOf m then { y with account := { a with m := e.activeLoad (cellOf m) } } else y)
                  ∧ (a.m = s.activeLoad (cellOf m) → e.account (cellOf m) = some
                      { a with m := if state = .active then a.m + load else a.m })
                  ∧ (∀ j, e.stations.look j = (s.stations.look j).map fun y =>
                      { y with
                        members := if j = i then y.members ++ [⟨k.toNat, status⟩] else y.members
                        rate := if y.place.cell? = some (cellOf m) then e.rateAt (cellOf m) y else y.rate })
                  ∧ e = { s with
                      cells := e.cells, trunks := e.trunks, stations := e.stations, copies := e.copies, created := e.created })))

/-- R129: a LEAVE from the cell a station is counted at removes its membership by R130: the copy loses one member or, having had one, goes,
its entries counted and their buffers released, its load out of M if it was ACTIVE, the cell's rates following and a pass owed there; LEFT is
the answer in every case, stated for a class-2 queue with room. -/
def Obligations.ALeaveIsAlwaysAnsweredLeft : Prop :=
  ∀ (m : MessageHead) (k : Byte) (s : State), s.Fits → s.Accepts m → m.bodyLength = 1 → NamesPhone m →
    k.toNat < 64 → s.HasRoom (cellOf m) → ∃ e, exec (.leave m k) s = .next (closeEvent e)
      ∧ Posted s e (cellOf m) m.addr (.joinVerdict k.toNat .left)
      ∧ ((∀ i st, s.stationWith m.addr = some (i, st) → st.place.cell? ≠ some (cellOf m)
          ∨ ∀ x ∈ st.members, x.channel ≠ k.toNat) → e = { s with trunks := e.trunks })
      ∧ ∀ i st n c, s.stationWith m.addr = some (i, st) → st.place.cell? = some (cellOf m) →
        (∃ x ∈ st.members, x.channel = k.toNat) → s.copies.look n = some c → c.channel = k.toNat → c.cell = cellOf m →
        (∀ j, e.stations.look j = (s.stations.look j).map fun y =>
          { y with
            members := if j = i then y.members.filter fun x => x.channel != k.toNat else y.members
            rate := if c.members ≤ 1 ∧ y.place.cell? = some (cellOf m) then e.rateAt (cellOf m) y else y.rate })
        ∧ (∀ j, e.copies.look j = if j = n then (if c.members ≤ 1 then none else some { c with members := c.members - 1 })
            else s.copies.look j)
        ∧ (2 ≤ c.members → e = { s with trunks := e.trunks, stations := e.stations, copies := e.copies })
        ∧ (c.members ≤ 1 →
          (∀ x, e.cells.look x = (s.cells.look x).map fun y =>
            if x = cellOf m then { y with account := { y.account with m := e.activeLoad x } } else y)
          ∧ e.activeLoad (cellOf m) + (if c.state = .active then c.load else 0) = s.activeLoad (cellOf m)
          ∧ Advanced s e (.cell (cellOf m) .replayDiscarded) c.queue.length
          ∧ CountersKept s e (· = .cell (cellOf m) .replayDiscarded) ∧ ReleasedAll s e c.queue
          ∧ (∀ x, x ∈ e.owed.passes ↔ x ∈ s.owed.passes ∨ x = cellOf m) ∧ e.owed.expiries = s.owed.expiries)
        ∧ e = { s with
            counters := e.counters, cells := e.cells, trunks := e.trunks, pools := e.pools, stations := e.stations
            copies := e.copies, owed := e.owed }
end

