-- ==== Sys2Proof/Laws/State.lean ====
section
/-! SUPPORT. One lemma per field per update of the state, true by rfl: later proofs never unfold a record update. -/

namespace Sys2Proof.Machine

@[simp] theorem setPending_pending (s : State) (v : List Instr) : (s.setPending v).pending = v := rfl
@[simp] theorem setPending_link (s : State) (v : List Instr) : (s.setPending v).link = s.link := rfl
@[simp] theorem setPending_notices (s : State) (v : List Instr) : (s.setPending v).notices = s.notices := rfl
@[simp] theorem setPending_latches (s : State) (v : List Instr) : (s.setPending v).latches = s.latches := rfl
@[simp] theorem setPending_counters (s : State) (v : List Instr) : (s.setPending v).counters = s.counters := rfl
@[simp] theorem setPending_view (s : State) (v : List Instr) : (s.setPending v).view = s.view := rfl
@[simp] theorem setPending_time (s : State) (v : List Instr) : (s.setPending v).time = s.time := rfl
@[simp] theorem setPending_settings (s : State) (v : List Instr) : (s.setPending v).settings = s.settings := rfl
@[simp] theorem setPending_cells (s : State) (v : List Instr) : (s.setPending v).cells = s.cells := rfl
@[simp] theorem setPending_trunks (s : State) (v : List Instr) : (s.setPending v).trunks = s.trunks := rfl
@[simp] theorem setPending_pools (s : State) (v : List Instr) : (s.setPending v).pools = s.pools := rfl
@[simp] theorem setPending_backbone (s : State) (v : List Instr) : (s.setPending v).backbone = s.backbone := rfl
@[simp] theorem setPending_stations (s : State) (v : List Instr) : (s.setPending v).stations = s.stations := rfl
@[simp] theorem setPending_handovers (s : State) (v : List Instr) : (s.setPending v).handovers = s.handovers := rfl
@[simp] theorem setPending_tickets (s : State) (v : List Instr) : (s.setPending v).tickets = s.tickets := rfl
@[simp] theorem setPending_sections (s : State) (v : List Instr) : (s.setPending v).sections = s.sections := rfl
@[simp] theorem setPending_purge (s : State) (v : List Instr) : (s.setPending v).purge = s.purge := rfl
@[simp] theorem setPending_referrals (s : State) (v : List Instr) : (s.setPending v).referrals = s.referrals := rfl
@[simp] theorem setPending_nextReferral (s : State) (v : List Instr) : (s.setPending v).nextReferral = s.nextReferral := rfl
@[simp] theorem setPending_channels (s : State) (v : List Instr) : (s.setPending v).channels = s.channels := rfl
@[simp] theorem setPending_copies (s : State) (v : List Instr) : (s.setPending v).copies = s.copies := rfl
@[simp] theorem setPending_created (s : State) (v : List Instr) : (s.setPending v).created = s.created := rfl
@[simp] theorem setPending_owed (s : State) (v : List Instr) : (s.setPending v).owed = s.owed := rfl
@[simp] theorem setPending_draws (s : State) (v : List Instr) : (s.setPending v).draws = s.draws := rfl

@[simp] theorem setLink_pending (s : State) (v : ControlLink) : (s.setLink v).pending = s.pending := rfl
@[simp] theorem setLink_link (s : State) (v : ControlLink) : (s.setLink v).link = v := rfl
@[simp] theorem setLink_notices (s : State) (v : ControlLink) : (s.setLink v).notices = s.notices := rfl
@[simp] theorem setLink_latches (s : State) (v : ControlLink) : (s.setLink v).latches = s.latches := rfl
@[simp] theorem setLink_counters (s : State) (v : ControlLink) : (s.setLink v).counters = s.counters := rfl
@[simp] theorem setLink_view (s : State) (v : ControlLink) : (s.setLink v).view = s.view := rfl
@[simp] theorem setLink_time (s : State) (v : ControlLink) : (s.setLink v).time = s.time := rfl
@[simp] theorem setLink_settings (s : State) (v : ControlLink) : (s.setLink v).settings = s.settings := rfl
@[simp] theorem setLink_cells (s : State) (v : ControlLink) : (s.setLink v).cells = s.cells := rfl
@[simp] theorem setLink_trunks (s : State) (v : ControlLink) : (s.setLink v).trunks = s.trunks := rfl
@[simp] theorem setLink_pools (s : State) (v : ControlLink) : (s.setLink v).pools = s.pools := rfl
@[simp] theorem setLink_backbone (s : State) (v : ControlLink) : (s.setLink v).backbone = s.backbone := rfl
@[simp] theorem setLink_stations (s : State) (v : ControlLink) : (s.setLink v).stations = s.stations := rfl
@[simp] theorem setLink_handovers (s : State) (v : ControlLink) : (s.setLink v).handovers = s.handovers := rfl
@[simp] theorem setLink_tickets (s : State) (v : ControlLink) : (s.setLink v).tickets = s.tickets := rfl
@[simp] theorem setLink_sections (s : State) (v : ControlLink) : (s.setLink v).sections = s.sections := rfl
@[simp] theorem setLink_purge (s : State) (v : ControlLink) : (s.setLink v).purge = s.purge := rfl
@[simp] theorem setLink_referrals (s : State) (v : ControlLink) : (s.setLink v).referrals = s.referrals := rfl
@[simp] theorem setLink_nextReferral (s : State) (v : ControlLink) : (s.setLink v).nextReferral = s.nextReferral := rfl
@[simp] theorem setLink_channels (s : State) (v : ControlLink) : (s.setLink v).channels = s.channels := rfl
@[simp] theorem setLink_copies (s : State) (v : ControlLink) : (s.setLink v).copies = s.copies := rfl
@[simp] theorem setLink_created (s : State) (v : ControlLink) : (s.setLink v).created = s.created := rfl
@[simp] theorem setLink_owed (s : State) (v : ControlLink) : (s.setLink v).owed = s.owed := rfl
@[simp] theorem setLink_draws (s : State) (v : ControlLink) : (s.setLink v).draws = s.draws := rfl

@[simp] theorem setNotices_pending (s : State) (v : List Notice) : (s.setNotices v).pending = s.pending := rfl
@[simp] theorem setNotices_link (s : State) (v : List Notice) : (s.setNotices v).link = s.link := rfl
@[simp] theorem setNotices_notices (s : State) (v : List Notice) : (s.setNotices v).notices = v := rfl
@[simp] theorem setNotices_latches (s : State) (v : List Notice) : (s.setNotices v).latches = s.latches := rfl
@[simp] theorem setNotices_counters (s : State) (v : List Notice) : (s.setNotices v).counters = s.counters := rfl
@[simp] theorem setNotices_view (s : State) (v : List Notice) : (s.setNotices v).view = s.view := rfl
@[simp] theorem setNotices_time (s : State) (v : List Notice) : (s.setNotices v).time = s.time := rfl
@[simp] theorem setNotices_settings (s : State) (v : List Notice) : (s.setNotices v).settings = s.settings := rfl
@[simp] theorem setNotices_cells (s : State) (v : List Notice) : (s.setNotices v).cells = s.cells := rfl
@[simp] theorem setNotices_trunks (s : State) (v : List Notice) : (s.setNotices v).trunks = s.trunks := rfl
@[simp] theorem setNotices_pools (s : State) (v : List Notice) : (s.setNotices v).pools = s.pools := rfl
@[simp] theorem setNotices_backbone (s : State) (v : List Notice) : (s.setNotices v).backbone = s.backbone := rfl
@[simp] theorem setNotices_stations (s : State) (v : List Notice) : (s.setNotices v).stations = s.stations := rfl
@[simp] theorem setNotices_handovers (s : State) (v : List Notice) : (s.setNotices v).handovers = s.handovers := rfl
@[simp] theorem setNotices_tickets (s : State) (v : List Notice) : (s.setNotices v).tickets = s.tickets := rfl
@[simp] theorem setNotices_sections (s : State) (v : List Notice) : (s.setNotices v).sections = s.sections := rfl
@[simp] theorem setNotices_purge (s : State) (v : List Notice) : (s.setNotices v).purge = s.purge := rfl
@[simp] theorem setNotices_referrals (s : State) (v : List Notice) : (s.setNotices v).referrals = s.referrals := rfl
@[simp] theorem setNotices_nextReferral (s : State) (v : List Notice) : (s.setNotices v).nextReferral = s.nextReferral := rfl
@[simp] theorem setNotices_channels (s : State) (v : List Notice) : (s.setNotices v).channels = s.channels := rfl
@[simp] theorem setNotices_copies (s : State) (v : List Notice) : (s.setNotices v).copies = s.copies := rfl
@[simp] theorem setNotices_created (s : State) (v : List Notice) : (s.setNotices v).created = s.created := rfl
@[simp] theorem setNotices_owed (s : State) (v : List Notice) : (s.setNotices v).owed = s.owed := rfl
@[simp] theorem setNotices_draws (s : State) (v : List Notice) : (s.setNotices v).draws = s.draws := rfl

@[simp] theorem setLatches_pending (s : State) (v : BitVec 14) : (s.setLatches v).pending = s.pending := rfl
@[simp] theorem setLatches_link (s : State) (v : BitVec 14) : (s.setLatches v).link = s.link := rfl
@[simp] theorem setLatches_notices (s : State) (v : BitVec 14) : (s.setLatches v).notices = s.notices := rfl
@[simp] theorem setLatches_latches (s : State) (v : BitVec 14) : (s.setLatches v).latches = v := rfl
@[simp] theorem setLatches_counters (s : State) (v : BitVec 14) : (s.setLatches v).counters = s.counters := rfl
@[simp] theorem setLatches_view (s : State) (v : BitVec 14) : (s.setLatches v).view = s.view := rfl
@[simp] theorem setLatches_time (s : State) (v : BitVec 14) : (s.setLatches v).time = s.time := rfl
@[simp] theorem setLatches_settings (s : State) (v : BitVec 14) : (s.setLatches v).settings = s.settings := rfl
@[simp] theorem setLatches_cells (s : State) (v : BitVec 14) : (s.setLatches v).cells = s.cells := rfl
@[simp] theorem setLatches_trunks (s : State) (v : BitVec 14) : (s.setLatches v).trunks = s.trunks := rfl
@[simp] theorem setLatches_pools (s : State) (v : BitVec 14) : (s.setLatches v).pools = s.pools := rfl
@[simp] theorem setLatches_backbone (s : State) (v : BitVec 14) : (s.setLatches v).backbone = s.backbone := rfl
@[simp] theorem setLatches_stations (s : State) (v : BitVec 14) : (s.setLatches v).stations = s.stations := rfl
@[simp] theorem setLatches_handovers (s : State) (v : BitVec 14) : (s.setLatches v).handovers = s.handovers := rfl
@[simp] theorem setLatches_tickets (s : State) (v : BitVec 14) : (s.setLatches v).tickets = s.tickets := rfl
@[simp] theorem setLatches_sections (s : State) (v : BitVec 14) : (s.setLatches v).sections = s.sections := rfl
@[simp] theorem setLatches_purge (s : State) (v : BitVec 14) : (s.setLatches v).purge = s.purge := rfl
@[simp] theorem setLatches_referrals (s : State) (v : BitVec 14) : (s.setLatches v).referrals = s.referrals := rfl
@[simp] theorem setLatches_nextReferral (s : State) (v : BitVec 14) : (s.setLatches v).nextReferral = s.nextReferral := rfl
@[simp] theorem setLatches_channels (s : State) (v : BitVec 14) : (s.setLatches v).channels = s.channels := rfl
@[simp] theorem setLatches_copies (s : State) (v : BitVec 14) : (s.setLatches v).copies = s.copies := rfl
@[simp] theorem setLatches_created (s : State) (v : BitVec 14) : (s.setLatches v).created = s.created := rfl
@[simp] theorem setLatches_owed (s : State) (v : BitVec 14) : (s.setLatches v).owed = s.owed := rfl
@[simp] theorem setLatches_draws (s : State) (v : BitVec 14) : (s.setLatches v).draws = s.draws := rfl

@[simp] theorem setCounters_pending (s : State) (v : Table Count) : (s.setCounters v).pending = s.pending := rfl
@[simp] theorem setCounters_link (s : State) (v : Table Count) : (s.setCounters v).link = s.link := rfl
@[simp] theorem setCounters_notices (s : State) (v : Table Count) : (s.setCounters v).notices = s.notices := rfl
@[simp] theorem setCounters_latches (s : State) (v : Table Count) : (s.setCounters v).latches = s.latches := rfl
@[simp] theorem setCounters_counters (s : State) (v : Table Count) : (s.setCounters v).counters = v := rfl
@[simp] theorem setCounters_view (s : State) (v : Table Count) : (s.setCounters v).view = s.view := rfl
@[simp] theorem setCounters_time (s : State) (v : Table Count) : (s.setCounters v).time = s.time := rfl
@[simp] theorem setCounters_settings (s : State) (v : Table Count) : (s.setCounters v).settings = s.settings := rfl
@[simp] theorem setCounters_cells (s : State) (v : Table Count) : (s.setCounters v).cells = s.cells := rfl
@[simp] theorem setCounters_trunks (s : State) (v : Table Count) : (s.setCounters v).trunks = s.trunks := rfl
@[simp] theorem setCounters_pools (s : State) (v : Table Count) : (s.setCounters v).pools = s.pools := rfl
@[simp] theorem setCounters_backbone (s : State) (v : Table Count) : (s.setCounters v).backbone = s.backbone := rfl
@[simp] theorem setCounters_stations (s : State) (v : Table Count) : (s.setCounters v).stations = s.stations := rfl
@[simp] theorem setCounters_handovers (s : State) (v : Table Count) : (s.setCounters v).handovers = s.handovers := rfl
@[simp] theorem setCounters_tickets (s : State) (v : Table Count) : (s.setCounters v).tickets = s.tickets := rfl
@[simp] theorem setCounters_sections (s : State) (v : Table Count) : (s.setCounters v).sections = s.sections := rfl
@[simp] theorem setCounters_purge (s : State) (v : Table Count) : (s.setCounters v).purge = s.purge := rfl
@[simp] theorem setCounters_referrals (s : State) (v : Table Count) : (s.setCounters v).referrals = s.referrals := rfl
@[simp] theorem setCounters_nextReferral (s : State) (v : Table Count) : (s.setCounters v).nextReferral = s.nextReferral := rfl
@[simp] theorem setCounters_channels (s : State) (v : Table Count) : (s.setCounters v).channels = s.channels := rfl
@[simp] theorem setCounters_copies (s : State) (v : Table Count) : (s.setCounters v).copies = s.copies := rfl
@[simp] theorem setCounters_created (s : State) (v : Table Count) : (s.setCounters v).created = s.created := rfl
@[simp] theorem setCounters_owed (s : State) (v : Table Count) : (s.setCounters v).owed = s.owed := rfl
@[simp] theorem setCounters_draws (s : State) (v : Table Count) : (s.setCounters v).draws = s.draws := rfl

@[simp] theorem setView_pending (s : State) (v : Option View) : (s.setView v).pending = s.pending := rfl
@[simp] theorem setView_link (s : State) (v : Option View) : (s.setView v).link = s.link := rfl
@[simp] theorem setView_notices (s : State) (v : Option View) : (s.setView v).notices = s.notices := rfl
@[simp] theorem setView_latches (s : State) (v : Option View) : (s.setView v).latches = s.latches := rfl
@[simp] theorem setView_counters (s : State) (v : Option View) : (s.setView v).counters = s.counters := rfl
@[simp] theorem setView_view (s : State) (v : Option View) : (s.setView v).view = v := rfl
@[simp] theorem setView_time (s : State) (v : Option View) : (s.setView v).time = s.time := rfl
@[simp] theorem setView_settings (s : State) (v : Option View) : (s.setView v).settings = s.settings := rfl
@[simp] theorem setView_cells (s : State) (v : Option View) : (s.setView v).cells = s.cells := rfl
@[simp] theorem setView_trunks (s : State) (v : Option View) : (s.setView v).trunks = s.trunks := rfl
@[simp] theorem setView_pools (s : State) (v : Option View) : (s.setView v).pools = s.pools := rfl
@[simp] theorem setView_backbone (s : State) (v : Option View) : (s.setView v).backbone = s.backbone := rfl
@[simp] theorem setView_stations (s : State) (v : Option View) : (s.setView v).stations = s.stations := rfl
@[simp] theorem setView_handovers (s : State) (v : Option View) : (s.setView v).handovers = s.handovers := rfl
@[simp] theorem setView_tickets (s : State) (v : Option View) : (s.setView v).tickets = s.tickets := rfl
@[simp] theorem setView_sections (s : State) (v : Option View) : (s.setView v).sections = s.sections := rfl
@[simp] theorem setView_purge (s : State) (v : Option View) : (s.setView v).purge = s.purge := rfl
@[simp] theorem setView_referrals (s : State) (v : Option View) : (s.setView v).referrals = s.referrals := rfl
@[simp] theorem setView_nextReferral (s : State) (v : Option View) : (s.setView v).nextReferral = s.nextReferral := rfl
@[simp] theorem setView_channels (s : State) (v : Option View) : (s.setView v).channels = s.channels := rfl
@[simp] theorem setView_copies (s : State) (v : Option View) : (s.setView v).copies = s.copies := rfl
@[simp] theorem setView_created (s : State) (v : Option View) : (s.setView v).created = s.created := rfl
@[simp] theorem setView_owed (s : State) (v : Option View) : (s.setView v).owed = s.owed := rfl
@[simp] theorem setView_draws (s : State) (v : Option View) : (s.setView v).draws = s.draws := rfl

@[simp] theorem setTime_pending (s : State) (v : Time) : (s.setTime v).pending = s.pending := rfl
@[simp] theorem setTime_link (s : State) (v : Time) : (s.setTime v).link = s.link := rfl
@[simp] theorem setTime_notices (s : State) (v : Time) : (s.setTime v).notices = s.notices := rfl
@[simp] theorem setTime_latches (s : State) (v : Time) : (s.setTime v).latches = s.latches := rfl
@[simp] theorem setTime_counters (s : State) (v : Time) : (s.setTime v).counters = s.counters := rfl
@[simp] theorem setTime_view (s : State) (v : Time) : (s.setTime v).view = s.view := rfl
@[simp] theorem setTime_time (s : State) (v : Time) : (s.setTime v).time = v := rfl
@[simp] theorem setTime_settings (s : State) (v : Time) : (s.setTime v).settings = s.settings := rfl
@[simp] theorem setTime_cells (s : State) (v : Time) : (s.setTime v).cells = s.cells := rfl
@[simp] theorem setTime_trunks (s : State) (v : Time) : (s.setTime v).trunks = s.trunks := rfl
@[simp] theorem setTime_pools (s : State) (v : Time) : (s.setTime v).pools = s.pools := rfl
@[simp] theorem setTime_backbone (s : State) (v : Time) : (s.setTime v).backbone = s.backbone := rfl
@[simp] theorem setTime_stations (s : State) (v : Time) : (s.setTime v).stations = s.stations := rfl
@[simp] theorem setTime_handovers (s : State) (v : Time) : (s.setTime v).handovers = s.handovers := rfl
@[simp] theorem setTime_tickets (s : State) (v : Time) : (s.setTime v).tickets = s.tickets := rfl
@[simp] theorem setTime_sections (s : State) (v : Time) : (s.setTime v).sections = s.sections := rfl
@[simp] theorem setTime_purge (s : State) (v : Time) : (s.setTime v).purge = s.purge := rfl
@[simp] theorem setTime_referrals (s : State) (v : Time) : (s.setTime v).referrals = s.referrals := rfl
@[simp] theorem setTime_nextReferral (s : State) (v : Time) : (s.setTime v).nextReferral = s.nextReferral := rfl
@[simp] theorem setTime_channels (s : State) (v : Time) : (s.setTime v).channels = s.channels := rfl
@[simp] theorem setTime_copies (s : State) (v : Time) : (s.setTime v).copies = s.copies := rfl
@[simp] theorem setTime_created (s : State) (v : Time) : (s.setTime v).created = s.created := rfl
@[simp] theorem setTime_owed (s : State) (v : Time) : (s.setTime v).owed = s.owed := rfl
@[simp] theorem setTime_draws (s : State) (v : Time) : (s.setTime v).draws = s.draws := rfl

@[simp] theorem setSettings_pending (s : State) (v : Settings) : (s.setSettings v).pending = s.pending := rfl
@[simp] theorem setSettings_link (s : State) (v : Settings) : (s.setSettings v).link = s.link := rfl
@[simp] theorem setSettings_notices (s : State) (v : Settings) : (s.setSettings v).notices = s.notices := rfl
@[simp] theorem setSettings_latches (s : State) (v : Settings) : (s.setSettings v).latches = s.latches := rfl
@[simp] theorem setSettings_counters (s : State) (v : Settings) : (s.setSettings v).counters = s.counters := rfl
@[simp] theorem setSettings_view (s : State) (v : Settings) : (s.setSettings v).view = s.view := rfl
@[simp] theorem setSettings_time (s : State) (v : Settings) : (s.setSettings v).time = s.time := rfl
@[simp] theorem setSettings_settings (s : State) (v : Settings) : (s.setSettings v).settings = v := rfl
@[simp] theorem setSettings_cells (s : State) (v : Settings) : (s.setSettings v).cells = s.cells := rfl
@[simp] theorem setSettings_trunks (s : State) (v : Settings) : (s.setSettings v).trunks = s.trunks := rfl
@[simp] theorem setSettings_pools (s : State) (v : Settings) : (s.setSettings v).pools = s.pools := rfl
@[simp] theorem setSettings_backbone (s : State) (v : Settings) : (s.setSettings v).backbone = s.backbone := rfl
@[simp] theorem setSettings_stations (s : State) (v : Settings) : (s.setSettings v).stations = s.stations := rfl
@[simp] theorem setSettings_handovers (s : State) (v : Settings) : (s.setSettings v).handovers = s.handovers := rfl
@[simp] theorem setSettings_tickets (s : State) (v : Settings) : (s.setSettings v).tickets = s.tickets := rfl
@[simp] theorem setSettings_sections (s : State) (v : Settings) : (s.setSettings v).sections = s.sections := rfl
@[simp] theorem setSettings_purge (s : State) (v : Settings) : (s.setSettings v).purge = s.purge := rfl
@[simp] theorem setSettings_referrals (s : State) (v : Settings) : (s.setSettings v).referrals = s.referrals := rfl
@[simp] theorem setSettings_nextReferral (s : State) (v : Settings) : (s.setSettings v).nextReferral = s.nextReferral := rfl
@[simp] theorem setSettings_channels (s : State) (v : Settings) : (s.setSettings v).channels = s.channels := rfl
@[simp] theorem setSettings_copies (s : State) (v : Settings) : (s.setSettings v).copies = s.copies := rfl
@[simp] theorem setSettings_created (s : State) (v : Settings) : (s.setSettings v).created = s.created := rfl
@[simp] theorem setSettings_owed (s : State) (v : Settings) : (s.setSettings v).owed = s.owed := rfl
@[simp] theorem setSettings_draws (s : State) (v : Settings) : (s.setSettings v).draws = s.draws := rfl

@[simp] theorem setCells_pending (s : State) (v : Table Cell) : (s.setCells v).pending = s.pending := rfl
@[simp] theorem setCells_link (s : State) (v : Table Cell) : (s.setCells v).link = s.link := rfl
@[simp] theorem setCells_notices (s : State) (v : Table Cell) : (s.setCells v).notices = s.notices := rfl
@[simp] theorem setCells_latches (s : State) (v : Table Cell) : (s.setCells v).latches = s.latches := rfl
@[simp] theorem setCells_counters (s : State) (v : Table Cell) : (s.setCells v).counters = s.counters := rfl
@[simp] theorem setCells_view (s : State) (v : Table Cell) : (s.setCells v).view = s.view := rfl
@[simp] theorem setCells_time (s : State) (v : Table Cell) : (s.setCells v).time = s.time := rfl
@[simp] theorem setCells_settings (s : State) (v : Table Cell) : (s.setCells v).settings = s.settings := rfl
@[simp] theorem setCells_cells (s : State) (v : Table Cell) : (s.setCells v).cells = v := rfl
@[simp] theorem setCells_trunks (s : State) (v : Table Cell) : (s.setCells v).trunks = s.trunks := rfl
@[simp] theorem setCells_pools (s : State) (v : Table Cell) : (s.setCells v).pools = s.pools := rfl
@[simp] theorem setCells_backbone (s : State) (v : Table Cell) : (s.setCells v).backbone = s.backbone := rfl
@[simp] theorem setCells_stations (s : State) (v : Table Cell) : (s.setCells v).stations = s.stations := rfl
@[simp] theorem setCells_handovers (s : State) (v : Table Cell) : (s.setCells v).handovers = s.handovers := rfl
@[simp] theorem setCells_tickets (s : State) (v : Table Cell) : (s.setCells v).tickets = s.tickets := rfl
@[simp] theorem setCells_sections (s : State) (v : Table Cell) : (s.setCells v).sections = s.sections := rfl
@[simp] theorem setCells_purge (s : State) (v : Table Cell) : (s.setCells v).purge = s.purge := rfl
@[simp] theorem setCells_referrals (s : State) (v : Table Cell) : (s.setCells v).referrals = s.referrals := rfl
@[simp] theorem setCells_nextReferral (s : State) (v : Table Cell) : (s.setCells v).nextReferral = s.nextReferral := rfl
@[simp] theorem setCells_channels (s : State) (v : Table Cell) : (s.setCells v).channels = s.channels := rfl
@[simp] theorem setCells_copies (s : State) (v : Table Cell) : (s.setCells v).copies = s.copies := rfl
@[simp] theorem setCells_created (s : State) (v : Table Cell) : (s.setCells v).created = s.created := rfl
@[simp] theorem setCells_owed (s : State) (v : Table Cell) : (s.setCells v).owed = s.owed := rfl
@[simp] theorem setCells_draws (s : State) (v : Table Cell) : (s.setCells v).draws = s.draws := rfl

@[simp] theorem setTrunks_pending (s : State) (v : Table Trunk) : (s.setTrunks v).pending = s.pending := rfl
@[simp] theorem setTrunks_link (s : State) (v : Table Trunk) : (s.setTrunks v).link = s.link := rfl
@[simp] theorem setTrunks_notices (s : State) (v : Table Trunk) : (s.setTrunks v).notices = s.notices := rfl
@[simp] theorem setTrunks_latches (s : State) (v : Table Trunk) : (s.setTrunks v).latches = s.latches := rfl
@[simp] theorem setTrunks_counters (s : State) (v : Table Trunk) : (s.setTrunks v).counters = s.counters := rfl
@[simp] theorem setTrunks_view (s : State) (v : Table Trunk) : (s.setTrunks v).view = s.view := rfl
@[simp] theorem setTrunks_time (s : State) (v : Table Trunk) : (s.setTrunks v).time = s.time := rfl
@[simp] theorem setTrunks_settings (s : State) (v : Table Trunk) : (s.setTrunks v).settings = s.settings := rfl
@[simp] theorem setTrunks_cells (s : State) (v : Table Trunk) : (s.setTrunks v).cells = s.cells := rfl
@[simp] theorem setTrunks_trunks (s : State) (v : Table Trunk) : (s.setTrunks v).trunks = v := rfl
@[simp] theorem setTrunks_pools (s : State) (v : Table Trunk) : (s.setTrunks v).pools = s.pools := rfl
@[simp] theorem setTrunks_backbone (s : State) (v : Table Trunk) : (s.setTrunks v).backbone = s.backbone := rfl
@[simp] theorem setTrunks_stations (s : State) (v : Table Trunk) : (s.setTrunks v).stations = s.stations := rfl
@[simp] theorem setTrunks_handovers (s : State) (v : Table Trunk) : (s.setTrunks v).handovers = s.handovers := rfl
@[simp] theorem setTrunks_tickets (s : State) (v : Table Trunk) : (s.setTrunks v).tickets = s.tickets := rfl
@[simp] theorem setTrunks_sections (s : State) (v : Table Trunk) : (s.setTrunks v).sections = s.sections := rfl
@[simp] theorem setTrunks_purge (s : State) (v : Table Trunk) : (s.setTrunks v).purge = s.purge := rfl
@[simp] theorem setTrunks_referrals (s : State) (v : Table Trunk) : (s.setTrunks v).referrals = s.referrals := rfl
@[simp] theorem setTrunks_nextReferral (s : State) (v : Table Trunk) : (s.setTrunks v).nextReferral = s.nextReferral := rfl
@[simp] theorem setTrunks_channels (s : State) (v : Table Trunk) : (s.setTrunks v).channels = s.channels := rfl
@[simp] theorem setTrunks_copies (s : State) (v : Table Trunk) : (s.setTrunks v).copies = s.copies := rfl
@[simp] theorem setTrunks_created (s : State) (v : Table Trunk) : (s.setTrunks v).created = s.created := rfl
@[simp] theorem setTrunks_owed (s : State) (v : Table Trunk) : (s.setTrunks v).owed = s.owed := rfl
@[simp] theorem setTrunks_draws (s : State) (v : Table Trunk) : (s.setTrunks v).draws = s.draws := rfl

@[simp] theorem setPools_pending (s : State) (v : Pools) : (s.setPools v).pending = s.pending := rfl
@[simp] theorem setPools_link (s : State) (v : Pools) : (s.setPools v).link = s.link := rfl
@[simp] theorem setPools_notices (s : State) (v : Pools) : (s.setPools v).notices = s.notices := rfl
@[simp] theorem setPools_latches (s : State) (v : Pools) : (s.setPools v).latches = s.latches := rfl
@[simp] theorem setPools_counters (s : State) (v : Pools) : (s.setPools v).counters = s.counters := rfl
@[simp] theorem setPools_view (s : State) (v : Pools) : (s.setPools v).view = s.view := rfl
@[simp] theorem setPools_time (s : State) (v : Pools) : (s.setPools v).time = s.time := rfl
@[simp] theorem setPools_settings (s : State) (v : Pools) : (s.setPools v).settings = s.settings := rfl
@[simp] theorem setPools_cells (s : State) (v : Pools) : (s.setPools v).cells = s.cells := rfl
@[simp] theorem setPools_trunks (s : State) (v : Pools) : (s.setPools v).trunks = s.trunks := rfl
@[simp] theorem setPools_pools (s : State) (v : Pools) : (s.setPools v).pools = v := rfl
@[simp] theorem setPools_backbone (s : State) (v : Pools) : (s.setPools v).backbone = s.backbone := rfl
@[simp] theorem setPools_stations (s : State) (v : Pools) : (s.setPools v).stations = s.stations := rfl
@[simp] theorem setPools_handovers (s : State) (v : Pools) : (s.setPools v).handovers = s.handovers := rfl
@[simp] theorem setPools_tickets (s : State) (v : Pools) : (s.setPools v).tickets = s.tickets := rfl
@[simp] theorem setPools_sections (s : State) (v : Pools) : (s.setPools v).sections = s.sections := rfl
@[simp] theorem setPools_purge (s : State) (v : Pools) : (s.setPools v).purge = s.purge := rfl
@[simp] theorem setPools_referrals (s : State) (v : Pools) : (s.setPools v).referrals = s.referrals := rfl
@[simp] theorem setPools_nextReferral (s : State) (v : Pools) : (s.setPools v).nextReferral = s.nextReferral := rfl
@[simp] theorem setPools_channels (s : State) (v : Pools) : (s.setPools v).channels = s.channels := rfl
@[simp] theorem setPools_copies (s : State) (v : Pools) : (s.setPools v).copies = s.copies := rfl
@[simp] theorem setPools_created (s : State) (v : Pools) : (s.setPools v).created = s.created := rfl
@[simp] theorem setPools_owed (s : State) (v : Pools) : (s.setPools v).owed = s.owed := rfl
@[simp] theorem setPools_draws (s : State) (v : Pools) : (s.setPools v).draws = s.draws := rfl

@[simp] theorem setBackbone_pending (s : State) (v : Backbone) : (s.setBackbone v).pending = s.pending := rfl
@[simp] theorem setBackbone_link (s : State) (v : Backbone) : (s.setBackbone v).link = s.link := rfl
@[simp] theorem setBackbone_notices (s : State) (v : Backbone) : (s.setBackbone v).notices = s.notices := rfl
@[simp] theorem setBackbone_latches (s : State) (v : Backbone) : (s.setBackbone v).latches = s.latches := rfl
@[simp] theorem setBackbone_counters (s : State) (v : Backbone) : (s.setBackbone v).counters = s.counters := rfl
@[simp] theorem setBackbone_view (s : State) (v : Backbone) : (s.setBackbone v).view = s.view := rfl
@[simp] theorem setBackbone_time (s : State) (v : Backbone) : (s.setBackbone v).time = s.time := rfl
@[simp] theorem setBackbone_settings (s : State) (v : Backbone) : (s.setBackbone v).settings = s.settings := rfl
@[simp] theorem setBackbone_cells (s : State) (v : Backbone) : (s.setBackbone v).cells = s.cells := rfl
@[simp] theorem setBackbone_trunks (s : State) (v : Backbone) : (s.setBackbone v).trunks = s.trunks := rfl
@[simp] theorem setBackbone_pools (s : State) (v : Backbone) : (s.setBackbone v).pools = s.pools := rfl
@[simp] theorem setBackbone_backbone (s : State) (v : Backbone) : (s.setBackbone v).backbone = v := rfl
@[simp] theorem setBackbone_stations (s : State) (v : Backbone) : (s.setBackbone v).stations = s.stations := rfl
@[simp] theorem setBackbone_handovers (s : State) (v : Backbone) : (s.setBackbone v).handovers = s.handovers := rfl
@[simp] theorem setBackbone_tickets (s : State) (v : Backbone) : (s.setBackbone v).tickets = s.tickets := rfl
@[simp] theorem setBackbone_sections (s : State) (v : Backbone) : (s.setBackbone v).sections = s.sections := rfl
@[simp] theorem setBackbone_purge (s : State) (v : Backbone) : (s.setBackbone v).purge = s.purge := rfl
@[simp] theorem setBackbone_referrals (s : State) (v : Backbone) : (s.setBackbone v).referrals = s.referrals := rfl
@[simp] theorem setBackbone_nextReferral (s : State) (v : Backbone) : (s.setBackbone v).nextReferral = s.nextReferral := rfl
@[simp] theorem setBackbone_channels (s : State) (v : Backbone) : (s.setBackbone v).channels = s.channels := rfl
@[simp] theorem setBackbone_copies (s : State) (v : Backbone) : (s.setBackbone v).copies = s.copies := rfl
@[simp] theorem setBackbone_created (s : State) (v : Backbone) : (s.setBackbone v).created = s.created := rfl
@[simp] theorem setBackbone_owed (s : State) (v : Backbone) : (s.setBackbone v).owed = s.owed := rfl
@[simp] theorem setBackbone_draws (s : State) (v : Backbone) : (s.setBackbone v).draws = s.draws := rfl

@[simp] theorem setStations_pending (s : State) (v : Table Station) : (s.setStations v).pending = s.pending := rfl
@[simp] theorem setStations_link (s : State) (v : Table Station) : (s.setStations v).link = s.link := rfl
@[simp] theorem setStations_notices (s : State) (v : Table Station) : (s.setStations v).notices = s.notices := rfl
@[simp] theorem setStations_latches (s : State) (v : Table Station) : (s.setStations v).latches = s.latches := rfl
@[simp] theorem setStations_counters (s : State) (v : Table Station) : (s.setStations v).counters = s.counters := rfl
@[simp] theorem setStations_view (s : State) (v : Table Station) : (s.setStations v).view = s.view := rfl
@[simp] theorem setStations_time (s : State) (v : Table Station) : (s.setStations v).time = s.time := rfl
@[simp] theorem setStations_settings (s : State) (v : Table Station) : (s.setStations v).settings = s.settings := rfl
@[simp] theorem setStations_cells (s : State) (v : Table Station) : (s.setStations v).cells = s.cells := rfl
@[simp] theorem setStations_trunks (s : State) (v : Table Station) : (s.setStations v).trunks = s.trunks := rfl
@[simp] theorem setStations_pools (s : State) (v : Table Station) : (s.setStations v).pools = s.pools := rfl
@[simp] theorem setStations_backbone (s : State) (v : Table Station) : (s.setStations v).backbone = s.backbone := rfl
@[simp] theorem setStations_stations (s : State) (v : Table Station) : (s.setStations v).stations = v := rfl
@[simp] theorem setStations_handovers (s : State) (v : Table Station) : (s.setStations v).handovers = s.handovers := rfl
@[simp] theorem setStations_tickets (s : State) (v : Table Station) : (s.setStations v).tickets = s.tickets := rfl
@[simp] theorem setStations_sections (s : State) (v : Table Station) : (s.setStations v).sections = s.sections := rfl
@[simp] theorem setStations_purge (s : State) (v : Table Station) : (s.setStations v).purge = s.purge := rfl
@[simp] theorem setStations_referrals (s : State) (v : Table Station) : (s.setStations v).referrals = s.referrals := rfl
@[simp] theorem setStations_nextReferral (s : State) (v : Table Station) : (s.setStations v).nextReferral = s.nextReferral := rfl
@[simp] theorem setStations_channels (s : State) (v : Table Station) : (s.setStations v).channels = s.channels := rfl
@[simp] theorem setStations_copies (s : State) (v : Table Station) : (s.setStations v).copies = s.copies := rfl
@[simp] theorem setStations_created (s : State) (v : Table Station) : (s.setStations v).created = s.created := rfl
@[simp] theorem setStations_owed (s : State) (v : Table Station) : (s.setStations v).owed = s.owed := rfl
@[simp] theorem setStations_draws (s : State) (v : Table Station) : (s.setStations v).draws = s.draws := rfl

@[simp] theorem setHandovers_pending (s : State) (v : Table Handover) : (s.setHandovers v).pending = s.pending := rfl
@[simp] theorem setHandovers_link (s : State) (v : Table Handover) : (s.setHandovers v).link = s.link := rfl
@[simp] theorem setHandovers_notices (s : State) (v : Table Handover) : (s.setHandovers v).notices = s.notices := rfl
@[simp] theorem setHandovers_latches (s : State) (v : Table Handover) : (s.setHandovers v).latches = s.latches := rfl
@[simp] theorem setHandovers_counters (s : State) (v : Table Handover) : (s.setHandovers v).counters = s.counters := rfl
@[simp] theorem setHandovers_view (s : State) (v : Table Handover) : (s.setHandovers v).view = s.view := rfl
@[simp] theorem setHandovers_time (s : State) (v : Table Handover) : (s.setHandovers v).time = s.time := rfl
@[simp] theorem setHandovers_settings (s : State) (v : Table Handover) : (s.setHandovers v).settings = s.settings := rfl
@[simp] theorem setHandovers_cells (s : State) (v : Table Handover) : (s.setHandovers v).cells = s.cells := rfl
@[simp] theorem setHandovers_trunks (s : State) (v : Table Handover) : (s.setHandovers v).trunks = s.trunks := rfl
@[simp] theorem setHandovers_pools (s : State) (v : Table Handover) : (s.setHandovers v).pools = s.pools := rfl
@[simp] theorem setHandovers_backbone (s : State) (v : Table Handover) : (s.setHandovers v).backbone = s.backbone := rfl
@[simp] theorem setHandovers_stations (s : State) (v : Table Handover) : (s.setHandovers v).stations = s.stations := rfl
@[simp] theorem setHandovers_handovers (s : State) (v : Table Handover) : (s.setHandovers v).handovers = v := rfl
@[simp] theorem setHandovers_tickets (s : State) (v : Table Handover) : (s.setHandovers v).tickets = s.tickets := rfl
@[simp] theorem setHandovers_sections (s : State) (v : Table Handover) : (s.setHandovers v).sections = s.sections := rfl
@[simp] theorem setHandovers_purge (s : State) (v : Table Handover) : (s.setHandovers v).purge = s.purge := rfl
@[simp] theorem setHandovers_referrals (s : State) (v : Table Handover) : (s.setHandovers v).referrals = s.referrals := rfl
@[simp] theorem setHandovers_nextReferral (s : State) (v : Table Handover) : (s.setHandovers v).nextReferral = s.nextReferral := rfl
@[simp] theorem setHandovers_channels (s : State) (v : Table Handover) : (s.setHandovers v).channels = s.channels := rfl
@[simp] theorem setHandovers_copies (s : State) (v : Table Handover) : (s.setHandovers v).copies = s.copies := rfl
@[simp] theorem setHandovers_created (s : State) (v : Table Handover) : (s.setHandovers v).created = s.created := rfl
@[simp] theorem setHandovers_owed (s : State) (v : Table Handover) : (s.setHandovers v).owed = s.owed := rfl
@[simp] theorem setHandovers_draws (s : State) (v : Table Handover) : (s.setHandovers v).draws = s.draws := rfl

@[simp] theorem setTickets_pending (s : State) (v : Table Ticket) : (s.setTickets v).pending = s.pending := rfl
@[simp] theorem setTickets_link (s : State) (v : Table Ticket) : (s.setTickets v).link = s.link := rfl
@[simp] theorem setTickets_notices (s : State) (v : Table Ticket) : (s.setTickets v).notices = s.notices := rfl
@[simp] theorem setTickets_latches (s : State) (v : Table Ticket) : (s.setTickets v).latches = s.latches := rfl
@[simp] theorem setTickets_counters (s : State) (v : Table Ticket) : (s.setTickets v).counters = s.counters := rfl
@[simp] theorem setTickets_view (s : State) (v : Table Ticket) : (s.setTickets v).view = s.view := rfl
@[simp] theorem setTickets_time (s : State) (v : Table Ticket) : (s.setTickets v).time = s.time := rfl
@[simp] theorem setTickets_settings (s : State) (v : Table Ticket) : (s.setTickets v).settings = s.settings := rfl
@[simp] theorem setTickets_cells (s : State) (v : Table Ticket) : (s.setTickets v).cells = s.cells := rfl
@[simp] theorem setTickets_trunks (s : State) (v : Table Ticket) : (s.setTickets v).trunks = s.trunks := rfl
@[simp] theorem setTickets_pools (s : State) (v : Table Ticket) : (s.setTickets v).pools = s.pools := rfl
@[simp] theorem setTickets_backbone (s : State) (v : Table Ticket) : (s.setTickets v).backbone = s.backbone := rfl
@[simp] theorem setTickets_stations (s : State) (v : Table Ticket) : (s.setTickets v).stations = s.stations := rfl
@[simp] theorem setTickets_handovers (s : State) (v : Table Ticket) : (s.setTickets v).handovers = s.handovers := rfl
@[simp] theorem setTickets_tickets (s : State) (v : Table Ticket) : (s.setTickets v).tickets = v := rfl
@[simp] theorem setTickets_sections (s : State) (v : Table Ticket) : (s.setTickets v).sections = s.sections := rfl
@[simp] theorem setTickets_purge (s : State) (v : Table Ticket) : (s.setTickets v).purge = s.purge := rfl
@[simp] theorem setTickets_referrals (s : State) (v : Table Ticket) : (s.setTickets v).referrals = s.referrals := rfl
@[simp] theorem setTickets_nextReferral (s : State) (v : Table Ticket) : (s.setTickets v).nextReferral = s.nextReferral := rfl
@[simp] theorem setTickets_channels (s : State) (v : Table Ticket) : (s.setTickets v).channels = s.channels := rfl
@[simp] theorem setTickets_copies (s : State) (v : Table Ticket) : (s.setTickets v).copies = s.copies := rfl
@[simp] theorem setTickets_created (s : State) (v : Table Ticket) : (s.setTickets v).created = s.created := rfl
@[simp] theorem setTickets_owed (s : State) (v : Table Ticket) : (s.setTickets v).owed = s.owed := rfl
@[simp] theorem setTickets_draws (s : State) (v : Table Ticket) : (s.setTickets v).draws = s.draws := rfl

@[simp] theorem setSections_pending (s : State) (v : Table (List Nat)) : (s.setSections v).pending = s.pending := rfl
@[simp] theorem setSections_link (s : State) (v : Table (List Nat)) : (s.setSections v).link = s.link := rfl
@[simp] theorem setSections_notices (s : State) (v : Table (List Nat)) : (s.setSections v).notices = s.notices := rfl
@[simp] theorem setSections_latches (s : State) (v : Table (List Nat)) : (s.setSections v).latches = s.latches := rfl
@[simp] theorem setSections_counters (s : State) (v : Table (List Nat)) : (s.setSections v).counters = s.counters := rfl
@[simp] theorem setSections_view (s : State) (v : Table (List Nat)) : (s.setSections v).view = s.view := rfl
@[simp] theorem setSections_time (s : State) (v : Table (List Nat)) : (s.setSections v).time = s.time := rfl
@[simp] theorem setSections_settings (s : State) (v : Table (List Nat)) : (s.setSections v).settings = s.settings := rfl
@[simp] theorem setSections_cells (s : State) (v : Table (List Nat)) : (s.setSections v).cells = s.cells := rfl
@[simp] theorem setSections_trunks (s : State) (v : Table (List Nat)) : (s.setSections v).trunks = s.trunks := rfl
@[simp] theorem setSections_pools (s : State) (v : Table (List Nat)) : (s.setSections v).pools = s.pools := rfl
@[simp] theorem setSections_backbone (s : State) (v : Table (List Nat)) : (s.setSections v).backbone = s.backbone := rfl
@[simp] theorem setSections_stations (s : State) (v : Table (List Nat)) : (s.setSections v).stations = s.stations := rfl
@[simp] theorem setSections_handovers (s : State) (v : Table (List Nat)) : (s.setSections v).handovers = s.handovers := rfl
@[simp] theorem setSections_tickets (s : State) (v : Table (List Nat)) : (s.setSections v).tickets = s.tickets := rfl
@[simp] theorem setSections_sections (s : State) (v : Table (List Nat)) : (s.setSections v).sections = v := rfl
@[simp] theorem setSections_purge (s : State) (v : Table (List Nat)) : (s.setSections v).purge = s.purge := rfl
@[simp] theorem setSections_referrals (s : State) (v : Table (List Nat)) : (s.setSections v).referrals = s.referrals := rfl
@[simp] theorem setSections_nextReferral (s : State) (v : Table (List Nat)) : (s.setSections v).nextReferral = s.nextReferral := rfl
@[simp] theorem setSections_channels (s : State) (v : Table (List Nat)) : (s.setSections v).channels = s.channels := rfl
@[simp] theorem setSections_copies (s : State) (v : Table (List Nat)) : (s.setSections v).copies = s.copies := rfl
@[simp] theorem setSections_created (s : State) (v : Table (List Nat)) : (s.setSections v).created = s.created := rfl
@[simp] theorem setSections_owed (s : State) (v : Table (List Nat)) : (s.setSections v).owed = s.owed := rfl
@[simp] theorem setSections_draws (s : State) (v : Table (List Nat)) : (s.setSections v).draws = s.draws := rfl

@[simp] theorem setPurge_pending (s : State) (v : Option Purge) : (s.setPurge v).pending = s.pending := rfl
@[simp] theorem setPurge_link (s : State) (v : Option Purge) : (s.setPurge v).link = s.link := rfl
@[simp] theorem setPurge_notices (s : State) (v : Option Purge) : (s.setPurge v).notices = s.notices := rfl
@[simp] theorem setPurge_latches (s : State) (v : Option Purge) : (s.setPurge v).latches = s.latches := rfl
@[simp] theorem setPurge_counters (s : State) (v : Option Purge) : (s.setPurge v).counters = s.counters := rfl
@[simp] theorem setPurge_view (s : State) (v : Option Purge) : (s.setPurge v).view = s.view := rfl
@[simp] theorem setPurge_time (s : State) (v : Option Purge) : (s.setPurge v).time = s.time := rfl
@[simp] theorem setPurge_settings (s : State) (v : Option Purge) : (s.setPurge v).settings = s.settings := rfl
@[simp] theorem setPurge_cells (s : State) (v : Option Purge) : (s.setPurge v).cells = s.cells := rfl
@[simp] theorem setPurge_trunks (s : State) (v : Option Purge) : (s.setPurge v).trunks = s.trunks := rfl
@[simp] theorem setPurge_pools (s : State) (v : Option Purge) : (s.setPurge v).pools = s.pools := rfl
@[simp] theorem setPurge_backbone (s : State) (v : Option Purge) : (s.setPurge v).backbone = s.backbone := rfl
@[simp] theorem setPurge_stations (s : State) (v : Option Purge) : (s.setPurge v).stations = s.stations := rfl
@[simp] theorem setPurge_handovers (s : State) (v : Option Purge) : (s.setPurge v).handovers = s.handovers := rfl
@[simp] theorem setPurge_tickets (s : State) (v : Option Purge) : (s.setPurge v).tickets = s.tickets := rfl
@[simp] theorem setPurge_sections (s : State) (v : Option Purge) : (s.setPurge v).sections = s.sections := rfl
@[simp] theorem setPurge_purge (s : State) (v : Option Purge) : (s.setPurge v).purge = v := rfl
@[simp] theorem setPurge_referrals (s : State) (v : Option Purge) : (s.setPurge v).referrals = s.referrals := rfl
@[simp] theorem setPurge_nextReferral (s : State) (v : Option Purge) : (s.setPurge v).nextReferral = s.nextReferral := rfl
@[simp] theorem setPurge_channels (s : State) (v : Option Purge) : (s.setPurge v).channels = s.channels := rfl
@[simp] theorem setPurge_copies (s : State) (v : Option Purge) : (s.setPurge v).copies = s.copies := rfl
@[simp] theorem setPurge_created (s : State) (v : Option Purge) : (s.setPurge v).created = s.created := rfl
@[simp] theorem setPurge_owed (s : State) (v : Option Purge) : (s.setPurge v).owed = s.owed := rfl
@[simp] theorem setPurge_draws (s : State) (v : Option Purge) : (s.setPurge v).draws = s.draws := rfl

@[simp] theorem setReferrals_pending (s : State) (v : List Parked) : (s.setReferrals v).pending = s.pending := rfl
@[simp] theorem setReferrals_link (s : State) (v : List Parked) : (s.setReferrals v).link = s.link := rfl
@[simp] theorem setReferrals_notices (s : State) (v : List Parked) : (s.setReferrals v).notices = s.notices := rfl
@[simp] theorem setReferrals_latches (s : State) (v : List Parked) : (s.setReferrals v).latches = s.latches := rfl
@[simp] theorem setReferrals_counters (s : State) (v : List Parked) : (s.setReferrals v).counters = s.counters := rfl
@[simp] theorem setReferrals_view (s : State) (v : List Parked) : (s.setReferrals v).view = s.view := rfl
@[simp] theorem setReferrals_time (s : State) (v : List Parked) : (s.setReferrals v).time = s.time := rfl
@[simp] theorem setReferrals_settings (s : State) (v : List Parked) : (s.setReferrals v).settings = s.settings := rfl
@[simp] theorem setReferrals_cells (s : State) (v : List Parked) : (s.setReferrals v).cells = s.cells := rfl
@[simp] theorem setReferrals_trunks (s : State) (v : List Parked) : (s.setReferrals v).trunks = s.trunks := rfl
@[simp] theorem setReferrals_pools (s : State) (v : List Parked) : (s.setReferrals v).pools = s.pools := rfl
@[simp] theorem setReferrals_backbone (s : State) (v : List Parked) : (s.setReferrals v).backbone = s.backbone := rfl
@[simp] theorem setReferrals_stations (s : State) (v : List Parked) : (s.setReferrals v).stations = s.stations := rfl
@[simp] theorem setReferrals_handovers (s : State) (v : List Parked) : (s.setReferrals v).handovers = s.handovers := rfl
@[simp] theorem setReferrals_tickets (s : State) (v : List Parked) : (s.setReferrals v).tickets = s.tickets := rfl
@[simp] theorem setReferrals_sections (s : State) (v : List Parked) : (s.setReferrals v).sections = s.sections := rfl
@[simp] theorem setReferrals_purge (s : State) (v : List Parked) : (s.setReferrals v).purge = s.purge := rfl
@[simp] theorem setReferrals_referrals (s : State) (v : List Parked) : (s.setReferrals v).referrals = v := rfl
@[simp] theorem setReferrals_nextReferral (s : State) (v : List Parked) : (s.setReferrals v).nextReferral = s.nextReferral := rfl
@[simp] theorem setReferrals_channels (s : State) (v : List Parked) : (s.setReferrals v).channels = s.channels := rfl
@[simp] theorem setReferrals_copies (s : State) (v : List Parked) : (s.setReferrals v).copies = s.copies := rfl
@[simp] theorem setReferrals_created (s : State) (v : List Parked) : (s.setReferrals v).created = s.created := rfl
@[simp] theorem setReferrals_owed (s : State) (v : List Parked) : (s.setReferrals v).owed = s.owed := rfl
@[simp] theorem setReferrals_draws (s : State) (v : List Parked) : (s.setReferrals v).draws = s.draws := rfl

@[simp] theorem setNextReferral_pending (s : State) (v : BitVec 16) : (s.setNextReferral v).pending = s.pending := rfl
@[simp] theorem setNextReferral_link (s : State) (v : BitVec 16) : (s.setNextReferral v).link = s.link := rfl
@[simp] theorem setNextReferral_notices (s : State) (v : BitVec 16) : (s.setNextReferral v).notices = s.notices := rfl
@[simp] theorem setNextReferral_latches (s : State) (v : BitVec 16) : (s.setNextReferral v).latches = s.latches := rfl
@[simp] theorem setNextReferral_counters (s : State) (v : BitVec 16) : (s.setNextReferral v).counters = s.counters := rfl
@[simp] theorem setNextReferral_view (s : State) (v : BitVec 16) : (s.setNextReferral v).view = s.view := rfl
@[simp] theorem setNextReferral_time (s : State) (v : BitVec 16) : (s.setNextReferral v).time = s.time := rfl
@[simp] theorem setNextReferral_settings (s : State) (v : BitVec 16) : (s.setNextReferral v).settings = s.settings := rfl
@[simp] theorem setNextReferral_cells (s : State) (v : BitVec 16) : (s.setNextReferral v).cells = s.cells := rfl
@[simp] theorem setNextReferral_trunks (s : State) (v : BitVec 16) : (s.setNextReferral v).trunks = s.trunks := rfl
@[simp] theorem setNextReferral_pools (s : State) (v : BitVec 16) : (s.setNextReferral v).pools = s.pools := rfl
@[simp] theorem setNextReferral_backbone (s : State) (v : BitVec 16) : (s.setNextReferral v).backbone = s.backbone := rfl
@[simp] theorem setNextReferral_stations (s : State) (v : BitVec 16) : (s.setNextReferral v).stations = s.stations := rfl
@[simp] theorem setNextReferral_handovers (s : State) (v : BitVec 16) : (s.setNextReferral v).handovers = s.handovers := rfl
@[simp] theorem setNextReferral_tickets (s : State) (v : BitVec 16) : (s.setNextReferral v).tickets = s.tickets := rfl
@[simp] theorem setNextReferral_sections (s : State) (v : BitVec 16) : (s.setNextReferral v).sections = s.sections := rfl
@[simp] theorem setNextReferral_purge (s : State) (v : BitVec 16) : (s.setNextReferral v).purge = s.purge := rfl
@[simp] theorem setNextReferral_referrals (s : State) (v : BitVec 16) : (s.setNextReferral v).referrals = s.referrals := rfl
@[simp] theorem setNextReferral_nextReferral (s : State) (v : BitVec 16) : (s.setNextReferral v).nextReferral = v := rfl
@[simp] theorem setNextReferral_channels (s : State) (v : BitVec 16) : (s.setNextReferral v).channels = s.channels := rfl
@[simp] theorem setNextReferral_copies (s : State) (v : BitVec 16) : (s.setNextReferral v).copies = s.copies := rfl
@[simp] theorem setNextReferral_created (s : State) (v : BitVec 16) : (s.setNextReferral v).created = s.created := rfl
@[simp] theorem setNextReferral_owed (s : State) (v : BitVec 16) : (s.setNextReferral v).owed = s.owed := rfl
@[simp] theorem setNextReferral_draws (s : State) (v : BitVec 16) : (s.setNextReferral v).draws = s.draws := rfl

@[simp] theorem setChannels_pending (s : State) (v : Table Channel) : (s.setChannels v).pending = s.pending := rfl
@[simp] theorem setChannels_link (s : State) (v : Table Channel) : (s.setChannels v).link = s.link := rfl
@[simp] theorem setChannels_notices (s : State) (v : Table Channel) : (s.setChannels v).notices = s.notices := rfl
@[simp] theorem setChannels_latches (s : State) (v : Table Channel) : (s.setChannels v).latches = s.latches := rfl
@[simp] theorem setChannels_counters (s : State) (v : Table Channel) : (s.setChannels v).counters = s.counters := rfl
@[simp] theorem setChannels_view (s : State) (v : Table Channel) : (s.setChannels v).view = s.view := rfl
@[simp] theorem setChannels_time (s : State) (v : Table Channel) : (s.setChannels v).time = s.time := rfl
@[simp] theorem setChannels_settings (s : State) (v : Table Channel) : (s.setChannels v).settings = s.settings := rfl
@[simp] theorem setChannels_cells (s : State) (v : Table Channel) : (s.setChannels v).cells = s.cells := rfl
@[simp] theorem setChannels_trunks (s : State) (v : Table Channel) : (s.setChannels v).trunks = s.trunks := rfl
@[simp] theorem setChannels_pools (s : State) (v : Table Channel) : (s.setChannels v).pools = s.pools := rfl
@[simp] theorem setChannels_backbone (s : State) (v : Table Channel) : (s.setChannels v).backbone = s.backbone := rfl
@[simp] theorem setChannels_stations (s : State) (v : Table Channel) : (s.setChannels v).stations = s.stations := rfl
@[simp] theorem setChannels_handovers (s : State) (v : Table Channel) : (s.setChannels v).handovers = s.handovers := rfl
@[simp] theorem setChannels_tickets (s : State) (v : Table Channel) : (s.setChannels v).tickets = s.tickets := rfl
@[simp] theorem setChannels_sections (s : State) (v : Table Channel) : (s.setChannels v).sections = s.sections := rfl
@[simp] theorem setChannels_purge (s : State) (v : Table Channel) : (s.setChannels v).purge = s.purge := rfl
@[simp] theorem setChannels_referrals (s : State) (v : Table Channel) : (s.setChannels v).referrals = s.referrals := rfl
@[simp] theorem setChannels_nextReferral (s : State) (v : Table Channel) : (s.setChannels v).nextReferral = s.nextReferral := rfl
@[simp] theorem setChannels_channels (s : State) (v : Table Channel) : (s.setChannels v).channels = v := rfl
@[simp] theorem setChannels_copies (s : State) (v : Table Channel) : (s.setChannels v).copies = s.copies := rfl
@[simp] theorem setChannels_created (s : State) (v : Table Channel) : (s.setChannels v).created = s.created := rfl
@[simp] theorem setChannels_owed (s : State) (v : Table Channel) : (s.setChannels v).owed = s.owed := rfl
@[simp] theorem setChannels_draws (s : State) (v : Table Channel) : (s.setChannels v).draws = s.draws := rfl

@[simp] theorem setCopies_pending (s : State) (v : Table Copy) : (s.setCopies v).pending = s.pending := rfl
@[simp] theorem setCopies_link (s : State) (v : Table Copy) : (s.setCopies v).link = s.link := rfl
@[simp] theorem setCopies_notices (s : State) (v : Table Copy) : (s.setCopies v).notices = s.notices := rfl
@[simp] theorem setCopies_latches (s : State) (v : Table Copy) : (s.setCopies v).latches = s.latches := rfl
@[simp] theorem setCopies_counters (s : State) (v : Table Copy) : (s.setCopies v).counters = s.counters := rfl
@[simp] theorem setCopies_view (s : State) (v : Table Copy) : (s.setCopies v).view = s.view := rfl
@[simp] theorem setCopies_time (s : State) (v : Table Copy) : (s.setCopies v).time = s.time := rfl
@[simp] theorem setCopies_settings (s : State) (v : Table Copy) : (s.setCopies v).settings = s.settings := rfl
@[simp] theorem setCopies_cells (s : State) (v : Table Copy) : (s.setCopies v).cells = s.cells := rfl
@[simp] theorem setCopies_trunks (s : State) (v : Table Copy) : (s.setCopies v).trunks = s.trunks := rfl
@[simp] theorem setCopies_pools (s : State) (v : Table Copy) : (s.setCopies v).pools = s.pools := rfl
@[simp] theorem setCopies_backbone (s : State) (v : Table Copy) : (s.setCopies v).backbone = s.backbone := rfl
@[simp] theorem setCopies_stations (s : State) (v : Table Copy) : (s.setCopies v).stations = s.stations := rfl
@[simp] theorem setCopies_handovers (s : State) (v : Table Copy) : (s.setCopies v).handovers = s.handovers := rfl
@[simp] theorem setCopies_tickets (s : State) (v : Table Copy) : (s.setCopies v).tickets = s.tickets := rfl
@[simp] theorem setCopies_sections (s : State) (v : Table Copy) : (s.setCopies v).sections = s.sections := rfl
@[simp] theorem setCopies_purge (s : State) (v : Table Copy) : (s.setCopies v).purge = s.purge := rfl
@[simp] theorem setCopies_referrals (s : State) (v : Table Copy) : (s.setCopies v).referrals = s.referrals := rfl
@[simp] theorem setCopies_nextReferral (s : State) (v : Table Copy) : (s.setCopies v).nextReferral = s.nextReferral := rfl
@[simp] theorem setCopies_channels (s : State) (v : Table Copy) : (s.setCopies v).channels = s.channels := rfl
@[simp] theorem setCopies_copies (s : State) (v : Table Copy) : (s.setCopies v).copies = v := rfl
@[simp] theorem setCopies_created (s : State) (v : Table Copy) : (s.setCopies v).created = s.created := rfl
@[simp] theorem setCopies_owed (s : State) (v : Table Copy) : (s.setCopies v).owed = s.owed := rfl
@[simp] theorem setCopies_draws (s : State) (v : Table Copy) : (s.setCopies v).draws = s.draws := rfl

@[simp] theorem setCreated_pending (s : State) (v : BitVec 32) : (s.setCreated v).pending = s.pending := rfl
@[simp] theorem setCreated_link (s : State) (v : BitVec 32) : (s.setCreated v).link = s.link := rfl
@[simp] theorem setCreated_notices (s : State) (v : BitVec 32) : (s.setCreated v).notices = s.notices := rfl
@[simp] theorem setCreated_latches (s : State) (v : BitVec 32) : (s.setCreated v).latches = s.latches := rfl
@[simp] theorem setCreated_counters (s : State) (v : BitVec 32) : (s.setCreated v).counters = s.counters := rfl
@[simp] theorem setCreated_view (s : State) (v : BitVec 32) : (s.setCreated v).view = s.view := rfl
@[simp] theorem setCreated_time (s : State) (v : BitVec 32) : (s.setCreated v).time = s.time := rfl
@[simp] theorem setCreated_settings (s : State) (v : BitVec 32) : (s.setCreated v).settings = s.settings := rfl
@[simp] theorem setCreated_cells (s : State) (v : BitVec 32) : (s.setCreated v).cells = s.cells := rfl
@[simp] theorem setCreated_trunks (s : State) (v : BitVec 32) : (s.setCreated v).trunks = s.trunks := rfl
@[simp] theorem setCreated_pools (s : State) (v : BitVec 32) : (s.setCreated v).pools = s.pools := rfl
@[simp] theorem setCreated_backbone (s : State) (v : BitVec 32) : (s.setCreated v).backbone = s.backbone := rfl
@[simp] theorem setCreated_stations (s : State) (v : BitVec 32) : (s.setCreated v).stations = s.stations := rfl
@[simp] theorem setCreated_handovers (s : State) (v : BitVec 32) : (s.setCreated v).handovers = s.handovers := rfl
@[simp] theorem setCreated_tickets (s : State) (v : BitVec 32) : (s.setCreated v).tickets = s.tickets := rfl
@[simp] theorem setCreated_sections (s : State) (v : BitVec 32) : (s.setCreated v).sections = s.sections := rfl
@[simp] theorem setCreated_purge (s : State) (v : BitVec 32) : (s.setCreated v).purge = s.purge := rfl
@[simp] theorem setCreated_referrals (s : State) (v : BitVec 32) : (s.setCreated v).referrals = s.referrals := rfl
@[simp] theorem setCreated_nextReferral (s : State) (v : BitVec 32) : (s.setCreated v).nextReferral = s.nextReferral := rfl
@[simp] theorem setCreated_channels (s : State) (v : BitVec 32) : (s.setCreated v).channels = s.channels := rfl
@[simp] theorem setCreated_copies (s : State) (v : BitVec 32) : (s.setCreated v).copies = s.copies := rfl
@[simp] theorem setCreated_created (s : State) (v : BitVec 32) : (s.setCreated v).created = v := rfl
@[simp] theorem setCreated_owed (s : State) (v : BitVec 32) : (s.setCreated v).owed = s.owed := rfl
@[simp] theorem setCreated_draws (s : State) (v : BitVec 32) : (s.setCreated v).draws = s.draws := rfl

@[simp] theorem setOwed_pending (s : State) (v : Owed) : (s.setOwed v).pending = s.pending := rfl
@[simp] theorem setOwed_link (s : State) (v : Owed) : (s.setOwed v).link = s.link := rfl
@[simp] theorem setOwed_notices (s : State) (v : Owed) : (s.setOwed v).notices = s.notices := rfl
@[simp] theorem setOwed_latches (s : State) (v : Owed) : (s.setOwed v).latches = s.latches := rfl
@[simp] theorem setOwed_counters (s : State) (v : Owed) : (s.setOwed v).counters = s.counters := rfl
@[simp] theorem setOwed_view (s : State) (v : Owed) : (s.setOwed v).view = s.view := rfl
@[simp] theorem setOwed_time (s : State) (v : Owed) : (s.setOwed v).time = s.time := rfl
@[simp] theorem setOwed_settings (s : State) (v : Owed) : (s.setOwed v).settings = s.settings := rfl
@[simp] theorem setOwed_cells (s : State) (v : Owed) : (s.setOwed v).cells = s.cells := rfl
@[simp] theorem setOwed_trunks (s : State) (v : Owed) : (s.setOwed v).trunks = s.trunks := rfl
@[simp] theorem setOwed_pools (s : State) (v : Owed) : (s.setOwed v).pools = s.pools := rfl
@[simp] theorem setOwed_backbone (s : State) (v : Owed) : (s.setOwed v).backbone = s.backbone := rfl
@[simp] theorem setOwed_stations (s : State) (v : Owed) : (s.setOwed v).stations = s.stations := rfl
@[simp] theorem setOwed_handovers (s : State) (v : Owed) : (s.setOwed v).handovers = s.handovers := rfl
@[simp] theorem setOwed_tickets (s : State) (v : Owed) : (s.setOwed v).tickets = s.tickets := rfl
@[simp] theorem setOwed_sections (s : State) (v : Owed) : (s.setOwed v).sections = s.sections := rfl
@[simp] theorem setOwed_purge (s : State) (v : Owed) : (s.setOwed v).purge = s.purge := rfl
@[simp] theorem setOwed_referrals (s : State) (v : Owed) : (s.setOwed v).referrals = s.referrals := rfl
@[simp] theorem setOwed_nextReferral (s : State) (v : Owed) : (s.setOwed v).nextReferral = s.nextReferral := rfl
@[simp] theorem setOwed_channels (s : State) (v : Owed) : (s.setOwed v).channels = s.channels := rfl
@[simp] theorem setOwed_copies (s : State) (v : Owed) : (s.setOwed v).copies = s.copies := rfl
@[simp] theorem setOwed_created (s : State) (v : Owed) : (s.setOwed v).created = s.created := rfl
@[simp] theorem setOwed_owed (s : State) (v : Owed) : (s.setOwed v).owed = v := rfl
@[simp] theorem setOwed_draws (s : State) (v : Owed) : (s.setOwed v).draws = s.draws := rfl

@[simp] theorem setDraws_pending (s : State) (v : Nat) : (s.setDraws v).pending = s.pending := rfl
@[simp] theorem setDraws_link (s : State) (v : Nat) : (s.setDraws v).link = s.link := rfl
@[simp] theorem setDraws_notices (s : State) (v : Nat) : (s.setDraws v).notices = s.notices := rfl
@[simp] theorem setDraws_latches (s : State) (v : Nat) : (s.setDraws v).latches = s.latches := rfl
@[simp] theorem setDraws_counters (s : State) (v : Nat) : (s.setDraws v).counters = s.counters := rfl
@[simp] theorem setDraws_view (s : State) (v : Nat) : (s.setDraws v).view = s.view := rfl
@[simp] theorem setDraws_time (s : State) (v : Nat) : (s.setDraws v).time = s.time := rfl
@[simp] theorem setDraws_settings (s : State) (v : Nat) : (s.setDraws v).settings = s.settings := rfl
@[simp] theorem setDraws_cells (s : State) (v : Nat) : (s.setDraws v).cells = s.cells := rfl
@[simp] theorem setDraws_trunks (s : State) (v : Nat) : (s.setDraws v).trunks = s.trunks := rfl
@[simp] theorem setDraws_pools (s : State) (v : Nat) : (s.setDraws v).pools = s.pools := rfl
@[simp] theorem setDraws_backbone (s : State) (v : Nat) : (s.setDraws v).backbone = s.backbone := rfl
@[simp] theorem setDraws_stations (s : State) (v : Nat) : (s.setDraws v).stations = s.stations := rfl
@[simp] theorem setDraws_handovers (s : State) (v : Nat) : (s.setDraws v).handovers = s.handovers := rfl
@[simp] theorem setDraws_tickets (s : State) (v : Nat) : (s.setDraws v).tickets = s.tickets := rfl
@[simp] theorem setDraws_sections (s : State) (v : Nat) : (s.setDraws v).sections = s.sections := rfl
@[simp] theorem setDraws_purge (s : State) (v : Nat) : (s.setDraws v).purge = s.purge := rfl
@[simp] theorem setDraws_referrals (s : State) (v : Nat) : (s.setDraws v).referrals = s.referrals := rfl
@[simp] theorem setDraws_nextReferral (s : State) (v : Nat) : (s.setDraws v).nextReferral = s.nextReferral := rfl
@[simp] theorem setDraws_channels (s : State) (v : Nat) : (s.setDraws v).channels = s.channels := rfl
@[simp] theorem setDraws_copies (s : State) (v : Nat) : (s.setDraws v).copies = s.copies := rfl
@[simp] theorem setDraws_created (s : State) (v : Nat) : (s.setDraws v).created = s.created := rfl
@[simp] theorem setDraws_owed (s : State) (v : Nat) : (s.setDraws v).owed = s.owed := rfl
@[simp] theorem setDraws_draws (s : State) (v : Nat) : (s.setDraws v).draws = v := rfl

end Sys2Proof.Machine
end

