-- ==== Sys2Proof/Laws/Table.lean ====
section
/-! SUPPORT. Laws of the sparse tables: what is read after each update, for every table; that each update keeps the canonical
form; that the lowest free number is free and below the capacity. -/

namespace Sys2Proof.Machine

/-! ## Reading after an update -/

theorem lookIn_putIn {α : Type} (k j : Nat) (v : α) (l : List (Nat × α)) :
    lookIn j (putIn k v l) = if j = k then some v else lookIn j l := by
  induction l with
  | nil =>
    by_cases h : j = k
    · simp [putIn, lookIn, h]
    · simp [putIn, lookIn, h, Ne.symm h]
  | cons e rest ih =>
    obtain ⟨i, w⟩ := e
    simp only [putIn]
    split
    · by_cases h : j = k
      · simp [lookIn, h]
      · simp [lookIn, h, Ne.symm h]
    · split
      · subst i
        by_cases h : j = k
        · simp [lookIn, h]
        · simp [lookIn, h, Ne.symm h]
      · simp only [lookIn, ih]
        by_cases h : i = j
        · subst i; simp [Ne.symm ‹¬k = j›]
        · simp [h]

theorem lookIn_dropIn {α : Type} (k j : Nat) (l : List (Nat × α)) :
    lookIn j (dropIn k l) = if j = k then none else lookIn j l := by
  induction l with
  | nil => simp [dropIn, lookIn]
  | cons e rest ih =>
    obtain ⟨i, w⟩ := e
    simp only [dropIn]
    split
    · subst i
      rw [ih]
      by_cases h : j = k
      · simp [h]
      · simp [lookIn, h, Ne.symm h]
    · simp only [lookIn, ih]
      by_cases h : i = j
      · subst i; simp [‹¬j = k›]
      · simp [h]

@[simp] theorem Table.look_put {α : Type} (t : Table α) (k j : Nat) (v : α) :
    (t.put k v).look j = if j = k then some v else t.look j := lookIn_putIn k j v t.entries

@[simp] theorem Table.look_drop {α : Type} (t : Table α) (k j : Nat) :
    (t.drop k).look j = if j = k then none else t.look j := lookIn_dropIn k j t.entries

@[simp] theorem Table.look_empty {α : Type} (k : Nat) : (Table.empty : Table α).look k = none := rfl

@[simp] theorem Table.look_mapAll {α : Type} (t : Table α) (f : Nat → α → α) (k : Nat) :
    (t.mapAll f).look k = (t.look k).map (f k) := by
  obtain ⟨l⟩ := t
  simp only [Table.look, Table.mapAll]
  induction l with
  | nil => rfl
  | cons e rest ih =>
    obtain ⟨i, w⟩ := e
    simp only [List.map_cons, lookIn]
    by_cases h : i = k
    · simp [h]
    · simp [h, ih]

theorem Table.look_modify {α : Type} (t : Table α) (k j : Nat) (f : α → α) :
    (t.modify k f).look j = if j = k then (t.look k).map f else t.look j := by
  cases h : t.look k with
  | none => by_cases hj : j = k <;> simp [Table.modify, h, hj]
  | some v => simp [Table.modify, h]

theorem Table.lookD_putD {α : Type} [DecidableEq α] (t : Table α) (k j : Nat) (v d : α) :
    (t.putD k v d).lookD j d = if j = k then v else t.lookD j d := by
  unfold Table.putD Table.lookD
  split <;> by_cases h : j = k <;> simp [*]

/-! ## The canonical form -/

theorem risingFrom_le {α : Type} {a b : Nat} (h : a ≤ b) (l : List (Nat × α)) (hl : risingFrom b l = true) :
    risingFrom a l = true := by
  cases l with
  | nil => rfl
  | cons e rest =>
    obtain ⟨i, w⟩ := e
    simp only [risingFrom, Bool.and_eq_true, decide_eq_true_eq] at hl ⊢
    exact ⟨by omega, hl.2⟩

theorem risingFrom_putIn {α : Type} (k a : Nat) (v : α) (l : List (Nat × α)) (ha : a ≤ k) (hl : risingFrom a l = true) :
    risingFrom a (putIn k v l) = true := by
  induction l generalizing a with
  | nil => simp [putIn, risingFrom, ha]
  | cons e rest ih =>
    obtain ⟨i, w⟩ := e
    simp only [risingFrom, Bool.and_eq_true, decide_eq_true_eq] at hl
    simp only [putIn]
    split
    · simp only [risingFrom, Bool.and_eq_true, decide_eq_true_eq]; exact ⟨ha, by omega, hl.2⟩
    · split
      · subst i; simp [risingFrom, ha, hl.2]
      · simp only [risingFrom, Bool.and_eq_true, decide_eq_true_eq]; exact ⟨hl.1, ih (i + 1) (by omega) hl.2⟩

theorem risingFrom_dropIn {α : Type} (k a : Nat) (l : List (Nat × α)) (hl : risingFrom a l = true) :
    risingFrom a (dropIn k l) = true := by
  induction l generalizing a with
  | nil => rfl
  | cons e rest ih =>
    obtain ⟨i, w⟩ := e
    simp only [risingFrom, Bool.and_eq_true, decide_eq_true_eq] at hl
    simp only [dropIn]
    split
    · exact risingFrom_le (by omega) _ (ih (i + 1) hl.2)
    · simp only [risingFrom, Bool.and_eq_true, decide_eq_true_eq]; exact ⟨hl.1, ih (i + 1) hl.2⟩

theorem Table.wf_empty {α : Type} : (Table.empty : Table α).wf = true := rfl

theorem Table.wf_put {α : Type} (t : Table α) (k : Nat) (v : α) (h : t.wf = true) : (t.put k v).wf = true :=
  risingFrom_putIn k 0 v t.entries (Nat.zero_le k) h

theorem Table.wf_drop {α : Type} (t : Table α) (k : Nat) (h : t.wf = true) : (t.drop k).wf = true :=
  risingFrom_dropIn k 0 t.entries h

theorem Table.wf_putD {α : Type} [DecidableEq α] (t : Table α) (k : Nat) (v d : α) (h : t.wf = true) :
    (t.putD k v d).wf = true := by
  unfold Table.putD; split
  · exact t.wf_drop k h
  · exact t.wf_put k v h

theorem Table.wf_modify {α : Type} (t : Table α) (k : Nat) (f : α → α) (h : t.wf = true) : (t.modify k f).wf = true := by
  unfold Table.modify; split
  · exact t.wf_put k _ h
  · exact h

theorem Table.wf_mapAll {α : Type} (t : Table α) (f : Nat → α → α) (h : t.wf = true) : (t.mapAll f).wf = true := by
  obtain ⟨l⟩ := t
  suffices H : ∀ (a : Nat) (l : List (Nat × α)), risingFrom a l = true →
      risingFrom a (l.map fun e => (e.1, f e.1 e.2)) = true from H 0 l h
  intro a l
  induction l generalizing a with
  | nil => intro _; rfl
  | cons e rest ih =>
    obtain ⟨i, w⟩ := e
    intro hl
    simp only [risingFrom, Bool.and_eq_true, decide_eq_true_eq] at hl
    simp only [List.map_cons, risingFrom, Bool.and_eq_true, decide_eq_true_eq]
    exact ⟨hl.1, ih (i + 1) hl.2⟩

/-! ## Sizes -/

theorem length_putIn_le {α : Type} (k : Nat) (v : α) (l : List (Nat × α)) : (putIn k v l).length ≤ l.length + 1 := by
  induction l with
  | nil => simp [putIn]
  | cons e rest ih =>
    obtain ⟨i, w⟩ := e
    simp only [putIn]
    split
    · simp
    · split <;> simp <;> omega

theorem length_dropIn_le {α : Type} (k : Nat) (l : List (Nat × α)) : (dropIn k l).length ≤ l.length := by
  induction l with
  | nil => simp [dropIn]
  | cons e rest ih =>
    obtain ⟨i, w⟩ := e
    simp only [dropIn]
    split <;> simp <;> omega

theorem lookIn_lt_none {α : Type} (k a : Nat) (l : List (Nat × α)) (hl : risingFrom a l = true) (h : k < a) :
    lookIn k l = none := by
  induction l generalizing a with
  | nil => rfl
  | cons e rest ih =>
    obtain ⟨i, w⟩ := e
    simp only [risingFrom, Bool.and_eq_true, decide_eq_true_eq] at hl
    simp [lookIn, show i ≠ k by omega, ih (i + 1) hl.2 (by omega)]

/-- Writing a number that is listed keeps the size of a canonical table. -/
theorem length_putIn_listed {α : Type} (k a : Nat) (v : α) (l : List (Nat × α)) (hl : risingFrom a l = true)
    (h : (lookIn k l).isSome = true) : (putIn k v l).length = l.length := by
  induction l generalizing a with
  | nil => simp [lookIn] at h
  | cons e rest ih =>
    obtain ⟨i, w⟩ := e
    simp only [risingFrom, Bool.and_eq_true, decide_eq_true_eq] at hl
    simp only [putIn]
    split
    · rename_i hk
      simp [lookIn, show i ≠ k by omega, lookIn_lt_none k (i + 1) rest hl.2 (by omega)] at h
    · split
      · simp
      · rename_i hk hi
        simp only [List.length_cons, Nat.add_right_cancel_iff]
        exact ih (i + 1) hl.2 (by simpa [lookIn, Ne.symm hi] using h)

theorem Table.size_put_le {α : Type} (t : Table α) (k : Nat) (v : α) : (t.put k v).size ≤ t.size + 1 :=
  length_putIn_le k v t.entries

theorem Table.size_drop_le {α : Type} (t : Table α) (k : Nat) : (t.drop k).size ≤ t.size := length_dropIn_le k t.entries

theorem Table.size_put_listed {α : Type} (t : Table α) (k : Nat) (v : α) (hw : t.wf = true)
    (h : (t.look k).isSome = true) : (t.put k v).size = t.size := length_putIn_listed k 0 v t.entries hw h

@[simp] theorem Table.size_mapAll {α : Type} (t : Table α) (f : Nat → α → α) : (t.mapAll f).size = t.size := by
  simp [Table.size, Table.mapAll]

/-! ## The lowest free number -/

theorem Table.freeFrom_spec {α : Type} (t : Table α) (fuel k n : Nat) (h : t.freeFrom fuel k = some n) :
    k ≤ n ∧ n < k + fuel ∧ t.look n = none ∧ ∀ j, k ≤ j → j < n → (t.look j).isSome = true := by
  induction fuel generalizing k with
  | zero => simp [Table.freeFrom] at h
  | succ fuel ih =>
    simp only [Table.freeFrom] at h
    split at h
    · rename_i hn
      obtain rfl := Option.some.inj h
      exact ⟨Nat.le_refl _, by omega, by simpa using hn, fun j h1 h2 => by omega⟩
    · rename_i hn
      obtain ⟨h1, h2, h3, h4⟩ := ih (k + 1) h
      refine ⟨by omega, by omega, h3, fun j hj1 hj2 => ?_⟩
      by_cases hjk : j = k
      · subst j; cases hl : t.look k <;> simp_all
      · exact h4 j (by omega) hj2

/-- The lowest free number is free, below the capacity, and every lower number is taken. -/
theorem Table.lowestFree_spec {α : Type} (t : Table α) (capacity n : Nat) (h : t.lowestFree capacity = some n) :
    n < capacity ∧ t.look n = none ∧ ∀ j, j < n → (t.look j).isSome = true := by
  obtain ⟨_, h2, h3, h4⟩ := t.freeFrom_spec capacity 0 n h
  exact ⟨by omega, h3, fun j hj => h4 j (Nat.zero_le _) hj⟩

end Sys2Proof.Machine
end

