-- ==== Sys2Proof/Laws/Ops.lean ====
section
/-! SUPPORT. One lemma for each shared operation of Machine/Ops.lean that says once what it does: counters, notices, latches, the reply
slot, orders, trunks, signalling messages, buffers, stations and tickets. -/

namespace Sys2Proof.Machine

/-! ## Counters -/

theorem CellCounter.index_lt (c : CellCounter) : c.index < 8 := by cases c <;> decide
theorem TrunkCounter.index_lt (c : TrunkCounter) : c.index < 4 := by cases c <;> decide
theorem ChannelCounter.index_lt (c : ChannelCounter) : c.index < 2 := by cases c <;> decide

/-- A counter's place in its scope names it. -/
theorem CellCounter.all_index (c : CellCounter) : CellCounter.all[c.index]? = some c := by cases c <;> rfl
theorem TrunkCounter.all_index (c : TrunkCounter) : TrunkCounter.all[c.index]? = some c := by cases c <;> rfl
theorem ChannelCounter.all_index (c : ChannelCounter) : ChannelCounter.all[c.index]? = some c := by cases c <;> rfl

theorem PartCounter.all_index (c : PartCounter) : PartCounter.all[c.index]? = some c := by
  cases c with
  | claim v =>
    cases v with
    | refused r => cases r <;> rfl
    | _ => rfl
  | _ => rfl

/-- No two counters share a key. -/
theorem Counter.key_inj {a b : Counter} (h : a.key = b.key) : a = b := by
  cases a <;> cases b <;> simp only [Counter.key] at h <;> try omega
  case cell.cell n c m d =>
    have := c.index_lt; have := d.index_lt
    rw [Option.some.inj ((CellCounter.all_index c).symm.trans
      ((congrArg (CellCounter.all[·]?) (by omega)).trans (CellCounter.all_index d))),
      show n = m by omega]
  case trunk.trunk n c m d =>
    have := c.index_lt; have := d.index_lt
    rw [Option.some.inj ((TrunkCounter.all_index c).symm.trans
      ((congrArg (TrunkCounter.all[·]?) (by omega)).trans (TrunkCounter.all_index d))),
      show n = m by omega]
  case channel.channel n c m d =>
    have := c.index_lt; have := d.index_lt
    rw [Option.some.inj ((ChannelCounter.all_index c).symm.trans
      ((congrArg (ChannelCounter.all[·]?) (by omega)).trans (ChannelCounter.all_index d))),
      show n = m by omega]
  case part.part c d =>
    rw [Option.some.inj ((PartCounter.all_index c).symm.trans
      ((congrArg (PartCounter.all[·]?) (by omega)).trans (PartCounter.all_index d)))]

/-- An advance moves its counter, and no other (section 11.2). -/
theorem counter_advance (c d : Counter) (n : Nat) (s : State) :
    (advance c n s).counter d = if d = c then s.counter c + BitVec.ofNat 32 n else s.counter d := by
  simp only [State.counter, advance, setCounters_counters, Table.lookD_putD]
  by_cases h : d = c
  · simp [h]
  · have : d.key ≠ c.key := fun e => h (Counter.key_inj e)
    simp [h, this]

/-- An advance changes the counters alone. -/
theorem advance_frame (c : Counter) (n : Nat) (s : State) :
    advance c n s = { s with counters := (advance c n s).counters } := rfl

theorem advanced_advance (c : Counter) (n : Nat) (s : State) : Advanced s (advance c n s) c n := by
  simp [Advanced, counter_advance]

theorem onlyCounts_bump (c : Counter) (s : State) : OnlyCounts s (bump c s) c where
  moved := advanced_advance c 1 s
  kept := fun d h => by simp [bump, counter_advance, h]
  frame := rfl

/-! ## Latches and notices -/

theorem Latch.index_lt (l : Latch) : l.index < 14 := by
  cases l <;> simp only [Latch.index] <;> omega

theorem Latch.index_inj {a b : Latch} (h : a.index = b.index) : a = b := by
  cases a <;> cases b <;> simp only [Latch.index] at h <;> try first | rfl | omega
  congr 1; omega

/-- Setting a latch sets its bit, and no other. -/
theorem latchSet_setLatch (l o : Latch) (s : State) :
    (setLatch l s).latchSet o = (s.latchSet o || decide (o = l)) := by
  have ho := o.index_lt
  have : decide (o = l) = decide (l.index = o.index) := by
    by_cases h : o = l
    · simp [h]
    · have : l.index ≠ o.index := fun e => h (Latch.index_inj e.symm)
      simp [h, this]
  simp only [setLatch, State.latchSet, setLatches_latches, BitVec.getLsbD_or, Latch.bit, BitVec.getLsbD_twoPow, this]
  have hl := l.index_lt
  simp [ho, hl]

/-- A notice is queued at the tail, or lost and counted, with NOTICE OVERFLOW set (R161). -/
theorem pushNotice_cases (b : NoticeBody) (s : State) :
    (s.notices.length < Config.notices ∧ pushNotice b s = s.setNotices (s.notices ++ [⟨s.now, b⟩]))
    ∨ (Config.notices ≤ s.notices.length ∧ s.latchSet .noticeOverflow = true
        ∧ pushNotice b s = bumpPart .noticesLost s)
    ∨ (Config.notices ≤ s.notices.length ∧ s.latchSet .noticeOverflow = false
        ∧ pushNotice b s = setLatch .noticeOverflow (bumpPart .noticesLost (bumpPart .noticesLost s))) := by
  unfold pushNotice
  by_cases h : s.notices.length < Config.notices
  · exact .inl ⟨h, if_pos h⟩
  · rw [if_neg h]
    cases hl : s.latchSet .noticeOverflow
    · exact .inr (.inr ⟨by omega, rfl, by simp⟩)
    · exact .inr (.inl ⟨by omega, rfl, by simp⟩)

/-- A notice changes the queue, the latches and the counters alone. -/
theorem pushNotice_sets (b : NoticeBody) (s : State) :
    ∃ n l c, pushNotice b s = ((s.setNotices n).setLatches l).setCounters c := by
  have counts : ∀ x : State, bumpPart .noticesLost x = x.setCounters (bumpPart .noticesLost x).counters := fun _ => rfl
  rcases pushNotice_cases b s with ⟨_, h⟩ | ⟨_, _, h⟩ | ⟨_, _, h⟩ <;> rw [h]
  · exact ⟨s.notices ++ [(⟨s.now, b⟩ : Notice)], s.latches, s.counters, rfl⟩
  · rw [counts]
    exact ⟨s.notices, s.latches, (bumpPart .noticesLost s).counters, rfl⟩
  · rw [counts (bumpPart .noticesLost s)]
    generalize (bumpPart .noticesLost (bumpPart .noticesLost s)).counters = c
    rw [counts s]
    exact ⟨s.notices, s.latches ||| Latch.noticeOverflow.bit, c, rfl⟩

theorem pushNotice_frame (b : NoticeBody) (s : State) : pushNotice b s =
    { s with
      notices := (pushNotice b s).notices, latches := (pushNotice b s).latches
      counters := (pushNotice b s).counters } := by
  obtain ⟨n, l, c, h⟩ := pushNotice_sets b s
  rw [h]
  rfl

/-- The queue grows by no more than one notice, and never above 256. -/
theorem pushNotice_length (b : NoticeBody) (s : State) (h : s.notices.length ≤ Config.notices) :
    (pushNotice b s).notices.length ≤ Config.notices := by
  unfold pushNotice
  split
  · simpa using ‹_›
  · split
    · simpa [bumpPart, bump, advance] using h
    · simpa [setLatch, bumpPart, bump, advance] using h

/-- Raising a latch leaves a set one as it is, and sets a clear one with its notice (R163). -/
theorem raiseLatch_cases (l : Latch) (s : State) :
    (s.latchSet l = true ∧ raiseLatch l s = s)
    ∨ (s.latchSet l = false ∧ raiseLatch l s = pushNotice (.conditionRaised l) (setLatch l s)) := by
  cases h : s.latchSet l <;> simp [raiseLatch, h]

/-! ## Replies and orders -/

/-- A body is never longer than a frame's 1,020 bytes (Table 0-3). -/
theorem ReplyBody.bytes_length (draw : Nat) (b : ReplyBody) : (b.bytes draw).length ≤ Config.bodyBytes := by
  unfold ReplyBody.bytes
  split
  · exact Nat.zero_le _
  · simp
  · simpa using Nat.le_of_lt_succ (Nat.mod_lt (Config.replyLength draw) (by omega))

/-- No notice takes more than the 52 bytes of READY (R162). -/
theorem Notice.bytes_length (draw place : Nat) (n : Notice) : (n.bytes draw place).length ≤ 52 := by
  have h : (n.body.fields draw place).length ≤ 46 := by
    unfold NoticeBody.fields
    split
    · simp [Capacities.list, word32Bytes]
    · simpa using Nat.le_of_lt_succ (Nat.mod_lt (Config.noticeLength draw place) (by omega))
  simp [Notice.bytes, word32Bytes]
  omega

/-- A reply takes the slot, and one that stood there is counted as lost (R153). -/
theorem replied_placeReply (kind : ReplyKind) (tag : Byte) (status : Status) (body : ReplyBody) (s : State) :
    Replied s (placeReply kind tag status body s) kind tag status body where
  slot := by
    exact ⟨body.bytes s.draws, rfl, body.bytes_length s.draws, fun h => by rw [h]; rfl⟩
  port := ⟨rfl, rfl, rfl⟩
  lost := by
    show ((if s.link.slot.isSome then bumpPart .repliesLost s else s).counter _) = _
    split <;> simp [bumpPart, bump, counter_advance]

/-- A reply changes the port, the counters and the draws alone. -/
theorem placeReply_frame (kind : ReplyKind) (tag : Byte) (status : Status) (body : ReplyBody) (s : State) :
    placeReply kind tag status body s =
      { s with
        link := (placeReply kind tag status body s).link, counters := (placeReply kind tag status body s).counters
        draws := (placeReply kind tag status body s).draws } := by
  unfold placeReply
  cases s.link.slot.isSome <;> rfl

theorem placeReply_draws (kind : ReplyKind) (tag : Byte) (status : Status) (s : State) :
    (placeReply kind tag status .empty s).draws = s.draws := by
  simp [placeReply]

theorem countersKept_placeReply (kind : ReplyKind) (tag : Byte) (status : Status) (body : ReplyBody) (s : State) :
    CountersKept s (placeReply kind tag status body s) (· = .part .repliesLost) := by
  intro c h
  show ((if s.link.slot.isSome then bumpPart .repliesLost s else s).counter c) = _
  split
  · simp [bumpPart, bump, counter_advance, h]
  · rfl

/-- An order whose body does not fit its kind is refused (R155, check 2). -/
theorem refused_takeOrder (kind : OrderKind) (h : OrderHead) (rule : State → Answer) (s : State)
    (hr : s.link.resetnLow = false) (hb : h.bodyFits = false) :
    Refused s (takeOrder kind h rule s) kind h.tag .badArgument := by
  have e : takeOrder kind h rule s = placeReply (.order kind) h.tag .badArgument .empty s := by
    simp [takeOrder, hr, hb, refuse]
  rw [e]
  exact ⟨replied_placeReply .., countersKept_placeReply _ _ _ _ _, by
    have := placeReply_frame (.order kind) h.tag .badArgument .empty s
    rw [placeReply_draws] at this
    exact this⟩

/-- An order that is taken is answered as its rule says, over the state with its effects. -/
theorem takeOrder_taken (kind : OrderKind) (h : OrderHead) (rule : State → Answer) (s : State) (ht : s.Takes h) :
    takeOrder kind h rule s =
      placeReply (.order kind) h.tag (rule s).status (rule s).body (rule s).state := by
  simp [takeOrder, ht.1, ht.2]

/-- The same of an acting order, its event closed unless its status says that it did nothing. -/
theorem takeActing_taken (kind : OrderKind) (h : OrderHead) (rule : State → Answer) (s : State) (ht : s.Takes h) :
    takeActing kind h rule s =
      if (rule s).status.acts then
        closeEvent (placeReply (.order kind) h.tag (rule s).status (rule s).body (rule s).state)
      else placeReply (.order kind) h.tag (rule s).status (rule s).body (rule s).state := by
  simp [takeActing, ht.1, ht.2]

/-- A refusal by the order's own rule is a refusal of the order. -/
theorem refused_placeReply (kind : OrderKind) (tag : Byte) (status : Status) (s : State) :
    Refused s (placeReply (.order kind) tag status .empty s) kind tag status :=
  ⟨replied_placeReply .., countersKept_placeReply _ _ _ _ _, by
    have := placeReply_frame (.order kind) tag status .empty s
    rw [placeReply_draws] at this
    exact this⟩

/-! ## Trunks, cells, signalling -/

@[simp] theorem trunk_setTrunk (s : State) (t k : Nat) (v : Trunk) :
    (s.setTrunk t v).trunk k = if k = t then v else s.trunk k := by
  simp [State.setTrunk, State.trunk, Table.lookD_putD]

/-- A message made for a cell with room joins its trunk's queue. -/
theorem posted_postSignal (cell : Nat) (addr : Addr) (body : SignalBody) (s : State) (h : s.HasRoom cell) :
    Posted s (postSignal cell addr body s) cell addr body := by
  obtain ⟨hc, ht, hl⟩ := h
  have h1 : (s.cells.look cell).isNone = false := by simpa using hc
  have h2 : ¬ ((s.trunk (trunkOf cell)).state = .held ∨ (s.trunk (trunkOf cell)).state = .linkDown) := by
    rcases ht with h | h <;> simp [trunkOf, h]
  have h3 : ¬ Config.signals ≤ (s.trunk (trunkOf cell)).signals.length := by
    simpa [trunkOf] using hl
  intro k
  simp only [postSignal, h1, h2, h3, if_false, Bool.false_eq_true]
  by_cases hk : k = cell / 32
  · subst hk; simp [trunkOf]
  · simp [trunkOf, hk]

/-- A message is queued, counted as discarded at a full queue, or nothing happens (R29). -/
theorem postSignal_cases (cell : Nat) (addr : Addr) (body : SignalBody) (s : State) :
    (s.HasRoom cell ∧ ∃ v, postSignal cell addr body s = s.setTrunk (cell / 32) v)
    ∨ postSignal cell addr body s = s
    ∨ postSignal cell addr body s = bump (.trunk (cell / 32) .signallingDiscarded) s := by
  unfold postSignal
  by_cases h1 : (s.cells.look cell).isNone = true
  · exact .inr (.inl (by simp [h1]))
  by_cases h2 : (s.trunk (trunkOf cell)).state = .held ∨ (s.trunk (trunkOf cell)).state = .linkDown
  · exact .inr (.inl (by simp [h1, h2]))
  by_cases h3 : Config.signals ≤ (s.trunk (trunkOf cell)).signals.length
  · exact .inr (.inr (by simp only [h1, h2, h3, if_true, if_false]; rfl))
  · refine .inl ⟨⟨by simpa [Option.isSome_iff_ne_none] using h1, ?_, by simpa [trunkOf] using h3⟩, _, by simp only [h1, h2, h3, if_false]; rfl⟩
    change ¬ ((s.trunk (cell / 32)).state = .held ∨ (s.trunk (cell / 32)).state = .linkDown) at h2
    revert h2
    cases (s.trunk (cell / 32)).state <;> simp

/-- A signalling message changes the trunks and the counters alone. -/
theorem postSignal_frame (cell : Nat) (addr : Addr) (body : SignalBody) (s : State) : postSignal cell addr body s =
    { s with trunks := (postSignal cell addr body s).trunks, counters := (postSignal cell addr body s).counters } := by
  rcases postSignal_cases cell addr body s with ⟨_, v, h⟩ | h | h <;> rw [h] <;> rfl

/-! ## Buffers -/

theorem buffer_putBuffer (r q : BufferRef) (b : Buffer) (s : State) :
    (putBuffer r b s).buffer q = if q = r then some b else s.buffer q := by
  obtain ⟨p, n⟩ := r
  obtain ⟨p', n'⟩ := q
  cases p <;> cases p' <;> simp [putBuffer, State.buffer, Pools.of, Pools.set]

theorem buffer_freeBuffer (r q : BufferRef) (s : State) :
    (freeBuffer r s).buffer q = if q = r then none else s.buffer q := by
  obtain ⟨p, n⟩ := r
  obtain ⟨p', n'⟩ := q
  cases p <;> cases p' <;> simp [freeBuffer, State.buffer, Pools.of, Pools.set]

/-- One reference is released: the last one frees the buffer (R40). -/
theorem released_releaseRef (r : BufferRef) (s : State) : Released s (releaseRef r s) (some r) := by
  constructor
  · intro q h
    obtain rfl : r = q := by simpa using h
    unfold releaseRef
    cases hb : s.buffer r with
    | none => simp [hb]
    | some b => by_cases hr : b.refs ≤ 1 <;> simp [hr, buffer_freeBuffer, buffer_putBuffer]
  · intro q h
    have hq : q ≠ r := fun e => h (by rw [e])
    unfold releaseRef
    cases hb : s.buffer r with
    | none => rfl
    | some b => by_cases hr : b.refs ≤ 1 <;> simp [hr, buffer_freeBuffer, buffer_putBuffer, hq]

/-- A release changes the pools alone. -/
theorem releaseRef_frame (r : BufferRef) (s : State) : releaseRef r s = s.setPools (releaseRef r s).pools := by
  unfold releaseRef
  cases s.buffer r with
  | none => rfl
  | some b => by_cases h : b.refs ≤ 1 <;> simp only [h, if_true, if_false] <;> rfl

theorem releaseAll_frame (rs : List BufferRef) (s : State) : releaseAll rs s = s.setPools (releaseAll rs s).pools := by
  induction rs generalizing s with
  | nil => rfl
  | cons r rest ih =>
    show releaseAll rest (releaseRef r s) = s.setPools (releaseAll rest (releaseRef r s)).pools
    rw [ih]
    generalize (releaseAll rest (releaseRef r s)).pools = p
    rw [releaseRef_frame r s]
    rfl

/-- A granted buffer is free, and of a pool that may take the frame (R39). -/
theorem grant_spec (n : Nat) (s : State) (r : BufferRef) (h : s.grant n = some r) :
    s.buffer r = none ∧ (r.pool = .short → n ≤ Config.shortBytes ∧ r.number < Config.shortBuffers)
      ∧ (r.pool = .long → r.number < Config.longBuffers) := by
  have long : ∀ q, (s.pools.long.lowestFree Config.longBuffers).map (BufferRef.mk .long) = some q →
      s.buffer q = none ∧ q.pool = .long ∧ q.number < Config.longBuffers := by
    intro q hq
    cases hl : s.pools.long.lowestFree Config.longBuffers with
    | none => simp [hl] at hq
    | some k =>
      simp only [hl, Option.map_some, Option.some.injEq] at hq
      obtain ⟨hlt, hn, _⟩ := Table.lowestFree_spec _ _ _ hl
      subst hq
      exact ⟨hn, rfl, hlt⟩
  unfold State.grant at h
  by_cases hn : n ≤ Config.shortBytes
  · simp only [hn, if_true] at h
    cases hs : s.pools.short.lowestFree Config.shortBuffers with
    | none =>
      simp only [hs] at h
      obtain ⟨a, b, c⟩ := long r h
      exact ⟨a, by simp [b], fun _ => c⟩
    | some k =>
      simp only [hs, Option.some.injEq] at h
      obtain ⟨hlt, hk, _⟩ := Table.lowestFree_spec _ _ _ hs
      subst h
      exact ⟨hk, fun _ => ⟨hn, hlt⟩, by simp⟩
  · simp only [hn, if_false] at h
    obtain ⟨a, b, c⟩ := long r h
    exact ⟨a, by simp [b], fun _ => c⟩

/-! ## Stations and tickets -/

theorem look_updateStation (i j : Nat) (f : Station → Station) (s : State) :
    (updateStation i f s).stations.look j = if j = i then (s.stations.look i).map f else s.stations.look j := by
  simp [updateStation, Table.look_modify]

theorem look_updateCell (n k : Nat) (f : Cell → Cell) (s : State) :
    (updateCell n f s).cells.look k = if k = n then (s.cells.look n).map f else s.cells.look k := by
  simp [updateCell, Table.look_modify]

theorem ticket_updateTicket (n m : TicketNumber) (f : Ticket → Ticket) (s : State) :
    (updateTicket n f s).ticket m = if m = n then (s.ticket n).map f else s.ticket m := by
  simp only [updateTicket, State.ticket, setTickets_tickets, Table.look_modify]
  by_cases h : m = n
  · simp [h]
  · have : m.toNat ≠ n.toNat := fun e => h (BitVec.eq_of_toNat_eq e)
    simp [h, this]

end Sys2Proof.Machine
end

