-- ==== Sys2Proof/Laws/Fits.lean ====
section
/-! SUPPORT. A check, by evaluation, that a written-out state meets the laws of Safety; tables that list every number below a bound. -/

namespace Sys2Proof.Machine

/-! ## From the entries of a table to its records -/

theorem lookIn_mem {α : Type} {k : Nat} {v : α} {l : List (Nat × α)} (h : lookIn k l = some v) : (k, v) ∈ l := by
  induction l with
  | nil => simp [lookIn] at h
  | cons e rest ih =>
    obtain ⟨j, w⟩ := e
    simp only [lookIn] at h
    split at h
    · obtain rfl := Option.some.inj h; subst j; simp
    · exact List.mem_cons_of_mem _ (ih h)

/-- What holds of every entry holds of every record. -/
theorem Table.records {α : Type} {t : Table α} {p : Nat → α → Prop} (h : ∀ e ∈ t.entries, p e.1 e.2) :
    ∀ k v, t.look k = some v → p k v := fun _ _ hl => h _ (lookIn_mem hl)

theorem Table.fits_of {α : Type} {t : Table α} {capacity : Nat} {p : α → Prop} (hw : t.wf = true)
    (h : ∀ e ∈ t.entries, e.1 < capacity ∧ p e.2) : t.Fits capacity p :=
  ⟨hw, Table.records fun e he => (h e he).1, Table.records fun e he => (h e he).2⟩

/-! ## The checks -/

/-- The entries of a table are in rising order, below a capacity, and satisfy `p`. -/
def Table.fitsCheck {α : Type} (t : Table α) (capacity : Nat) (p : α → Bool) : Bool :=
  t.wf && t.entries.all fun e => decide (e.1 < capacity) && p e.2

theorem Table.fits_of_check {α : Type} {t : Table α} {capacity : Nat} {p : α → Bool} {q : α → Prop}
    (hq : ∀ v, p v = true → q v) (h : t.fitsCheck capacity p = true) : t.Fits capacity q := by
  simp only [Table.fitsCheck, Bool.and_eq_true, List.all_eq_true, decide_eq_true_eq] at h
  exact Table.fits_of h.1 fun e he => ⟨(h.2 e he).1, hq _ (h.2 e he).2⟩

def Buffer.fitsCheck (capacity : Nat) (b : Buffer) : Bool := decide (1 ≤ b.bytes.length) && decide (b.bytes.length ≤ capacity)
def Trunk.fitsCheck (t : Trunk) : Bool := decide (t.signals.length ≤ Config.signals) && decide (t.run ≤ 255)
def Station.fitsCheck (st : Station) : Bool :=
  decide (st.queue.length ≤ Config.downlink) && decide (st.members.length ≤ Config.memberships)
    && decide (st.members.map (·.channel)).Nodup
def Copy.fitsCheck (c : Copy) : Bool := decide (c.queue.length ≤ Config.copyQueue) && decide (c.level ≤ 3)

def servingCheck (l : List Nat) : Bool :=
  decide (l ≠ []) && decide (l.length ≤ 4) && decide l.Nodup && l.all fun c => decide (c < Config.cells)

/-- The check of State.Fits. -/
def State.fitsCheck (s : State) : Bool :=
  decide (s.notices.length ≤ Config.notices) && s.counters.wf && s.cells.fitsCheck Config.cells (fun _ => true)
    && s.trunks.wf && s.trunks.entries.all (fun e => e.2.fitsCheck)
    && s.pools.short.fitsCheck Config.shortBuffers (Buffer.fitsCheck Config.shortBytes)
    && s.pools.long.fitsCheck Config.longBuffers (Buffer.fitsCheck Config.longBytes)
    && decide (s.backbone.queue.length ≤ Config.egress)
    && s.stations.fitsCheck Config.stations Station.fitsCheck
    && s.handovers.wf && decide (s.handovers.size ≤ Config.handovers)
    && s.tickets.fitsCheck (2 ^ 32) (fun _ => true) && decide (s.tickets.size ≤ Config.tickets)
    && s.sections.fitsCheck Config.sections servingCheck && decide (s.referrals.length ≤ Config.referrals)
    && s.channels.fitsCheck Config.channels (fun _ => true) && s.copies.fitsCheck Config.copies Copy.fitsCheck
    && decide (s.copies.entries.map fun e => (e.2.channel, e.2.cell)).Nodup
    && s.copies.entries.all (fun e => (s.channels.look e.2.channel).isSome) && decide (s.time.part < s.time.grain)

/-- What holds of every listed trunk and of a trunk at rest holds of every trunk. -/
theorem State.trunks_all {s : State} {p : Trunk → Prop} (h : ∀ e ∈ s.trunks.entries, p e.2) (hd : p Trunk.atReset) :
    ∀ t, p (s.trunk t) := by
  intro t
  unfold State.trunk Table.lookD
  cases hl : s.trunks.look t with
  | none => exact hd
  | some v => exact h _ (lookIn_mem hl)

/-- Copies listed with different channels or cells: a cell has at most one copy of a channel. -/
theorem single_of_nodup {t : Table Copy} (h : (t.entries.map fun e => (e.2.channel, e.2.cell)).Nodup) :
    ∀ n m c d, t.look n = some c → t.look m = some d → c.channel = d.channel → c.cell = d.cell → n = m := by
  intro n m c d hn hm h1 h2
  exact congrArg Prod.fst (List.inj_on_of_nodup_map h (lookIn_mem hn) (lookIn_mem hm) (by simp [h1, h2]))

theorem fits_of_check {s : State} (h : s.fitsCheck = true) : s.Fits := by
  simp only [State.fitsCheck, Bool.and_eq_true, decide_eq_true_eq, List.all_eq_true] at h
  obtain ⟨⟨⟨⟨⟨⟨⟨⟨⟨⟨⟨⟨⟨⟨⟨⟨⟨⟨⟨h1, h2⟩, h3⟩, h4⟩, h5⟩, h6⟩, h7⟩, h8⟩, h9⟩, h10⟩, h11⟩, h12⟩, h13⟩, h14⟩, h15⟩, h16⟩, h17⟩, h18⟩, h19⟩, h20⟩ := h
  refine ⟨h1, h2, Table.fits_of_check (fun _ _ => trivial) h3, h4, State.trunks_all (fun e he => ?_) ?_,
    Table.fits_of_check (fun v hv => ?_) h6, Table.fits_of_check (fun v hv => ?_) h7, h8,
    Table.fits_of_check (fun v hv => by simpa [Station.fitsCheck, Station.Fits, and_assoc] using hv) h9, ⟨h10, h11⟩, Table.fits_of_check (fun _ _ => trivial) h12,
    h13, Table.fits_of_check (fun v hv => by simpa [servingCheck, ServingList, and_assoc] using hv) h14, h15, Table.fits_of_check (fun _ _ => trivial) h16,
    Table.fits_of_check (fun v hv => ?_) h17, single_of_nodup h18, Table.records h19, h20⟩
  · have := h5 e he
    simpa [Trunk.fitsCheck, Trunk.Fits] using this
  · exact ⟨Nat.zero_le _, Nat.zero_le _⟩
  · simpa [Buffer.fitsCheck, Buffer.Fits] using hv
  · simpa [Buffer.fitsCheck, Buffer.Fits] using hv
  · simpa [Copy.fitsCheck, Copy.Fits] using hv

/-! ## Tables that list every number below a bound -/

/-- The table that lists `f k` under every k below `n`. -/
def Table.upTo {α : Type} (n : Nat) (f : Nat → α) : Table α := ⟨(List.range n).map fun k => (k, f k)⟩

theorem Table.mem_upTo {α : Type} {n : Nat} {f : Nat → α} {e : Nat × α} (h : e ∈ (Table.upTo n f).entries) :
    e.1 < n ∧ e.2 = f e.1 := by
  simp only [Table.upTo, List.mem_map, List.mem_range] at h
  obtain ⟨k, hk, rfl⟩ := h
  exact ⟨hk, rfl⟩

@[simp] theorem Table.size_upTo {α : Type} (n : Nat) (f : Nat → α) : (Table.upTo n f).size = n := by
  simp [Table.upTo, Table.size]

theorem lookIn_range' {α : Type} (f : Nat → α) (n a k : Nat) (hk : a ≤ k) :
    lookIn k ((List.range' a n).map fun k => (k, f k)) = if k < a + n then some (f k) else none := by
  induction n generalizing a with
  | zero => simp [lookIn]; omega
  | succ n ih =>
    simp only [List.range'_succ, List.map_cons, lookIn]
    by_cases h : a = k
    · subst h; simp
    · rw [if_neg h, ih (a + 1) (by omega)]
      congr 1
      simp only [eq_iff_iff]; omega

theorem Table.look_upTo {α : Type} (n : Nat) (f : Nat → α) (k : Nat) :
    (Table.upTo n f).look k = if k < n then some (f k) else none := by
  have := lookIn_range' f n 0 k (Nat.zero_le k)
  simpa [Table.look, Table.upTo, List.range_eq_range'] using this

theorem risingFrom_range' {α : Type} (f : Nat → α) (n a : Nat) :
    risingFrom a ((List.range' a n).map fun k => (k, f k)) = true := by
  induction n generalizing a with
  | zero => rfl
  | succ n ih => simp [List.range'_succ, risingFrom, ih]

theorem Table.wf_upTo {α : Type} (n : Nat) (f : Nat → α) : (Table.upTo n f).wf = true := by
  have := risingFrom_range' f n 0
  simpa [Table.wf, Table.upTo, List.range_eq_range'] using this

theorem Table.fits_upTo {α : Type} {n capacity : Nat} {f : Nat → α} {p : α → Prop} (hn : n ≤ capacity)
    (hp : ∀ k, k < n → p (f k)) : (Table.upTo n f).Fits capacity p :=
  Table.fits_of (Table.wf_upTo n f) fun e he => by
    obtain ⟨h1, h2⟩ := Table.mem_upTo he
    exact ⟨by omega, h2 ▸ hp e.1 h1⟩

/-! ## Room in class 2 -/

/-- There is room for messages where all of them would fit the trunk's queue. -/
theorem State.roomFor_of_length {s : State} {ms : List Signal} {k : Nat}
    (h : (s.trunk k).signals.length + ms.length ≤ 1024) : s.RoomFor ms k := by
  unfold State.RoomFor State.trunkAfter
  split
  · have := List.length_filter_le (fun m : Signal => m.cell / 32 == k && (s.cells.look m.cell).isSome) ms
    simp only [List.length_append]
    omega
  · omega

/-! ## Replacing one table of a state that fits -/

theorem State.Fits.stationsTo {s : State} (h : s.Fits) {t : Table Station} (ht : t.Fits Config.stations Station.Fits) :
    State.Fits { s with stations := t } := { h with stations := ht }
theorem State.Fits.handoversTo {s : State} (h : s.Fits) {t : Table Handover} (hw : t.wf = true) (hn : t.size ≤ Config.handovers) :
    State.Fits { s with handovers := t } := { h with handovers := ⟨hw, hn⟩ }
theorem State.Fits.poolsTo {s : State} (h : s.Fits) {p : Pools}
    (hs : p.short.Fits Config.shortBuffers (Buffer.Fits Config.shortBytes))
    (hl : p.long.Fits Config.longBuffers (Buffer.Fits Config.longBytes)) :
    State.Fits { s with pools := p } := { h with short := hs, long := hl }
theorem State.Fits.backboneTo {s : State} (h : s.Fits) {b : Backbone} (hb : b.queue.length ≤ Config.egress) :
    State.Fits { s with backbone := b } := { h with egress := hb }
theorem State.Fits.ticketsTo {s : State} (h : s.Fits) {t : Table Ticket} (ht : t.Fits (2 ^ 32) fun _ => True)
    (hn : t.size ≤ Config.tickets) : State.Fits { s with tickets := t } := { h with tickets := ht, ticketed := hn }
theorem State.Fits.copiesTo {s : State} (h : s.Fits) {t : Table Copy} (ht : t.Fits Config.copies Copy.Fits)
    (hs : (t.entries.map fun e => (e.2.channel, e.2.cell)).Nodup)
    (hn : ∀ e ∈ t.entries, (s.channels.look e.2.channel).isSome = true) :
    State.Fits { s with copies := t } := { h with copies := ht, single := single_of_nodup hs, named := Table.records hn }
theorem State.Fits.purgeTo {s : State} (h : s.Fits) (p : Option Purge) : State.Fits { s with purge := p } := { h with }

end Sys2Proof.Machine
end

