-- ==== Sys2Proof/WellFormed.lean ====
section
/-! DEFINITION. Which commands can reach the part: operands that name objects that exist, message heads whose frame length is that
of the fields read from the frame, transactions of the kind the row is for. An order's own values are not checked here: the
part answers a bad one (R155). -/

namespace Sys2Proof

/-- The frame of a message is its header and `n` bytes of fields. -/
def MessageHead.framed (m : MessageHead) (n : Nat) : Bool := decide (m.frameLength = 10 + n)

/-- The fields of a POLL REPLY were read from its frame: the heard list holds every whole address after the two counts. -/
def MessageHead.framedList (m : MessageHead) (n : Nat) : Bool :=
  decide (12 + 6 * n ≤ m.frameLength) && decide (m.frameLength < 18 + 6 * n)

/-- A body that fits LOAD TICKETS holds as many records as its count says (R92). -/
def fitsCount (h : OrderHead) (count : Nat) (records : List TicketFields) : Bool :=
  !h.bodyFits || decide (records.length = count)

/-- The command can reach the part. -/
def Instr.wellFormed : Instr → Bool
  | .powerOnReset _ => true
  | .resetFull _ _ _ => true
  | .resetKeepTickets _ _ => true
  | .trunkLinkLost _ => true
  | .trunkLinkRestored _ => true
  | .backboneLinkLost => true
  | .backboneLinkRestored => true
  | .attachRequest m => m.framed 0
  | .releaseDone m _ => m.framed 1
  | .depart m => m.framed 0
  | .pollReply m _ _ heard => m.framedList heard.length
  | .ticketClaim m _ _ _ => m.framed 11
  | .join m _ => m.framed 1
  | .leave m _ => m.framed 1
  | .stationDataUp m payload => m.framed payload.length
  | .replayFrame _ _ _ _ _ => true
  | .stationDownlinkFrame _ _ _ payload => !payload.isEmpty
  | .trunkFrameEnd _ => true
  | .backboneFrameEnd => true
  | .pollDue cell => decide (cell < Config.cells)
  | .pollOverdue cell => decide (cell < Config.cells)
  | .copyDue copy => decide (copy < Config.copies)
  | .stationCreditReady station => decide (station < Config.stations)
  | .drainComplete _ => true
  | .handoverTimerExpiry station => decide (station < Config.stations)
  | .referralTimerExpiry _ => true
  | .stationAgedDormant station => decide (station < Config.stations)
  | .stationExpired station => decide (station < Config.stations)
  | .purgeBatch => true
  | .configureCell _ _ _ => true
  | .removeCell _ _ => true
  | .queryCell _ _ => true
  | .holdTrunk _ _ => true
  | .releaseTrunk _ _ => true
  | .evictStation _ _ => true
  | .queryStation _ _ => true
  | .loadTickets h count records => fitsCount h count records
  | .voidTicket _ _ => true
  | .unlockTicket _ _ => true
  | .queryTicket _ _ => true
  | .purgeTickets _ => true
  | .setSection _ _ _ => true
  | .setEntryPolicy _ _ _ => true
  | .ruleReferral _ _ _ => true
  | .defineChannel _ _ _ _ _ _ => true
  | .openChannel _ _ => true
  | .closeChannel _ _ => true
  | .queryChannel _ _ _ => true
  | .setCellAirtime _ _ _ _ => true
  | .setClassWeights _ _ => true
  | .startService _ => true
  | .setTimers _ _ _ => true
  | .setReplayFrameType _ _ => true
  | .setReplayRunLimit _ _ => true
  | .readNotices _ _ => true
  | .readConditions _ => true
  | .clearConditions _ _ => true
  | .snapStats _ => true
  | .unsnapStats _ => true
  | .readStats _ _ => true
  | .badFrame bytes => Machine.isBadFrame bytes
  | .replyRead _ => true
  | .resetnFalls => true
  | .orderOfUnknownKind _ _ => true
  | .malformedMessage _ _ => true
  | .malformedBackboneFrame => true

end Sys2Proof
end

