-- ==== Sys2Proof/Laws/PerInstr.lean ====
section
/-! SUPPORT. The family Form, one lemma for each command: a message is no order and no reset, its well-formed frame holds a whole
header, and a reset can always reach the part. -/

namespace Sys2Proof.Laws.Form

open Sys2Proof Sys2Proof.Machine

/-- What the form of a command says. -/
def Statement (i : Instr) : Prop :=
  (∀ m, messageOf i = some m → orderOf i = none ∧ isReset i = false ∧ (i.wellFormed = true → 10 ≤ m.frameLength))
  ∧ (isReset i = true → i.wellFormed = true)

/-- The statement of a command that is no message. -/
theorem statement_of_none {i : Instr} (h : messageOf i = none) (w : isReset i = true → i.wellFormed = true) :
    Statement i :=
  ⟨fun m hm => by rw [h] at hm; exact absurd hm (by simp), w⟩

/-- The statement of a message. -/
theorem statement_of_some {i : Instr} {m : MessageHead} (h : messageOf i = some m) (o : orderOf i = none)
    (r : isReset i = false) (w : i.wellFormed = true → 10 ≤ m.frameLength) : Statement i :=
  ⟨fun n hn => by rw [h] at hn; obtain rfl := Option.some.inj hn; exact ⟨o, r, w⟩,
    fun hr => by rw [r] at hr; exact absurd hr (by simp)⟩

theorem powerOnReset (locks : Locks) : Statement (.powerOnReset locks) :=
  statement_of_none rfl fun _ => rfl
theorem resetFull (h : OrderHead) (badMode : Option Byte) (locks : Locks) : Statement (.resetFull h badMode locks) :=
  statement_of_none rfl fun _ => rfl
theorem resetKeepTickets (h : OrderHead) (locks : Locks) : Statement (.resetKeepTickets h locks) :=
  statement_of_none rfl fun _ => rfl
theorem trunkLinkLost (t : Fin 8) : Statement (.trunkLinkLost t) :=
  statement_of_none rfl nofun
theorem trunkLinkRestored (t : Fin 8) : Statement (.trunkLinkRestored t) :=
  statement_of_none rfl nofun
theorem backboneLinkLost : Statement .backboneLinkLost :=
  statement_of_none rfl nofun
theorem backboneLinkRestored : Statement .backboneLinkRestored :=
  statement_of_none rfl nofun
theorem attachRequest (m : MessageHead) : Statement (.attachRequest m) :=
  statement_of_some rfl rfl rfl fun h => by
    simp [Instr.wellFormed, MessageHead.framed] at h; omega
theorem releaseDone (m : MessageHead) (framesLost : Byte) : Statement (.releaseDone m framesLost) :=
  statement_of_some rfl rfl rfl fun h => by
    simp [Instr.wellFormed, MessageHead.framed] at h; omega
theorem depart (m : MessageHead) : Statement (.depart m) :=
  statement_of_some rfl rfl rfl fun h => by
    simp [Instr.wellFormed, MessageHead.framed] at h; omega
theorem pollReply (m : MessageHead) (mark : Byte) (heardCount : Byte) (heard : List Addr) :
    Statement (.pollReply m mark heardCount heard) :=
  statement_of_some rfl rfl rfl fun h => by
    simp [Instr.wellFormed, MessageHead.framedList] at h; omega
theorem ticketClaim (m : MessageHead) (kind : Byte) (number : TicketNumber) (token : Token) :
    Statement (.ticketClaim m kind number token) :=
  statement_of_some rfl rfl rfl fun h => by
    simp [Instr.wellFormed, MessageHead.framed] at h; omega
theorem join (m : MessageHead) (channel : Byte) : Statement (.join m channel) :=
  statement_of_some rfl rfl rfl fun h => by
    simp [Instr.wellFormed, MessageHead.framed] at h; omega
theorem leave (m : MessageHead) (channel : Byte) : Statement (.leave m channel) :=
  statement_of_some rfl rfl rfl fun h => by
    simp [Instr.wellFormed, MessageHead.framed] at h; omega
theorem stationDataUp (m : MessageHead) (payload : List Byte) : Statement (.stationDataUp m payload) :=
  statement_of_some rfl rfl rfl fun h => by
    simp [Instr.wellFormed, MessageHead.framed] at h; omega
theorem replayFrame (dest : Addr) (source : Addr) (frameType : BitVec 16) (tag : BitVec 16) (payload : List Byte) :
    Statement (.replayFrame dest source frameType tag payload) :=
  statement_of_none rfl nofun
theorem stationDownlinkFrame (dest : Addr) (source : Addr) (frameType : BitVec 16) (payload : List Byte) :
    Statement (.stationDownlinkFrame dest source frameType payload) :=
  statement_of_none rfl nofun
theorem trunkFrameEnd (t : Fin 8) : Statement (.trunkFrameEnd t) :=
  statement_of_none rfl nofun
theorem backboneFrameEnd : Statement .backboneFrameEnd :=
  statement_of_none rfl nofun
theorem pollDue (cell : Nat) : Statement (.pollDue cell) :=
  statement_of_none rfl nofun
theorem pollOverdue (cell : Nat) : Statement (.pollOverdue cell) :=
  statement_of_none rfl nofun
theorem copyDue (copy : Nat) : Statement (.copyDue copy) :=
  statement_of_none rfl nofun
theorem stationCreditReady (station : Nat) : Statement (.stationCreditReady station) :=
  statement_of_none rfl nofun
theorem drainComplete (t : Fin 8) : Statement (.drainComplete t) :=
  statement_of_none rfl nofun
theorem handoverTimerExpiry (station : Nat) : Statement (.handoverTimerExpiry station) :=
  statement_of_none rfl nofun
theorem referralTimerExpiry (id : BitVec 16) : Statement (.referralTimerExpiry id) :=
  statement_of_none rfl nofun
theorem stationAgedDormant (station : Nat) : Statement (.stationAgedDormant station) :=
  statement_of_none rfl nofun
theorem stationExpired (station : Nat) : Statement (.stationExpired station) :=
  statement_of_none rfl nofun
theorem purgeBatch : Statement .purgeBatch :=
  statement_of_none rfl nofun
theorem configureCell (h : OrderHead) (cell : Nat) (kind : Option CellKind) :
    Statement (.configureCell h cell kind) :=
  statement_of_none rfl nofun
theorem removeCell (h : OrderHead) (cell : Nat) : Statement (.removeCell h cell) :=
  statement_of_none rfl nofun
theorem queryCell (h : OrderHead) (cell : Nat) : Statement (.queryCell h cell) :=
  statement_of_none rfl nofun
theorem holdTrunk (h : OrderHead) (trunk : Nat) : Statement (.holdTrunk h trunk) :=
  statement_of_none rfl nofun
theorem releaseTrunk (h : OrderHead) (trunk : Nat) : Statement (.releaseTrunk h trunk) :=
  statement_of_none rfl nofun
theorem evictStation (h : OrderHead) (sel : StationSelector) : Statement (.evictStation h sel) :=
  statement_of_none rfl nofun
theorem queryStation (h : OrderHead) (sel : StationSelector) : Statement (.queryStation h sel) :=
  statement_of_none rfl nofun
theorem loadTickets (h : OrderHead) (count : Nat) (records : List TicketFields) :
    Statement (.loadTickets h count records) :=
  statement_of_none rfl nofun
theorem voidTicket (h : OrderHead) (number : TicketNumber) : Statement (.voidTicket h number) :=
  statement_of_none rfl nofun
theorem unlockTicket (h : OrderHead) (number : TicketNumber) : Statement (.unlockTicket h number) :=
  statement_of_none rfl nofun
theorem queryTicket (h : OrderHead) (number : TicketNumber) : Statement (.queryTicket h number) :=
  statement_of_none rfl nofun
theorem purgeTickets (h : OrderHead) : Statement (.purgeTickets h) :=
  statement_of_none rfl nofun
theorem setSection (h : OrderHead) (sect : Nat) (list : List Nat) : Statement (.setSection h sect list) :=
  statement_of_none rfl nofun
theorem setEntryPolicy (h : OrderHead) (maxEntries : Nat) (mode : Option SeatMode) :
    Statement (.setEntryPolicy h maxEntries mode) :=
  statement_of_none rfl nofun
theorem ruleReferral (h : OrderHead) (id : BitVec 16) (ruling : Ruling) : Statement (.ruleReferral h id ruling) :=
  statement_of_none rfl nofun
theorem defineChannel (h : OrderHead) (channel : Nat) (entitled : ClassFlags) (recovery : RecoveryField)
    (full : TierFields) (reduced : Option TierFields) :
    Statement (.defineChannel h channel entitled recovery full reduced) :=
  statement_of_none rfl nofun
theorem openChannel (h : OrderHead) (channel : Nat) : Statement (.openChannel h channel) :=
  statement_of_none rfl nofun
theorem closeChannel (h : OrderHead) (channel : Nat) : Statement (.closeChannel h channel) :=
  statement_of_none rfl nofun
theorem queryChannel (h : OrderHead) (channel : Nat) (cell : Nat) : Statement (.queryChannel h channel cell) :=
  statement_of_none rfl nofun
theorem setCellAirtime (h : OrderHead) (cell : Nat) (mask : AirtimeMask) (values : AirtimeValues) :
    Statement (.setCellAirtime h cell mask values) :=
  statement_of_none rfl nofun
theorem setClassWeights (h : OrderHead) (weights : ClassWeights) : Statement (.setClassWeights h weights) :=
  statement_of_none rfl nofun
theorem startService (h : OrderHead) : Statement (.startService h) :=
  statement_of_none rfl nofun
theorem setTimers (h : OrderHead) (mask : TimerMask) (values : Timers) : Statement (.setTimers h mask values) :=
  statement_of_none rfl nofun
theorem setReplayFrameType (h : OrderHead) (frameType : BitVec 16) : Statement (.setReplayFrameType h frameType) :=
  statement_of_none rfl nofun
theorem setReplayRunLimit (h : OrderHead) (limit : BitVec 16) : Statement (.setReplayRunLimit h limit) :=
  statement_of_none rfl nofun
theorem readNotices (h : OrderHead) (count : Nat) : Statement (.readNotices h count) :=
  statement_of_none rfl nofun
theorem readConditions (h : OrderHead) : Statement (.readConditions h) :=
  statement_of_none rfl nofun
theorem clearConditions (h : OrderHead) (mask : BitVec 16) : Statement (.clearConditions h mask) :=
  statement_of_none rfl nofun
theorem snapStats (h : OrderHead) : Statement (.snapStats h) :=
  statement_of_none rfl nofun
theorem unsnapStats (h : OrderHead) : Statement (.unsnapStats h) :=
  statement_of_none rfl nofun
theorem readStats (h : OrderHead) (scope : StatsScope) : Statement (.readStats h scope) :=
  statement_of_none rfl nofun
theorem badFrame (bytes : List Byte) : Statement (.badFrame bytes) :=
  statement_of_none rfl nofun
theorem replyRead (clocked : Nat) : Statement (.replyRead clocked) :=
  statement_of_none rfl nofun
theorem resetnFalls : Statement .resetnFalls :=
  statement_of_none rfl nofun
theorem orderOfUnknownKind (kind : Byte) (tag : Byte) : Statement (.orderOfUnknownKind kind tag) :=
  statement_of_none rfl nofun
theorem malformedMessage (t : Fin 8) (n : Option (BitVec 16)) : Statement (.malformedMessage t n) :=
  statement_of_none rfl nofun
theorem malformedBackboneFrame : Statement .malformedBackboneFrame :=
  statement_of_none rfl nofun

end Sys2Proof.Laws.Form
end

