-- ==== Sys2Proof/Laws/Tick.lean ====
section
/-! SUPPORT. The passage of time, said once for each of its operations: what a sort and a choice answer, what grows with the credits,
how the moments of a tick are cut, and what joins the queue. -/

namespace Sys2Proof.Machine

/-! ## Sorting and choosing -/

theorem insertBy_perm {α : Type} (before : α → α → Bool) (x : α) (l : List α) : (insertBy before x l).Perm (x :: l) := by
  induction l with
  | nil => exact .refl _
  | cons y rest ih =>
    simp only [insertBy]
    split
    · exact .refl _
    · exact (ih.cons y).trans (.swap x y rest)

theorem sortBy_perm {α : Type} (before : α → α → Bool) (l : List α) : (sortBy before l).Perm l := by
  induction l with
  | nil => exact .refl _
  | cons x rest ih => exact (insertBy_perm _ x _).trans (ih.cons x)

theorem bestBy_none {α : Type} {before : α → α → Bool} {l : List α} : bestBy before l = none ↔ l = [] := by
  cases l with
  | nil => simp [bestBy]
  | cons x rest =>
    simp only [bestBy]
    cases h : bestBy before rest with
    | none => simp
    | some y => by_cases hb : before y x = true <;> simp [hb]

/-- The choice is in the list. -/
theorem bestBy_mem {α : Type} {before : α → α → Bool} {l : List α} {x : α} (h : bestBy before l = some x) : x ∈ l := by
  induction l generalizing x with
  | nil => simp [bestBy] at h
  | cons y rest ih =>
    simp only [bestBy] at h
    split at h
    · exact List.mem_cons.mpr (.inl (Option.some.inj h).symm)
    · rename_i z hz
      split at h
      · exact List.mem_cons_of_mem y ((Option.some.inj h) ▸ ih hz)
      · exact List.mem_cons.mpr (.inl (Option.some.inj h).symm)

/-! ## Clocks and credits (R134, R150, R156) -/

/-- The clocks at the end of a tick, by the service and the phase (R134, R156). -/
theorem Time.tickOn_cases (t : Time) :
    (t.service = .config ∧ t.tickOn = { t with part := 0 })
    ∨ (t.service = .service ∧ t.phase + 1 < 100 ∧ t.tickOn = { t with tick := t.tick + 1, phase := t.phase + 1, part := 0 })
    ∨ (t.service = .service ∧ 100 ≤ t.phase + 1
      ∧ t.tickOn = { t with tick := t.tick + 1, phase := 0, clock := t.clock + 1, part := 0 }) := by
  unfold Time.tickOn
  cases h : t.service with
  | config => exact .inl ⟨rfl, rfl⟩
  | service =>
    by_cases hp : t.phase + 1 < Config.ticksPerMs
    · exact .inr (.inl ⟨rfl, hp, by simp [hp]⟩)
    · exact .inr (.inr ⟨rfl, Nat.not_lt.mp hp, by simp [hp]⟩)

theorem passMoments_frame (n : Nat) (s : State) : passMoments n s =
    { s with time := { s.time with part := s.time.part + n }, stations := (passMoments n s).stations } := rfl

/-- A record after some moments: the credit alone has grown (R150). -/
theorem look_passMoments (n i : Nat) (s : State) :
    (passMoments n s).stations.look i = (s.stations.look i).map fun st => st.accrue s.time.unit n := by
  simp [passMoments]

/-- The end of a tick is all the moments that were left of it, the clocks, and the purge's count. -/
theorem passTick_eq (s : State) : passTick s =
    (coarsen ((passMoments (s.time.grain - s.time.part) s).setTime
      { s.time with part := s.time.part + (s.time.grain - s.time.part) }.tickOn)).setPurge (s.purge.map (·.tickOn)) := rfl

/-! ## The cut of a tick into moments (log 3) -/

theorem refine_frame (n : Nat) (s : State) : refine n s =
    { s with
      time := { s.time with part := s.time.part * n, grain := s.time.grain * n }, stations := (refine n s).stations } := rfl

/-- Finer moments are the same credits. -/
theorem look_refine (n i : Nat) (s : State) :
    (refine n s).stations.look i = (s.stations.look i).map fun st => { st with credit := st.credit * n } := by
  simp [refine]

theorem coarsen_frame (s : State) : coarsen s =
    { s with time := { s.time with grain := s.time.grain / s.coarsest }, stations := (coarsen s).stations } := rfl

theorem look_coarsen (i : Nat) (s : State) :
    (coarsen s).stations.look i = (s.stations.look i).map fun st => { st with credit := st.credit / s.coarsest } := by
  simp [coarsen]

theorem foldl_gcd_dvd {α : Type} (f : α → Nat) (l : List α) (g : Nat) :
    l.foldl (fun g e => Nat.gcd g (f e)) g ∣ g ∧ ∀ e ∈ l, l.foldl (fun g e => Nat.gcd g (f e)) g ∣ f e := by
  induction l generalizing g with
  | nil => simp
  | cons x rest ih =>
    have h := ih (Nat.gcd g (f x))
    refine ⟨h.1.trans (Nat.gcd_dvd_left _ _), fun e he => ?_⟩
    rcases List.mem_cons.mp he with rfl | he
    · exact h.1.trans (Nat.gcd_dvd_right _ _)
    · exact h.2 e he

/-- The moments of `coarsen` hold the grain and every credit exactly. -/
theorem coarsest_dvd (s : State) : s.coarsest ∣ s.time.grain ∧ ∀ e ∈ s.stations.entries, s.coarsest ∣ e.2.credit :=
  foldl_gcd_dvd (fun e : Nat × Station => e.2.credit) s.stations.entries s.time.grain

/-! ## What joins the queue (log 4, log 5) -/

theorem inSomeOrder_perm (draw : Nat) (events : List Instr) : (inSomeOrder draw events).Perm events := by
  unfold inSomeOrder
  have h := (sortBy_perm (fun a b => decide (Config.eventRank draw (rankPlace a) < Config.eventRank draw (rankPlace b)))
    events.zipIdx).map (·.1)
  simpa [List.zipIdx_map_fst] using h

/-- Just the due events join the tail of the queue, in some order; nothing else changes but the draws. -/
theorem queueDue_joins (due : List Instr) (s : State) : ∃ l, l.Perm due ∧ (queueDue due s).pending = s.pending ++ l
    ∧ queueDue due s = { s with pending := s.pending ++ l, draws := (queueDue due s).draws } := by
  unfold queueDue
  split
  · exact ⟨due, .refl _, rfl, rfl⟩
  · exact ⟨_, inSomeOrder_perm s.draws due, rfl, rfl⟩

/-- Time passes to the exact moment at which the first station becomes ready, or to the end of the tick (R151). -/
theorem passTime_cases (s : State) :
    (∃ lack rate, s.firstReady = some (lack, rate)
      ∧ passTime s = queueDue (State.dueCredits s (passMoments lack (refine rate s))) (passMoments lack (refine rate s)))
    ∨ (s.firstReady = none ∧ passTime s = queueDue (dueEvents s (passTick s)) (passTick s)) := by
  unfold passTime
  cases h : s.firstReady with
  | none => exact .inr ⟨rfl, rfl⟩
  | some p => exact .inl ⟨p.1, p.2, rfl, rfl⟩

/-- No station becomes ready within the tick exactly when none is asked about. -/
theorem firstReady_none (s : State) : s.firstReady = none ↔ ∀ e ∈ s.stations.entries, s.readyWithin e.2 = none := by
  unfold State.firstReady
  rw [bestBy_none, List.filterMap_eq_nil_iff]

/-! ## Events that follow an order (log 15, log 42) -/

/-- SET TIMERS that leaves four timers alone, its poll interval aside, has no events after it. -/
theorem followTimers_poll (before : Timers) (s : State)
    (h : s.settings.timers = { before with poll := s.settings.timers.poll }) : followTimers before s = s := by
  unfold followTimers
  rw [h]
  simp

end Sys2Proof.Machine
end

