-- ==== Sys2Proof/Laws/Work.lean ====
section
/-! SUPPORT. What the shared work of every event leaves alone: the queue of commands, the port, the frozen view, the clocks, the
settings, the section map, the purge, the referrals and the channels. One lemma for each shared operation. -/

namespace Sys2Proof.Machine

/-- From `s` to `t` only notices, latches, counters, cells, trunks, buffers, the backbone, stations, handovers, tickets, copies, the
creation counter, what is owed and the draws may have changed. -/
structure Work (s t : State) : Prop where
  pending      : t.pending = s.pending
  link         : t.link = s.link
  view         : t.view = s.view
  time         : t.time = s.time
  settings     : t.settings = s.settings
  sections     : t.sections = s.sections
  purge        : t.purge = s.purge
  referrals    : t.referrals = s.referrals
  nextReferral : t.nextReferral = s.nextReferral
  channels     : t.channels = s.channels

theorem Work.refl (s : State) : Work s s := ⟨rfl, rfl, rfl, rfl, rfl, rfl, rfl, rfl, rfl, rfl⟩

theorem Work.trans {s t u : State} (h : Work s t) (g : Work t u) : Work s u :=
  ⟨g.pending.trans h.pending, g.link.trans h.link, g.view.trans h.view, g.time.trans h.time, g.settings.trans h.settings,
    g.sections.trans h.sections, g.purge.trans h.purge, g.referrals.trans h.referrals,
    g.nextReferral.trans h.nextReferral, g.channels.trans h.channels⟩

/-- Work repeated along a list is work. -/
theorem Work.foldl {α : Type} (f : State → α → State) (hf : ∀ s a, Work s (f s a)) (l : List α) (s : State) :
    Work s (l.foldl f s) := by
  induction l generalizing s with
  | nil => exact .refl s
  | cons a rest ih => exact (hf s a).trans (ih (f s a))

/-! ## Updates -/

theorem work_setNotices (s : State) (v) : Work s (s.setNotices v) := ⟨rfl, rfl, rfl, rfl, rfl, rfl, rfl, rfl, rfl, rfl⟩
theorem work_setLatches (s : State) (v) : Work s (s.setLatches v) := ⟨rfl, rfl, rfl, rfl, rfl, rfl, rfl, rfl, rfl, rfl⟩
theorem work_setCounters (s : State) (v) : Work s (s.setCounters v) := ⟨rfl, rfl, rfl, rfl, rfl, rfl, rfl, rfl, rfl, rfl⟩
theorem work_setCells (s : State) (v) : Work s (s.setCells v) := ⟨rfl, rfl, rfl, rfl, rfl, rfl, rfl, rfl, rfl, rfl⟩
theorem work_setTrunks (s : State) (v) : Work s (s.setTrunks v) := ⟨rfl, rfl, rfl, rfl, rfl, rfl, rfl, rfl, rfl, rfl⟩
theorem work_setPools (s : State) (v) : Work s (s.setPools v) := ⟨rfl, rfl, rfl, rfl, rfl, rfl, rfl, rfl, rfl, rfl⟩
theorem work_setBackbone (s : State) (v) : Work s (s.setBackbone v) := ⟨rfl, rfl, rfl, rfl, rfl, rfl, rfl, rfl, rfl, rfl⟩
theorem work_setStations (s : State) (v) : Work s (s.setStations v) := ⟨rfl, rfl, rfl, rfl, rfl, rfl, rfl, rfl, rfl, rfl⟩
theorem work_setHandovers (s : State) (v) : Work s (s.setHandovers v) := ⟨rfl, rfl, rfl, rfl, rfl, rfl, rfl, rfl, rfl, rfl⟩
theorem work_setTickets (s : State) (v) : Work s (s.setTickets v) := ⟨rfl, rfl, rfl, rfl, rfl, rfl, rfl, rfl, rfl, rfl⟩
theorem work_setCopies (s : State) (v) : Work s (s.setCopies v) := ⟨rfl, rfl, rfl, rfl, rfl, rfl, rfl, rfl, rfl, rfl⟩
theorem work_setCreated (s : State) (v) : Work s (s.setCreated v) := ⟨rfl, rfl, rfl, rfl, rfl, rfl, rfl, rfl, rfl, rfl⟩
theorem work_setOwed (s : State) (v) : Work s (s.setOwed v) := ⟨rfl, rfl, rfl, rfl, rfl, rfl, rfl, rfl, rfl, rfl⟩
theorem work_setDraws (s : State) (v) : Work s (s.setDraws v) := ⟨rfl, rfl, rfl, rfl, rfl, rfl, rfl, rfl, rfl, rfl⟩

/-! ## Named operations -/

theorem work_advance (c : Counter) (n : Nat) (s : State) : Work s (advance c n s) := work_setCounters s _
theorem work_bump (c : Counter) (s : State) : Work s (bump c s) := work_advance c 1 s
theorem work_bumpPart (c : PartCounter) (s : State) : Work s (bumpPart c s) := work_bump _ s
theorem work_setLatch (l : Latch) (s : State) : Work s (setLatch l s) := work_setLatches s _

theorem work_pushNotice (b : NoticeBody) (s : State) : Work s (pushNotice b s) := by
  obtain ⟨n, l, c, h⟩ := pushNotice_sets b s
  rw [h]
  exact ((work_setNotices s n).trans (work_setLatches _ l)).trans (work_setCounters _ c)

theorem work_raiseLatch (l : Latch) (s : State) : Work s (raiseLatch l s) := by
  rcases raiseLatch_cases l s with ⟨_, h⟩ | ⟨_, h⟩ <;> rw [h]
  · exact .refl s
  · exact (work_setLatch l s).trans (work_pushNotice _ _)

theorem work_setTrunk (s : State) (t : Nat) (v : Trunk) : Work s (s.setTrunk t v) := work_setTrunks s _
theorem work_updateCell (n : Nat) (f : Cell → Cell) (s : State) : Work s (updateCell n f s) := work_setCells s _

theorem work_postSignal (cell : Nat) (addr : Addr) (body : SignalBody) (s : State) :
    Work s (postSignal cell addr body s) := by
  rcases postSignal_cases cell addr body s with ⟨_, v, h⟩ | h | h <;> rw [h]
  · exact work_setTrunk ..
  · exact .refl s
  · exact work_bump ..

theorem work_putBuffer (r : BufferRef) (b : Buffer) (s : State) : Work s (putBuffer r b s) := work_setPools s _
theorem work_releaseRef (r : BufferRef) (s : State) : Work s (releaseRef r s) := by
  rw [releaseRef_frame]; exact work_setPools ..
theorem work_releaseAll (rs : List BufferRef) (s : State) : Work s (releaseAll rs s) := by
  rw [releaseAll_frame]; exact work_setPools ..

theorem work_dropForWant (n : Nat) (s : State) : Work s (dropForWant n s) := by
  unfold dropForWant
  split <;> exact (work_bumpPart ..).trans (work_raiseLatch ..)

theorem work_updateStation (i : Nat) (f : Station → Station) (s : State) : Work s (updateStation i f s) :=
  work_setStations s _
theorem work_updateTicket (n : TicketNumber) (f : Ticket → Ticket) (s : State) : Work s (updateTicket n f s) :=
  work_setTickets s _

theorem work_owePass (cell : Nat) (s : State) : Work s (owePass cell s) := by
  unfold owePass
  split
  · exact .refl s
  · exact work_setOwed ..

theorem work_oweExpiry (i : Nat) (s : State) : Work s (oweExpiry i s) := work_setOwed ..

/-! ## Accounts, copies, memberships -/

theorem work_refreshM (cell : Nat) (s : State) : Work s (refreshM cell s) := work_updateCell ..
theorem work_refreshW (cell : Nat) (s : State) : Work s (refreshW cell s) := work_updateCell ..

theorem work_refreshRates (cell : Nat) (s : State) : Work s (refreshRates cell s) := by
  unfold refreshRates
  split
  · exact .refl s
  · exact work_setStations ..

theorem work_reweigh (cell : Nat) (s : State) : Work s (reweigh cell s) :=
  (work_refreshW cell s).trans (work_refreshRates ..)
theorem work_fillCredit (i : Nat) (s : State) : Work s (fillCredit i s) := work_updateStation ..
theorem work_trimCredits (s : State) : Work s (trimCredits s) := work_setStations ..
theorem work_setStatuses (channel cell : Nat) (m : MemberStatus) (s : State) : Work s (setStatuses channel cell m s) :=
  work_setStations ..
theorem work_writeCopy (n : Nat) (c : Copy) (s : State) : Work s (writeCopy n c s) :=
  (work_setCopies s _).trans (work_setStatuses ..)

theorem work_flushCopy (n : Nat) (s : State) : Work s (flushCopy n s) := by
  unfold flushCopy
  split
  · exact .refl s
  · exact (work_setCopies s _).trans ((work_releaseAll ..).trans (work_advance ..))

theorem work_applyDecision (n : Nat) (d : Option TierName) (s : State) : Work s (applyDecision n d s) := by
  unfold applyDecision
  split
  · exact .refl s
  · split
    · exact (work_flushCopy n s).trans ((work_writeCopy ..).trans (work_refreshM ..))
    · exact .refl s

theorem work_tryAdmission (s : State) (n : Nat) : Work s (tryAdmission s n) := by
  unfold tryAdmission
  split
  · exact .refl s
  · split
    · exact .refl s
    · split
      · exact work_applyDecision ..
      · exact .refl s

theorem work_tryRaise (s : State) (n : Nat) : Work s (tryRaise s n) := by
  unfold tryRaise
  split
  · exact .refl s
  · split
    · split
      · exact work_applyDecision ..
      · exact .refl s
    · exact .refl s

theorem work_readmit (cell : Nat) (s : State) : Work s (readmit cell s) := by
  unfold readmit
  split
  · exact .refl s
  · exact (Work.foldl _ work_tryAdmission _ s).trans ((Work.foldl _ work_tryRaise _ _).trans (work_refreshRates ..))

theorem work_runPasses (s : State) : Work s (runPasses s) :=
  (work_setOwed s _).trans (Work.foldl _ (fun s cell => work_readmit cell s) _ _)

theorem work_shed (cell fuel : Nat) (s : State) : Work s (shed cell fuel s) := by
  induction fuel generalizing s with
  | zero => exact .refl s
  | succ fuel ih =>
    unfold shed
    split
    · split
      · exact .refl s
      · split
        · exact .refl s
        · split
          · exact .refl s
          · exact (work_applyDecision ..).trans (ih _)
    · exact .refl s

theorem work_reload (cell : Nat) (s : State) : Work s (reload cell s) := by
  unfold reload
  split
  · exact .refl s
  · exact (work_setCopies s _).trans (work_refreshM ..)

theorem work_pressCopy (s : State) (n : Nat) : Work s (pressCopy s n) := by
  unfold pressCopy
  split
  · exact .refl s
  · split
    · split
      · exact (work_flushCopy n s).trans (work_setCopies ..)
      · exact work_setCopies ..
    · exact .refl s

theorem work_press (cell : Nat) (s : State) : Work s (press cell s) := by
  unfold press
  split
  · exact .refl s
  · have h := (Work.foldl _ work_pressCopy (s.copiesAt cell fun c => c.state == .active) s).trans (work_refreshM cell _)
    dsimp only
    split
    · exact h
    · split
      · exact h.trans ((work_readmit ..).trans (work_refreshRates ..))
      · exact h

theorem work_removeCopy (n : Nat) (s : State) : Work s (removeCopy n s) := by
  unfold removeCopy
  split
  · exact .refl s
  · exact (work_flushCopy n s).trans ((work_setCopies ..).trans
      ((work_refreshM ..).trans ((work_refreshRates ..).trans (work_owePass ..))))

theorem work_dropMember (channel cell : Nat) (s : State) : Work s (dropMember channel cell s) := by
  unfold dropMember
  split
  · exact .refl s
  · split
    · exact work_removeCopy ..
    · exact work_setCopies ..

theorem work_dropMembers (cell : Nat) (ms : List Membership) (s : State) :
    Work s (ms.foldl (fun s m => dropMember m.channel cell s) s) :=
  Work.foldl (fun s m => dropMember m.channel cell s) (fun s m => work_dropMember m.channel cell s) ms s

theorem work_removeMembership (i channel : Nat) (s : State) : Work s (removeMembership i channel s) := by
  unfold removeMembership
  split
  · exact .refl s
  · split
    · exact .refl s
    · split
      · exact (work_setStations s _).trans (work_dropMember ..)
      · exact .refl s

theorem work_endMembership (i channel : Nat) (s : State) : Work s (endMembership i channel s) := by
  unfold endMembership
  split
  · exact .refl s
  · split
    · exact .refl s
    · exact (work_removeMembership i channel s).trans ((work_postSignal ..).trans (work_bumpPart ..))

theorem work_createCopy (channel cell : Nat) (s : State) : Work s (createCopy channel cell s).1 := by
  unfold createCopy
  split
  · exact work_bumpPart ..
  · split
    · exact (work_setCopies s _).trans ((work_setCreated ..).trans ((work_setDraws ..).trans
        ((work_refreshM ..).trans (work_refreshRates ..))))
    · exact .refl s

theorem work_placeMembership (i channel cell : Nat) (s : State) : Work s (placeMembership i channel cell s).1 := by
  have h : Work s (match s.copyAt channel cell with
      | some (n, c) => (s.setCopies (s.copies.put n { c with members := c.members + 1 }), some c.status)
      | none => createCopy channel cell s).1 := by
    split
    · exact work_setCopies ..
    · exact work_createCopy ..
  unfold placeMembership
  dsimp only
  split
  · exact h
  · exact h.trans (work_updateStation ..)

theorem work_postNoRoom (newCell : Nat) (addr : Addr) (channel : Nat) (s : State) :
    Work s (postNoRoom newCell addr channel s) := by
  unfold postNoRoom
  split
  · exact work_postSignal ..
  · exact .refl s

theorem work_carryChannel (i newCell : Nat) (addr : Addr) (s : State) (channel : Nat) :
    Work s (carryChannel i newCell addr s channel) := by
  unfold carryChannel
  dsimp only
  split
  · exact work_placeMembership ..
  · exact (work_placeMembership ..).trans ((work_postNoRoom ..).trans (work_bumpPart ..))

theorem work_carryMemberships (i oldCell newCell : Nat) (s : State) : Work s (carryMemberships i oldCell newCell s) := by
  unfold carryMemberships
  split
  · exact .refl s
  · exact (work_setStations s _).trans ((Work.foldl _ (fun s ch => work_dropMember ch oldCell s) _ _).trans
      ((work_owePass ..).trans (Work.foldl _ (work_carryChannel i newCell _) _ _)))

/-! ## Stations, handovers, cells, trunks -/

theorem work_goDormant (i : Nat) (s : State) : Work s (goDormant i s) := by
  unfold goDormant
  split
  · exact .refl s
  · split
    · exact .refl s
    · dsimp only
      have h : ∀ x : State, Work s x → Work s (if msOfSeconds s.settings.timers.expire ≤ age s.now ‹Station›.lastHeard then
          oweExpiry i x else x) := by
        intro x hx
        split
        · exact hx.trans (work_oweExpiry ..)
        · exact hx
      apply h
      refine Work.trans ?_ (work_bumpPart ..)
      refine Work.trans ?_ (work_releaseAll ..)
      refine Work.trans ?_ (work_reweigh ..)
      refine Work.trans ?_ (work_dropMembers ..)
      exact work_setStations ..

theorem work_ticketToInside (n : Option TicketNumber) (s : State) : Work s (ticketToInside n s) := by
  unfold ticketToInside
  split
  · exact .refl s
  · exact work_updateTicket ..

theorem work_freeStation (i : Nat) (s : State) : Work s (freeStation i s) := by
  unfold freeStation
  split
  · exact .refl s
  · refine Work.trans ?_ (work_releaseAll ..)
    have h : Work s (ticketToInside ‹Station›.ticket
        ((s.setStations (s.stations.drop i)).setHandovers (s.handovers.drop i))) :=
      ((work_setStations s _).trans (work_setHandovers ..)).trans (work_ticketToInside ..)
    split
    · exact h
    · exact h.trans ((work_dropMembers ..).trans (work_reweigh ..))

theorem work_expireStation (i : Nat) (s : State) : Work s (expireStation i s) := by
  unfold expireStation
  split
  · exact .refl s
  · split
    · exact (work_freeStation i s).trans (work_bumpPart ..)
    · exact .refl s

theorem work_runExpiries (s : State) : Work s (runExpiries s) :=
  (work_setOwed s _).trans (Work.foldl _ (fun s i => work_expireStation i s) _ _)

theorem work_settleAttached (i cell : Nat) (addr : Addr) (s : State) : Work s (settleAttached i cell addr s) :=
  (work_reweigh cell s).trans ((work_fillCredit ..).trans (work_postSignal ..))

theorem work_attachNew (i cell : Nat) (addr : Addr) (s : State) : Work s (attachNew i cell addr s) :=
  (work_setStations s _).trans (work_settleAttached ..)

theorem work_attachUnknown (cell : Nat) (addr : Addr) (s : State) : Work s (attachUnknown cell addr s) := by
  unfold attachUnknown
  split
  · exact work_attachNew ..
  · split
    · exact (work_freeStation _ s).trans ((work_bumpPart ..).trans (work_attachNew ..))
    · exact (work_postSignal ..).trans ((work_bumpPart ..).trans (work_raiseLatch ..))

theorem work_attachReturning (i cell : Nat) (st : Station) (s : State) : Work s (attachReturning i cell st s) :=
  (work_setStations s _).trans (work_settleAttached ..)

theorem work_hear (i : Nat) (s : State) : Work s (hear i s) := work_updateStation ..

theorem work_completeHandover (i oldCell newCell : Nat) (s : State) : Work s (completeHandover i oldCell newCell s) := by
  unfold completeHandover
  split
  · exact .refl s
  · exact (work_setHandovers s _).trans ((work_setStations ..).trans ((work_reweigh ..).trans ((work_reweigh ..).trans
      ((work_postSignal ..).trans ((work_carryMemberships ..).trans (work_fillCredit ..))))))

theorem work_endHandover (i : Nat) (s : State) : Work s (endHandover i s) := by
  unfold endHandover
  split
  · exact .refl s
  · exact (work_completeHandover ..).trans (work_bumpPart ..)

theorem work_forceHandover (i : Nat) (s : State) : Work s (forceHandover i s) := by
  unfold forceHandover
  split
  · exact .refl s
  · exact (work_endHandover i s).trans (work_bumpPart ..)

theorem work_cancelToOld (i : Nat) (s : State) : Work s (cancelToOld i s) := by
  unfold cancelToOld
  split
  · exact .refl s
  · split
    · exact (work_setHandovers s _).trans ((work_setStations ..).trans ((work_postSignal ..).trans (work_bumpPart ..)))
    · exact .refl s

theorem work_cancelToDormant (i : Nat) (s : State) : Work s (cancelToDormant i s) :=
  (work_setHandovers s _).trans ((work_goDormant ..).trans (work_bumpPart ..))

theorem work_cellDown (cell : Nat) (cause : DownCause) (s : State) : Work s (cellDown cell cause s) :=
  (work_updateCell cell _ s).trans ((Work.foldl _ (fun s i => work_forceHandover i s) _ _).trans
    ((Work.foldl _ (fun s i => work_cancelToOld i s) _ _).trans
      ((Work.foldl _ (fun s i => work_goDormant i s) _ _).trans (work_pushNotice ..))))

theorem work_updateCellsOf (t : Nat) (f : Cell → Cell) (s : State) : Work s (updateCellsOf t f s) := work_setCells ..

theorem work_holdCopies (t : Nat) (s : State) : Work s (holdCopies t s) :=
  (Work.foldl _ (fun s n => work_applyDecision n none s) _ s).trans
    (Work.foldl _ (fun s cell => (work_refreshM cell s).trans (work_refreshRates cell _)) _ _)

theorem work_enterHeld (t : Nat) (s : State) : Work s (enterHeld t s) :=
  (work_setTrunk s t _).trans ((work_pushNotice ..).trans ((work_updateCellsOf t _ _).trans
    ((Work.foldl _ (fun s i => work_forceHandover i s) _ _).trans
      ((Work.foldl _ (fun s i => work_cancelToOld i s) _ _).trans (work_setStations ..)))))

theorem work_stripStation (i : Nat) (s : State) : Work s (stripStation i s) := work_updateStation ..
theorem work_unbind (n : TicketNumber) (i : Nat) (after : TicketState) (s : State) : Work s (unbind n i after s) :=
  (work_stripStation i s).trans (work_updateTicket ..)

theorem work_unbindEarlier (n : TicketNumber) (m : Option TicketNumber) (s : State) : Work s (unbindEarlier n m s) := by
  unfold unbindEarlier
  split
  · exact .refl s
  · split
    · exact .refl s
    · exact work_updateTicket ..

theorem work_unbindHolder (i : Nat) (x : TicketState) (s : State) : Work s (unbindHolder i x s) := by
  unfold unbindHolder
  split
  · split
    · exact .refl s
    · exact work_stripStation ..
  · exact .refl s

theorem work_bind (n : TicketNumber) (i : Nat) (s : State) : Work s (bind n i s) := by
  unfold bind
  split
  · exact (work_unbindEarlier ..).trans ((work_unbindHolder ..).trans ((work_updateTicket ..).trans
      (work_updateStation ..)))
  · exact .refl s

theorem work_recheck (i : Nat) (s : State) (channel : Nat) : Work s (recheck i s channel) := by
  unfold recheck
  split
  · split
    · exact .refl s
    · exact work_endMembership ..
  · exact .refl s

theorem work_cascade (i : Nat) (before : StationClass) (s : State) : Work s (cascade i before s) := by
  unfold cascade
  split
  · exact .refl s
  · split
    · exact .refl s
    · split
      · exact .refl s
      · exact (work_reweigh ..).trans (Work.foldl _ (work_recheck i) _ _)

/-! ## Sending -/

theorem work_startFrame (t : Nat) (f : LinkFrame) (b : Bool) (s : State) : Work s (startFrame t f b s) :=
  (work_setTrunk s t _).trans (work_bump ..)

theorem work_settlePoll (cell : Nat) (s : State) : Work s (settlePoll cell s) := by
  unfold settlePoll
  split
  · exact .refl s
  · split
    · exact .refl s
    · dsimp only
      split
      · exact (work_bump ..).trans (work_updateCell ..)
      · split
        · exact (work_bump ..).trans (work_cellDown ..)
        · exact work_bump ..

theorem work_sendPoll (t cell : Nat) (s : State) : Work s (sendPoll t cell s) :=
  (work_startFrame t _ _ s).trans ((work_settlePoll ..).trans (work_updateCell ..))

theorem work_sendSignal (t : Nat) (m : Signal) (s : State) : Work s (sendSignal t m s) :=
  (work_setTrunk s t _).trans (work_startFrame ..)

theorem work_attemptRecovery (n : Nat) (s : State) : Work s (attemptRecovery n s) := by
  unfold attemptRecovery
  split
  · exact .refl s
  · split
    · dsimp only
      split
      · exact (work_setCopies s _).trans ((work_refreshM ..).trans (work_refreshRates ..))
      · exact .refl s
    · exact .refl s

theorem work_pace (n : Nat) (s : State) : Work s (pace n s) := by
  unfold pace
  split
  · exact .refl s
  · split
    · exact .refl s
    · dsimp only
      split
      · exact work_setCopies ..
      · split
        · exact (work_setCopies s _).trans (work_attemptRecovery ..)
        · exact work_setCopies ..

theorem work_sendReplay (t n : Nat) (s : State) : Work s (sendReplay t n s) := by
  unfold sendReplay
  split
  · exact .refl s
  · split
    · exact .refl s
    · exact (work_setCopies s _).trans ((work_startFrame ..).trans ((work_bump ..).trans (work_pace ..)))

theorem work_sendStation (t i : Nat) (s : State) : Work s (sendStation t i s) := by
  unfold sendStation
  split
  · exact .refl s
  · split
    · exact (work_setStations s _).trans ((work_startFrame ..).trans ((work_setTrunk ..).trans (work_bump ..)))
    · exact .refl s

theorem work_send (t : Nat) (c : Choice) (s : State) : Work s (send t c s) := by
  cases c with
  | poll cell => exact work_sendPoll ..
  | signal m => exact work_sendSignal ..
  | replay n => exact work_sendReplay ..
  | station i => exact work_sendStation ..

theorem work_serveBackbone (s : State) : Work s (serveBackbone s) := by
  unfold serveBackbone
  split
  · exact .refl s
  · split
    · exact work_setBackbone ..
    · exact .refl s

theorem work_settleAccounts (s : State) : Work s (settleAccounts s) := (work_runPasses s).trans (work_trimCredits _)

theorem work_checkDrain (s : State) (t : Nat) : Work s (checkDrain s t) := by
  unfold checkDrain
  split
  · exact (work_enterHeld t s).trans (work_settleAccounts _)
  · exact .refl s

theorem work_serveLinks (fuel : Nat) (s : State) : Work s (serveLinks fuel s) := by
  induction fuel generalizing s with
  | zero => exact .refl s
  | succ fuel ih =>
    unfold serveLinks
    split
    · exact .refl s
    · exact (work_send ..).trans ((work_settleAccounts _).trans (ih _))

/-- The close of an event is work. -/
theorem work_closeEvent (s : State) : Work s (closeEvent s) :=
  (work_settleAccounts s).trans ((Work.foldl _ work_checkDrain _ _).trans ((work_serveLinks ..).trans
    ((work_serveBackbone _).trans (work_runExpiries _))))

theorem work_releaseFrame (f : Option LinkFrame) (s : State) : Work s (releaseFrame f s) := by
  unfold releaseFrame
  split
  · exact work_releaseRef ..
  · exact .refl s

end Sys2Proof.Machine
end

