-- ==== Sys2Proof/Tests/Slice0.lean ====
section
/-! SUPPORT. Tests: an ill-formed command for each check of WellFormed, frames written out byte by byte from the layouts of the
manual, steps whose results the manual's worked examples and tables give, and for each statement with hypotheses a state and operands
that meet them. -/

namespace Sys2Proof.Tests

open Sys2Proof Sys2Proof.Machine

/-! ## Helpers -/

/-- The state a command leaves; the state itself if it were refused. -/
def run (c : Instr) (s : State) : State :=
  match exec c s with
  | .next t => t
  | _ => s

def head : OrderHead := ⟨0x17#8, true⟩

/-- A message from slot `slot` of trunk `t` with `n` body bytes. -/
def msg (t : Fin 8) (slot : BitVec 8) (addr : Addr) (n : BitVec 16) : MessageHead := ⟨t, slot, addr, n, 10 + n.toNat⟩

def everyone : ClassFlags := ⟨true, true, true, true, true⟩

/-- A station ASSOCIATED at a cell, heard at `heard`. -/
def phone (addr : Addr) (cell : Nat) (heard : Clock) : Station :=
  ⟨addr, .associated cell heard, none, none, .unticketed, 1, [], heard, false, 0, 0, []⟩

def copy (channel cell : Nat) (st : CopyState) (level load : Nat) (stamp : BitVec 32) (queue : List BufferRef) : Copy :=
  ⟨channel, cell, .full, st, level, 0, 1, load, queue, 0, stamp⟩

/-- A cell polled at `due`, with an account of section 9.7 at load `m`. -/
def cellRec (kind : CellKind) (due : Clock) (m w : Nat) : Cell :=
  ⟨kind, .active, 0, false, some due, .none, ⟨54, 60, 400, 120000, m, w⟩⟩

/-- In SERVICE at a clock time, with nothing configured. -/
def serving (clock : Clock) : State := { State.reset with notices := [], time := ⟨.service, clock, 0, 0, 0, 1⟩ }

/-- The channels 3, 5 and 8 of section 9.7. -/
def channels37 : Table Channel :=
  ⟨[(3, ⟨true, everyone, .recover4, ⟨0x0301#16, 1200, 4000⟩, some ⟨0x0302#16, 1000, 1500⟩⟩),
    (5, ⟨true, everyone, .recover4, ⟨0x0501#16, 1200, 6000⟩, none⟩),
    (8, ⟨true, everyone, .recover4, ⟨0x0801#16, 1200, 8000⟩, none⟩)]⟩

/-- Cell 37 of section 9.7: its three stations and channels, with copies `copies` and load `m`. -/
def cell37 (copies : List (Nat × Copy)) (m : Nat) : State :=
  { serving 1000 with
    cells := ⟨[(37, cellRec .seat 1100 m 7)]⟩
    stations := ⟨[(0, { phone 1 37 900 with cls := .general, weight := 2 }),
      (1, { phone 2 37 900 with cls := .premium, weight := 4 }), (2, phone 3 37 900)]⟩
    channels := channels37
    copies := ⟨copies⟩ }

/-- The rates of every station. -/
def rates (s : State) : List Nat := s.stations.entries.map (·.2.rate)

/-- The multicast load M of a cell. -/
def loadM (s : State) (cell : Nat) : Option Nat := (s.account cell).map (·.m)

/-- The bodies of the notices in the queue. -/
def told (s : State) : List NoticeBody := s.notices.map (·.body)

/-- What waits in class 2 of a trunk, with the message on its link. -/
def made (s : State) (t : Nat) : Option LinkFrame × List SignalBody := ((s.trunk t).frame, (s.trunk t).signals.map (·.body))

/-- The reply in the slot: status and body. -/
def reply (s : State) : Option (Status × ReplyBody) := s.link.slot.map fun r => (r.status, r.body)

/-! ## WellFormed refuses -/

theorem test_attach_with_a_body_is_ill_formed : (Instr.attachRequest ⟨0, 0, 2, 1, 11⟩).wellFormed = false := by decide
theorem test_release_without_its_byte_is_ill_formed : (Instr.releaseDone ⟨0, 0, 2, 0, 10⟩ 0).wellFormed = false := by decide
theorem test_depart_cut_short_is_ill_formed : (Instr.depart ⟨0, 0, 2, 0, 9⟩).wellFormed = false := by decide
theorem test_list_short_of_its_frame_is_ill_formed : (Instr.pollReply ⟨0, 0, 0, 8, 18⟩ 0 1 []).wellFormed = false := by
  decide
theorem test_list_beyond_its_frame_is_ill_formed : (Instr.pollReply ⟨0, 0, 0, 8, 17⟩ 0 1 [4]).wellFormed = false := by
  decide
theorem test_claim_of_ten_bytes_is_ill_formed : (Instr.ticketClaim ⟨0, 0, 2, 10, 20⟩ 1 7 0).wellFormed = false := by decide
theorem test_join_of_two_bytes_is_ill_formed : (Instr.join ⟨0, 0, 2, 2, 12⟩ 3).wellFormed = false := by decide
theorem test_leave_of_no_byte_is_ill_formed : (Instr.leave ⟨0, 0, 2, 0, 10⟩ 3).wellFormed = false := by decide
theorem test_data_beyond_its_frame_is_ill_formed : (Instr.stationDataUp ⟨0, 0, 2, 1, 11⟩ [1, 2]).wellFormed = false := by
  decide
theorem test_downlink_of_no_byte_is_ill_formed : (Instr.stationDownlinkFrame 2 4 0 []).wellFormed = false := by decide
theorem test_poll_of_cell_256_is_ill_formed :
    (Instr.pollDue 256).wellFormed = false ∧ (Instr.pollOverdue 256).wellFormed = false := by decide
theorem test_copy_2048_is_ill_formed : (Instr.copyDue 2048).wellFormed = false := by decide
theorem test_station_16384_is_ill_formed :
    (Instr.stationCreditReady 16384).wellFormed = false ∧ (Instr.handoverTimerExpiry 16384).wellFormed = false
      ∧ (Instr.stationAgedDormant 16384).wellFormed = false ∧ (Instr.stationExpired 16384).wellFormed = false := by decide
theorem test_load_of_another_count_is_ill_formed : (Instr.loadTickets head 2 []).wellFormed = false := by decide
theorem test_good_frame_is_no_bad_frame :
    (Instr.badFrame [0xA5#8, 0x00#8, 0x01#8, 0x1E#8, 0x31#8, 0x08#8]).wellFormed = false := by decide

/-! ## Frames (section 0.7, Tables 0-5 to 0-7, R20) -/

theorem test_decode_attach_request : decodeCellFrame 1 [0x05#8, 0x01#8, 0x02#8, 0, 0, 0, 0, 0x0A#8, 0, 0] =
    .attachRequest (msg 1 5 0x02000000000A#48 0) := by decide
theorem test_decode_release_done : decodeCellFrame 1 [0x05#8, 0x02#8, 0x02#8, 0, 0, 0, 0, 0x0A#8, 0, 0x01#8, 0x03#8] =
    .releaseDone (msg 1 5 0x02000000000A#48 1) 3 := by decide
theorem test_decode_depart : decodeCellFrame 0 [0x00#8, 0x03#8, 0x02#8, 0, 0, 0, 0, 0x0A#8, 0, 0] =
    .depart (msg 0 0 0x02000000000A#48 0) := by decide
theorem test_decode_poll_reply : decodeCellFrame 1
      [0x05#8, 0x04#8, 0, 0, 0, 0, 0, 0, 0, 0x08#8, 0x01#8, 0x01#8, 0x02#8, 0x03#8, 0x04#8, 0x05#8, 0x06#8, 0x07#8] =
    .pollReply (msg 1 5 0 8) 1 1 [0x020304050607#48] := by decide
theorem test_decode_ticket_claim : decodeCellFrame 6
      [0x08#8, 0x05#8, 0x02#8, 0, 0, 0, 0, 0x0A#8, 0, 0x0B#8, 0x01#8, 0x00#8, 0x09#8, 0x27#8, 0xC1#8,
        0x11#8, 0x22#8, 0x33#8, 0x44#8, 0x55#8, 0x66#8] =
    .ticketClaim (msg 6 8 0x02000000000A#48 11) 1 600001 0x112233445566#48 := by decide
theorem test_decode_join : decodeCellFrame 1 [0x05#8, 0x06#8, 0x02#8, 0, 0, 0, 0, 0x0A#8, 0, 0x01#8, 0x03#8] =
    .join (msg 1 5 0x02000000000A#48 1) 3 := by decide
theorem test_decode_leave : decodeCellFrame 1 [0x05#8, 0x07#8, 0x02#8, 0, 0, 0, 0, 0x0A#8, 0, 0x01#8, 0x03#8] =
    .leave (msg 1 5 0x02000000000A#48 1) 3 := by decide
theorem test_decode_station_data_up : decodeCellFrame 1 [0x05#8, 0x08#8, 0x02#8, 0, 0, 0, 0, 0x0A#8, 0, 0x02#8, 0xDE#8, 0xAD#8] =
    .stationDataUp (msg 1 5 0x02000000000A#48 2) [0xDE#8, 0xAD#8] := by decide
theorem test_decode_unknown_kind : decodeCellFrame 1 [0x05#8, 0x09#8, 0x02#8, 0, 0, 0, 0, 0x0A#8, 0x08#8, 0x01#8] =
    .malformedMessage 1 (some 0x0801#16) := by decide
theorem test_decode_replay_frame : decodeBackboneFrame 0x88B0#16
      [1, 2, 3, 4, 5, 6, 0, 0, 0, 0, 0, 9, 0x88#8, 0xB0#8, 0x03#8, 0x01#8, 0x7F#8] =
    .replayFrame 0x010203040506#48 9 0x88B0#16 0x0301#16 [0x7F#8] := by decide
theorem test_decode_downlink_frame : decodeBackboneFrame 0#16
      [2, 0, 0, 0, 0, 0x0A#8, 0, 0, 0, 0, 0, 9, 0, 0, 0x7F#8] =
    .stationDownlinkFrame 0x02000000000A#48 9 0 [0x7F#8] := by decide

/-- R21, Tables 0-5 and 0-6: CLAIM VERDICT with REFUSE TOKEN, and REPLAY DATA, as the trunk link carries them. -/
theorem test_claim_verdict_bytes : (serving 0).messageOn (.signal ⟨200, 0x02000000000A#48, .claimVerdict 600002 (.refused .token)⟩) =
    [0x08#8, 0x85#8, 0x02#8, 0, 0, 0, 0, 0x0A#8, 0, 0x06#8, 0x00#8, 0x09#8, 0x27#8, 0xC2#8, 0x05#8, 0x03#8] := by decide
theorem test_replay_data_bytes : { serving 0 with pools := ⟨⟨[(4, ⟨.replay, [0xAA#8], 1⟩)]⟩, Table.empty⟩ }.messageOn
      (.replayData 37 3 .reduced ⟨.short, 4⟩) =
    [0x05#8, 0x88#8, 0, 0, 0, 0, 0, 0, 0, 0x03#8, 0x03#8, 0x02#8, 0xAA#8] := by decide

/-! ## Airtime (sections 9.6 to 9.8) -/

/-- The table of section 9.7: I, and L at levels 0 and 1. -/
theorem test_loads_of_cell_37 :
    let a : Account := ⟨54, 60, 400, 120000, 0, 7⟩
    let full : Tier := ⟨0, 1200, 4000⟩
    let reduced : Tier := ⟨0, 1000, 1500⟩
    baseInterval full = 240 ∧ loadOf a full 0 = 100 ∧ loadOf a full 1 = 50
      ∧ baseInterval reduced = 534 ∧ loadOf a reduced 0 = 40
      ∧ loadOf a ⟨0, 1200, 6000⟩ 0 = 149 ∧ loadOf a ⟨0, 1200, 6000⟩ 1 = 75 ∧ loadOf a ⟨0, 1200, 8000⟩ 0 = 199 := by decide

/-- "the largest of them, F = 1,400 at 125" and the least interval, F = 200 at 20,000 (R140): 8,960 and 8 ticks. -/
theorem test_extreme_intervals : baseInterval ⟨0, 1400, 125⟩ = 8960 ∧ baseInterval ⟨0, 200, 20000⟩ = 8 := by decide

set_option maxRecDepth 20000 in
/-- Section 9.7, "Join ch 3": 0 + 100 = 100, FULL. -/
theorem test_join_channel_3 :
    let s := run (.join (msg 1 5 1 1) 3) (cell37 [] 0)
    loadM s 37 = some 100 ∧ rates s = [30857, 61714, 15428] ∧ made s 1 = (some (.signal ⟨37, 1, .joinVerdict 3 .joinedFull⟩), []) := by
  decide

set_option maxRecDepth 20000 in
/-- Section 9.7, "Join ch 8": 249 + 199 is above 400, HELD and WAITING; M stays 249. -/
theorem test_join_channel_8 :
    let s := run (.join (msg 1 5 1 1) 8) (cell37 [(210, copy 3 37 .active 0 100 0 []), (211, copy 5 37 .active 0 149 1 [])] 249)
    loadM s 37 = some 249 ∧ (s.copies.look 0).map (·.load) = some 199 ∧ (s.copies.look 0).map (·.state) = some .held
      ∧ made s 1 = (some (.signal ⟨37, 1, .joinVerdict 8 .waiting⟩), []) := by decide

set_option maxRecDepth 20000 in
/-- Section 9.7, "Pressure mark" and the pass of the same event: 125, then 324. -/
theorem test_pressure_mark :
    let s := run (.pollReply (msg 1 5 0 2) 1 0 [])
      (cell37 [(210, copy 3 37 .active 0 100 0 []), (211, copy 5 37 .active 0 149 1 []), (215, copy 8 37 .held 0 199 2 [])] 249)
    loadM s 37 = some 324 ∧ s.copies.entries.map (fun e => (e.2.state, e.2.level, e.2.load)) =
      [(.active, 1, 50), (.active, 1, 75), (.active, 0, 199)] ∧ rates s = [23177, 46354, 11588] := by decide

set_option maxRecDepth 20000 in
/-- Section 9.8: shedding to B = 120 at P = 36. -/
theorem test_shedding_at_cell_37 :
    let s := run (.setCellAirtime head 37 ⟨true, false, true, false, false⟩ ⟨36, 0, 120, 0⟩)
      (cell37 [(210, copy 3 37 .active 0 100 0 []), (211, copy 5 37 .active 1 75 1 []), (215, copy 8 37 .active 0 199 2 [])] 374)
    loadM s 37 = some 53 ∧ s.copies.entries.map (fun e => (e.2.state, e.2.tier, e.2.load)) =
      [(.active, .reduced, 53), (.held, .full, 205), (.held, .full, 273)]
      ∧ rates s = [32468, 64937, 16234] ∧ reply s = some (.done, .empty) := by decide

set_option maxRecDepth 20000 in
/-- Section 9.8: B = 400 given back; 211 is admitted, 210 raised, 215 stays HELD. -/
theorem test_budget_given_back :
    let before := cell37 [(210, { copy 3 37 .active 0 53 0 [] with tier := .reduced }), (211, copy 5 37 .held 0 205 1 []),
      (215, copy 8 37 .held 0 273 2 [])] 53
    let s := run (.setCellAirtime head 37 ⟨false, false, true, false, false⟩ ⟨0, 0, 400, 0⟩)
      { before with cells := ⟨[(37, { cellRec .seat 1100 53 7 with account := ⟨36, 60, 120, 120000, 53, 7⟩ })]⟩ }
    loadM s 37 = some 342 ∧ rates s = [22560, 45120, 11280]
      ∧ s.copies.entries.map (fun e => (e.2.state, e.2.tier)) = [(.active, .full), (.active, .full), (.held, .full)] := by
  decide

/-- Section 9.6: at R = 600 the bucket depth is 3,000 bytes; at 21,462 it is 85,848. -/
theorem test_bucket_depth : bucketDepth 600 = 3000 ∧ bucketDepth 21462 = 85848 := by decide

/-- R149: the class weights 0 and 16 are clamped to 1 and 15. -/
theorem test_class_weights_clamp :
    (run (.setClassWeights head ⟨0, 2, 4, 4, 16⟩) (cell37 [] 0)).settings.weights = ⟨1, 2, 4, 4, 15⟩ := by decide

set_option maxRecDepth 20000 in
/-- R151: half a byte short at R = 800 (100,000 bytes per second), a frame is ready 5 µs later, half a tick on, not at the tick's end. -/
theorem test_ready_between_ticks :
    let s := run (.replyRead 0) { cell37 [] 0 with
      stations := ⟨[(0, { phone 1 37 900 with rate := 800, credit := 1200, queue := [⟨⟨.short, 0⟩, 2⟩] })]⟩ }
    let t := passTime s
    (t.time.tick, 2 * t.time.part) = (s.time.tick, t.time.grain) ∧ t.pending = [.stationCreditReady 0]
      ∧ (t.stations.look 0).map (·.creditReady t.time.unit) = some true := by decide

/-! ## The pacer (section 8.8) -/

set_option maxRecDepth 20000 in
/-- Tick 11,440: the fourth clean frame is sent, the interval is still that of level 1, and the level returns to 0 with M 175. -/
theorem test_fourth_clean_frame :
    let q : List BufferRef := [⟨.short, 5⟩, ⟨.short, 6⟩]
    let s := run (.copyDue 210) { cell37 [(210, { copy 3 37 .active 1 50 0 q with clean := 3, nextDue := 11440 }),
      (211, copy 5 37 .active 1 75 1 [])] 125 with time := ⟨.service, 114, 11440, 40, 0, 1⟩ }
    (s.copies.look 210).map (fun c => (c.level, c.clean, c.load, c.nextDue)) = some (0, 0, 100, 11920)
      ∧ loadM s 37 = some 175 ∧ (s.trunk 1).frame = some (.replayData 37 3 .full ⟨.short, 5⟩) := by decide

/-! ## Polls (section 1.4) -/

set_option maxRecDepth 20000 in
/-- 10,300 ms: the third miss takes cell 37 DOWN; the next POLL is due at 10,400. -/
theorem test_third_miss :
    let s := run (.pollDue 37) { serving 10300 with
      cells := ⟨[(37, { cellRec .seat 10300 0 0 with state := .silent, missed := 2, awaited := true })]⟩ }
    (s.cells.look 37).map (fun c => (c.state, c.missed, c.awaited, c.due)) = some (.down, 3, true, some 10400)
      ∧ told s = [.cellDown 37 .missedPolls] ∧ s.counter (.cell 37 .pollsMissed) = 1 := by decide

/-- R31: POLLs of one trunk that fall due together go lowest slot first, one due earlier before them all. -/
theorem test_polls_due_together :
    { serving 1000 with cells := ⟨[(3, cellRec .seat 1000 0 0), (17, cellRec .seat 1000 0 0), (20, cellRec .seat 999 0 0)]⟩ }.duePolls
      = [.pollDue 20, .pollDue 3, .pollDue 17] := by decide

set_option maxRecDepth 20000 in
/-- 10,425 ms: the overdue point of a POLL due at 10,400, on a busy trunk. -/
theorem test_overdue_point :
    ((run (.pollOverdue 37) { serving 10425 with
      cells := ⟨[(37, { cellRec .seat 10400 0 0 with queued := .onTime })]⟩
      trunks := ⟨[(1, { Trunk.atReset with frame := some (.poll 40) })]⟩ }).cells.look 37).map (·.queued) = some .overdue := by
  decide

set_option maxRecDepth 20000 in
/-- 10,462 ms: a POLL REPLY brings the cell back; the next POLL stays due at 10,527. -/
theorem test_poll_reply_brings_up :
    let s := run (.pollReply (msg 1 5 0 2) 0 0 []) { serving 10462 with
      cells := ⟨[(37, { cellRec .seat 10527 0 0 with state := .down, missed := 3, awaited := true })]⟩ }
    (s.cells.look 37).map (fun c => (c.state, c.missed, c.awaited, c.due)) = some (.active, 0, false, some 10527)
      ∧ told s = [.cellUp 37] := by decide

/-! ## Holding trunk T2 (section 1.6) -/

/-- Trunk T2 with cell 70, its two copies, stations 812, 1,040 and 2,301, and handovers H1 and H2. -/
def trunk2 (clock : Clock) (t : Trunk) (st : CopyState) (m : Nat) : State :=
  { serving clock with
    cells := ⟨[(70, cellRec .seat clock m 0), (71, cellRec .seat clock 0 0), (101, cellRec .seat clock 0 0)]⟩
    trunks := ⟨[(2, t), (3, { Trunk.atReset with frame := some (.poll 101) })]⟩
    stations := ⟨[(812, { phone 1 70 0 with place := .moving 70 0 }), (1040, phone 2 70 5399990),
      (2301, { phone 3 101 0 with place := .moving 101 0 })]⟩
    handovers := ⟨[(812, ⟨70, 101, 5399900⟩), (2301, ⟨101, 71, 5399950⟩)]⟩
    channels := channels37
    copies := ⟨[(0, copy 3 70 st 0 100 0 []), (1, copy 5 70 st 0 149 1 [])]⟩ }

set_option maxRecDepth 20000 in
/-- 5,400,000 ms: HOLD TRUNK with tag 17h is ACCEPTED; both copies are HELD and M is 0. -/
theorem test_hold_trunk_2 :
    let s := run (.holdTrunk head 2) (trunk2 5400000 { Trunk.atReset with frame := some (.poll 71) } .active 249)
    (s.trunk 2).state = .draining ∧ (s.trunk 2).holdTag = some 0x17#8 ∧ loadM s 70 = some 0
      ∧ s.copies.entries.map (·.2.state) = [.held, .held] ∧ reply s = some (.accepted, .empty) := by decide

set_option maxRecDepth 20000 in
/-- 5,400,002 ms: the drain is complete: H1 forced to 101, H2 cancelled to 101, a grant for each, aging of 1,040 paused. -/
theorem test_drain_of_trunk_2 :
    let s := run (.trunkFrameEnd 2) (trunk2 5400002
      { Trunk.atReset with state := .draining, holdTag := some 0x17#8, frame := some (.poll 71) } .held 0)
    (s.trunk 2).state = .held ∧ s.handovers.size = 0 ∧ told s = [.trunkHeld 2 (some 0x17#8)]
      ∧ s.stations.entries.map (·.2.place.cell?) = [some 101, some 70, some 101]
      ∧ (made s 3).2 = [.attachGrant 812, .attachGrant 2301] ∧ (s.stations.look 1040).map (·.paused) = some true := by decide

set_option maxRecDepth 20000 in
/-- 5,700,002 ms: RELEASE TRUNK after a hold of 300,000 ms: 1,040 was last heard at 5,699,990, both copies are FULL, M is 249. -/
theorem test_release_of_trunk_2 :
    let s := run (.releaseTrunk head 2) { trunk2 5700002
      { Trunk.atReset with state := .held, holdTag := some 0x17#8, heldSince := some 5400002 } .held 0 with
        handovers := Table.empty, stations := ⟨[(1040, { phone 2 70 5399990 with paused := true })]⟩ }
    (s.trunk 2).state = .active ∧ (s.stations.look 1040).map (fun st => (st.lastHeard, st.paused)) = some (5699990, false)
      ∧ loadM s 70 = some 249 ∧ (s.cells.look 71).map (·.queued) = some .overdue
      ∧ (s.trunk 2).frame = some (.poll 70) := by decide

/-! ## Link loss (R12) -/

set_option maxRecDepth 20000 in
/-- R12, R10, R163: a lost link takes its cells DOWN and raises TRUNK LINK LOST. -/
theorem test_link_lost :
    let s := run (.trunkLinkLost 1) (cell37 [] 0)
    (s.cells.look 37).map (·.state) = some .down ∧ s.stations.entries.map (·.2.place) = [.dormant, .dormant, .dormant]
      ∧ told s = [.cellDown 37 .linkLoss, .conditionRaised (.trunkLinkLost 1), .trunkLinkDown 1] := by decide

/-! ## Frames (sections 2.5 and 3.6) -/

set_option maxRecDepth 20000 in
/-- Section 2.5, choice 1: class 2 outranks classes 3, 4 and 5. -/
theorem test_class_2_first :
    (run (.trunkFrameEnd 1) { cell37 [(210, copy 3 37 .active 0 100 0 [⟨.short, 1⟩])] 100 with
      trunks := ⟨[(1, { Trunk.atReset with signals := [⟨40, 9, .attachGrant 7⟩], frame := some (.poll 40) })]⟩ }).trunkOut 1
      = some [0x08#8, 0x81#8, 0, 0, 0, 0, 0, 0x09#8, 0, 0x02#8, 0, 0x07#8] := by decide

set_option maxRecDepth 20000 in
/-- Section 2.5, choice 4: at the run limit class 4 goes first, from the lowest index above the round-robin position. -/
theorem test_run_limit :
    let full (addr : Addr) (b : Nat) : Station := { phone addr 37 900 with rate := 1000, credit := 3000 * 800, queue := [⟨⟨.short, b⟩, 90⟩] }
    let s := run (.trunkFrameEnd 1) { cell37 [(210, copy 3 37 .active 0 100 0 [⟨.short, 1⟩])] 100 with
      settings := { Settings.atReset with runLimit := 2 }
      stations := ⟨[(1204, full 4 2), (3077, full 5 3)]⟩
      trunks := ⟨[(1, { Trunk.atReset with run := 2, lastServed := some 1500, frame := some (.poll 40) })]⟩ }
    (s.trunk 1).frame = some (.stationDown 37 5 ⟨.short, 3⟩) ∧ (s.trunk 1).run = 0
      ∧ (s.stations.look 3077).map (·.credit) = some ((3000 - 90) * 800) := by decide

set_option maxRecDepth 20000 in
/-- Section 3.6, step 3: one short buffer, one reference in each of the copy queues of the channel and tier. -/
theorem test_replay_fans_out :
    let s := run (.replayFrame 0 0 0x88B0#16 0x0301#16 [1, 2, 3]) { cell37 [(0, copy 3 37 .active 0 100 0 []),
        (1, copy 3 40 .active 0 100 1 []), (2, copy 3 41 .active 0 100 2 []), (3, copy 5 37 .active 0 149 3 [])] 249 with
      settings := { Settings.atReset with replayType := 0x88B0#16 }
      trunks := ⟨[(1, { Trunk.atReset with frame := some (.poll 40) })]⟩ }
    s.buffer ⟨.short, 0⟩ = some ⟨.replay, [1, 2, 3], 3⟩ ∧ s.copies.entries.map (·.2.queue.length) = [1, 1, 1, 0]
      ∧ s.counter (.channel 3 .framesIn) = 1 := by decide

set_option maxRecDepth 20000 in
/-- R50 and Table 0-7: the part puts the station's address into the frame on the backbone link. -/
theorem test_backbone_frame : (run (.stationDataUp (msg 1 5 1 9) [1, 2, 3, 4, 5, 6, 8, 0, 0x55#8]) (cell37 [] 0)).backboneOut =
    some [1, 2, 3, 4, 5, 6, 0, 0, 0, 0, 0, 1, 8, 0, 0x55#8] := by decide

/-! ## Stations and handovers (sections 4.7 and 5.7) -/

set_option maxRecDepth 20000 in
/-- 2,700,000 ms: the start of X1; RELEASE goes to cell 37. -/
theorem test_handover_starts :
    let s := run (.attachRequest (msg 1 8 1 0)) { cell37 [] 0 with
      time := ⟨.service, 2700000, 0, 0, 0, 1⟩
      cells := ⟨[(37, cellRec .seat 2700100 0 7), (40, cellRec .concourse 2700100 0 0)]⟩ }
    s.handovers.look 0 = some ⟨37, 40, 2700000⟩ ∧ (s.stations.look 0).map (·.place) = some (.moving 37 900)
      ∧ made s 1 = (some (.signal ⟨37, 1, .release⟩), []) := by decide

set_option maxRecDepth 20000 in
/-- 2,700,040 ms: the copy at 37 falls to 1 member, and the pass at 37 runs: a HELD copy there that fits is admitted. -/
theorem test_pass_at_the_old_cell :
    let s := run (.releaseDone (msg 1 5 1 1) 3) { cell37 [(210, { copy 3 37 .active 0 100 0 [] with members := 2 }),
        (211, copy 5 37 .held 0 149 1 [])] 100 with
      time := ⟨.service, 2700040, 0, 0, 0, 1⟩
      cells := ⟨[(37, cellRec .seat 2700100 100 7), (40, cellRec .concourse 2700100 0 0)]⟩
      stations := ⟨[(0, { phone 1 37 900 with place := .moving 37 900, members := [⟨3, .full⟩] })]⟩
      handovers := ⟨[(0, ⟨37, 40, 2700000⟩)]⟩ }
    (s.copies.look 210).map (·.members) = some 1 ∧ (s.copies.look 211).map (·.state) = some .active ∧ loadM s 37 = some 249
      ∧ s.counter (.cell 37 .framesLost) = 3 := by decide

set_option maxRecDepth 20000 in
/-- 2,700,155 ms: X2 ends at 2,700,005 + 150, forced. -/
theorem test_handover_timeout :
    let before := { cell37 [] 0 with
      time := ⟨.service, 2700155, 0, 0, 0, 1⟩
      cells := ⟨[(37, cellRec .seat 2700200 0 7), (40, cellRec .concourse 2700200 0 0)]⟩
      stations := ⟨[(812, { phone 1 37 0 with place := .moving 37 0 })]⟩
      handovers := ⟨[(812, ⟨37, 40, 2700005⟩)]⟩ }
    let s := run (.handoverTimerExpiry 812) before
    run (.handoverTimerExpiry 812) { before with time := ⟨.service, 2700154, 0, 0, 0, 1⟩ } = { before with time := ⟨.service, 2700154, 0, 0, 0, 1⟩ }
      ∧ (s.stations.look 812).map (fun st => (st.place, st.prev)) = some (.associated 40 2700155, some 37)
      ∧ s.counter (.part .handoversForced) = 1 ∧ (s.account 40).map (·.w) = some 1 := by decide

set_option maxRecDepth 20000 in
/-- Section 4.7: a station last heard at 7,000,000 goes DORMANT at 7,030,000. -/
theorem test_dormant_after_30_s :
    let before (clock : Clock) := { serving clock with stations := ⟨[(2222, phone 1 37 7000000)]⟩ }
    run (.stationAgedDormant 2222) (before 7029999) = before 7029999
      ∧ ((run (.stationAgedDormant 2222) (before 7030000)).stations.look 2222).map (·.place) = some .dormant := by decide

/-! ## Tickets and claims (sections 6.8 and 7.5) -/

/-- Gate cell 200 with station 5,120, and seat cell 37 serving section 12; ticket 600,001 as `k`. -/
def gate (k : Ticket) : State :=
  { serving 1000000 with
    cells := ⟨[(37, cellRec .seat 1000100 0 0), (200, cellRec .gate 1000100 0 1)]⟩
    stations := ⟨[(5120, phone 5 200 0)]⟩
    tickets := ⟨[(600001, k)]⟩
    sections := ⟨[(12, [37, 38])]⟩
    nextReferral := 57 }

def general : Ticket := ⟨0xABCDEF#48, .general, 12, 0, .loaded, false, 0, 0, none⟩

set_option maxRecDepth 20000 in
/-- 1,000,000 ms: ADMIT; INSIDE, count 1, last gate 200. -/
theorem test_entry_admitted :
    let s := run (.ticketClaim (msg 6 8 5 11) 1 600001 0xABCDEF#48) (gate general)
    s.ticket 600001 = some { general with state := .inside, admissions := 1, lastGate := some 200 }
      ∧ made s 6 = (some (.signal ⟨200, 5, .claimVerdict 600001 .admitted⟩), []) := by decide

set_option maxRecDepth 20000 in
/-- 1,060,000 ms: SEATED at cell 37; W of cell 37 rises by 1. -/
theorem test_seat_binds :
    let s := run (.ticketClaim (msg 1 5 5 11) 2 600001 0xABCDEF#48) { gate { general with state := .inside } with
      cells := ⟨[(37, cellRec .seat 1000100 0 1)]⟩, stations := ⟨[(5120, phone 5 37 0)]⟩ }
    (s.ticket 600001).map (·.state) = some (.seated 5120) ∧ (s.account 37).map (·.w) = some 2
      ∧ (s.stations.look 5120).map (fun st => (st.ticket, st.cls, st.weight)) = some (some 600001, .general, 2) := by decide

set_option maxRecDepth 20000 in
/-- 1,300,040 ms: the third wrong token locks the ticket. -/
theorem test_third_mismatch_locks :
    let s := run (.ticketClaim (msg 6 8 5 11) 1 600001 1) (gate { general with mismatches := 2 })
    s.ticket 600001 = some { general with mismatches := 3, locked := true } ∧ told s = [.ticketLocked 600001 5 200]
      ∧ made s 6 = (some (.signal ⟨200, 5, .claimVerdict 600001 (.refused .token)⟩), []) := by decide

set_option maxRecDepth 20000 in
/-- 1,400,000 ms: a claim for an absent ticket is parked as id 57. -/
theorem test_claim_is_parked :
    let s := run (.ticketClaim (msg 6 8 5 11) 1 600777 9) (gate general)
    s.referrals = [⟨57, ⟨.entry, 600777, 9, 5, 200⟩, 1000000⟩] ∧ s.nextReferral = 58
      ∧ told s = [.referral 57 .entry 600777 9 5 200] ∧ made s 6 = (none, []) := by decide

set_option maxRecDepth 20000 in
/-- 1,400,900 ms: ACCEPT stores the ticket and the parked claim is judged: ADMIT. -/
theorem test_referral_accepted :
    let s := run (.ruleReferral head 57 (.accept (some ⟨600777, 9, some .general, 14, 0⟩)))
      { gate general with referrals := [⟨57, ⟨.entry, 600777, 9, 5, 200⟩, 999100⟩] }
    s.referrals = [] ∧ (s.ticket 600777).map (fun k => (k.state, k.admissions)) = some (.inside, 1)
      ∧ reply s = some (.done, .empty) ∧ made s 6 = (some (.signal ⟨200, 5, .claimVerdict 600777 .admitted⟩), []) := by decide

set_option maxRecDepth 20000 in
/-- Section 6.8, step 1: one record stored, one skipped, one stored with its referral resolved. -/
theorem test_load_tickets :
    let record (n : TicketNumber) (sect : Nat) : TicketFields := ⟨n, 0xABCDEF#48, some .general, sect, 0⟩
    let s := run (.loadTickets head 3 [record 500200 12, record 600001 12, record 500201 14])
      { gate { general with state := .inside } with referrals := [⟨41, ⟨.entry, 500201, 0xABCDEF#48, 5, 200⟩, 999100⟩] }
    reply s = some (.done, .loadCounts 2 0 1 0) ∧ s.referrals = [] ∧ (s.ticket 500201).map (·.state) = some .inside
      ∧ (s.ticket 500200).map (·.state) = some .loaded := by decide

set_option maxRecDepth 20000 in
/-- Section 6.8, step 2: VOID TICKET of a SEATED ticket: ENDED for channel 8, W falls by 3. -/
theorem test_void_ticket :
    let s := run (.voidTicket head 500310) { cell37 [(0, { copy 8 37 .active 0 199 0 [] with members := 2 })] 199 with
      channels := ⟨[(8, ⟨true, ⟨false, false, true, true, true⟩, .recover4, ⟨0x0801#16, 1200, 8000⟩, none⟩)]⟩
      stations := ⟨[(2222, { phone 7 37 900 with ticket := some 500310, cls := .premium, weight := 4, members := [⟨8, .full⟩] })]⟩
      tickets := ⟨[(500310, { general with cls := .premium, state := .seated 2222 })]⟩ }
    reply s = some (.done, .voided (.seated 2222)) ∧ (s.ticket 500310).map (·.state) = some .void
      ∧ (s.stations.look 2222).map (fun st => (st.ticket, st.weight, st.members)) = some (none, 1, [])
      ∧ made s 1 = (some (.signal ⟨37, 7, .joinVerdict 8 .ended⟩), []) := by decide

set_option maxRecDepth 20000 in
/-- R98: the purge of an empty table ends in the event after its start, with PURGE DONE and the count 0. -/
theorem test_purge_of_an_empty_table :
    let s := run (.purgeTickets head) (serving 0)
    reply s = some (.accepted, .empty) ∧ s.purge = none ∧ told s = [.purgeDone 0x17#8 0] := by decide

/-! ## The control link (section 10.1, chapter 11) -/

set_option maxRecDepth 20000 in
/-- Section 10.1, steps 3 and 4: a read of 7 bytes keeps the reply, a whole read empties the slot. -/
theorem test_reads : let s := { serving 0 with link := ⟨false, [], some ⟨.order .readNotices, 0x31#8, .done, .notices [], List.replicate 20 0⟩, .zeros⟩ }
    (run (.replyRead 7) s).link.slot.isSome = true ∧ (run (.replyRead 25) s).link.slot = none := by decide

set_option maxRecDepth 20000 in
/-- Section 10.1, step 6: an order taken while a reply waits unread replaces it; replies lost +1. -/
theorem test_reply_lost : (run (.snapStats head)
    { serving 0 with link := ⟨false, [], some ⟨.order .queryCell, 0x32#8, .done, .empty, []⟩, .zeros⟩ }).counter (.part .repliesLost)
      = 1 := by decide

set_option maxRecDepth 20000 in
/-- R152: a frame one byte short of its length field is BAD-FRAME, and CONTROL LINK ERROR is raised. -/
theorem test_bad_frame : let s := run (.badFrame [0xA5#8, 0x00#8, 0x02#8, 0x1E#8, 0x31#8, 0x08#8]) (serving 0)
    reply s = some (.badFrame, .empty) ∧ told s = [.conditionRaised .controlLinkError] := by decide

set_option maxRecDepth 20000 in
/-- Tables 0-3 and 0-4: the BAD-FRAME reply, and 00h beyond its end. -/
theorem test_bad_frame_bytes :
    let s := run (.replyRead 7) (run (.badFrame [0x00#8]) (serving 0))
    (List.range 8).map s.link.sdo.byte = [some 0, some 0, some 0, some 0, some 0x1F#8, some 0, some 0, none] := by decide

/-- R162: READY takes 52 bytes, and its last is the revision. -/
theorem test_ready_takes_52_bytes :
    (Notice.bytes 0 0 ⟨0, readyNotice .powerOn |>.body⟩).length = 52
      ∧ (Notice.bytes 0 0 ⟨0, readyNotice .powerOn |>.body⟩).getLast? = some 0x01#8 := ⟨rfl, rfl⟩

set_option maxRecDepth 20000 in
/-- Section 11.2: the frozen view keeps the snap's value. -/
theorem test_frozen_view :
    let s := run (.snapStats head) (bump (.trunk 1 .framesOut) (serving 900000))
    s.view.map (·.snapTime) = some 900000 ∧ (bump (.trunk 1 .framesOut) s).reading (.trunk 1 .framesOut) = 1
      ∧ (bump (.trunk 1 .framesOut) s).counter (.trunk 1 .framesOut) = 2 := by decide

/-- R158: 19 is clamped to 20, and a timer not given keeps its value. -/
theorem test_set_timers : (run (.setTimers head ⟨true, false, false, false, false, false⟩ ⟨19, 0, 0, 0, 0⟩) (serving 0)).settings.timers
    = ⟨20, 150, 2000, 30, 600⟩ := by decide

/-- R168, R169: the part-wide scope has 57 counters. -/
theorem test_part_wide_counters : (scopeCounters .partWide).map (·.length) = some 57 := by decide

/-! ## Witnesses: states and operands that meet the hypotheses of the statements -/

/-- A claim's or an attach's station found by its address. -/
theorem found {o : Option (Nat × Station)} {x : Nat × Station} {p : Nat → Station → Prop} (h : o = some x) (hp : p x.1 x.2) :
    ∀ i st, o = some (i, st) → p i st := by
  intro i st hs
  rw [h] at hs
  obtain rfl := Option.some.inj hs
  exact hp

theorem not_found {o : Option (Nat × Station)} {p : Nat → Station → Prop} (h : o = none) : ∀ i st, o = some (i, st) → p i st := by
  intro i st hs
  rw [h] at hs
  exact absurd hs (by simp)

/-- The check of State.Accepts for a configured cell that is not DOWN. -/
theorem accepts {s : State} {m : MessageHead} {c : Cell} (hc : s.cells.look (cellOf m) = some c)
    (h : ((s.trunk m.trunk.val).state = .active ∨ (s.trunk m.trunk.val).state = .draining) ∧ s.time.service = .service
      ∧ m.bodyLength.toNat ≤ Config.longBytes ∧ m.slot.toNat < Config.slots ∧ m.frameLength = 10 + m.bodyLength.toNat
      ∧ c.state ≠ .down) : s.Accepts m :=
  ⟨h.1, h.2.1, h.2.2.1, h.2.2.2.1, h.2.2.2.2.1, c, hc, h.2.2.2.2.2⟩

/-- Cells 0 (SEAT) and 1 (GATE) of T0, 2 (DOWN) of T0, 32 of a DRAINING T1, 64 of a HELD T2, 96 of a LINK DOWN T3; station 0
ASSOCIATED and SEATED at 0, 1 MOVING from 0 to 1, 2 DORMANT, 3 ASSOCIATED at 1, 4 ASSOCIATED at 32. -/
def demo : State :=
  { serving 2000000 with
    settings := { Settings.atReset with replayType := 0x88B0#16 }
    cells := ⟨[(0, cellRec .seat 2000100 100 2), (1, cellRec .gate 2000000 0 1),
      (2, { cellRec .seat 2000100 0 0 with state := .down, missed := 3 }), (32, { cellRec .seat 1999900 0 0 with queued := .onTime }),
      (64, cellRec .seat 0 0 0), (96, { cellRec .seat 0 0 0 with state := .down, missed := 3 })]⟩
    trunks := ⟨[(1, { Trunk.atReset with state := .draining, holdTag := some 1 }),
      (2, { Trunk.atReset with state := .held, holdTag := some 2, heldSince := some 1000000 }),
      (3, { Trunk.atReset with state := .linkDown })]⟩
    stations := ⟨[(0, { phone 2 0 1990000 with ticket := some 7, cls := .premium, members := [⟨0, .full⟩] }),
      (1, { phone 4 0 1990000 with place := .moving 0 1990000 }), (2, { phone 6 0 1000000 with place := .dormant }),
      (3, phone 8 1 1970000), (4, phone 10 32 1990000)]⟩
    handovers := ⟨[(1, ⟨0, 1, 1999850⟩)]⟩
    tickets := ⟨[(5, { general with seatSection := 3 }), (6, { general with seatSection := 3, state := .inside }),
      (7, { general with seatSection := 3, state := .seated 0, cls := .premium }), (8, { general with state := .void }),
      (9, { general with locked := true, mismatches := 3 })]⟩
    sections := ⟨[(3, [0, 1])]⟩
    referrals := [⟨1, ⟨.entry, 20, 1, 8, 1⟩, 1998000⟩]
    nextReferral := 2
    channels := ⟨[(0, ⟨true, everyone, .recover4, ⟨0x10#16, 1200, 4000⟩, none⟩),
      (1, ⟨false, ⟨false, false, true, false, false⟩, .flush, ⟨0x20#16, 1200, 4000⟩, some ⟨0x10#16, 1000, 1500⟩⟩),
      (2, ⟨true, ⟨false, false, true, false, false⟩, .flush, ⟨0x30#16, 1200, 4000⟩, none⟩)]⟩
    copies := ⟨[(0, copy 0 0 .active 0 100 0 [])]⟩ }

set_option maxRecDepth 20000 in
theorem demo_fits : demo.Fits := fits_of_check (by decide)

theorem demo_takes : demo.Takes head := ⟨rfl, rfl⟩

/-- `demo` in CONFIG. -/
def idle : State := { demo with time := ⟨.config, 0, 0, 0, 0, 1⟩ }

/-- T0 without a frame has room for cells 0, 1 and 2; T1 for cell 32. -/
theorem demo_room : demo.HasRoom 0 ∧ demo.HasRoom 1 ∧ demo.HasRoom 32 :=
  ⟨⟨by decide, .inl (by decide), by decide⟩, ⟨by decide, .inl (by decide), by decide⟩, ⟨by decide, .inr (by decide), by decide⟩⟩

theorem demo_accepts (slot : BitVec 8) (addr : Addr) (n : BitVec 16) (h : slot = 0 ∨ slot = 1) (hn : n.toNat ≤ 2048) :
    demo.Accepts (msg 0 slot addr n) := by
  rcases h with rfl | rfl
  · exact ⟨.inl rfl, rfl, hn, show (0#8).toNat < 32 by decide, rfl, cellRec .seat 2000100 100 2, rfl, by decide⟩
  · exact ⟨.inl rfl, rfl, hn, show (1#8).toNat < 32 by decide, rfl, cellRec .gate 2000000 0 1, rfl, by decide⟩

/-- No message waits on a trunk of `demo`, so that there is room for 1,024. -/
theorem demo_quiet (s : State) (h : s.trunks = demo.trunks) (ms : List Signal) (hm : ms.length ≤ 1024) (k : Nat) : s.RoomFor ms k :=
  State.roomFor_of_length (by
    have : (s.trunk k).signals.length = 0 :=
      State.trunks_all (p := fun x => x.signals.length = 0) (by rw [h]; decide) rfl k
    omega)

/-! ### The machine -/

theorem demo_agrees : demo.Agrees where
  cells := Table.records (t := demo.cells) (p := fun _ => Cell.Agrees) (by
    intro e he
    simp only [demo, List.mem_cons, List.not_mem_nil, or_false] at he
    rcases he with rfl | rfl | rfl | rfl | rfl | rfl <;> simp [Cell.Agrees, cellRec])
  trunks := State.trunks_all (by
    intro e he
    simp only [demo, List.mem_cons, List.not_mem_nil, or_false] at he
    rcases he with rfl | rfl | rfl <;> constructor <;> simp [Trunk.atReset])
    (by constructor <;> simp [Trunk.atReset])

theorem demo_handoverLaw : demo.HandoverLaw where
  moving := Table.records (t := demo.handovers) (by
    intro e he
    simp only [demo, List.mem_cons, List.not_mem_nil, or_false] at he
    subst he
    exact ⟨_, _, rfl, rfl, by decide⟩)
  record := Table.records (t := demo.stations) (by
    intro e he
    simp only [demo, List.mem_cons, List.not_mem_nil, or_false] at he
    rcases he with rfl | rfl | rfl | rfl | rfl <;> decide)

theorem demo_bindingLaw : demo.BindingLaw where
  bound := by
    intro n i
    constructor
    · rintro ⟨t, ht, hs⟩
      have := lookIn_mem ht
      simp only [demo, List.mem_cons, List.not_mem_nil, or_false, Prod.mk.injEq] at this
      rcases this with ⟨_, rfl⟩ | ⟨_, rfl⟩ | ⟨hn, rfl⟩ | ⟨_, rfl⟩ | ⟨_, rfl⟩ <;> simp [general] at hs
      subst hs
      exact ⟨_, rfl, by simp [BitVec.eq_of_toNat_eq (show n.toNat = (7#32).toNat from hn)]⟩
    · rintro ⟨st, hst, hn⟩
      have := lookIn_mem hst
      simp only [demo, List.mem_cons, List.not_mem_nil, or_false, Prod.mk.injEq] at this
      rcases this with ⟨hi, rfl⟩ | ⟨_, rfl⟩ | ⟨_, rfl⟩ | ⟨_, rfl⟩ | ⟨_, rfl⟩ <;> simp [phone] at hn
      subst hi
      subst hn
      exact ⟨_, rfl, rfl⟩
  absent := by decide
  single := by decide
  ids := by decide
  next := by decide

/-- The four invariants: a state that meets them and steps. -/
theorem meets_EveryStepKeeps : demo.Fits ∧ demo.Agrees ∧ demo.HandoverLaw ∧ demo.BindingLaw ∧ step demo = .next (passTime demo) :=
  ⟨demo_fits, demo_agrees, demo_handoverLaw, demo_bindingLaw, rfl⟩

/-- Stations 0 and 3 lack 400 and 600 units of the 800 that their rate gives in the tick: 0 becomes ready first, half a tick on. -/
def nearly : State :=
  { demo with
    stations := ⟨[(0, { phone 2 0 1990000 with rate := 800, credit := 1200, queue := [⟨⟨.short, 0⟩, 2⟩] }),
      (3, { phone 8 1 1970000 with rate := 800, credit := 1000, queue := [⟨⟨.short, 1⟩, 2⟩] })]⟩
    handovers := Table.empty }

set_option maxRecDepth 20000 in
theorem nearly_fits : nearly.Fits := fits_of_check (by decide)

/-- No station of `demo` becomes ready in the tick; phase 0 and phase 99, CONFIG; a purge of phase 99. -/
theorem meets_AnEmptyQueueLetsOneTickPass :
    let late := { demo with time := ⟨.service, 2000000, 0, 99, 0, 1⟩, purge := some ⟨1, 0, 99, 0⟩ }
    demo.Fits ∧ demo.pending = [] ∧ (∀ i st lack, demo.stations.look i = some st → ¬ demo.GetsReady st lack)
    ∧ demo.time.service = .service ∧ demo.time.phase + 1 < 100 ∧ late.Fits ∧ ¬ late.time.phase + 1 < 100
    ∧ idle.Fits ∧ idle.pending = [] ∧ idle.time.service = .config
    ∧ nearly.Fits ∧ nearly.pending = [] ∧ ∃ st, nearly.stations.look 0 = some st ∧ nearly.GetsReady st 400 := by
  refine ⟨demo_fits, rfl, ?_, rfl, by decide, { demo_fits with }, by decide, { demo_fits with }, rfl, rfl, nearly_fits, rfl, _, rfl,
    _, 0, rfl, rfl, by decide, by decide, by decide, by decide, by decide, by decide⟩
  intro i st lack hs
  obtain h : st.queue = [] := Table.records (t := demo.stations) (p := fun _ st => st.queue = []) (by decide) i st hs
  rintro ⟨x, _, hx, _⟩
  simp [h] at hx

theorem meets_OnlyAResetLeavesService : demo.time.service = .service
    ∧ exec (.powerOnReset ⟨255, true⟩) demo = .next (resetAll .powerOn ⟨255, true⟩ demo)
    ∧ (resetAll .powerOn ⟨255, true⟩ demo).time.service = .config ∧ demo.Takes head := ⟨rfl, rfl, rfl, rfl, rfl⟩

/-- Cell 0 with its POLL in a class, and nothing else to send. -/
def polls (q : PollQueued) : State := { serving 1000 with cells := ⟨[(0, { cellRec .seat 900 0 1 with queued := q })]⟩ }

/-- A message for cell 0, and nothing else to send. -/
def letter : State := { polls .none with trunks := ⟨[(0, { Trunk.atReset with signals := [⟨0, 2, .release⟩] })]⟩ }

/-- A frame of a copy at cell 0 and one of station 0 there, with `run` REPLAY DATA frames sent in a row. -/
def both (run : Nat) : State :=
  { polls .none with
    trunks := ⟨[(0, { Trunk.atReset with run := run })]⟩
    channels := ⟨[(0, ⟨true, everyone, .recover4, ⟨0x10#16, 1200, 4000⟩, none⟩)]⟩
    copies := ⟨[(0, copy 0 0 .active 0 100 0 [⟨.short, 0⟩])]⟩
    stations := ⟨[(0, { phone 2 0 900 with rate := 800, credit := 1600, queue := [⟨⟨.short, 1⟩, 2⟩] })]⟩ }

set_option maxRecDepth 20000 in
theorem sends_fit : (∀ q, (polls q).Fits) ∧ letter.Fits ∧ (both 15).Fits ∧ (both 16).Fits :=
  ⟨fun q => by cases q <;> exact fits_of_check (by decide), fits_of_check (by decide), fits_of_check (by decide),
    fits_of_check (by decide)⟩

theorem sends_rest : (∀ q, (polls q).AtRest) ∧ letter.AtRest ∧ (both 15).AtRest ∧ (both 16).AtRest :=
  ⟨fun q => by cases q <;> exact ⟨rfl, by decide, by decide⟩, ⟨rfl, by decide, by decide⟩, ⟨rfl, by decide, by decide⟩,
    rfl, by decide, by decide⟩

theorem polls_first (q : PollQueued) : (polls q).FirstPoll 0 q 0 :=
  ⟨_, rfl, rfl, rfl, Table.records (t := (polls q).cells) (p := fun n d => n / 32 = 0 → d.queued = q → (polls q).PollBefore 0 n _ d) (by
    intro e he _ _
    obtain rfl := List.mem_singleton.mp he
    exact .inr ⟨rfl, Nat.le_refl 0⟩)⟩

theorem no_station {s : State} (h : s.stations = Table.empty) (t i : Nat) : ¬ s.ReadyStation t i := by
  rintro ⟨st, _, _, hs, _⟩
  simp [h] at hs

theorem no_copy {s : State} (h : s.copies = Table.empty) (t n : Nat) (d : Copy) (hd : s.copies.look n = some d) :
    ¬ s.ReadyCopy t d := by simp [h] at hd

theorem polls_right (q : PollQueued) (h : q = .overdue ∨ q = .onTime) : (polls q).RightChoice 0 (.poll 0) := by
  refine ⟨rfl, .inl rfl, ?_⟩
  rcases h with rfl | rfl
  · exact .inl (polls_first _)
  · exact .inr ⟨Table.records (by decide), rfl, polls_first _, fun _ => ⟨no_copy rfl 0, no_station rfl 0⟩⟩

theorem letter_right : letter.RightChoice 0 (.signal ⟨0, 2, .release⟩) := ⟨rfl, .inl rfl, Table.records (by decide), rfl⟩

theorem both_ready : (both 16).ReadyStation 0 0 := ⟨_, 0, 900, rfl, rfl, rfl, _, rfl, by decide, by decide⟩

/-- Below the run limit of 16 the copy goes first, at it the station. -/
theorem both_right : (both 15).RightChoice 0 (.replay 0) ∧ (both 16).RightChoice 0 (.station 0) := by
  refine ⟨⟨rfl, .inl rfl, Table.records (by decide), rfl, rfl, ⟨_, rfl, ⟨rfl, rfl, by decide, by decide⟩, ?_⟩, ?_⟩,
    ⟨rfl, .inl rfl, Table.records (by decide), rfl, rfl, ⟨both_ready, fun j _ => Nat.zero_le j⟩, .inr ⟨by decide, by decide⟩⟩⟩
  · exact Table.records (t := (both 15).copies) (by
      intro e he _
      obtain rfl := List.mem_singleton.mp he
      exact .inr ⟨rfl, Nat.le_refl 0⟩)
  · rintro ⟨_, h, _⟩
    revert h
    decide

/-- Nothing on the trunks, for the backbone and for the expiries. -/
theorem nothing_to_choose (s : State) (h : s.cells = Table.empty ∧ s.stations = Table.empty ∧ s.copies = Table.empty
    ∧ ∀ k, (s.trunk k).signals = []) (k : Nat) (x : Choice) : ¬ s.RightChoice k x := by
  rintro ⟨_, _, hx⟩
  cases x with
  | poll cell => rcases hx with ⟨c, hc, _⟩ | ⟨_, _, ⟨c, hc, _⟩, _⟩ <;> simp [h.1] at hc
  | signal m => simp [h.2.2.2 k] at hx
  | replay n =>
    obtain ⟨_, _, _, ⟨c, hc, _⟩, _⟩ := hx
    simp [h.2.2.1] at hc
  | station i => exact no_station h.2.1 k i hx.2.2.2.1.1

/-- The copy of `both 15` at level 1, its next frame the fourth clean one. -/
def stepping : State :=
  { both 15 with copies := ⟨[(0, { copy 0 0 .active 1 50 0 [⟨.short, 0⟩] with clean := 3 })]⟩ }

/-- The frame of `stepping` brings a step down that fits; a POLL of `polls` settles no third miss; what else is sent names its records. -/
theorem meets_ClosingServesAndKeepsTheRest_sends :
    (∃ k ch a, stepping.copies.look 0 = some k ∧ k.queue = [⟨.short, 0⟩] ∧ stepping.channels.look k.channel = some ch
      ∧ stepping.account k.cell = some a ∧ recoveryThreshold ch.recovery = some 4 ∧ 4 ≤ k.clean + 1 ∧ 0 < k.level
      ∧ a.m + loadAt a (ch.tierOf k.tier) (k.level - 1) ≤ a.b + k.load ∧ k.state = .active)
    ∧ (∀ q, ∃ c, (polls q).cells.look 0 = some c ∧ c.awaited = false)
    ∧ ∃ st x, (both 16).stations.look 0 = some st ∧ st.queue = [x] ∧ st.place.cell? = some 0 :=
  ⟨⟨_, _, _, rfl, rfl, rfl, rfl, rfl, by decide, by decide, by decide, rfl⟩, fun _ => ⟨_, rfl, rfl⟩, _, _, rfl, rfl, rfl⟩

/-- A settled state; an owed pass; T1's drain; a message of each class; the backbone; an expiry. -/
theorem meets_ClosingServesAndKeepsTheRest :
    let owing := { demo with owed := ⟨[0], [2]⟩ }
    let sending := { serving 1000 with backbone := ⟨true, [⟨⟨.short, 0⟩, 9, 2⟩], none⟩ }
    let expiring := { serving 1000 with owed := ⟨[], [2]⟩ }
    State.reset.Settled ∧ owing.Fits ∧ owing.owed.passes = 0 :: []
    ∧ (demo.owed.passes = [] ∧ (∀ x ∈ demo.stations.entries, x.2.credit ≤ fullCredit demo.time.unit x.2.rate)
      ∧ (∀ k, k < 1 → demo.drained k = false) ∧ demo.drained 1 = true)
    ∧ ((∀ q, (polls q).Fits ∧ (polls q).AtRest) ∧ ∀ q, q = .overdue ∨ q = .onTime → (polls q).RightChoice 0 (.poll 0))
    ∧ (letter.Fits ∧ letter.AtRest ∧ letter.RightChoice 0 (.signal ⟨0, 2, .release⟩))
    ∧ ((both 15).Fits ∧ (both 15).AtRest ∧ (both 15).RightChoice 0 (.replay 0))
    ∧ ((both 16).Fits ∧ (both 16).AtRest ∧ (both 16).RightChoice 0 (.station 0))
    ∧ (sending.AtRest ∧ (∀ k, k < 8 → ∀ x, ¬ sending.RightChoice k x) ∧ sending.backbone.queue = ⟨⟨.short, 0⟩, 9, 2⟩ :: [])
    ∧ expiring.AtRest ∧ (∀ k, k < 8 → ∀ x, ¬ expiring.RightChoice k x) ∧ expiring.owed.expiries = 2 :: [] := by
  refine ⟨⟨rfl, by decide, by decide, .inl rfl, fun e he => by simp [State.reset, Table.empty] at he⟩, { demo_fits with }, rfl,
    ⟨rfl, by decide, by decide, by decide⟩, ⟨fun q => ⟨sends_fit.1 q, sends_rest.1 q⟩, polls_right⟩,
    ⟨sends_fit.2.1, sends_rest.2.1, letter_right⟩, ⟨sends_fit.2.2.1, sends_rest.2.2.1, both_right.1⟩,
    ⟨sends_fit.2.2.2, sends_rest.2.2.2, both_right.2⟩,
    ⟨⟨rfl, by decide, by decide⟩, fun k _ => nothing_to_choose _ ⟨rfl, rfl, rfl, fun _ => rfl⟩ k, rfl⟩,
    ⟨rfl, by decide, by decide⟩, fun k _ => nothing_to_choose _ ⟨rfl, rfl, rfl, fun _ => rfl⟩ k, rfl⟩

/-! ### Resets and the control link port -/

/-- RESETN is low. -/
def lowered : State := { demo with link := ⟨true, [], none, .undriven⟩ }

theorem meets_ResetOrdersGiveTheStateOfResetn :
    demo.link.resetnLow = false ∧ head.bodyFits = true ∧ (OrderHead.mk 1 false).bodyFits = false
      ∧ (some 9 : Option Byte) ≠ none ∧ demo.Takes head := ⟨rfl, rfl, rfl, by decide, demo_takes⟩

theorem meets_ResetnLowReleasesThePort :
    lowered.link.resetnLow = true ∧ (Machine.orderOf (.snapStats head)).isSome = true := ⟨rfl, rfl⟩

/-- Bodies of 1,020 bytes pass; the frames below fail: empty, no sync byte, too short, cut short, too long. -/
theorem meets_BadFramesAreAnsweredAndCounted : demo.link.resetnLow = false ∧ demo.notices.length < Config.notices
    ∧ ∀ bytes ∈ [[0x00#8], [0xA5#8], [0xA5#8, 0, 1, 0x1E#8, 0x31#8], [0xA5#8, 3, 0xFD#8, 0x1E#8, 0x31#8]],
      bytes ≠ [] ∧ bytes.head? ≠ some 0x5A#8 ∧ ¬ ∃ hi lo kind tag body, bytes = 0xA5#8 :: hi :: lo :: kind :: tag :: body
        ∧ (hi ++ lo : BitVec 16).toNat ≤ 1020 ∧ body.length = (hi ++ lo : BitVec 16).toNat := by
  refine ⟨rfl, by decide, ?_⟩
  intro bytes hb
  simp only [List.mem_cons, List.not_mem_nil, or_false] at hb
  rcases hb with rfl | rfl | rfl | rfl
  · simp
  · simp
  · refine ⟨by simp, by decide, ?_⟩
    rintro ⟨hi, lo, kind, tag, body, h, _, hl⟩
    simp only [List.cons.injEq] at h
    obtain ⟨_, rfl, rfl, _, _, rfl⟩ := h
    simp at hl
  · refine ⟨by simp, by decide, ?_⟩
    rintro ⟨hi, lo, kind, tag, body, h, _, hl⟩
    simp only [List.cons.injEq] at h
    obtain ⟨_, rfl, rfl, _, _, rfl⟩ := h
    simp at hl

/-- The slot is empty, and holds a reply of length 2; 6 bytes clocked are one too few; its length field, first and last body byte. -/
theorem meets_AReadEmptiesTheSlotOnceItIsWhole : demo.link.resetnLow = false ∧ demo.link.slot = none
    ∧ ((0x00#8 ++ 0x02#8 : BitVec 16) = BitVec.ofNat 16 (Reply.bytes ⟨.badFrame, 0, .badFrame, .notices [], [0, 0]⟩).length
      ∧ (Reply.bytes ⟨.badFrame, 0, .badFrame, .notices [], [0, 0]⟩)[0]? = some 0
      ∧ (Reply.bytes ⟨.badFrame, 0, .badFrame, .notices [], [0, 0]⟩)[1]? = some 0)
    ∧ { demo with link := ⟨false, [], some ⟨.badFrame, 0, .badFrame, .notices [], [0, 0]⟩, .zeros⟩ }.link.slot =
        some ⟨.badFrame, 0, .badFrame, .notices [], [0, 0]⟩ := ⟨rfl, rfl, by decide, rfl⟩

set_option maxRecDepth 20000 in
/-- A WRONG-STATE, a BUSY and a BAD-ARGUMENT reply. -/
theorem meets_RefusedOrdersChangeNothing :
    Machine.orderOf (.startService head) = some (.startService, head) ∧ demo.link.resetnLow = false
    ∧ ((run (.startService head) demo).link.slot.map (·.status)) = some .wrongState
    ∧ ((run (.unlockTicket head 5) { demo with purge := some ⟨1, 0, 0, 1⟩ }).link.slot.map (·.status)) = some .busy
    ∧ ((run (.readNotices head 0) demo).link.slot.map (·.status)) = some .badArgument
    ∧ Machine.orderOf (.snapStats ⟨1, false⟩) = some (.snapStats, ⟨1, false⟩) := by decide

/-! ### Notices, conditions, statistics -/

/-- A full notice queue, NOTICE OVERFLOW clear. -/
def crowded : State := { demo with notices := List.replicate 256 ⟨0, .trunkLinkUp 0⟩, latches := 0 }

theorem meets_NoticesAndLatchesAreQueuedOrLost : demo.notices.length < 256 ∧ 256 ≤ crowded.notices.length
    ∧ crowded.latchSet .noticeOverflow = false ∧ demo.latchSet .reset = true ∧ demo.latchSet .controlLinkError = false := by
  refine ⟨by decide, ?_, by decide, by decide, by decide⟩
  exact Nat.le_of_eq (List.length_replicate (n := 256)).symm

/-- Counts 1 and 8, and 0 and 9; READY, with the first and the last of its capacities. -/
theorem meets_ReadNoticesTakesTheOldest :
    let sizes : Capacities := ⟨256, 16384, 65536, 128, 64, 2048, 128, 64, 256, 8192, 4096⟩
    demo.Takes head ∧ (1 ≤ 1 ∧ 1 ≤ 8) ∧ (1 ≤ 8 ∧ 8 ≤ 8) ∧ ¬ (1 ≤ 0 ∧ 0 ≤ 8) ∧ ¬ (1 ≤ 9 ∧ 9 ≤ 8)
    ∧ State.reset.notices = [⟨0, .ready .powerOn sizes 0x01#8⟩] ∧ sizes.list[0]? = some 256 ∧ sizes.list[10]? = some 4096 :=
  ⟨demo_takes, by decide, by decide, by decide, by decide, rfl, rfl, rfl⟩

theorem meets_SnapAndUnsnapMakeAndDiscardTheView :
    demo.Takes head ∧ demo.view = none ∧ { demo with view := some ⟨Table.empty, 5⟩ }.view = some ⟨Table.empty, 5⟩ :=
  ⟨demo_takes, rfl, rfl⟩

/-- Scopes on both sides of each bound; with a view and without one. -/
theorem meets_ReadStatsReadsTheViewWhileItStands : demo.Takes head
    ∧ (∃ n, StatsScope.cell 255 = .cell n ∧ n < 256) ∧ (∃ n, StatsScope.cell 256 = .cell n ∧ 256 ≤ n)
    ∧ (∃ n, StatsScope.trunk 7 = .trunk n ∧ n < 8) ∧ (∃ n, StatsScope.trunk 8 = .trunk n ∧ 8 ≤ n)
    ∧ (∃ n, StatsScope.channel 63 = .channel n ∧ n < 64) ∧ (∃ n, StatsScope.channel 64 = .channel n ∧ 64 ≤ n)
    ∧ demo.view = none ∧ { demo with view := some ⟨Table.empty, 5⟩ }.view = some ⟨Table.empty, 5⟩ :=
  ⟨demo_takes, ⟨_, rfl, by decide⟩, ⟨_, rfl, by decide⟩, ⟨_, rfl, by decide⟩, ⟨_, rfl, by decide⟩, ⟨_, rfl, by decide⟩,
    ⟨_, rfl, by decide⟩, rfl, rfl⟩

/-! ### Cells, polls, trunks -/

theorem meets_ConfigureCellFollowsItsTable : demo.Takes head ∧ 255 < 256 ∧ demo.cells.look 255 = none
    ∧ (∃ c, demo.cells.look 0 = some c ∧ c.kind = .seat) ∧ ∃ c, demo.cells.look 0 = some c ∧ c.kind ≠ .gate :=
  ⟨demo_takes, by decide, rfl, ⟨_, rfl, rfl⟩, _, rfl, by decide⟩

/-- Cell 64 serves no one; cell 0 has station 0, and its handover to cell 1 is forced with cell 0 and cancelled with cell 1. -/
theorem meets_RemoveCellDiscardsTheCell : demo.Takes head ∧ demo.cells.look 255 = none
    ∧ (∃ c, demo.cells.look 64 = some c) ∧ (∀ e ∈ demo.stations.entries, e.2.place.associatedAt 64 = false)
    ∧ (∀ e ∈ demo.handovers.entries, e.2.oldCell ≠ 64 ∧ e.2.newCell ≠ 64) ∧ demo.notices.length < Config.notices
    ∧ demo.Fits ∧ demo.HandoverLaw ∧ (∃ c, demo.cells.look 0 = some c ∧ c.state ≠ .down)
    ∧ (∃ c, demo.cells.look 1 = some c ∧ c.state ≠ .down) ∧ (∃ st, demo.stations.look 0 = some st ∧ st.place = .associated 0 1990000)
    ∧ demo.handovers.look 1 = some ⟨0, 1, 1999850⟩ ∧ ∃ st, demo.stations.look 1 = some st ∧ st.place = .moving 0 1990000 :=
  ⟨demo_takes, rfl, ⟨_, rfl⟩, by decide, by decide, by decide, demo_fits, demo_handoverLaw, ⟨_, rfl, by decide⟩, ⟨_, rfl, by decide⟩,
    ⟨_, rfl, rfl⟩, rfl, _, rfl, rfl⟩

/-- Each query: a number out of range, an absent record, a record; the bound station of ticket 7, the claim parked for 20, a purge. -/
theorem meets_QueriesReportAndChangeNothing : demo.Takes head ∧ 256 ≤ 256 ∧ demo.cells.look 255 = none
    ∧ (∃ c, demo.cells.look 0 = some c) ∧ 16384 ≤ (16384#16).toNat ∧ (16383#16).toNat < 16384
    ∧ demo.stations.look (16383#16).toNat = none ∧ isGroup 0x010000000000#48 = true ∧ demo.stationWith 12 = none
    ∧ (12 : Addr) ≠ 0 ∧ isGroup 12 = false ∧ (4 : Addr) ≠ 0 ∧ isGroup 4 = false
    ∧ (∃ st, demo.stations.look (1#16).toNat = some st ∧ demo.stationWith 4 = some (1, st))
    ∧ (5 : TicketNumber) ≠ 0 ∧ demo.purge = none ∧ { demo with purge := some ⟨1, 0, 0, 1⟩ }.Takes head ∧ { demo with purge := some ⟨1, 0, 0, 1⟩ }.purge ≠ none
    ∧ demo.ticket 20 = none ∧ (∃ k, demo.ticket 7 = some k ∧ k.state = .seated 0)
    ∧ 64 ≤ 64 ∧ 63 < 64 ∧ 255 < 256 :=
  ⟨demo_takes, by decide, rfl, ⟨_, rfl⟩, by decide, by decide, rfl, by decide, by decide, by decide, by decide, by decide, by decide,
    ⟨_, rfl, rfl⟩, by decide, rfl, ⟨rfl, rfl⟩, by decide, rfl, ⟨_, rfl, rfl⟩, by decide, by decide, by decide⟩

/-- A poll due now, one that reached its overdue point, and one not due for 100 ms; polls that cannot fall due: in CONFIG, on a HELD and on a
LINK DOWN trunk, queued, without a due time; one a millisecond before its overdue point; records that are absent. -/
theorem meets_TimedEventsOpenTheArbiter :
    (∃ c, demo.cells.look 1 = some c ∧ c.due = some 2000000 ∧ demo.time.service = .service
      ∧ (demo.trunk (1 / 32)).state = .active ∧ c.queued = .none ∧ (demo.time.clock - 2000000).toNat < 2 ^ 31)
    ∧ (∃ c, demo.cells.look 32 = some c ∧ c.due = some 1999900 ∧ c.queued = .onTime
      ∧ (demo.time.clock - 1999900).toNat < 2 ^ 31 ∧ demo.settings.timers.poll / 4 ≤ (demo.time.clock - 1999900).toNat)
    ∧ (∃ c, demo.cells.look 0 = some c ∧ c.due = some 2000100 ∧ 2 ^ 31 ≤ (demo.time.clock - 2000100).toNat)
    ∧ (∃ c, demo.copies.look 0 = some c) ∧ (∃ st, demo.stations.look 0 = some st)
    ∧ idle.time.service = .config ∧ (∃ c, demo.cells.look 64 = some c ∧ (demo.trunk (64 / 32)).state = .held)
    ∧ (∃ c, demo.cells.look 96 = some c ∧ (demo.trunk (96 / 32)).state = .linkDown)
    ∧ (∃ c, demo.cells.look 32 = some c ∧ c.queued ≠ .none) ∧ (∃ c, demo.cells.look 0 = some c ∧ c.queued ≠ .onTime)
    ∧ (∃ c, { demo with cells := ⟨[(0, { cellRec .seat 0 0 0 with due := none })]⟩ }.cells.look 0 = some c ∧ c.due = none)
    ∧ (∃ c, { demo with cells := ⟨[(0, { cellRec .seat 1999976 0 0 with queued := .onTime })]⟩ }.cells.look 0 = some c
      ∧ c.due = some 1999976 ∧ (demo.time.clock - 1999976).toNat + 1 = demo.settings.timers.poll / 4)
    ∧ demo.cells.look 255 = none ∧ demo.copies.look 2047 = none ∧ demo.stations.look 16383 = none :=
  ⟨⟨_, rfl, rfl, rfl, by decide, rfl, by decide⟩, ⟨_, rfl, rfl, rfl, by decide, by decide⟩, ⟨_, rfl, rfl, by decide⟩,
    ⟨_, rfl⟩, ⟨_, rfl⟩, rfl, ⟨_, rfl, by decide⟩, ⟨_, rfl, by decide⟩, ⟨_, rfl, by decide⟩, ⟨_, rfl, by decide⟩, ⟨_, rfl, rfl⟩,
    ⟨_, rfl, rfl, by decide⟩, rfl, rfl, rfl⟩

/-- Cell 2 is DOWN; cell 0 of `missing` has missed two POLLs and serves what `demo`'s does. -/
theorem meets_APollSentSettlesThePreviousOne :
    let missing := { demo with cells := ⟨[(0, { cellRec .seat 2000000 100 2 with state := .silent, missed := 2, awaited := true }),
      (1, cellRec .gate 2000000 0 1)]⟩ }
    (∃ c, demo.cells.look 2 = some c ∧ c.missed = 3 ∧ c.missed ≤ 3 ∧ c.awaited = false)
    ∧ missing.HandoverLaw ∧ missing.notices.length < Config.notices
    ∧ ∃ c, missing.cells.look 0 = some c ∧ c.missed = 2 ∧ c.missed ≤ 3 ∧ c.awaited = true :=
  ⟨⟨_, rfl, rfl, by decide, rfl⟩, { demo_handoverLaw with }, by decide, _, rfl, rfl, by decide, rfl⟩

/-- `demo` with a FLUSH copy of channel 1 at cell 0, two entries waiting in it. -/
def marked : State :=
  { demo with
    cells := ⟨[(0, cellRec .seat 2000100 200 2), (1, cellRec .gate 2000000 0 1)]⟩
    pools := ⟨⟨[(0, ⟨.replay, [1], 2⟩)]⟩, Table.empty⟩
    copies := ⟨[(0, copy 0 0 .active 0 100 0 []), (1, copy 1 0 .active 0 100 1 [⟨.short, 0⟩, ⟨.short, 0⟩])]⟩ }

set_option maxRecDepth 20000 in
theorem marked_fits : marked.Fits := fits_of_check (by decide)

/-- A heard list of one phone, station 0, at cell 0, with either mark; in `marked` a copy of each recovery code, and a mark that brings M
from 200 to 150. -/
theorem meets_APollReplyBringsItsCellToActive : demo.Fits ∧ (demo.trunk (msg 0 0 0 8).trunk.val).state = .active
    ∧ demo.time.service = .service ∧ (msg 0 0 0 8).slot.toNat < 32
    ∧ (msg 0 0 0 8).frameLength = 10 + (msg 0 0 0 8).bodyLength.toNat
    ∧ (msg 0 0 0 8).bodyLength.toNat = 2 + 6 * (1#8).toNat ∧ (1#8).toNat ≤ 64 ∧ [(2 : Addr)].length = (1#8).toNat
    ∧ (∃ c, demo.cells.look (cellOf (msg 0 0 0 8)) = some c) ∧ demo.notices.length < Config.notices
    ∧ (∃ st, demo.stationWith 2 = some (0, st) ∧ st.addr = 2 ∧ st.place.associatedAt 0 = true)
    ∧ (∃ st, demo.stations.look 3 = some st ∧ st.place.associatedAt 0 = false)
    ∧ marked.Fits ∧ (∃ c, marked.cells.look 0 = some c ∧ c.account.m = 200)
    ∧ (∃ k ch, marked.copies.look 0 = some k ∧ k.cell = 0 ∧ k.state = .active ∧ marked.channels.look k.channel = some ch
      ∧ (pressed ⟨54, 60, 400, 120000, 200, 2⟩ ch k).load = 50)
    ∧ ∃ k ch, marked.copies.look 1 = some k ∧ k.cell = 0 ∧ k.state = .active ∧ marked.channels.look k.channel = some ch
      ∧ ch.recovery = .flush ∧ k.queue.length = 2 ∧ pressed ⟨54, 60, 400, 120000, 200, 2⟩ ch k = { k with queue := [] } :=
  ⟨demo_fits, by decide, rfl, by decide, by decide, by decide, by decide, by decide, ⟨_, rfl⟩, by decide,
    ⟨_, rfl, rfl, rfl⟩, ⟨_, rfl, rfl⟩, marked_fits, ⟨_, rfl, rfl⟩, ⟨_, _, rfl, rfl, rfl, rfl, by decide⟩, _, _, rfl, rfl, rfl, rfl,
    rfl, rfl, by decide⟩

/-- A message at each trunk state, and each reason to discard it at its bound; a message malformed by each bound of its kind, and the
message on the other side of it; backbone frames of each type at the lengths where they turn malformed or oversize. -/
theorem meets_DiscardedFramesOnlyCount :
    messageOf (.depart (msg 0 0 2 0)) = some (msg 0 0 2 0) ∧ (demo.trunk 3).state = .linkDown ∧ (demo.trunk 2).state = .held
    ∧ (demo.trunk 0).state = .active ∧ idle.time.service = .config ∧ 2048 < (msg 0 0 2 2049).bodyLength.toNat
    ∧ (msg 0 0 2 2048).bodyLength.toNat ≤ 2048 ∧ 31 < (msg 0 32 2 0).slot.toNat ∧ demo.cells.look (cellOf (msg 0 31 2 0)) = none
    ∧ (∃ k, demo.cells.look (cellOf (msg 0 2 2 0)) = some k ∧ k.state = .down)
    ∧ (BadForm (.attachRequest (msg 0 0 2 1)) ∧ ¬ BadForm (.attachRequest (msg 0 0 2 0)) ∧ BadForm (.releaseDone (msg 0 0 2 0) 0)
      ∧ ¬ BadForm (.releaseDone (msg 0 0 2 1) 0) ∧ BadForm (.depart (msg 0 0 2 1)) ∧ ¬ BadForm (.depart (msg 0 0 2 0)))
    ∧ (BadForm (.pollReply (msg 0 0 0 2) 2 0 []) ∧ ¬ BadForm (.pollReply (msg 0 0 0 2) 1 0 []) ∧ BadForm (.pollReply (msg 0 0 0 3) 1 0 [])
      ∧ BadForm (.pollReply (msg 0 0 0 392) 1 65 []) ∧ ¬ BadForm (.pollReply (msg 0 0 0 386) 1 64 []))
    ∧ (BadForm (.ticketClaim (msg 0 1 8 11) 0 1 0) ∧ BadForm (.ticketClaim (msg 0 1 8 11) 4 1 0) ∧ BadForm (.ticketClaim (msg 0 1 8 11) 3 0 0)
      ∧ BadForm (.ticketClaim (msg 0 1 8 10) 3 1 0) ∧ ¬ BadForm (.ticketClaim (msg 0 1 8 11) 3 1 0)
      ∧ ¬ BadForm (.ticketClaim (msg 0 1 8 11) 1 1 0))
    ∧ (BadForm (.join (msg 0 0 2 1) 64) ∧ ¬ BadForm (.join (msg 0 0 2 1) 63) ∧ BadForm (.join (msg 0 0 2 2) 63)
      ∧ BadForm (.leave (msg 0 0 2 1) 64) ∧ ¬ BadForm (.leave (msg 0 0 2 1) 63) ∧ BadForm (.leave (msg 0 0 2 0) 63))
    ∧ (BadForm (.stationDataUp (msg 0 0 2 0) []) ∧ BadForm (.stationDataUp (msg 0 0 2 2) [1]) ∧ ¬ BadForm (.stationDataUp (msg 0 0 2 1) [1]))
    ∧ demo.backbone.up = true ∧ { demo with backbone := ⟨false, [], none⟩ }.backbone.up = false
    ∧ demo.settings.replayType = 0x88B0#16 ∧ demo.time.service = .service
    ∧ (∀ bytes : List Byte, IsBackboneFrame (.replayFrame 1 9 0x88B0#16 0x10#16 bytes) 0x88B0#16 (2 + bytes.length)
      ∧ IsBackboneFrame (.stationDownlinkFrame 2 9 0x0800#16 bytes) 0x0800#16 bytes.length)
    ∧ (14 + (2 + ([] : List Byte).length) < 17 ∧ ¬ 14 + (2 + ([7] : List Byte).length) < 17)
    ∧ (2048 < 2 + (List.replicate 2049 (0 : Byte)).length - 2 ∧ ¬ 2048 < 2 + (List.replicate 2048 (0 : Byte)).length - 2)
    ∧ (14 + ([] : List Byte).length < 15 ∧ ¬ 14 + ([7] : List Byte).length < 15)
    ∧ 2048 < (List.replicate 2049 (0 : Byte)).length ∧ ¬ 2048 < (List.replicate 2048 (0 : Byte)).length := by
  refine ⟨rfl, by decide, by decide, by decide, rfl, by decide, by decide, by decide, rfl, ⟨_, rfl, rfl⟩, ?_, ?_, ?_, ?_, ?_, rfl, rfl,
    rfl, rfl, fun bytes => ⟨.inr ⟨_, _, _, _, rfl, rfl⟩, .inl ⟨_, _, _, rfl, rfl⟩⟩, by decide, ?_, by decide, ?_⟩
  iterate 5 (simp only [BadForm]; decide)
  · simp only [List.length_replicate]; decide
  · simp only [List.length_replicate]; decide

/-- Cell 0 of `demo`, whose M is the load of its one copy; P changed and kept. -/
theorem meets_SetCellAirtimeStoresItsSettings : demo.Takes head ∧ demo.Fits ∧ demo.cells.look 255 = none
    ∧ (∃ c, demo.cells.look 0 = some c ∧ c.account.p = 54 ∧ max 6 (min 600 36) ≠ c.account.p ∧ max 6 (min 600 54) = c.account.p)
    ∧ demo.LoadsLaw 0 ∧ (⟨true, false, false, false, false⟩ : AirtimeMask).unknownBit = false
    ∧ ∃ k ch, demo.copies.look 0 = some k ∧ k.cell = 0 ∧ demo.channels.look k.channel = some ch := by
  refine ⟨demo_takes, demo_fits, rfl, ⟨_, rfl, rfl, by decide, by decide⟩, ⟨?_, ?_⟩, rfl, _, _, rfl, rfl, rfl⟩
  · intro a n c ch ha hn _ hch
    obtain rfl := Option.some.inj ha
    have := lookIn_mem hn
    simp only [demo, List.mem_cons, List.not_mem_nil, or_false, Prod.mk.injEq] at this
    obtain ⟨_, rfl⟩ := this
    obtain rfl := Option.some.inj hch
    decide
  · intro a ha
    obtain rfl := Option.some.inj ha
    decide

/-- The cell of section 9.8: an ACTIVE copy of channel 5 with load `m`, and a HELD or REDUCED copy of `channel`. -/
def served (channel m : Nat) (st : CopyState) (tier : TierName) : State :=
  cell37 [(210, copy 5 37 .active 0 m 0 []), (211, { copy channel 37 st 0 40 1 [] with tier := tier })]
    (if st = .active then m + 40 else m)

/-- Above and within the budget of 400: a newest copy of channel 3 at 500 to demote; newest copies to hold, one of a channel with no
reduced tier, one at the 40 of its reduced tier, one REDUCED. A HELD copy of channel 3 (full load 100, reduced load 40) at M 300, 301, 360 and 361, a HELD
copy of channel 5 at M 300 with no reduced tier in play, a REDUCED copy of channel 3 at M 340 and 341; a trunk that is not ACTIVE. -/
theorem meets_SheddingBringsTheLoadWithinTheBudget :
    let s := cell37 [(210, copy 3 37 .active 0 500 0 [])] 500
    let a : Account := ⟨54, 60, 400, 120000, 0, 7⟩
    s.copies.wf = true ∧ s.account 37 = some { a with m := 500 } ∧ 500 = s.activeLoad 37 ∧ ¬ 500 ≤ 400
    ∧ (∃ c ch r, s.copies.look 210 = some c ∧ c.cell = 37 ∧ c.state = .active ∧ s.channels.look c.channel = some ch ∧ c.tier = .full
      ∧ ch.reduced = some r ∧ loadAt a r 0 < c.load
      ∧ ∀ j d, s.copies.look j = some d → d.cell = 37 → d.state = .active → j = 210 ∨ d.stamp.toNat < c.stamp.toNat)
    ∧ (∀ k ∈ [(5, 41, TierName.full), (3, 40, .full), (3, 41, .reduced)], ∀ x, x = cell37 [(210, copy 8 37 .active 0 400 0 []),
        (211, { copy k.1 37 .active 0 k.2.1 1 [] with tier := k.2.2 })] (400 + k.2.1) →
      x.copies.wf = true ∧ x.account 37 = some { a with m := 400 + k.2.1 } ∧ 400 + k.2.1 = x.activeLoad 37 ∧ 400 < 400 + k.2.1
      ∧ (∀ n c, x.copies.look n = some c → c.cell = 37 → (x.channels.look c.channel).isSome = true)
      ∧ ∃ c ch, x.copies.look 211 = some c ∧ c.cell = 37 ∧ c.state = .active ∧ x.channels.look c.channel = some ch
        ∧ (∀ r, c.tier = .full → ch.reduced = some r → c.load ≤ loadAt a r 0)
        ∧ ∀ j d, x.copies.look j = some d → d.cell = 37 → d.state = .active → j = 211 ∨ d.stamp.toNat < c.stamp.toNat)
    ∧ (∀ n c, s.copies.look n = some c → c.cell = 37 → (s.channels.look c.channel).isSome = true)
    ∧ (∃ a, demo.account 0 = some a ∧ a.m = demo.activeLoad 0 ∧ a.m ≤ a.b) ∧ (demo.trunk (32 / 32)).state ≠ .active
    ∧ loadAt a ⟨0x0301#16, 1200, 4000⟩ 0 = 100 ∧ loadAt a ⟨0x0302#16, 1000, 1500⟩ 0 = 40
    ∧ (∀ m ∈ [300, 301, 360, 361], ∀ x, x = served 3 m .held .full → x.account 37 = some { a with m := m } ∧ m = x.activeLoad 37
      ∧ m ≤ 400 ∧ x.copies.wf = true ∧ x.stations.wf = true ∧ (x.trunk (37 / 32)).state = .active
      ∧ (∀ n c, x.copies.look n = some c → c.cell = 37 → (x.channels.look c.channel).isSome = true)
      ∧ ∃ c ch, x.copies.look 211 = some c ∧ c.cell = 37 ∧ c.state = .held ∧ x.channels.look c.channel = some ch
        ∧ ∀ j d, x.copies.look j = some d → d.cell = 37 → d.state = .held → j = 211 ∨ c.stamp.toNat < d.stamp.toNat)
    ∧ (∀ n c, (served 5 300 .held .full).copies.look n = some c → ∃ ch,
      (served 5 300 .held .full).channels.look c.channel = some ch ∧ ch.reduced = none ∧ c.tier = .full)
    ∧ ∀ m ∈ [300, 301], ∀ x, x = served 3 m .active .reduced → x.account 37 = some { a with m := m + 40 }
      ∧ m + 40 = x.activeLoad 37 ∧ (∀ j d, x.copies.look j = some d → d.cell = 37 → d.state = .active)
      ∧ ∃ c, x.copies.look 211 = some c ∧ c.cell = 37 ∧ c.tier = .reduced
        ∧ ∀ j d, x.copies.look j = some d → d.cell = 37 → d.tier = .reduced → j = 211 ∨ c.stamp.toNat < d.stamp.toNat := by
  refine ⟨by decide, by decide, by decide, by decide,
    ⟨_, _, _, rfl, rfl, rfl, rfl, rfl, rfl, by decide, Table.records (by decide)⟩, ?_, Table.records (by decide),
    ⟨_, rfl, by decide, by decide⟩, by decide, by decide, by decide, ?_, Table.records (by
      intro e he
      rcases List.mem_cons.mp he with rfl | he
      · exact ⟨_, rfl, rfl, rfl⟩
      · obtain rfl := List.mem_singleton.mp he
        exact ⟨_, rfl, rfl, rfl⟩), ?_⟩
  · intro k hk x hx
    simp only [List.mem_cons, List.not_mem_nil, or_false] at hk
    subst hx
    rcases hk with rfl | rfl | rfl <;>
      refine ⟨by decide, rfl, by decide, by decide, Table.records (by decide), _, _, rfl, rfl, rfl, rfl, ?_, Table.records (by decide)⟩
    · intro r _ hr; cases hr
    · intro r _ hr; obtain rfl := Option.some.inj hr; decide
    · intro r ht _; cases ht
  · intro m hm x hx
    simp only [List.mem_cons, List.not_mem_nil, or_false] at hm
    subst hx
    rcases hm with rfl | rfl | rfl | rfl <;>
      exact ⟨rfl, by decide, by decide, by decide, by decide, by decide, Table.records (by decide), _, _, rfl, rfl, rfl, rfl,
        Table.records (by decide)⟩
  · intro m hm x hx
    simp only [List.mem_cons, List.not_mem_nil, or_false] at hm
    subst hx
    rcases hm with rfl | rfl <;> exact ⟨rfl, by decide, Table.records (by decide), _, rfl, rfl, rfl, Table.records (by decide)⟩

theorem meets_SetClassWeightsReweighsEveryStation : demo.Takes head := demo_takes

/-- In CONFIG, and for trunks in each state; a copy that is held, and one that stays; a station on T0, one on T1, one DORMANT. -/
theorem meets_HoldTrunkStartsTheDrain : demo.Takes head ∧ demo.Fits ∧ 7 < 8 ∧ 8 ≤ 8 ∧ idle.time.service = .config
    ∧ demo.time.service = .service ∧ (demo.trunk 3).state = .linkDown ∧ (demo.trunk 1).state = .draining
    ∧ (demo.trunk 2).state = .held ∧ (demo.trunk 0).state = .active
    ∧ (∃ c, demo.copies.look 0 = some c ∧ c.state = .active ∧ c.cell / 32 = 0 ∧ c.cell / 32 ≠ 1
      ∧ (demo.account c.cell).isSome = true ∧ (demo.channels.look c.channel).isSome = true ∧ demo.activeOn 0 = [(0, c)])
    ∧ (∃ st, demo.stations.look 0 = some st ∧ st.place.cell? = some 0 ∧ st.members = [⟨0, .full⟩])
    ∧ (∃ st, demo.stations.look 4 = some st ∧ st.place.cell? = some 32)
    ∧ ∃ st, demo.stations.look 2 = some st ∧ st.place.cell? = none :=
  ⟨demo_takes, demo_fits, by decide, by decide, rfl, rfl, by decide, by decide, by decide, by decide,
    ⟨_, rfl, rfl, rfl, by decide, by decide, by decide, by decide⟩, ⟨_, rfl, rfl, rfl⟩, ⟨_, rfl, rfl⟩, _, rfl, rfl⟩

/-- In CONFIG, and for trunks in each state; T1 DRAINING and T2 HELD since 1,000,000, each with a configured cell and with records that lie
off it; a station counted on T2. -/
theorem meets_ReleaseTrunkEndsTheHold : demo.Takes head ∧ demo.Fits ∧ 7 < 8 ∧ 8 ≤ 8 ∧ idle.time.service = .config
    ∧ demo.time.service = .service ∧ (demo.trunk 3).state = .linkDown ∧ (demo.trunk 0).state = .active
    ∧ (demo.trunk 1).state = .draining ∧ demo.notices.length < Config.notices
    ∧ (demo.trunk 2).state = .held ∧ (demo.trunk 2).heldSince = some 1000000 ∧ (∃ c, demo.cells.look 64 = some c)
    ∧ (∃ c, demo.cells.look 32 = some c) ∧ (∃ c, demo.copies.look 0 = some c ∧ c.cell / 32 ≠ 1 ∧ c.cell / 32 ≠ 2)
    ∧ ∃ st, { demo with stations := ⟨[(5, phone 12 64 1990000)]⟩ }.stations.look 5 = some st ∧ st.place.cell? = some 64 :=
  ⟨demo_takes, demo_fits, by decide, by decide, rfl, rfl, by decide, by decide, by decide, by decide, by decide, by decide,
    ⟨_, rfl⟩, ⟨_, rfl⟩, ⟨_, rfl, by decide, by decide⟩, _, rfl, rfl⟩

/-- `demo` with its handover from cell 0 to cell 32. -/
def crossing : State := { demo with handovers := ⟨[(1, ⟨0, 32, 1999850⟩)]⟩ }

theorem crossing_law : crossing.HandoverLaw where
  moving := Table.records (t := crossing.handovers) (by
    intro e he
    obtain rfl := List.mem_singleton.mp he
    exact ⟨_, _, rfl, rfl, by decide⟩)
  record := Table.records (t := crossing.stations) (by
    intro e he
    simp only [crossing, demo, List.mem_cons, List.not_mem_nil, or_false] at he
    rcases he with rfl | rfl | rfl | rfl | rfl <;> decide)

theorem demo_lost (n : Nat) : n ∈ [0, 1] ↔ n / 32 = 0 ∧ ∃ c, demo.cells.look n = some c ∧ c.state ≠ .down := by
  constructor
  · intro h
    simp only [List.mem_cons, List.not_mem_nil, or_false] at h
    rcases h with rfl | rfl
    · exact ⟨rfl, _, rfl, by decide⟩
    · exact ⟨rfl, _, rfl, by decide⟩
  · rintro ⟨h, c, hc, hd⟩
    have := lookIn_mem hc
    simp only [demo, List.mem_cons, List.not_mem_nil, or_false, Prod.mk.injEq] at this
    rcases this with ⟨rfl, _⟩ | ⟨rfl, _⟩ | ⟨_, rfl⟩ | ⟨rfl, _⟩ | ⟨rfl, _⟩ | ⟨rfl, _⟩
    · simp
    · simp
    · exact absurd rfl hd
    · exact absurd h (by decide)
    · exact absurd h (by decide)
    · exact absurd h (by decide)

theorem crossing_room : crossing.CarryRoom where
  copies := by decide
  channels := fun i st x hs hm hx => by
    have := lookIn_mem hs
    simp only [crossing, demo, List.mem_cons, List.not_mem_nil, or_false, Prod.mk.injEq] at this
    rcases this with ⟨_, rfl⟩ | ⟨_, rfl⟩ | ⟨_, rfl⟩ | ⟨_, rfl⟩ | ⟨_, rfl⟩ <;> simp [phone, Place.isMoving] at hm hx
  cells := Table.records (t := crossing.handovers) (by decide)

set_option maxRecDepth 20000 in
/-- T0 is lost with a handover inside it, and once more without a handover in flight; of a handover from T0 to T1, either trunk is lost;
T3 is restored. -/
theorem meets_TrunkLinkLossAndRestore :
    let still := { demo with handovers := Table.empty, stations := ⟨[(3, phone 8 1 1970000)]⟩ }
    demo.Fits ∧ (demo.trunk 3).state = .linkDown ∧ (demo.trunk 0).state ≠ .linkDown
      ∧ still.Fits ∧ (still.trunk 0).state ≠ .linkDown ∧ still.handovers.entries = []
      ∧ (∃ st, still.stations.look 3 = some st ∧ st.place = .associated 1 1970000)
      ∧ (∃ c, still.cells.look 1 = some c ∧ c.state ≠ .down) ∧ demo.notices.length < Config.notices
      ∧ demo.HandoverLaw ∧ (∃ st, demo.stations.look 1 = some st ∧ st.place = .moving 0 1990000)
      ∧ demo.handovers.look 1 = some ⟨0, 1, 1999850⟩ ∧ (∃ c, demo.cells.look 0 = some c ∧ c.state ≠ .down)
      ∧ (∃ c, demo.cells.look 1 = some c ∧ c.state ≠ .down)
      ∧ crossing.Fits ∧ crossing.HandoverLaw ∧ (crossing.trunk 0).state ≠ .linkDown ∧ (crossing.trunk 1).state ≠ .linkDown
      ∧ crossing.handovers.look 1 = some ⟨0, 32, 1999850⟩ ∧ ∃ c, crossing.cells.look 32 = some c ∧ c.state ≠ .down :=
  ⟨demo_fits, by decide, by decide, fits_of_check (by decide), by decide, rfl, ⟨_, rfl, rfl⟩, ⟨_, rfl, by decide⟩, by decide,
    demo_handoverLaw, ⟨_, rfl, rfl⟩, rfl, ⟨_, rfl, by decide⟩, ⟨_, rfl, by decide⟩, fits_of_check (by decide), crossing_law, by decide,
    by decide, rfl, _, rfl, by decide⟩

/-- T0 and its cells 0 and 1, of which 2 is DOWN already; T1 DRAINING, a latch clear and one set; of a handover to T1 its grant; the member
counts and the account of cell 0. -/
theorem meets_TrunkLinkLossAndRestore_leaves : [0, 1].Pairwise (· < ·)
    ∧ (∀ n, n ∈ [0, 1] ↔ n / 32 = 0 ∧ ∃ c, demo.cells.look n = some c ∧ c.state ≠ .down)
    ∧ demo.notices.length + [0, 1].length + 3 ≤ Config.notices ∧ (demo.trunk 1).state = .draining ∧ demo.latchSet (.trunkLinkLost 0) = false
    ∧ { demo with latches := 0x2 }.latchSet (.trunkLinkLost 0) = true ∧ demo.MembersLaw
    ∧ (∃ a, demo.account 0 = some a ∧ a.m = demo.activeLoad 0 ∧ a.w = demo.countedWeight 0)
    ∧ crossing.HandoverLaw ∧ crossing.CarryRoom
    ∧ [0, 1].flatMap (fun n => crossing.grantsOf (fun h => h.oldCell == n) (fun h => h.newCell == n)) = [⟨32, 4, .attachGrant 1⟩]
    ∧ ∀ k, crossing.RoomFor [⟨32, 4, .attachGrant 1⟩] k :=
  ⟨by decide, demo_lost, by decide, by decide, by decide, by decide, Table.records (by decide), ⟨_, rfl, by decide, by decide⟩,
    crossing_law, crossing_room, by decide, demo_quiet _ rfl _ (by decide)⟩

/-- `demo` with a handover from cell 32 of T1, which is DRAINING, to cell 1, and one from cell 0 to cell 32. -/
def parting : State :=
  { demo with
    stations := ⟨[(1, { phone 4 0 1990000 with place := .moving 0 1990000 }),
      (4, { phone 10 32 1990000 with place := .moving 32 1990000 }), (5, phone 12 32 1990000)]⟩
    handovers := ⟨[(1, ⟨0, 32, 1999850⟩), (4, ⟨32, 1, 1999850⟩)]⟩ }

theorem parting_law : parting.HandoverLaw where
  moving := Table.records (t := parting.handovers) (by
    intro e he
    simp only [parting, List.mem_cons, List.not_mem_nil, or_false] at he
    rcases he with rfl | rfl <;> exact ⟨_, _, rfl, rfl, by decide⟩)
  record := Table.records (t := parting.stations) (by
    intro e he
    simp only [parting, List.mem_cons, List.not_mem_nil, or_false] at he
    rcases he with rfl | rfl | rfl <;> decide)

theorem parting_room : parting.CarryRoom where
  copies := by decide
  channels := fun i st x hs hm hx => by
    have := lookIn_mem hs
    simp only [parting, List.mem_cons, List.not_mem_nil, or_false, Prod.mk.injEq] at this
    rcases this with ⟨_, rfl⟩ | ⟨_, rfl⟩ | ⟨_, rfl⟩ <;> simp [phone] at hx
  cells := Table.records (t := parting.handovers) (by decide)

set_option maxRecDepth 20000 in
/-- T0 is not DRAINING, T1 is with its drain complete; of `parting`'s handovers one is forced and one cancelled, each with a grant for T0,
and a station stays on T1. -/
theorem meets_ACompleteDrainEntersHeld : demo.Fits ∧ demo.HandoverLaw ∧ (demo.trunk 0).state ≠ .draining
    ∧ (demo.trunk 1).state = .draining ∧ (demo.trunk 1).frame = none ∧ (demo.trunk 1).signals = []
    ∧ demo.notices.length < Config.notices ∧ parting.Fits ∧ parting.HandoverLaw ∧ parting.CarryRoom
    ∧ (∃ st, parting.stations.look 4 = some st ∧ st.place = .moving 32 1990000) ∧ parting.handovers.look 4 = some ⟨32, 1, 1999850⟩
    ∧ (∃ st, parting.stations.look 1 = some st ∧ st.place = .moving 0 1990000) ∧ parting.handovers.look 1 = some ⟨0, 32, 1999850⟩
    ∧ (∃ st, parting.stations.look 5 = some st ∧ st.place.cell? = some 32 ∧ parting.handovers.look 5 = none)
    ∧ (∀ n c, parting.copies.look n = some c → c.cell / 32 = 1 → c.queue = [])
    ∧ parting.grantsOf (fun h => h.oldCell / 32 == 1) (fun h => h.oldCell / 32 != 1 && h.newCell / 32 == 1) =
      [⟨1, 10, .attachGrant 4⟩, ⟨0, 4, .attachGrant 1⟩]
    ∧ ∀ k, parting.RoomFor [⟨1, 10, .attachGrant 4⟩, ⟨0, 4, .attachGrant 1⟩] k :=
  ⟨demo_fits, demo_handoverLaw, by decide, by decide, by decide, by decide, by decide, fits_of_check (by decide), parting_law,
    parting_room, ⟨_, rfl, rfl⟩, rfl, ⟨_, rfl, rfl⟩, rfl, ⟨_, rfl, rfl, rfl⟩, Table.records (by decide), by decide,
    demo_quiet _ rfl _ (by decide)⟩

theorem meets_FrameEndsReleaseTheirReference :
    let busy := { demo with
      trunks := ⟨[(0, { Trunk.atReset with frame := some (.stationDown 0 2 ⟨.short, 0⟩) })]⟩
      backbone := ⟨true, [], some ⟨⟨.long, 0⟩, 300, 2⟩⟩ }
    (demo.trunk 0).frame = none ∧ (busy.trunk 0).frame = some (.stationDown 0 2 ⟨.short, 0⟩)
      ∧ demo.backbone.frame = none ∧ busy.backbone.frame = some ⟨⟨.long, 0⟩, 300, 2⟩ := by decide

/-! ### Stations and handovers -/

/-- A station table with no FREE record, station 7 the one DORMANT if `dormant` says so. -/
def seats (dormant : Bool) : State :=
  { demo with
    stations := Table.upTo 16384 fun i =>
      { phone (BitVec.ofNat 48 (2 * i + 2)) 1 1990000 with place := if dormant && i == 7 then .dormant else .associated 1 1990000 } }

theorem seats_look (d : Bool) (j : Nat) : (seats d).stations.look j = if j < 16384 then some
    { phone (BitVec.ofNat 48 (2 * j + 2)) 1 1990000 with place := if d && j == 7 then .dormant else .associated 1 1990000 }
    else none := Table.look_upTo ..

theorem seats_fits (d : Bool) : (seats d).Fits :=
  demo_fits.stationsTo (Table.fits_upTo (Nat.le_refl _) fun _ _ => ⟨Nat.zero_le _, Nat.zero_le _, List.nodup_nil⟩)

theorem seats_unknown (d : Bool) : (seats d).stationWith 0xFE0000000000#48 = none := by
  apply List.find?_eq_none.mpr
  intro e he
  obtain ⟨h1, h2⟩ := Table.mem_upTo he
  rw [h2]
  simp only [phone, beq_iff_eq]
  intro h
  have := congrArg BitVec.toNat h
  simp at this
  omega

/-- Unknown phones: index 5 is the lowest FREE record of `demo`; of a full table 7 is reclaimed, or the phone is refused. -/
theorem meets_AnUnknownPhoneTakesARecord :
    let m := msg 0 1 0xFE0000000000#48 0
    NamesPhone m ∧ demo.Fits ∧ demo.Accepts m ∧ demo.stationWith m.addr = none ∧ demo.HasRoom (cellOf m)
      ∧ demo.stations.look 5 = none ∧ (∀ j, j < 5 → (demo.stations.look j).isSome = true)
      ∧ (∀ d, (seats d).Fits ∧ (seats d).Accepts m ∧ (seats d).stationWith m.addr = none ∧ (seats d).HasRoom (cellOf m)
        ∧ ∀ j, j < 16384 → ((seats d).stations.look j).isSome = true)
      ∧ (∃ st, (seats true).stations.look 7 = some st ∧ st.place = .dormant
        ∧ ∀ j x, (seats true).stations.look j = some x → x.place = .dormant →
          ((seats true).time.clock - x.lastHeard).toNat < ((seats true).time.clock - st.lastHeard).toNat
            ∨ (x.lastHeard = st.lastHeard ∧ 7 ≤ j))
      ∧ ∀ j, j < 16384 → ∃ st, (seats false).stations.look j = some st ∧ st.place ≠ .dormant := by
  refine ⟨⟨by decide, by decide⟩, demo_fits, demo_accepts 1 _ 0 (.inr rfl) (by decide), by decide, demo_room.2.1, rfl, by decide,
    fun d => ⟨seats_fits d, accepts (s := seats d) rfl (by cases d <;> decide), seats_unknown d,
      ⟨rfl, .inl rfl, by cases d <;> decide⟩,
      fun j hj => by simp [seats_look, hj]⟩, ⟨_, by rw [seats_look]; rfl, by decide, ?_⟩, fun j hj => ⟨_, by rw [seats_look, if_pos hj], by simp⟩⟩
  intro j x hx hd
  rw [seats_look] at hx
  split at hx
  · obtain rfl := Option.some.inj hx
    simp only [phone] at hd ⊢
    right
    refine ⟨trivial, ?_⟩
    by_cases h7 : j = 7
    · omega
    · simp [h7] at hd
  · simp at hx

/-- Stations 0 (here), 2 (DORMANT), 3 (elsewhere), 1 (MOVING: from its new cell, its old cell and another), 4 (from a DRAINING trunk). -/
theorem meets_AKnownPhoneAttachesByItsState :
    demo.Fits ∧ (∀ slot addr, slot = 0 ∨ slot = 1 → demo.Accepts (msg 0 slot addr 0))
    ∧ NamesPhone (msg 0 0 2 0) ∧ NamesPhone (msg 0 0 4 0) ∧ NamesPhone (msg 0 0 6 0) ∧ NamesPhone (msg 0 0 8 0)
    ∧ (∃ st, demo.stationWith 2 = some (0, st) ∧ st.place = .associated (cellOf (msg 0 0 2 0)) 1990000)
    ∧ (∃ st, demo.stationWith 6 = some (2, st) ∧ st.place = .dormant)
    ∧ (∃ st, demo.stationWith 8 = some (3, st) ∧ st.place = .associated 1 1970000 ∧ 1 ≠ cellOf (msg 0 0 8 0))
    ∧ demo.HasRoom 0 ∧ demo.HasRoom 1 ∧ demo.handovers.size < 128
    ∧ (let full := { demo with handovers := Table.upTo 128 fun _ => ⟨0, 1, 0⟩ }
      full.Fits ∧ 128 ≤ full.handovers.size ∧ (demo.trunk (1 / 32)).state = .active)
    ∧ (∃ st, demo.stationWith 4 = some (1, st) ∧ st.place = .moving 0 1990000) ∧ demo.handovers.look 1 = some ⟨0, 1, 1999850⟩
    ∧ cellOf (msg 0 1 4 0) = 1 ∧ cellOf (msg 0 0 4 0) = 0 ∧ cellOf (msg 1 0 4 0) = 32 ∧ demo.Accepts (msg 1 0 4 0)
    ∧ (∃ st, demo.stationWith 10 = some (4, st) ∧ st.place = .associated 32 1990000 ∧ st.members = []) ∧ NamesPhone (msg 0 0 10 0)
    ∧ (demo.trunk (32 / 32)).state = .draining ∧ 32 ≠ cellOf (msg 0 0 10 0) := by
  refine ⟨demo_fits, fun slot addr h => demo_accepts slot addr 0 h (by decide), ⟨by decide, by decide⟩, ⟨by decide, by decide⟩,
    ⟨by decide, by decide⟩, ⟨by decide, by decide⟩, ⟨_, rfl, rfl⟩, ⟨_, rfl, rfl⟩, ⟨_, rfl, rfl, by decide⟩, demo_room.1, demo_room.2.1,
    by decide, ⟨demo_fits.handoversTo (Table.wf_upTo ..) (Nat.le_of_eq (Table.size_upTo ..)), Nat.le_of_eq (Table.size_upTo ..).symm, by decide⟩, ⟨_, rfl, rfl⟩, rfl, rfl, rfl, rfl,
    accepts rfl (by decide), ⟨_, rfl, rfl, rfl⟩, ⟨by decide, by decide⟩, by decide, by decide⟩

/-- An unknown phone; station 3 has reached 30 s exactly; a DEPART from cell 1; one of station 0, the last member of a copy, from cell 0; stations 2 and 0 for the ones ignored; the MOVING station 1 departs from its
new cell and from a third. -/
theorem meets_DepartingAndAgingMakeAStationDormant : demo.Fits
    ∧ (demo.Accepts (msg 0 1 12 0) ∧ NamesPhone (msg 0 1 12 0) ∧ demo.stationWith 12 = none)
    ∧ (∃ st, demo.stations.look 3 = some st ∧ st.place = .associated 1 1970000 ∧ st.paused = false
      ∧ demo.settings.timers.dormant * 1000 ≤ (demo.time.clock - st.lastHeard).toNat ∧ demo.stationWith 8 = some (3, st))
    ∧ demo.Accepts (msg 0 1 8 0) ∧ NamesPhone (msg 0 1 8 0) ∧ cellOf (msg 0 1 8 0) = 1
    ∧ (∃ st, demo.stations.look 0 = some st ∧ st.place = .associated 0 1990000
      ∧ (demo.time.clock - st.lastHeard).toNat < demo.settings.timers.dormant * 1000
      ∧ demo.stationWith 2 = some (0, st) ∧ 0 ≠ cellOf (msg 0 1 2 0)) ∧ demo.Accepts (msg 0 1 2 0)
    ∧ (∃ st, demo.stations.look 2 = some st ∧ demo.stationWith 6 = some (2, st) ∧ st.place = .dormant)
    ∧ (∃ st, demo.stations.look 1 = some st ∧ demo.stationWith 4 = some (1, st) ∧ st.place = .moving 0 1990000)
    ∧ demo.handovers.look 1 = some ⟨0, 1, 1999850⟩ ∧ demo.Accepts (msg 0 1 4 0) ∧ NamesPhone (msg 0 1 4 0) ∧ cellOf (msg 0 1 4 0) = 1
    ∧ demo.Accepts (msg 1 0 4 0) ∧ cellOf (msg 1 0 4 0) = 32
    ∧ (demo.Accepts (msg 0 0 2 0) ∧ NamesPhone (msg 0 0 2 0) ∧ cellOf (msg 0 0 2 0) = 0
      ∧ ∃ st c, demo.stations.look 0 = some st ∧ demo.lastCopies st 0 = [(0, c)])
    ∧ ∃ st, demo.stations.look 2 = some st ∧ demo.settings.timers.expire * 1000 ≤ (demo.time.clock - st.lastHeard).toNat :=
  ⟨demo_fits, ⟨demo_accepts 1 12 0 (.inr rfl) (by decide), ⟨by decide, by decide⟩, by decide⟩, ⟨_, rfl, rfl, rfl, by decide, rfl⟩, demo_accepts 1 8 0 (.inr rfl) (by decide), ⟨by decide, by decide⟩, rfl,
    ⟨_, rfl, rfl, by decide, rfl, by decide⟩, demo_accepts 1 2 0 (.inr rfl) (by decide), ⟨_, rfl, rfl, rfl⟩,
    ⟨_, rfl, rfl, rfl⟩, rfl, demo_accepts 1 4 0 (.inr rfl) (by decide), ⟨by decide, by decide⟩, rfl, accepts rfl (by decide), rfl,
    ⟨demo_accepts 0 2 0 (.inl rfl) (by decide), ⟨by decide, by decide⟩, rfl, _, _, rfl, rfl⟩, _, rfl, by decide⟩

/-- Station 2 is past 600 s, and at 1,600 s of clock time not yet; indexes 16,384 and 16,383; a MOVING station to
evict, the last member of a copy, and a DORMANT one. -/
theorem meets_ExpiryAndEvictionFreeARecord :
    let earlier := { demo with time := ⟨.service, 1599999, 0, 0, 0, 1⟩ }
    demo.Takes head ∧ demo.Fits
    ∧ (∃ st, demo.stations.look 2 = some st ∧ st.place = .dormant
      ∧ demo.settings.timers.expire * 1000 ≤ (demo.time.clock - st.lastHeard).toNat
      ∧ (earlier.time.clock - st.lastHeard).toNat < earlier.settings.timers.expire * 1000) ∧ earlier.Fits
    ∧ 16384 ≤ (16384#16).toNat ∧ demo.stations.look (16383#16).toNat = none ∧ demo.stationWith 12 = none
    ∧ (∃ st k, demo.stations.look (1#16).toNat = some st ∧ demo.handovers.look 1 = some k ∧ st.place.isMoving = true
      ∧ demo.HasRoom k.newCell ∧ demo.stationWith 4 = some ((1#16).toNat, st) ∧ (4 : Addr) ≠ 0 ∧ isGroup 4 = false)
    ∧ (∃ st c, demo.stations.look (0#16).toNat = some st ∧ st.place.cell? = some 0 ∧ st.place.isMoving = false
      ∧ demo.lastCopies st 0 = [(0, c)])
    ∧ ∃ st, demo.stations.look (2#16).toNat = some st ∧ st.place = .dormant :=
  ⟨demo_takes, demo_fits, ⟨_, rfl, rfl, by decide, by decide⟩, { demo_fits with }, by decide, rfl, by decide,
    ⟨_, _, rfl, rfl, rfl, demo_room.2.1, rfl, by decide, by decide⟩, ⟨_, _, rfl, rfl, rfl, rfl⟩, _, rfl, rfl⟩

/-- A full copy table. -/
def copied : State :=
  { demo with
    channels := Table.upTo 64 fun _ => ⟨true, everyone, .recover4, ⟨0x10#16, 1200, 4000⟩, none⟩
    copies := Table.upTo 2048 fun n => copy (3 + n / 256) (n % 256) .held 0 100 0 [] }

theorem copied_fits : copied.Fits where
  __ := demo_fits
  channels := Table.fits_upTo (Nat.le_refl _) fun _ _ => trivial
  copies := Table.fits_upTo (Nat.le_refl _) fun _ _ => ⟨Nat.zero_le _, Nat.zero_le _⟩
  single := by
    intro n m c d hn hm h1 h2
    have hc : c = copy (3 + n / 256) (n % 256) .held 0 100 0 [] := (Table.mem_upTo (lookIn_mem hn)).2
    have hd : d = copy (3 + m / 256) (m % 256) .held 0 100 0 [] := (Table.mem_upTo (lookIn_mem hm)).2
    simp only [hc, hd, copy] at h1 h2
    omega
  named := Table.records fun e he => by
    obtain ⟨hn, h⟩ := Table.mem_upTo he
    simp only [h, copy, copied, Table.look_upTo]
    rw [if_pos (by omega)]
    rfl

/-- A full copy table of another channel, and a member of channel 0 that moves. -/
def crammed : State := { copied with stations := ⟨[(1, { phone 4 0 1990000 with place := .moving 0 1990000, members := [⟨0, .full⟩] })]⟩ }

theorem crammed_full : crammed.Fits ∧ 2048 ≤ crammed.copies.size
    ∧ (∃ st, crammed.stations.look 1 = some st ∧ st.members = [⟨0, .full⟩])
    ∧ ∀ n c, crammed.copies.look n = some c → c.channel ≠ 0 := by
  refine ⟨copied_fits.stationsTo (Table.fits_of (by decide) fun e he => ?_), by simp [crammed, copied], ⟨_, rfl, rfl⟩,
    Table.records fun e he => ?_⟩
  · obtain rfl := List.mem_singleton.mp he
    exact ⟨by decide, by decide, by decide, by decide⟩
  · obtain ⟨_, h⟩ := Table.mem_upTo he
    simp [h, copy]

/-- The trunk of its new cell in this state, with room for the grant and the verdict. -/
theorem crammed_told (d : TrunkState) :
    let s := { crammed with trunks := ⟨[(0, { Trunk.atReset with state := d })]⟩ }
    s.Fits ∧ (s.trunk 0).state = d ∧ (s.cells.look 1).isSome = true ∧ ∀ ms : List Signal, ms.length ≤ 2 → ∀ k, s.RoomFor ms k := by
  refine ⟨{ crammed_full.1 with trunks := by cases d <;> decide, trunk := State.trunks_all (fun e he => ?_) ⟨by decide, by decide⟩ }, rfl, rfl,
    fun ms hm k => ?_⟩
  · obtain rfl := List.mem_singleton.mp he
    exact ⟨Nat.zero_le _, Nat.zero_le _⟩
  · have h0 : (State.trunk { crammed with trunks := ⟨[(0, { Trunk.atReset with state := d })]⟩ } k).signals = [] :=
      State.trunks_all (p := fun t => t.signals = []) (fun e he => by obtain rfl := List.mem_singleton.mp he; rfl) rfl k
    unfold State.RoomFor State.trunkAfter
    split
    · simpa [h0] using Nat.le_trans (List.length_filter_le _ _) (Nat.le_trans hm (by decide))
    · simp [h0]

/-- The record of station 1, at its timeout of 150 ms exactly, and 1 ms before; its RELEASE DONE and its DEPART; one that fits no record;
a membership that finds the copy table full, the trunk of its new cell ACTIVE or DRAINING. -/
theorem meets_AReleaseOrItsTimeoutCompletesAHandover :
    let earlier := { demo with time := ⟨.service, 1999999, 0, 0, 0, 1⟩ }
    demo.Fits ∧ (∃ st, demo.stations.look 1 = some st ∧ st.place = .moving 0 1990000 ∧ demo.stationWith 4 = some (1, st)
      ∧ st.members = []) ∧ demo.handovers.look 1 = some ⟨0, 1, 1999850⟩
    ∧ demo.settings.timers.handover ≤ (demo.time.clock - 1999850).toNat
    ∧ (earlier.time.clock - 1999850).toNat < earlier.settings.timers.handover
    ∧ demo.Accepts (msg 0 0 4 1) ∧ NamesPhone (msg 0 0 4 1) ∧ cellOf (msg 0 0 4 1) = 0 ∧ demo.HasRoom 1
    ∧ demo.Accepts (msg 0 1 4 1) ∧ demo.Accepts (msg 0 0 4 0) ∧ cellOf (msg 0 0 4 0) = 0
    ∧ (crammed.Fits ∧ 2048 ≤ crammed.copies.size ∧ (∃ st, crammed.stations.look 1 = some st ∧ st.members = [⟨0, .full⟩])
      ∧ ∀ n c, crammed.copies.look n = some c → c.channel ≠ 0)
    ∧ (∀ d, let s := { crammed with trunks := ⟨[(0, { Trunk.atReset with state := d })]⟩ }
      s.Fits ∧ (s.trunk 0).state = d ∧ (s.cells.look 1).isSome = true ∧ ∀ ms : List Signal, ms.length ≤ 2 → ∀ k, s.RoomFor ms k)
    ∧ ∀ i st h, demo.stationWith 4 = some (i, st) → demo.handovers.look i = some h → h.oldCell ≠ cellOf (msg 0 1 4 1) :=
  ⟨demo_fits, ⟨_, rfl, rfl, rfl, rfl⟩, rfl, by decide, by decide, demo_accepts 0 4 1 (.inl rfl) (by decide),
    ⟨by decide, by decide⟩, rfl, demo_room.2.1, demo_accepts 1 4 1 (.inr rfl) (by decide),
    demo_accepts 0 4 0 (.inl rfl) (by decide), rfl, crammed_full, crammed_told,
    fun i st h hs hh => found (p := fun i _ => ∀ h, demo.handovers.look i = some h → h.oldCell ≠ 1) (show demo.stationWith 4 = _ from rfl)
      (fun h hh => by obtain rfl := Option.some.inj hh; decide) i st hs h hh⟩

/-! ### Forwarding -/

/-- Every buffer in use. -/
def drained : State :=
  { demo with
    pools := ⟨Table.upTo 8192 fun _ => ⟨.downlink, [1], 1⟩, Table.upTo 4096 fun _ => ⟨.downlink, [1], 1⟩⟩ }

theorem drained_fits : drained.Fits :=
  demo_fits.poolsTo (Table.fits_upTo (Nat.le_refl _) fun _ _ => ⟨by decide, by decide⟩)
    (Table.fits_upTo (Nat.le_refl _) fun _ _ => ⟨by decide, by decide⟩)

theorem lowestFree_upTo {α : Type} (n : Nat) (f : Nat → α) : (Table.upTo n f).lowestFree n = none := by
  cases h : (Table.upTo n f).lowestFree n with
  | none => rfl
  | some k =>
    obtain ⟨h1, h2, _⟩ := Table.lowestFree_spec _ _ _ h
    simp [Table.look_upTo, h1] at h2

theorem drained_grants_nothing (n : Nat) : drained.grant n = none := by
  have hs : drained.pools.short.lowestFree Config.shortBuffers = none := lowestFree_upTo ..
  have hl : drained.pools.long.lowestFree Config.longBuffers = none := lowestFree_upTo ..
  unfold State.grant
  simp [hs, hl]

/-- A short and a long frame are granted in `demo`, none in `drained`. -/
theorem meets_BuffersAreGrantedByLength : demo.Fits ∧ demo.grant 256 = some ⟨.short, 0⟩ ∧ demo.grant 257 = some ⟨.long, 0⟩
    ∧ drained.Fits ∧ drained.grant 256 = none ∧ demo.pools.long.size < 4096 :=
  ⟨demo_fits, by decide, by decide, drained_fits, drained_grants_nothing _, by decide⟩

/-- The mask of all fourteen latches, and the lowest with a bit that names none; each cause that can be present, present and absent; a set
latch whose cause is present. -/
theorem meets_ConditionsAreReportedAndCleared : demo.Takes head ∧ demo.Fits ∧ (0x3FFF#16).toNat < 2 ^ 14 ∧ ¬ (0x4000#16).toNat < 2 ^ 14
    ∧ demo.CausePresent (.trunkLinkLost 3) ∧ (∀ k : Fin 8, k ≠ 3 → ¬ demo.CausePresent (.trunkLinkLost k))
    ∧ { demo with latches := 0x10 }.latchSet (.trunkLinkLost 3) = true
    ∧ (drained.Takes head ∧ drained.Fits ∧ drained.CausePresent .shortPoolExhausted ∧ drained.CausePresent .longPoolExhausted)
    ∧ ¬ demo.CausePresent .shortPoolExhausted ∧ ¬ demo.CausePresent .longPoolExhausted
    ∧ (∀ d, (seats d).Takes head ∧ (seats d).Fits) ∧ (seats false).CausePresent .stationTableFull
    ∧ ¬ (seats true).CausePresent .stationTableFull ∧ ¬ demo.CausePresent .stationTableFull := by
  refine ⟨demo_takes, demo_fits, by decide, by decide, rfl, by simp only [State.CausePresent]; decide, by decide,
    ⟨⟨rfl, rfl⟩, drained_fits, fun j hj => by simp [drained, Table.look_upTo, hj], fun j hj => by simp [drained, Table.look_upTo, hj]⟩,
    fun h => ?_, fun h => ?_, fun d => ⟨⟨rfl, rfl⟩, seats_fits d⟩, fun i hi => ⟨_, by rw [seats_look, if_pos hi], by simp⟩, fun h => ?_,
    fun h => ?_⟩
  · exact absurd (h 0 (by decide)) (by decide)
  · exact absurd (h 0 (by decide)) (by decide)
  · obtain ⟨st, hs, hd⟩ := h 7 (by decide)
    rw [seats_look] at hs
    obtain rfl := Option.some.inj hs
    exact hd (by decide)
  · obtain ⟨st, hs, _⟩ := h 5 (by decide)
    exact absurd hs (by rw [show demo.stations.look 5 = none from rfl]; simp)

/-- Payloads of 8 and 9 bytes; a phone elsewhere; room, no room and no buffer. -/
theorem meets_StationDataUpJoinsTheEgressQueue :
    let payload : List Byte := [1, 2, 3, 4, 5, 6, 7, 8, 9]
    let full := { demo with backbone := ⟨true, List.replicate 512 ⟨⟨.short, 0⟩, 9, 2⟩, none⟩ }
    demo.Fits ∧ demo.Accepts (msg 0 0 2 8) ∧ demo.Accepts (msg 0 0 2 9) ∧ NamesPhone (msg 0 0 2 9) ∧ payload ≠ []
    ∧ (msg 0 0 2 9).bodyLength.toNat = payload.length ∧ 9 ≤ payload.length
    ∧ (∀ i st, demo.stationWith 8 = some (i, st) → st.place.associatedAt (cellOf (msg 0 0 8 9)) = false)
    ∧ (∃ st, demo.stationWith 2 = some (0, st) ∧ st.place.associatedAt (cellOf (msg 0 0 2 9)) = true)
    ∧ demo.backbone.queue.length < 512 ∧ demo.grant payload.length = some ⟨.short, 0⟩ ∧ drained.grant payload.length = none
    ∧ full.Fits ∧ 512 ≤ full.backbone.queue.length :=
  ⟨demo_fits, demo_accepts 0 2 8 (.inl rfl) (by decide), demo_accepts 0 2 9 (.inl rfl) (by decide), ⟨by decide, by decide⟩, by simp,
    by decide, by decide, found (show demo.stationWith 8 = _ from rfl) rfl, ⟨_, rfl, rfl⟩, by decide, by decide,
    drained_grants_nothing _, demo_fits.backboneTo (Nat.le_of_eq List.length_replicate),
    Nat.le_of_eq List.length_replicate.symm⟩

/-- Payloads of 2,048 and 2,049 bytes; a group address; no station and a DORMANT one; a queue of 0 and of 16. -/
theorem meets_DownlinkFramesJoinTheirStationsQueue :
    let full : Station := { phone 2 0 1990000 with queue := List.replicate 16 ⟨⟨.short, 0⟩, 9⟩ }
    demo.Fits ∧ demo.backbone.up = true ∧ demo.time.service = .service ∧ (0x0800#16) ≠ demo.settings.replayType
    ∧ (List.replicate 2048 (0 : Byte)).length ≤ 2048 ∧ 2049 ≤ (List.replicate 2049 (0 : Byte)).length
    ∧ isGroup 0x010000000000#48 = true ∧ isGroup 2 = false ∧ demo.stationWith 12 = none
    ∧ (∀ i st, demo.stationWith 6 = some (i, st) → st.place = .dormant)
    ∧ (∃ st, demo.stationWith 2 = some (0, st) ∧ st.place.cell? = some 0 ∧ st.queue.length < 16) ∧ demo.grant 2048 = some ⟨.long, 0⟩
    ∧ { demo with stations := ⟨[(0, full)]⟩ }.stationWith 2 = some (0, full) ∧ 16 ≤ full.queue.length :=
  ⟨demo_fits, rfl, rfl, by decide, Nat.le_of_eq List.length_replicate, Nat.le_of_eq List.length_replicate.symm,
    by decide, by decide, by decide, found (show demo.stationWith 6 = _ from rfl) rfl, ⟨_, rfl, rfl, by decide⟩, by decide, rfl, by simp⟩

set_option maxRecDepth 20000 in
/-- A tag of no channel, of channel 0 with an audience, its queue full or not, and of channel 2 with none. -/
theorem meets_ReplayFramesFanOutToTheirTiersCopies :
    demo.Fits ∧ demo.backbone.up = true ∧ demo.time.service = .service ∧ demo.settings.replayType ≠ 0
    ∧ (∀ k ch, demo.channels.look k = some ch → ch.tagged 0x40#16 = none)
    ∧ (∃ ch, demo.channels.look 0 = some ch ∧ ch.tagged 0x10#16 = some .full)
    ∧ (∀ j other, j ≠ 0 → demo.channels.look j = some other → other.tagged 0x10#16 = none)
    ∧ (∃ n c, demo.copies.look n = some c ∧ c.channel = 0 ∧ c.state = .active ∧ c.tier = .full)
    ∧ (∃ ch, demo.channels.look 2 = some ch ∧ ch.tagged 0x30#16 = some .full)
    ∧ (∀ j other, j ≠ 2 → demo.channels.look j = some other → other.tagged 0x30#16 = none)
    ∧ (∀ n c, demo.copies.look n = some c → c.channel = 2 → c.state = .active → c.tier ≠ .full)
    ∧ demo.grant 220 = some ⟨.short, 0⟩
    ∧ (let full := { demo with copies := ⟨[(0, copy 0 0 .active 0 100 0 (List.replicate 8 ⟨.long, 0⟩))]⟩ }
      full.Fits ∧ ∃ c, full.copies.look 0 = some c ∧ c.channel = 0 ∧ c.state = .active ∧ c.tier = .full ∧ 8 ≤ c.queue.length) :=
  ⟨demo_fits, rfl, rfl, by decide, Table.records (by decide), ⟨_, rfl, by decide⟩,
    fun j other hj h => Table.records (t := demo.channels) (p := fun j other => j ≠ 0 → other.tagged 0x10#16 = none) (by decide) j other h hj,
    ⟨0, _, rfl, rfl, rfl, rfl⟩, ⟨_, rfl, by decide⟩,
    fun j other hj h => Table.records (t := demo.channels) (p := fun j other => j ≠ 2 → other.tagged 0x30#16 = none) (by decide) j other h hj,
    Table.records (by decide), by decide, fits_of_check (by decide), _, rfl, rfl, rfl, rfl, by decide⟩

/-! ### Tickets, claims, referrals -/

/-- `demo` with a purge in flight. -/
def purging : State := { demo with purge := some ⟨1, 0, 0, 1⟩ }

theorem purging_fits : purging.Fits := demo_fits.purgeTo _

/-- `purging` with channel 0 closed to UNTICKETED stations. -/
def barred : State :=
  { purging with channels := ⟨[(0, ⟨true, { everyone with unticketed := false }, .recover4, ⟨0x10#16, 1200, 4000⟩, none⟩)]⟩ }

/-- A full ticket table. -/
def sold : State := { demo with tickets := Table.upTo 65536 fun _ => general }

theorem sold_fits : sold.Fits :=
  demo_fits.ticketsTo (Table.fits_upTo (by decide) fun _ _ => trivial) (Nat.le_of_eq (Table.size_upTo ..))

/-- Counts 0, 1, 16 and 17; a record of section 127 and one of 128; a purge. -/
theorem meets_LoadTicketsStoresReplacesOrSkips :
    let good : TicketFields := ⟨30, 0, some .staff, 127, 0⟩
    demo.Takes head ∧ purging.Takes head ∧ purging.purge ≠ none ∧ demo.purge = none ∧ (List.replicate 16 good).length = 16
    ∧ (∀ f ∈ List.replicate 16 good, f.number ≠ 0 ∧ f.cls ≠ none ∧ f.seatSection < 128)
    ∧ (∃ f ∈ [{ good with seatSection := 128 }], f.number = 0 ∨ f.cls = none ∨ 128 ≤ f.seatSection)
    ∧ (∀ p ∈ demo.referrals, p.claim.number ≠ 30) ∧ demo.ticket 30 = none ∧ demo.tickets.size < 65536
    ∧ (∃ old, demo.ticket 5 = some old ∧ old.state = .loaded ∧ old.locked = false) ∧ (∃ old, demo.ticket 9 = some old ∧ old.locked = true)
    ∧ sold.ticket 65536 = none ∧ ¬ sold.tickets.size < 65536 ∧ good.cls = some .staff
    ∧ demo.ticket 20 = none ∧ ∃ p, demo.referrals.find? (fun q => q.claim.number == 20) = some p := by
  refine ⟨demo_takes, ⟨rfl, rfl⟩, by decide, rfl, by simp, ?_, ⟨_, List.mem_singleton.mpr rfl, by decide⟩, by decide, rfl, by decide,
    ⟨_, rfl, rfl, rfl⟩, ⟨_, rfl, rfl⟩, ?_, by simp [sold], rfl, rfl, _, rfl⟩
  · intro f hf
    obtain rfl := List.eq_of_mem_replicate hf
    decide
  · simp [sold, State.ticket, Table.look_upTo]

/-- Numbers 30 (absent), 8 (VOID), 5 (LOADED), 7 (SEATED at station 0); a purge. -/
theorem meets_VoidTicketVoidsAndUnbinds : demo.Takes head ∧ purging.Takes head ∧ purging.purge ≠ none ∧ demo.purge = none
    ∧ demo.ticket 30 = none ∧ (∃ k, demo.ticket 8 = some k ∧ k.state = .void)
    ∧ (∃ k, demo.ticket 5 = some k ∧ k.state ≠ .void ∧ k.state.isSeated = false)
    ∧ demo.Fits ∧ demo.HasRoom 0 ∧ ∃ k st, demo.ticket 7 = some k ∧ k.state = .seated 0 ∧ demo.stations.look 0 = some st
      ∧ st.place.cell? = some 0 ∧ (demo.trunk (0 / 32)).signals.length + (demo.endedMembers st .unticketed).length ≤ 1024 :=
  ⟨demo_takes, ⟨rfl, rfl⟩, by decide, rfl, rfl, ⟨_, rfl, rfl⟩, ⟨_, rfl, by decide, rfl⟩, demo_fits, demo_room.1, _, _, rfl, rfl, rfl, rfl,
    by decide⟩

/-- Numbers 30 (absent), 5 (not locked, no mismatch), 9 (locked); a purge. -/
theorem meets_UnlockTicketClearsTheLock : demo.Takes head ∧ purging.Takes head ∧ purging.purge ≠ none ∧ demo.purge = none
    ∧ demo.ticket 30 = none ∧ (∃ k, demo.ticket 5 = some k ∧ k.locked = false ∧ k.mismatches = 0)
    ∧ ∃ k, demo.ticket 9 = some k ∧ k.locked = true :=
  ⟨demo_takes, ⟨rfl, rfl⟩, by decide, rfl, rfl, ⟨_, rfl, rfl, rfl⟩, _, rfl, rfl⟩

set_option maxRecDepth 20000 in
/-- No purge, no batch due, a batch that ends the purge (2,048 tickets at most) and one that does not; an empty table; stations that have
the weights of their classes; a parked claim to answer, and a membership that ends. -/
theorem meets_APurgeRemovesTheTableInBatches :
    let many := { sold with purge := some ⟨1, 0, 0, 1⟩ }
    let fair := { purging with stations := ⟨[(0, { phone 2 0 1990000 with ticket := some 7, cls := .premium, weight := 4 })]⟩ }
    demo.Takes head ∧ purging.purge ≠ none ∧ demo.purge = none ∧ demo.Fits ∧ purging.Fits ∧ many.Fits
    ∧ { purging with purge := some ⟨1, 0, 0, 0⟩ }.purge = some ⟨1, 0, 0, 0⟩ ∧ purging.purge = some ⟨1, 0, 0, 1⟩
    ∧ purging.tickets.size ≤ 2048 ∧ many.purge = some ⟨1, 0, 0, 1⟩ ∧ 2048 < many.tickets.size
    ∧ purging.notices.length < Config.notices
    ∧ (∃ st, purging.stations.look 0 = some st ∧ ∃ x ∈ purging.tickets.entries.take 2048, x.2.state = .seated 0)
    ∧ (serving 5).Takes head ∧ (serving 5).purge = none ∧ (serving 5).tickets.entries = [] ∧ demo.tickets.entries ≠ []
    ∧ (∀ j x, fair.stations.look j = some x → x.weight = classWeight fair.settings.weights x.cls)
    ∧ (∃ st, fair.stations.look 0 = some st ∧ st.place.cell? = some 0 ∧ st.cls ≠ .unticketed
      ∧ ∃ x ∈ fair.tickets.entries.take 2048, x.2.state = .seated 0)
    ∧ (demo.referrals.map fun p => (⟨p.claim.cell, p.claim.addr, .claimVerdict p.claim.number .deferred⟩ : Signal)) =
      [⟨1, 8, .claimVerdict 20 .deferred⟩] ∧ (∀ k, demo.RoomFor [⟨1, 8, .claimVerdict 20 .deferred⟩] k)
    ∧ barred.Fits ∧ barred.BindingLaw ∧ barred.purgeSignals (barred.tickets.entries.take 2048) = [⟨0, 2, .joinVerdict 0 .ended⟩]
    ∧ ∀ k, barred.RoomFor [⟨0, 2, .joinVerdict 0 .ended⟩] k :=
  ⟨demo_takes, by decide, rfl, demo_fits, purging_fits, sold_fits.purgeTo _, rfl, rfl, by decide, rfl, by simp [sold], by decide,
    ⟨_, rfl, by decide⟩, ⟨rfl, rfl⟩, rfl, rfl, by decide, Table.records (by decide), ⟨_, rfl, rfl, by decide, by decide⟩, by decide,
    demo_quiet _ rfl _ (by decide), fits_of_check (by decide), { demo_bindingLaw with }, by decide, demo_quiet _ rfl _ (by decide)⟩

/-- The claims of station 3 at gate 1 and of station 0 at seat cell 0. -/
theorem demo_claims (slot : BitVec 8) (addr : Addr) (code : Byte) (n : TicketNumber) (h : slot = 0 ∨ slot = 1)
    (ha : addr ≠ 0 ∧ isGroup addr = false) (hc : code = 1 ∨ code = 2 ∨ code = 3) (hn : n ≠ 0) :
    demo.Claims (msg 0 slot addr 11) code n := by
  refine ⟨demo_fits, demo_accepts slot addr 11 h (by decide), rfl, ha, hc, hn, ?_⟩
  rcases h with rfl | rfl
  · exact demo_room.1
  · exact demo_room.2.1

theorem demo_gate (code : Byte) (h : code = 1 ∨ code = 3) : ∃ st, demo.ClaimsAt (msg 0 1 8 11) code 3 st := by
  refine ⟨_, rfl, rfl, _, rfl, ?_⟩
  rcases h with rfl | rfl <;> rfl

theorem demo_seat : ∃ st, demo.ClaimsAt (msg 0 0 2 11) 2 0 st := ⟨_, rfl, rfl, _, rfl, rfl⟩

/-- `demo` with a full referral queue. -/
def queued : State :=
  { demo with referrals := (List.range 64).map fun k => ⟨BitVec.ofNat 16 (k + 1), ⟨.entry, BitVec.ofNat 32 (k + 100), 1, 8, 1⟩, 1998000⟩ }

theorem queued_fits : queued.Fits := { demo_fits with referrals := by decide }

/-- Check by check: a purge, an unknown phone, the wrong kind of cell, an absent number (parked, already parked, no room), LOCKED,
VOID and a wrong token; a next referral id whose successor is held. -/
theorem meets_ClaimsAreCheckedInOrder :
    (∀ slot addr code n, slot = 0 ∨ slot = 1 → addr ≠ 0 ∧ isGroup addr = false → code = 1 ∨ code = 2 ∨ code = 3 → n ≠ 0 →
      demo.Claims (msg 0 slot addr 11) code n)
    ∧ (∃ m code n, purging.Claims m code n ∧ purging.purge ≠ none) ∧ demo.purge = none
    ∧ (∀ i st, demo.stationWith 12 = some (i, st) → st.place.associatedAt (cellOf (msg 0 1 12 11)) = false)
    ∧ (∃ st, demo.stationWith 8 = some (3, st) ∧ st.place.associatedAt (cellOf (msg 0 1 8 11)) = true
      ∧ ¬ demo.ClaimsAt (msg 0 1 8 11) 2 3 st)
    ∧ (∃ st, demo.ClaimsAt (msg 0 1 8 11) 1 3 st) ∧ demo.ticket 20 = none ∧ (∃ p ∈ demo.referrals, p.claim.number = 20)
    ∧ demo.ticket 30 = none ∧ (∀ p ∈ demo.referrals, p.claim.number ≠ 30) ∧ demo.referrals.length < 64
    ∧ (queued.Claims (msg 0 1 8 11) 1 30 ∧ (∃ st, queued.ClaimsAt (msg 0 1 8 11) 1 3 st) ∧ queued.purge = none
      ∧ queued.ticket 30 = none ∧ (∀ p ∈ queued.referrals, p.claim.number ≠ 30) ∧ 64 ≤ queued.referrals.length)
    ∧ demo.notices.length < Config.notices ∧ (∃ k, demo.ticket 9 = some k ∧ k.locked = true)
    ∧ (∃ k, demo.ticket 8 = some k ∧ k.locked = false ∧ k.state = .void)
    ∧ (∃ k, demo.ticket 5 = some k ∧ k.locked = false ∧ k.state ≠ .void ∧ k.token ≠ 0)
    ∧ { demo with nextReferral := 0 }.Fits ∧ ∃ p ∈ { demo with nextReferral := 0 }.referrals, p.id = 0 + 1 := by
  refine ⟨demo_claims, ⟨msg 0 1 8 11, 1, 5, ?_, by decide⟩, rfl, not_found rfl, ⟨_, rfl, rfl, ?_⟩, demo_gate 1 (.inl rfl), rfl,
    by decide, rfl, by decide, by decide, ⟨?_, ⟨_, rfl, rfl, _, rfl, rfl⟩, rfl, rfl, by decide, by decide⟩, by decide, ⟨_, rfl, rfl⟩,
    ⟨_, rfl, rfl, rfl⟩, ⟨_, rfl, rfl, by decide, by decide⟩, { demo_fits with }, by decide⟩
  · have h := demo_claims 1 8 1 5 (.inr rfl) (by decide) (.inl rfl) (by decide)
    exact ⟨purging_fits, h.taken, rfl, h.phone, h.code, h.number, h.room⟩
  · rintro ⟨_, _, c, hc, hk⟩
    obtain rfl := Option.some.inj hc
    simp [cellRec] at hk
  · have h := demo_claims 1 8 1 30 (.inr rfl) (by decide) (.inl rfl) (by decide)
    exact ⟨queued_fits, h.taken, rfl, h.phone, h.code, h.number, h.room⟩

set_option maxRecDepth 20000 in
/-- Gate 1: tickets 5 (LOADED, count 0 below 2), 6 (INSIDE), 7 (SEATED at station 0), and one at the maximum of 2 admissions. -/
theorem meets_EntryAndExitFollowTheTicketsState :
    let spent := { demo with tickets := ⟨[(5, { general with state := .outside, admissions := 2 })]⟩ }
    demo.purge = none ∧ (∀ code, code = 1 ∨ code = 3 → (∀ n, n ≠ 0 → demo.Claims (msg 0 1 8 11) code n)
      ∧ ∃ st, demo.ClaimsAt (msg 0 1 8 11) code 3 st)
    ∧ (∃ k, demo.ticket 5 = some k ∧ k.Passes 0xABCDEF#48 ∧ k.state = .loaded ∧ k.admissions < demo.settings.policy.maxEntries)
    ∧ (∃ k, spent.ticket 5 = some k ∧ k.Passes 0xABCDEF#48 ∧ k.state = .outside ∧ spent.settings.policy.maxEntries ≤ k.admissions)
    ∧ (∃ k, demo.ticket 6 = some k ∧ k.Passes 0xABCDEF#48 ∧ k.state = .inside)
    ∧ (∃ k holder, demo.ticket 7 = some k ∧ k.Passes 0xABCDEF#48 ∧ k.state = .seated 0 ∧ demo.stations.look 0 = some holder)
    ∧ demo.notices.length < Config.notices
    ∧ (let calm := { barred with purge := none }
      calm.purge = none ∧ (∃ st, calm.ClaimsAt (msg 0 1 8 11) 3 3 st) ∧ calm.Claims (msg 0 1 8 11) 3 7
      ∧ ∃ holder, calm.stations.look 0 = some holder ∧ calm.endedSignals holder .unticketed = [⟨0, 2, .joinVerdict 0 .ended⟩]
        ∧ ∀ k, calm.RoomFor [⟨1, 8, .claimVerdict 7 .exited⟩, ⟨0, 2, .joinVerdict 0 .ended⟩] k) := by
  refine ⟨rfl, fun code hc => ⟨fun n hn => demo_claims 1 8 code n (.inr rfl) (by decide) ?_ hn, demo_gate code hc⟩,
    ⟨_, rfl, ⟨rfl, by decide, rfl⟩, rfl, by decide⟩, ⟨_, rfl, ⟨rfl, by decide, rfl⟩, rfl, by decide⟩,
    ⟨_, rfl, ⟨rfl, by decide, rfl⟩, rfl⟩, ⟨_, _, rfl, ⟨rfl, by decide, rfl⟩, rfl, rfl⟩, by decide, rfl, ⟨_, rfl, rfl, _, rfl, rfl⟩, ?_,
    _, rfl, by decide, demo_quiet _ rfl _ (by decide)⟩
  · rcases hc with h | h <;> simp [h]
  · have h := demo_claims 1 8 3 7 (.inr rfl) (by decide) (by decide) (by decide)
    exact ⟨fits_of_check (by decide), h.taken, rfl, h.phone, h.code, h.number, h.room⟩

/-- Seat cell 0, in section 3 and not in section 12: tickets INSIDE, SEATED at the claimer, at a DORMANT and at another holder, LOADED
in both seat modes, below and at the maximum. -/
theorem meets_SeatClaimsBindOrAreRefused :
    let loose := { demo with settings := { demo.settings with policy := ⟨2, .lenient⟩ } }
    demo.purge = none ∧ (∀ n, n ≠ 0 → demo.Claims (msg 0 0 2 11) 2 n) ∧ (∃ st, demo.ClaimsAt (msg 0 0 2 11) 2 0 st)
    ∧ (∀ list, demo.sections.look 12 = some list → cellOf (msg 0 0 2 11) ∉ list)
    ∧ (∃ list, demo.sections.look 3 = some list ∧ cellOf (msg 0 0 2 11) ∈ list)
    ∧ (∃ k, demo.ticket 6 = some k ∧ k.Passes 0xABCDEF#48 ∧ k.state = .inside)
    ∧ (∃ k, demo.ticket 7 = some k ∧ k.Passes 0xABCDEF#48 ∧ k.state = .seated 0)
    ∧ (∀ j, j = 2 ∨ j = 3 → ∃ k holder, { demo with tickets := ⟨[(6, { general with seatSection := 3, state := .seated j })]⟩ }.ticket 6 = some k
      ∧ k.Passes 0xABCDEF#48 ∧ k.state = .seated j ∧ j ≠ 0 ∧ demo.stations.look j = some holder
      ∧ (holder.place = .dormant ↔ j = 2))
    ∧ (∃ k, demo.ticket 5 = some k ∧ k.state = .loaded ∧ demo.settings.policy.mode = .strict ∧ loose.settings.policy.mode = .lenient
      ∧ k.admissions < loose.settings.policy.maxEntries)
    ∧ { general with admissions := 2 }.admissions = loose.settings.policy.maxEntries ∧ demo.notices.length < Config.notices := by
  refine ⟨rfl, fun n hn => demo_claims 0 2 2 n (.inl rfl) (by decide) (by decide) hn, demo_seat, by decide, ⟨_, rfl, by decide⟩,
    ⟨_, rfl, ⟨rfl, by decide, rfl⟩, rfl⟩, ⟨_, rfl, ⟨rfl, by decide, rfl⟩, rfl⟩, ?_, ⟨_, rfl, rfl, rfl, rfl, by decide⟩, rfl, by decide⟩
  rintro j (rfl | rfl)
  · exact ⟨_, _, rfl, ⟨rfl, by decide, rfl⟩, rfl, by decide, rfl, by simp⟩
  · exact ⟨_, _, rfl, ⟨rfl, by decide, rfl⟩, rfl, by decide, rfl, by simp [phone]⟩

/-- Id 1 is parked for number 20 and is 2,000 ms old exactly; its station 8 is ASSOCIATED at gate 1, and unknown in `gone`; id 9 is not
parked; number 30 is absent, 20 parked again under another id, 5 LOADED, 6 INSIDE; a full table. -/
theorem meets_ReferralsEndByRulingOrTimeout :
    let parked : Parked := ⟨1, ⟨.entry, 20, 1, 8, 1⟩, 1998000⟩
    let earlier := { demo with time := ⟨.service, 1999999, 0, 0, 0, 1⟩ }
    let gone := { demo with stations := Table.empty }
    demo.Takes head ∧ purging.Takes head ∧ purging.purge ≠ none ∧ demo.purge = none
    ∧ (∀ p ∈ demo.referrals, p.id ≠ 9) ∧ (∀ p ∈ demo.referrals, p.id ≠ 9 ∧ p.claim.number ≠ 30) ∧ demo.ticket 30 = none
    ∧ demo.tickets.size < 65536 ∧ (∀ p ∈ demo.referrals, p.id ≠ 9 ∧ p.claim.number ≠ 6)
    ∧ (∃ k, demo.ticket 6 = some k ∧ (k.state ≠ .loaded ∨ k.locked = true))
    ∧ (∃ k, demo.ticket 5 = some k ∧ k.state = .loaded ∧ k.locked = false)
    ∧ (sold.Takes head ∧ sold.purge = none ∧ (∀ p ∈ sold.referrals, p.id ≠ 9) ∧ sold.ticket 65536 = none)
    ∧ demo.ticket 20 = none ∧ demo.referrals.find? (fun q => q.claim.number == 20) = some parked
    ∧ demo.referrals.find? (fun q => q.id == 1) = some parked ∧ sold.referrals.find? (fun q => q.id == 1) = some parked
    ∧ demo.HasRoom parked.claim.cell ∧ (30 : TicketNumber) ≠ parked.claim.number ∧ parked.claim.number = 20
    ∧ 65536 ≤ sold.tickets.size
    ∧ (∃ i st c, demo.stationWith parked.claim.addr = some (i, st) ∧ st.place.associatedAt parked.claim.cell = true
      ∧ demo.cells.look parked.claim.cell = some c ∧ c.kind = .gate ∧ (0 : Token) ≠ parked.claim.token)
    ∧ (gone.Takes head ∧ gone.purge = none ∧ gone.tickets.size < 65536 ∧ gone.HasRoom parked.claim.cell
      ∧ gone.referrals.find? (fun q => q.id == 1) = some parked
      ∧ ∀ i st, gone.stationWith parked.claim.addr = some (i, st) → st.place.associatedAt parked.claim.cell = false)
    ∧ demo.settings.timers.referral ≤ (demo.time.clock - parked.park).toNat
    ∧ (earlier.time.clock - parked.park).toNat < earlier.settings.timers.referral :=
  ⟨demo_takes, ⟨rfl, rfl⟩, by decide, rfl, by decide, by decide, rfl, by decide, by decide, ⟨_, rfl, .inl (by decide)⟩,
    ⟨_, rfl, rfl, rfl⟩, ⟨⟨rfl, rfl⟩, rfl, by decide, by simp [sold, State.ticket, Table.look_upTo]⟩, rfl, rfl, rfl, rfl, demo_room.2.1,
    by decide, rfl, by simp [sold], ⟨_, _, _, rfl, rfl, rfl, rfl, by decide⟩,
    ⟨⟨rfl, rfl⟩, rfl, by decide, ⟨by decide, .inl (by decide), by decide⟩, rfl, not_found rfl⟩, by decide, by decide⟩

/-! ### Settings, service, channels -/

theorem meets_SettingOrdersStoreTheirSetting : demo.Takes head ∧ idle.Takes head ∧ demo.time.service = .service
    ∧ idle.time.service = .config ∧ ([0, 1, 2, 255] : List Nat).Nodup ∧ (∀ c ∈ [0, 1, 2, 255], c < 256)
    ∧ (∃ c ∈ [0, 256], 256 ≤ c) ∧ ¬ ([7, 7] : List Nat).Nodup :=
  ⟨demo_takes, ⟨rfl, rfl⟩, rfl, rfl, by decide, by decide, by decide, by decide⟩

theorem meets_StartServiceStartsTheClocks : demo.Takes head ∧ idle.Takes head ∧ demo.time.service = .service
    ∧ idle.time.service = .config ∧ idle.cells.entries ≠ [] ∧ State.reset.cells.entries = [] :=
  ⟨demo_takes, ⟨rfl, rfl⟩, rfl, rfl, by decide, rfl⟩

/-- An unknown mask bit, a known mask, and timers that stay as they are. -/
theorem meets_SetTimersStoresTheGivenTimers : demo.Takes head
    ∧ (⟨true, true, true, true, true, true⟩ : TimerMask).unknownBit = true
    ∧ (⟨true, true, true, true, true, false⟩ : TimerMask).unknownBit = false
    ∧ demo.settings.timers = { demo.settings.timers with poll := demo.settings.timers.poll } ∧ demo.Fits := ⟨demo_takes, rfl, rfl, rfl, demo_fits⟩

/-- Channel 0 is OPEN, 1 CLOSED with a tag of channel 0, 63 UNDEFINED; a CLOSED channel with tags of its own. -/
theorem meets_ChannelsAreDefinedThenOpened :
    let apart : Channel := ⟨false, everyone, .flush, ⟨0x50#16, 1200, 4000⟩, none⟩
    let own := { demo with channels := ⟨[(0, ⟨true, everyone, .recover4, ⟨0x10#16, 1200, 4000⟩, none⟩), (1, apart)]⟩ }
    demo.Takes head ∧ everyone ≠ ⟨false, false, false, false, false⟩ ∧ (∃ ch, demo.channels.look 0 = some ch ∧ ch.isOpen = true)
    ∧ (∀ ch, demo.channels.look 63 = some ch → ch.isOpen = false) ∧ (∀ ch, demo.channels.look 1 = some ch → ch.isOpen = false)
    ∧ demo.channels.wf = true
    ∧ (∃ ch j other tag, demo.channels.look 1 = some ch ∧ ch.isOpen = false ∧ j ≠ 1 ∧ demo.channels.look j = some other
      ∧ other.isOpen = true ∧ tag ∈ ch.full.tag :: (ch.reduced.map (·.tag)).toList
      ∧ tag ∈ other.full.tag :: (other.reduced.map (·.tag)).toList)
    ∧ own.Takes head ∧ own.channels.look 1 = some apart ∧ own.channels.wf = true
    ∧ ∀ j other tag, j ≠ 1 → own.channels.look j = some other → other.isOpen = true →
      tag ∈ apart.full.tag :: (apart.reduced.map (·.tag)).toList → tag ∉ other.full.tag :: (other.reduced.map (·.tag)).toList := by
  refine ⟨demo_takes, by decide, ⟨_, rfl, rfl⟩, fun ch h => by simp [show demo.channels.look 63 = none from rfl] at h,
    fun ch h => by obtain rfl := Option.some.inj h; rfl, by decide, ⟨_, 0, _, 0x10#16, rfl, rfl, by decide, rfl, rfl, by decide, by decide⟩,
    ⟨rfl, rfl⟩, rfl, by decide, ?_⟩
  intro j other tag hj ho _ ht
  have := lookIn_mem ho
  simp only [List.mem_cons, List.not_mem_nil, or_false, Prod.mk.injEq] at this
  rcases this with ⟨_, rfl⟩ | ⟨rfl, _⟩
  · simp at ht
    simp [ht]
  · exact absurd rfl hj

/-- Channel 0 is OPEN with one member, station 0, whose copy is at cell 0 and counts it; channel 1 is CLOSED; 63 is UNDEFINED; the classes
2 have room. -/
theorem meets_CloseChannelEndsItsMemberships : demo.Takes head ∧ demo.Fits ∧ demo.channels.look 63 = none
    ∧ (∃ ch, demo.channels.look 1 = some ch ∧ ch.isOpen = false) ∧ (∃ ch, demo.channels.look 0 = some ch ∧ ch.isOpen = true)
    ∧ (∀ i st x, demo.stations.look i = some st → x ∈ st.members → x.channel = 0 →
      ∃ cell n c, st.place.cell? = some cell ∧ demo.copies.look n = some c ∧ c.channel = 0 ∧ c.cell = cell)
    ∧ (∀ n c, demo.copies.look n = some c → c.channel = 0 → 0 < c.members ∧ c.members =
      (demo.stations.entries.filter fun x => x.2.place.cell? == some c.cell && x.2.members.any fun y => y.channel == 0).length)
    ∧ ∃ list : List (Nat × Copy), list.Perm (demo.copies.entries.filter fun z => z.2.channel == 0) ∧ list ≠ []
      ∧ list.Pairwise (fun y z => y.2.stamp.toNat < z.2.stamp.toNat)
      ∧ list.flatMap (fun z => (demo.stations.entries.filter fun x =>
          x.2.place.cell? == some z.2.cell && x.2.members.any fun y => y.channel == 0).map fun x =>
        (⟨z.2.cell, x.2.addr, .joinVerdict 0 .ended⟩ : Signal)) = [⟨0, 2, .joinVerdict 0 .ended⟩]
      ∧ ∀ t, (demo.trunk t).signals.length + ([⟨0, 2, .joinVerdict 0 .ended⟩].filter fun x : Signal => x.cell / 32 == t).length ≤ 1024 := by
  refine ⟨demo_takes, demo_fits, rfl, ⟨_, rfl, rfl⟩, ⟨_, rfl, rfl⟩, ?_, Table.records (by decide),
    [(0, copy 0 0 .active 0 100 0 [])], .refl _, by decide, by decide, by decide, fun t => ?_⟩
  · intro i st x hs hx _
    have := lookIn_mem hs
    simp only [demo, List.mem_cons, List.not_mem_nil, or_false, Prod.mk.injEq] at this
    rcases this with ⟨_, rfl⟩ | ⟨_, rfl⟩ | ⟨_, rfl⟩ | ⟨_, rfl⟩ | ⟨_, rfl⟩ <;> simp [phone] at hx
    exact ⟨0, 0, _, rfl, rfl, rfl, rfl⟩
  · have h : (demo.trunk t).signals.length = 0 :=
      State.trunks_all (p := fun x => x.signals.length = 0) (by decide) rfl t
    have := List.length_filter_le (fun x : Signal => x.cell / 32 == t) [⟨0, 2, .joinVerdict 0 .ended⟩]
    simp only [List.length_singleton] at this
    omega

set_option maxRecDepth 20000 in
/-- A JOIN of an unknown phone, a MOVING one, station 0 (a member of channel 0; with 2 memberships; not entitled) and station 3 (no copy
at cell 1, then one; a full copy table); of a channel with a reduced tier
at M 301, where only that fits, and at M 361, where neither does; on the DRAINING trunk of cell 32. -/
theorem meets_JoinsAreCheckedThenPlaced :
    let held : Station := { phone 2 0 1990000 with members := [⟨1, .full⟩, ⟨2, .full⟩] }
    let tight (m : Nat) := { demo with
      cells := ⟨[(1, cellRec .gate 2000000 m 1)]⟩
      channels := ⟨[(0, ⟨true, everyone, .recover4, ⟨0x10#16, 1200, 4000⟩, some ⟨0x11#16, 1000, 1500⟩⟩)]⟩ }
    let shared := { demo with copies := ⟨[(0, copy 0 0 .active 0 100 0 []), (1, copy 0 1 .active 0 100 1 [])]⟩ }
    demo.Fits ∧ (∀ slot addr, slot = 0 ∨ slot = 1 → demo.Accepts (msg 0 slot addr 1)) ∧ NamesPhone (msg 0 1 8 1)
    ∧ (63#8).toNat < 64 ∧ demo.HasRoom 0 ∧ demo.HasRoom 1 ∧ demo.stationWith 12 = none
    ∧ (∃ st, demo.stationWith 4 = some (1, st) ∧ st.place.isMoving = true) ∧ demo.handovers.look 1 = some ⟨0, 1, 1999850⟩
    ∧ (∃ st, demo.stationWith 8 = some (3, st) ∧ st.place.associatedAt (cellOf (msg 0 1 8 1)) = true
      ∧ (∀ x ∈ st.members, x.channel ≠ 0) ∧ st.members.length < 2)
    ∧ (∀ ch, demo.channels.look 1 = some ch → ch.isOpen = false)
    ∧ (∃ ch, demo.channels.look 2 = some ch ∧ ch.isOpen = true ∧ allows ch.entitled .unticketed = false)
    ∧ (∃ ch, demo.channels.look 0 = some ch ∧ ch.isOpen = true ∧ allows ch.entitled .unticketed = true)
    ∧ (∃ st x, demo.stationWith 2 = some (0, st) ∧ st.members.find? (fun y => y.channel == 0) = some x)
    ∧ ({ demo with stations := ⟨[(0, held)]⟩ }.stationWith 2 = some (0, held) ∧ (∀ x ∈ held.members, x.channel ≠ 0)
      ∧ 2 ≤ held.members.length)
    ∧ shared.Fits ∧ (∃ c, shared.copies.look 1 = some c ∧ c.channel = 0 ∧ c.cell = cellOf (msg 0 1 8 1))
    ∧ (∀ j x, demo.copies.look j = some x → ¬ (x.channel = 0 ∧ x.cell = cellOf (msg 0 1 8 1)))
    ∧ (copied.Fits ∧ 2048 ≤ copied.copies.size
      ∧ ∀ j x, copied.copies.look j = some x → ¬ (x.channel = 0 ∧ x.cell = cellOf (msg 0 1 8 1)))
    ∧ demo.copies.look 1 = none ∧ (∀ j, j < 1 → (demo.copies.look j).isSome = true)
    ∧ demo.account 1 = some ⟨54, 60, 400, 120000, 0, 1⟩ ∧ 0 = demo.activeLoad (cellOf (msg 0 1 8 1)) ∧ (1200 * 800 + 4000 - 1) / 4000 = 240
    ∧ (((1200 * 8 + 54 - 1) / 54 + 60) * 100 + 240 - 1) / 240 = 100 ∧ (demo.trunk (cellOf (msg 0 1 8 1) / 32)).state = .active
    ∧ 0 + 100 ≤ 400 ∧ demo.created ≠ BitVec.allOnes 32 ∧ loadAt ⟨54, 60, 400, 120000, 0, 1⟩ ⟨0x10#16, 1200, 4000⟩ 0 = 100
    ∧ (∀ m, (tight m).account 1 = some ⟨54, 60, 400, 120000, m, 1⟩) ∧ loadAt ⟨54, 60, 400, 120000, 301, 1⟩ ⟨0x11#16, 1000, 1500⟩ 0 = 40
    ∧ 400 < 301 + 100 ∧ 301 + 40 ≤ 400 ∧ 400 < 361 + 40 ∧ (demo.trunk (32 / 32)).state ≠ .active := by
  refine ⟨demo_fits, fun slot addr h => demo_accepts slot addr 1 h (by decide), ⟨by decide, by decide⟩, by decide, demo_room.1,
    demo_room.2.1, by decide, ⟨_, rfl, rfl⟩, rfl, ⟨_, rfl, rfl, by decide, by decide⟩,
    fun ch h => by obtain rfl := Option.some.inj h; rfl, ⟨_, rfl, rfl, rfl⟩, ⟨_, rfl, rfl, rfl⟩, ⟨_, _, rfl, rfl⟩,
    ⟨rfl, by decide, by decide⟩, fits_of_check (by decide), ⟨_, rfl, rfl, rfl⟩, Table.records (by decide),
    ⟨copied_fits, by simp [copied], Table.records fun e he => ?_⟩, rfl, by decide, rfl, by decide, by decide, by decide, by decide, by decide, by decide, by decide,
    fun _ => rfl, by decide, by decide, by decide, by decide, by decide⟩
  obtain ⟨_, h⟩ := Table.mem_upTo he
  simp [h, copy]

/-- A LEAVE of an unknown phone, and of station 0 from channel 0, whose copy has one member or two. -/
theorem meets_ALeaveIsAlwaysAnsweredLeft : demo.Fits ∧ demo.Accepts (msg 0 0 2 1) ∧ NamesPhone (msg 0 0 2 1) ∧ demo.HasRoom 0
    ∧ (∀ i st, demo.stationWith 12 = some (i, st) → st.place.cell? ≠ some 0 ∨ ∀ x ∈ st.members, x.channel ≠ 0)
    ∧ (∃ st, demo.stationWith 2 = some (0, st) ∧ st.place.cell? = some (cellOf (msg 0 0 2 1)) ∧ ∃ x ∈ st.members, x.channel = 0)
    ∧ (∃ c, demo.copies.look 0 = some c ∧ c.channel = 0 ∧ c.cell = cellOf (msg 0 0 2 1) ∧ c.members = 1)
    ∧ { demo with copies := ⟨[(0, { copy 0 0 .active 0 100 0 [] with members := 2 })]⟩ }.copies.look 0 =
      some { copy 0 0 .active 0 100 0 [] with members := 2 } :=
  ⟨demo_fits, demo_accepts 0 2 1 (.inl rfl) (by decide), ⟨by decide, by decide⟩, demo_room.1, not_found rfl,
    ⟨_, rfl, rfl, by decide⟩, ⟨_, rfl, rfl, rfl, rfl⟩, rfl⟩

end Sys2Proof.Tests
end

