-- ==== Sys2Proof/Proofs/Inner.lean ====
section
/-! PROOFS. The interior work of an event, said once: every operation on accounts, copies, memberships, handovers and dormancy is a chain of
a few small moves, and what all of them keep is proved of each move alone. -/

namespace Sys2Proof.Machine

/-- The counters that interior work can move: a cell's replay discarded, a trunk's signalling discarded, the part-wide ones. -/
def Counter.interior : Counter → Bool
  | .cell _ .replayDiscarded => true
  | .trunk _ .signallingDiscarded => true
  | .part _ => true
  | _ => false

/-- Interior work: M and W of a cell's account, a signalling message made, the records of stations, copies and handovers, references
released, interior counters, the creation counter, what is owed, the draws. -/
inductive Inner : State → State → Prop
  | refl (s : State) : Inner s s
  | trans {s t u : State} : Inner s t → Inner t u → Inner s u
  | load (s : State) (cell : Nat) : Inner s (refreshM cell s)
  | weight (s : State) (cell : Nat) : Inner s (refreshW cell s)
  | post (s : State) (cell : Nat) (addr : Addr) (body : SignalBody) : Inner s (postSignal cell addr body s)
  | stations (s : State) (v : Table Station) : (s.stations.wf = true → v.wf = true) → Inner s (s.setStations v)
  | copies (s : State) (v : Table Copy) : (s.copies.wf = true → v.wf = true) → Inner s (s.setCopies v)
  | handovers (s : State) (v : Table Handover) : (s.handovers.wf = true → v.wf = true) → Inner s (s.setHandovers v)
  | release (s : State) (r : BufferRef) : Inner s (releaseRef r s)
  | count (s : State) (c : Counter) (n : Nat) : c.interior = true → Inner s (advance c n s)
  | created (s : State) (v : BitVec 32) : Inner s (s.setCreated v)
  | owed (s : State) (v : Owed) : Inner s (s.setOwed v)
  | draws (s : State) (v : Nat) : Inner s (s.setDraws v)

/-! ## What interior work keeps -/

/-- A cell record without the running figures M and W of its account. -/
def Cell.core (c : Cell) : Cell := { c with account := { c.account with m := 0, w := 0 } }

/-- From `s` to `t` the cells are as before but for M and W, and a trunk has at most gained signalling messages, none where it is HELD or
LINK DOWN. -/
structure Calm (s t : State) : Prop where
  cells  : ∀ n, (t.cells.look n).map Cell.core = (s.cells.look n).map Cell.core
  trunks : ∀ k, ∃ more, t.trunk k = { s.trunk k with signals := (s.trunk k).signals ++ more }
    ∧ ((s.trunk k).state = .held ∨ (s.trunk k).state = .linkDown → more = [])

theorem Calm.of_eq {s t : State} (hc : t.cells = s.cells) (ht : t.trunks = s.trunks) : Calm s t :=
  ⟨fun _ => by rw [hc], fun k => ⟨[], by simp [State.trunk, ht], fun _ => rfl⟩⟩

theorem Calm.refl (s : State) : Calm s s := .of_eq rfl rfl

theorem Calm.trans {s t u : State} (h : Calm s t) (g : Calm t u) : Calm s u where
  cells n := (g.cells n).trans (h.cells n)
  trunks k := by
    obtain ⟨m1, e1, n1⟩ := h.trunks k
    obtain ⟨m2, e2, n2⟩ := g.trunks k
    refine ⟨m1 ++ m2, by rw [e2, e1]; simp, fun hk => ?_⟩
    rw [n1 hk, n2 (by rw [e1]; exact hk)]
    rfl

/-- Calm work that begins with a change of other fields. -/
theorem Calm.after {s t u : State} (h : Calm t u) (hc : t.cells = s.cells) (ht : t.trunks = s.trunks) : Calm s u :=
  (Calm.of_eq hc ht).trans h

theorem Calm.foldl {α : Type} (f : State → α → State) (hf : ∀ s a, Calm s (f s a)) (l : List α) (s : State) :
    Calm s (l.foldl f s) := by
  induction l generalizing s with
  | nil => exact .refl s
  | cons a rest ih => exact (hf s a).trans (ih (f s a))

/-- A change of M and W alone is calm. -/
theorem calm_updateAccount (cell : Nat) (f : Account → Account) (s : State)
    (hf : ∀ a, { f a with m := 0, w := 0 } = { a with m := 0, w := 0 }) : Calm s (updateAccount cell f s) where
  cells n := by
    rw [updateAccount, look_updateCell]
    by_cases h : n = cell
    · subst h
      cases s.cells.look n with
      | none => simp
      | some c => simp [Cell.core, hf]
    · simp [h]
  trunks k := ⟨[], by simp [updateAccount, updateCell, State.trunk], fun _ => rfl⟩

theorem calm_postSignal (cell : Nat) (addr : Addr) (body : SignalBody) (s : State) : Calm s (postSignal cell addr body s) := by
  rcases postSignal_cases cell addr body s with ⟨hr, _⟩ | h | h
  · refine ⟨fun n => by rw [postSignal_frame], fun k => ?_⟩
    have hp := posted_postSignal cell addr body s hr k
    by_cases hk : k = cell / 32
    · rw [if_pos hk] at hp
      refine ⟨_, hp, fun hst => ?_⟩
      obtain ⟨_, ht, _⟩ := hr
      subst hk
      rcases ht with ht | ht <;> simp [ht] at hst
    · rw [if_neg hk] at hp
      exact ⟨[], by simpa using hp, fun _ => rfl⟩
  · rw [h]; exact .refl s
  · rw [h]; exact .of_eq rfl rfl

theorem Inner.calm {s t : State} (h : Inner s t) : Calm s t := by
  induction h with
  | refl s => exact .refl s
  | trans _ _ ih1 ih2 => exact ih1.trans ih2
  | load s cell => exact calm_updateAccount cell _ s fun _ => rfl
  | weight s cell => exact calm_updateAccount cell _ s fun _ => rfl
  | post s cell addr body => exact calm_postSignal cell addr body s
  | release s r => rw [releaseRef_frame]; exact .of_eq rfl rfl
  | _ => exact .of_eq rfl rfl

/-- The fields that interior work may change. -/
theorem Inner.frame {s t : State} (h : Inner s t) : t =
    { s with
      counters := t.counters, cells := t.cells, trunks := t.trunks, pools := t.pools, stations := t.stations
      handovers := t.handovers, copies := t.copies, created := t.created, owed := t.owed, draws := t.draws } := by
  induction h with
  | trans _ _ ih1 ih2 => rw [ih2, ih1]
  | post s cell addr body => rw [postSignal_frame]
  | release s r => rw [releaseRef_frame]; rfl
  | _ => rfl

/-- No other counter moves. -/
theorem Inner.counters {s t : State} (h : Inner s t) : CountersKept s t fun c => c.interior = true := by
  induction h with
  | trans _ _ ih1 ih2 => exact fun c hc => (ih2 c hc).trans (ih1 c hc)
  | post s cell addr body =>
    intro c hc
    rcases postSignal_cases cell addr body s with ⟨_, v, h⟩ | h | h <;> rw [h]
    · rfl
    · rw [bump, counter_advance, if_neg]
      rintro rfl
      exact hc rfl
  | release s r => rw [releaseRef_frame]; exact fun _ _ => rfl
  | count s d n hd =>
    intro c hc
    rw [counter_advance, if_neg]
    rintro rfl
    exact hc hd
  | _ => exact fun _ _ => rfl

/-- Tables in canonical form stay so. -/
theorem Inner.wf {s t : State} (h : Inner s t) :
    (s.stations.wf = true → t.stations.wf = true) ∧ (s.copies.wf = true → t.copies.wf = true)
      ∧ (s.handovers.wf = true → t.handovers.wf = true) ∧ (s.cells.wf = true → t.cells.wf = true) := by
  induction h with
  | trans _ _ ih1 ih2 =>
    obtain ⟨a, b, c, d⟩ := ih1
    obtain ⟨a', b', c', d'⟩ := ih2
    exact ⟨a' ∘ a, b' ∘ b, c' ∘ c, d' ∘ d⟩
  | load s cell => exact ⟨id, id, id, Table.wf_modify _ _ _⟩
  | weight s cell => exact ⟨id, id, id, Table.wf_modify _ _ _⟩
  | post s cell addr body => rw [postSignal_frame]; exact ⟨id, id, id, id⟩
  | stations s v h => exact ⟨h, id, id, id⟩
  | copies s v h => exact ⟨id, h, id, id⟩
  | handovers s v h => exact ⟨id, id, h, id⟩
  | release s r => rw [releaseRef_frame]; exact ⟨id, id, id, id⟩
  | _ => exact ⟨id, id, id, id⟩

/-! ## The operations that are interior work -/

theorem Inner.foldl {α : Type} (f : State → α → State) (hf : ∀ s a, Inner s (f s a)) (l : List α) (s : State) :
    Inner s (l.foldl f s) := by
  induction l generalizing s with
  | nil => exact .refl s
  | cons a rest ih => exact (hf s a).trans (ih (f s a))

theorem inner_putStation (i : Nat) (st : Station) (s : State) : Inner s (s.setStations (s.stations.put i st)) :=
  .stations _ _ (Table.wf_put _ _ _)
theorem inner_mapStations (f : Nat → Station → Station) (s : State) : Inner s (s.setStations (s.stations.mapAll f)) :=
  .stations _ _ (Table.wf_mapAll _ _)
theorem inner_updateStation (i : Nat) (f : Station → Station) (s : State) : Inner s (updateStation i f s) :=
  .stations _ _ (Table.wf_modify _ _ _)
theorem inner_putCopy (n : Nat) (c : Copy) (s : State) : Inner s (s.setCopies (s.copies.put n c)) :=
  .copies _ _ (Table.wf_put _ _ _)
theorem inner_dropCopy (n : Nat) (s : State) : Inner s (s.setCopies (s.copies.drop n)) := .copies _ _ (Table.wf_drop _ _)
theorem inner_dropHandover (i : Nat) (s : State) : Inner s (s.setHandovers (s.handovers.drop i)) :=
  .handovers _ _ (Table.wf_drop _ _)
theorem inner_bumpPart (c : PartCounter) (s : State) : Inner s (bumpPart c s) := .count s _ 1 rfl

theorem inner_releaseAll (rs : List BufferRef) (s : State) : Inner s (releaseAll rs s) :=
  Inner.foldl (fun s r => releaseRef r s) (fun s r => .release s r) rs s

theorem inner_owePass (cell : Nat) (s : State) : Inner s (owePass cell s) := by
  unfold owePass
  split
  · exact .refl s
  · exact .owed ..

theorem inner_refreshRates (cell : Nat) (s : State) : Inner s (refreshRates cell s) := by
  unfold refreshRates
  split
  · exact .refl s
  · exact inner_mapStations ..

theorem inner_reweigh (cell : Nat) (s : State) : Inner s (reweigh cell s) := (Inner.weight s cell).trans (inner_refreshRates ..)
theorem inner_fillCredit (i : Nat) (s : State) : Inner s (fillCredit i s) := inner_updateStation ..
theorem inner_trimCredits (s : State) : Inner s (trimCredits s) := inner_mapStations ..

theorem inner_writeCopy (n : Nat) (c : Copy) (s : State) : Inner s (writeCopy n c s) :=
  (inner_putCopy n c s).trans (inner_mapStations ..)

theorem inner_flushCopy (n : Nat) (s : State) : Inner s (flushCopy n s) := by
  unfold flushCopy
  split
  · exact .refl s
  · exact (inner_putCopy n _ s).trans ((inner_releaseAll ..).trans (.count _ _ _ rfl))

theorem inner_applyDecision (n : Nat) (d : Option TierName) (s : State) : Inner s (applyDecision n d s) := by
  unfold applyDecision
  split
  · exact .refl s
  · split
    · exact (inner_flushCopy n s).trans ((inner_writeCopy ..).trans (.load ..))
    · exact .refl s

theorem inner_tryAdmission (s : State) (n : Nat) : Inner s (tryAdmission s n) := by
  unfold tryAdmission
  split
  · exact .refl s
  · split
    · exact .refl s
    · split
      · exact inner_applyDecision ..
      · exact .refl s

theorem inner_tryRaise (s : State) (n : Nat) : Inner s (tryRaise s n) := by
  unfold tryRaise
  split
  · exact .refl s
  · split
    · split
      · exact inner_applyDecision ..
      · exact .refl s
    · exact .refl s

theorem inner_readmit (cell : Nat) (s : State) : Inner s (readmit cell s) := by
  unfold readmit
  split
  · exact .refl s
  · exact (Inner.foldl _ inner_tryAdmission _ s).trans ((Inner.foldl _ inner_tryRaise _ _).trans (inner_refreshRates ..))

theorem inner_runPasses (s : State) : Inner s (runPasses s) :=
  (Inner.owed s _).trans (Inner.foldl _ (fun s cell => inner_readmit cell s) _ _)

theorem inner_settleAccounts (s : State) : Inner s (settleAccounts s) := (inner_runPasses s).trans (inner_trimCredits _)

theorem inner_shed (cell fuel : Nat) (s : State) : Inner s (shed cell fuel s) := by
  induction fuel generalizing s with
  | zero => exact .refl s
  | succ fuel ih =>
    unfold shed
    split
    · split
      · exact .refl s
      · split
        · exact .refl s
        · split
          · exact .refl s
          · exact (inner_applyDecision ..).trans (ih _)
    · exact .refl s

theorem inner_reload (cell : Nat) (s : State) : Inner s (reload cell s) := by
  unfold reload
  split
  · exact .refl s
  · exact (Inner.copies s _ (Table.wf_mapAll _ _)).trans (.load ..)

theorem inner_pressCopy (s : State) (n : Nat) : Inner s (pressCopy s n) := by
  unfold pressCopy
  split
  · exact .refl s
  · split
    · split
      · exact (inner_flushCopy n s).trans (inner_putCopy ..)
      · exact inner_putCopy ..
    · exact .refl s

theorem inner_press (cell : Nat) (s : State) : Inner s (press cell s) := by
  unfold press
  split
  · exact .refl s
  · have h := (Inner.foldl _ inner_pressCopy (s.copiesAt cell fun c => c.state == .active) s).trans (.load _ cell)
    dsimp only
    split
    · exact h
    · split
      · exact h.trans ((inner_readmit ..).trans (inner_refreshRates ..))
      · exact h

theorem inner_removeCopy (n : Nat) (s : State) : Inner s (removeCopy n s) := by
  unfold removeCopy
  split
  · exact .refl s
  · exact (inner_flushCopy n s).trans ((inner_dropCopy ..).trans
      ((Inner.load ..).trans ((inner_refreshRates ..).trans (inner_owePass ..))))

theorem inner_dropMember (channel cell : Nat) (s : State) : Inner s (dropMember channel cell s) := by
  unfold dropMember
  split
  · exact .refl s
  · split
    · exact inner_removeCopy ..
    · exact inner_putCopy ..

theorem inner_dropMembers (cell : Nat) (ms : List Membership) (s : State) :
    Inner s (ms.foldl (fun s m => dropMember m.channel cell s) s) :=
  Inner.foldl (fun s m => dropMember m.channel cell s) (fun s m => inner_dropMember m.channel cell s) ms s

theorem inner_removeMembership (i channel : Nat) (s : State) : Inner s (removeMembership i channel s) := by
  unfold removeMembership
  split
  · exact .refl s
  · split
    · exact .refl s
    · split
      · exact (inner_putStation ..).trans (inner_dropMember ..)
      · exact .refl s

theorem inner_endMembership (i channel : Nat) (s : State) : Inner s (endMembership i channel s) := by
  unfold endMembership
  split
  · exact .refl s
  · split
    · exact .refl s
    · exact (inner_removeMembership i channel s).trans ((Inner.post ..).trans (inner_bumpPart ..))

theorem inner_createCopy (channel cell : Nat) (s : State) : Inner s (createCopy channel cell s).1 := by
  unfold createCopy
  split
  · exact inner_bumpPart ..
  · split
    · exact (inner_putCopy ..).trans ((Inner.created ..).trans ((Inner.draws ..).trans
        ((Inner.load ..).trans (inner_refreshRates ..))))
    · exact .refl s

theorem inner_placeMembership (i channel cell : Nat) (s : State) : Inner s (placeMembership i channel cell s).1 := by
  have h : Inner s (match s.copyAt channel cell with
      | some (n, c) => (s.setCopies (s.copies.put n { c with members := c.members + 1 }), some c.status)
      | none => createCopy channel cell s).1 := by
    split
    · exact inner_putCopy ..
    · exact inner_createCopy ..
  unfold placeMembership
  dsimp only
  split
  · exact h
  · exact h.trans (inner_updateStation ..)

theorem inner_postNoRoom (newCell : Nat) (addr : Addr) (channel : Nat) (s : State) :
    Inner s (postNoRoom newCell addr channel s) := by
  unfold postNoRoom
  split
  · exact .post ..
  · exact .refl s

theorem inner_carryChannel (i newCell : Nat) (addr : Addr) (s : State) (channel : Nat) :
    Inner s (carryChannel i newCell addr s channel) := by
  unfold carryChannel
  dsimp only
  split
  · exact inner_placeMembership ..
  · exact (inner_placeMembership ..).trans ((inner_postNoRoom ..).trans (inner_bumpPart ..))

theorem inner_carryMemberships (i oldCell newCell : Nat) (s : State) : Inner s (carryMemberships i oldCell newCell s) := by
  unfold carryMemberships
  split
  · exact .refl s
  · exact (inner_putStation ..).trans ((Inner.foldl _ (fun s ch => inner_dropMember ch oldCell s) _ _).trans
      ((inner_owePass ..).trans (Inner.foldl _ (inner_carryChannel i newCell _) _ _)))

theorem inner_goDormant (i : Nat) (s : State) : Inner s (goDormant i s) := by
  unfold goDormant
  split
  · exact .refl s
  · split
    · exact .refl s
    · have h : ∀ (p : Prop) [Decidable p] (x : State), Inner s x → Inner s (if p then oweExpiry i x else x) := by
        intro p _ x hx
        split
        · exact hx.trans (.owed ..)
        · exact hx
      exact h _ _ ((inner_putStation ..).trans ((inner_dropMembers ..).trans ((inner_reweigh ..).trans
        ((inner_releaseAll ..).trans (inner_bumpPart ..)))))

theorem inner_completeHandover (i oldCell newCell : Nat) (s : State) : Inner s (completeHandover i oldCell newCell s) := by
  unfold completeHandover
  split
  · exact .refl s
  · exact (inner_dropHandover i s).trans ((inner_putStation ..).trans ((inner_reweigh ..).trans ((inner_reweigh ..).trans
      ((Inner.post ..).trans ((inner_carryMemberships ..).trans (inner_fillCredit ..))))))

theorem inner_endHandover (i : Nat) (s : State) : Inner s (endHandover i s) := by
  unfold endHandover
  split
  · exact .refl s
  · exact (inner_completeHandover ..).trans (inner_bumpPart ..)

theorem inner_forceHandover (i : Nat) (s : State) : Inner s (forceHandover i s) := by
  unfold forceHandover
  split
  · exact .refl s
  · exact (inner_endHandover i s).trans (inner_bumpPart ..)

theorem inner_cancelToOld (i : Nat) (s : State) : Inner s (cancelToOld i s) := by
  unfold cancelToOld
  split
  · exact .refl s
  · split
    · exact (inner_dropHandover i s).trans ((inner_putStation ..).trans ((Inner.post ..).trans (inner_bumpPart ..)))
    · exact .refl s

theorem inner_holdCopies (t : Nat) (s : State) : Inner s (holdCopies t s) :=
  (Inner.foldl _ (fun s n => inner_applyDecision n none s) _ s).trans
    (Inner.foldl _ (fun s cell => (Inner.load s cell).trans (inner_refreshRates cell _)) _ _)

theorem inner_readmitTrunk (t : Nat) (s : State) : Inner s (readmitTrunk t s) :=
  Inner.foldl _ (fun s cell => inner_readmit cell s) _ s

theorem inner_recheck (i : Nat) (s : State) (channel : Nat) : Inner s (recheck i s channel) := by
  unfold recheck
  split
  · split
    · exact .refl s
    · exact inner_endMembership ..
  · exact .refl s

theorem inner_cascade (i : Nat) (before : StationClass) (s : State) : Inner s (cascade i before s) := by
  unfold cascade
  split
  · exact .refl s
  · split
    · exact .refl s
    · split
      · exact .refl s
      · exact (inner_reweigh ..).trans (Inner.foldl _ (inner_recheck i) _ _)

end Sys2Proof.Machine
end

