-- ==== Sys2Proof/Proofs/Agrees.lean ====
section
/-! PROOFS. The laws of cells and trunks (R1, R11, R36) are kept by every step: calm work keeps them, and so does each operation that
changes the state of a cell or of a trunk. -/

namespace Sys2Proof.Machine

/-! ## Calm work beyond the interior -/

theorem calm_advance (c : Counter) (n : Nat) (s : State) : Calm s (advance c n s) := .of_eq rfl rfl
theorem calm_bump (c : Counter) (s : State) : Calm s (bump c s) := .of_eq rfl rfl
theorem calm_bumpPart (c : PartCounter) (s : State) : Calm s (bumpPart c s) := .of_eq rfl rfl

theorem calm_pushNotice (b : NoticeBody) (s : State) : Calm s (pushNotice b s) := by
  rw [pushNotice_frame]; exact .of_eq rfl rfl

theorem calm_raiseLatch (l : Latch) (s : State) : Calm s (raiseLatch l s) := by
  rcases raiseLatch_cases l s with ⟨_, h⟩ | ⟨_, h⟩ <;> rw [h]
  · exact .refl s
  · exact (calm_pushNotice ..).after rfl rfl

theorem calm_dropForWant (n : Nat) (s : State) : Calm s (dropForWant n s) := by
  unfold dropForWant
  split <;> exact (calm_bumpPart ..).trans (calm_raiseLatch ..)

theorem calm_placeReply (kind : ReplyKind) (tag : Byte) (status : Status) (body : ReplyBody) (s : State) :
    Calm s (placeReply kind tag status body s) := by
  rw [placeReply_frame]; exact .of_eq rfl rfl

theorem calm_hear (i : Nat) (s : State) : Calm s (hear i s) := .of_eq rfl rfl
theorem calm_updateTicket (n : TicketNumber) (f : Ticket → Ticket) (s : State) : Calm s (updateTicket n f s) := .of_eq rfl rfl

/-! ### Stations -/

theorem calm_ticketToInside (n : Option TicketNumber) (s : State) : Calm s (ticketToInside n s) := by
  cases n <;> exact .of_eq rfl rfl

theorem calm_freeStation (i : Nat) (s : State) : Calm s (freeStation i s) := by
  unfold freeStation
  split
  · exact .refl s
  · refine Calm.trans ?_ (inner_releaseAll ..).calm
    have h : Calm s (ticketToInside ‹Station›.ticket
        ((s.setStations (s.stations.drop i)).setHandovers (s.handovers.drop i))) :=
      (calm_ticketToInside ..).after rfl rfl
    split
    · exact h
    · exact h.trans ((inner_dropMembers ..).trans (inner_reweigh ..)).calm

theorem calm_expireStation (i : Nat) (s : State) : Calm s (expireStation i s) := by
  unfold expireStation
  split
  · exact .refl s
  · split
    · exact (calm_freeStation i s).trans (calm_bumpPart ..)
    · exact .refl s

theorem calm_runExpiries (s : State) : Calm s (runExpiries s) :=
  (Inner.owed s _).calm.trans (Calm.foldl _ (fun s i => calm_expireStation i s) _ _)

theorem calm_settleAttached (i cell : Nat) (addr : Addr) (s : State) : Calm s (settleAttached i cell addr s) :=
  ((inner_reweigh cell s).trans ((inner_fillCredit ..).trans (.post ..))).calm

theorem calm_attachNew (i cell : Nat) (addr : Addr) (s : State) : Calm s (attachNew i cell addr s) :=
  (inner_putStation ..).calm.trans (calm_settleAttached ..)

theorem calm_attachUnknown (cell : Nat) (addr : Addr) (s : State) : Calm s (attachUnknown cell addr s) := by
  unfold attachUnknown
  split
  · exact calm_attachNew ..
  · split
    · exact (calm_freeStation _ s).trans ((calm_bumpPart ..).trans (calm_attachNew ..))
    · exact (calm_postSignal ..).trans ((calm_bumpPart ..).trans (calm_raiseLatch ..))

theorem calm_startHandover (i oldCell newCell : Nat) (addr : Addr) (since : Clock) (s : State) :
    Calm s (startHandover i oldCell newCell addr since s) := by
  unfold startHandover
  dsimp only
  split
  · exact (calm_hear i s).trans ((inner_completeHandover ..).calm.trans ((calm_bumpPart ..).trans (calm_bumpPart ..)))
  · split
    · exact (calm_postSignal ..).trans (calm_bumpPart ..)
    · exact (calm_postSignal ..).after rfl rfl

theorem calm_requestWhileMoving (i cell : Nat) (addr : Addr) (s : State) : Calm s (requestWhileMoving i cell addr s) := by
  unfold requestWhileMoving
  split
  · exact .refl s
  · split
    · exact .refl s
    · split
      · exact (inner_cancelToOld i s).calm.trans ((calm_hear ..).trans (calm_postSignal ..))
      · exact (calm_postSignal ..).after rfl rfl

theorem calm_takeAttach (cell : Nat) (addr : Addr) (s : State) : Calm s (takeAttach cell addr s) := by
  unfold takeAttach
  split
  · exact calm_attachUnknown ..
  · split
    · exact (inner_putStation ..).calm.trans (calm_settleAttached ..)
    · split
      · exact (calm_hear ..).trans (calm_postSignal ..)
      · exact calm_startHandover ..
    · exact calm_requestWhileMoving ..

theorem calm_takeRelease (cell : Nat) (addr : Addr) (n : Byte) (s : State) : Calm s (takeRelease cell addr n s) := by
  unfold takeRelease
  dsimp only
  split
  · exact (calm_advance ..).trans (inner_endHandover ..).calm
  · exact (calm_advance ..).trans (calm_bumpPart ..)

theorem calm_cancelToDormant (i : Nat) (s : State) : Calm s (cancelToDormant i s) :=
  (inner_dropHandover i s).calm.trans ((inner_goDormant ..).calm.trans (calm_bumpPart ..))

theorem calm_departWhileMoving (i cell : Nat) (s : State) : Calm s (departWhileMoving i cell s) := by
  unfold departWhileMoving
  split
  · exact calm_bumpPart ..
  · split
    · exact (inner_endHandover ..).calm
    · split
      · exact calm_cancelToDormant ..
      · exact calm_bumpPart ..

theorem calm_takeDepart (cell : Nat) (addr : Addr) (s : State) : Calm s (takeDepart cell addr s) := by
  unfold takeDepart
  split
  · exact calm_bumpPart ..
  · split
    · split
      · exact (inner_goDormant ..).calm
      · exact calm_bumpPart ..
    · exact calm_departWhileMoving ..
    · exact calm_bumpPart ..

theorem calm_hearAddress (cell : Nat) (s : State) (a : Addr) : Calm s (hearAddress cell s a) := by
  unfold hearAddress
  split
  · exact .refl s
  · split
    · split
      · exact calm_hear ..
      · exact .refl s
    · exact .refl s

theorem calm_evict (i : Nat) (st : Station) (s : State) : Calm s (evict i st s) := by
  have h : Calm s (if st.place.isMoving then refuseEvicted i st.addr s else s) := by
    split
    · unfold refuseEvicted
      split
      · exact .refl s
      · exact calm_postSignal ..
    · exact .refl s
  exact h.trans ((calm_freeStation ..).trans (calm_bumpPart ..))

/-! ### Tickets and claims -/

theorem calm_stripStation (i : Nat) (s : State) : Calm s (stripStation i s) := .of_eq rfl rfl

theorem calm_unbindEarlier (n : TicketNumber) (m : Option TicketNumber) (s : State) : Calm s (unbindEarlier n m s) := by
  unfold unbindEarlier
  split
  · exact .refl s
  · split
    · exact .refl s
    · exact calm_updateTicket ..

theorem calm_unbindHolder (i : Nat) (x : TicketState) (s : State) : Calm s (unbindHolder i x s) := by
  unfold unbindHolder
  split
  · split
    · exact .refl s
    · exact calm_stripStation ..
  · exact .refl s

theorem calm_bind (n : TicketNumber) (i : Nat) (s : State) : Calm s (bind n i s) := by
  unfold bind
  split
  · exact (calm_unbindEarlier ..).trans ((calm_unbindHolder ..).trans (.of_eq rfl rfl))
  · exact .refl s

theorem calm_giveVerdict (c : Claim) (v : Verdict) (s : State) : Calm s (giveVerdict c v s) :=
  (calm_postSignal ..).trans (calm_bumpPart ..)

theorem calm_refuseToken (c : Claim) (t : Ticket) (s : State) : Calm s (refuseToken c t s) := by
  unfold refuseToken
  dsimp only
  split
  · exact (calm_updateTicket ..).trans ((calm_giveVerdict ..).trans (calm_pushNotice ..))
  · exact (calm_updateTicket ..).trans (calm_giveVerdict ..)

theorem calm_judgeEntry (c : Claim) (t : Ticket) (s : State) : Calm s (judgeEntry c t s) := by
  have entry : Calm s (if t.admissions < s.settings.policy.maxEntries then
      giveVerdict c .admitted (updateTicket c.number
        (fun t => { t with state := .inside, admissions := t.admissions + 1, lastGate := some c.cell }) s)
      else refuseClaim c .reentryLimit s) := by
    split
    · exact (calm_updateTicket ..).trans (calm_giveVerdict ..)
    · exact calm_giveVerdict ..
  unfold judgeEntry
  split
  · exact entry
  · exact entry
  · exact (calm_giveVerdict ..).trans (calm_pushNotice ..)
  · exact (calm_giveVerdict ..).trans (calm_pushNotice ..)
  · exact calm_giveVerdict ..

theorem calm_seatClaim (c : Claim) (i : Nat) (s : State) : Calm s (seatClaim c i s) :=
  (calm_bind ..).trans ((calm_giveVerdict ..).trans (inner_cascade ..).calm)

theorem calm_judgeSeat (c : Claim) (i : Nat) (t : Ticket) (s : State) : Calm s (judgeSeat c i t s) := by
  have claim : Calm s (match s.settings.policy.mode with
      | .strict => refuseClaim c .notInside s
      | .lenient =>
        if t.admissions < s.settings.policy.maxEntries then
          seatClaim c i (updateTicket c.number (fun t => { t with admissions := t.admissions + 1 }) s)
        else refuseClaim c .reentryLimit s) := by
    split
    · exact calm_giveVerdict ..
    · split
      · exact (calm_updateTicket ..).trans (calm_seatClaim ..)
      · exact calm_giveVerdict ..
  unfold judgeSeat
  split
  · exact calm_giveVerdict ..
  · split
    · exact calm_giveVerdict ..
    · split
      · exact calm_seatClaim ..
      · split
        · exact calm_giveVerdict ..
        · split
          · split
            · exact calm_seatClaim ..
            · exact (calm_giveVerdict ..).trans (calm_pushNotice ..)
          · exact calm_seatClaim ..
      · exact claim
      · exact claim
      · exact calm_giveVerdict ..

theorem calm_judgeExit (c : Claim) (t : Ticket) (s : State) : Calm s (judgeExit c t s) := by
  unfold judgeExit
  split
  · exact (calm_updateTicket ..).trans (calm_giveVerdict ..)
  · exact ((calm_giveVerdict ..).trans (inner_cascade ..).calm).after rfl rfl
  · exact calm_giveVerdict ..
  · exact calm_giveVerdict ..
  · exact calm_giveVerdict ..

theorem calm_judgeTicket (c : Claim) (i : Nat) (t : Ticket) (s : State) : Calm s (judgeTicket c i t s) := by
  unfold judgeTicket
  split
  · exact calm_giveVerdict ..
  · split
    · exact calm_giveVerdict ..
    · split
      · exact calm_refuseToken ..
      · split
        · exact calm_judgeEntry ..
        · exact calm_judgeSeat ..
        · exact calm_judgeExit ..

theorem calm_judgeFrom (absent : State → State) (ha : ∀ s, Calm s (absent s)) (c : Claim) (s : State) :
    Calm s (judgeFrom absent c s) := by
  unfold judgeFrom
  split
  · exact calm_giveVerdict ..
  · split
    · exact calm_giveVerdict ..
    · split
      · exact ha s
      · exact calm_judgeTicket ..

theorem calm_judgeParked (c : Claim) (s : State) : Calm s (judgeParked c s) := calm_judgeFrom id .refl c s

theorem calm_refer (c : Claim) (s : State) : Calm s (refer c s) := by
  unfold refer
  split
  · exact (calm_giveVerdict ..).trans (calm_bumpPart ..)
  · split
    · exact (calm_giveVerdict ..).trans (calm_bumpPart ..)
    · exact (calm_pushNotice ..).after rfl rfl

theorem calm_judgeArrival (c : Claim) (s : State) : Calm s (judgeArrival c s) := by
  unfold judgeArrival
  split
  · exact calm_giveVerdict ..
  · exact calm_judgeFrom _ (calm_refer c) c s

theorem calm_unpark (id : BitVec 16) (s : State) : Calm s (unpark id s) := .of_eq rfl rfl

theorem calm_expireReferral (p : Parked) (s : State) : Calm s (expireReferral p s) :=
  (calm_unpark ..).trans ((calm_giveVerdict ..).trans (calm_bumpPart ..))

theorem calm_storeRecord (n : TicketNumber) (t : Ticket) (s : State) : Calm s (storeRecord n t s) := by
  have h : Calm s (match s.loadOutcome n with
      | .stored => s.setTickets (s.tickets.put n.toNat t)
      | .replaced => updateTicket n (fun old =>
          { old with token := t.token, cls := t.cls, seatSection := t.seatSection, seat := t.seat }) s
      | .skipped => s
      | .full => s) := by
    split <;> exact .of_eq rfl rfl
  exact h.trans (calm_bumpPart ..)

theorem calm_resolveReferral (n : TicketNumber) (s : State) : Calm s (resolveReferral n s) := by
  unfold resolveReferral
  split
  · exact .refl s
  · exact (calm_unpark ..).trans ((calm_judgeParked ..).trans (calm_bumpPart ..))

theorem calm_loadRecord (n : TicketNumber) (t : Ticket) (s : State) : Calm s (loadRecord n t s) := by
  unfold loadRecord
  split
  · exact (calm_storeRecord ..).trans (calm_resolveReferral ..)
  · exact calm_storeRecord ..

theorem calm_loadAll (fs : List TicketFields) (s : State) (n : LoadCounts) : Calm s (loadAll fs s n).1 := by
  induction fs generalizing s n with
  | nil => exact .refl s
  | cons f rest ih =>
    unfold loadAll
    split
    · exact ih s n
    · exact (calm_loadRecord ..).trans (ih _ _)

theorem calm_voidOne (n : TicketNumber) (t : Ticket) (s : State) : Calm s (voidOne n t s) := by
  unfold voidOne
  refine Calm.trans ?_ (calm_bumpPart ..)
  split
  · exact (inner_cascade ..).calm.after rfl rfl
  · exact calm_updateTicket ..

theorem calm_purgeTicket (s : State) (e : Nat × Ticket) : Calm s (purgeTicket s e) := by
  unfold purgeTicket
  dsimp only
  split
  · exact (inner_cascade ..).calm.after rfl rfl
  · exact .of_eq rfl rfl

theorem calm_endPurge (p : Purge) (s : State) : Calm s (endPurge p s) := by
  unfold endPurge
  split
  · exact (calm_pushNotice ..).after rfl rfl
  · exact .refl s

theorem calm_takePurgeBatch (p : Purge) (s : State) : Calm s (takePurgeBatch p s) :=
  ((Calm.foldl _ calm_purgeTicket _ _).trans (calm_endPurge ..)).after rfl rfl

theorem calm_startPurge (tag : Byte) (s : State) : Calm s (startPurge tag s) :=
  (Calm.foldl deferParked (fun s p => (calm_unpark p.id s).trans ((calm_giveVerdict ..).trans (calm_bumpPart ..))) _ s).trans
    (.of_eq rfl rfl)

/-! ### Memberships, forwarding, accounts -/

theorem calm_judgeJoin (cell : Nat) (addr : Addr) (channel : Nat) (s : State) : Calm s (judgeJoin cell addr channel s).1 := by
  unfold judgeJoin
  split
  · exact .refl s
  · split
    · exact .refl s
    · exact (inner_placeMembership ..).calm

theorem calm_takeJoin (cell : Nat) (addr : Addr) (channel : Nat) (s : State) : Calm s (takeJoin cell addr channel s) :=
  (calm_judgeJoin cell addr channel s).trans (calm_postSignal ..)

theorem calm_takeLeave (cell : Nat) (addr : Addr) (channel : Nat) (s : State) : Calm s (takeLeave cell addr channel s) := by
  have h : Calm s (removeByLeave cell addr channel s) := by
    unfold removeByLeave
    split
    · exact .refl s
    · split
      · exact (inner_removeMembership ..).calm
      · exact .refl s
  exact h.trans (calm_postSignal ..)

theorem calm_closeOpen (k : Nat) (ch : Channel) (s : State) : Calm s (closeOpen k ch s) :=
  (Calm.foldl (endCopy k) (fun s cell => Calm.foldl (fun s i => endMembership i k s)
    (fun s i => (inner_endMembership i k s).calm) (s.membersAt k cell) s) _ _).after rfl rfl

theorem calm_takeDataUp (cell : Nat) (addr : Addr) (payload : List Byte) (s : State) : Calm s (takeDataUp cell addr payload s) := by
  have offer : ∀ x, Calm x (offerUpstream addr payload x) := by
    intro x
    unfold offerUpstream
    split
    · exact calm_bumpPart ..
    · split
      · exact calm_dropForWant ..
      · exact .of_eq rfl rfl
  unfold takeDataUp
  split
  · exact calm_bumpPart ..
  · split
    · exact calm_bumpPart ..
    · exact (calm_hear ..).trans ((calm_bump ..).trans (offer _))

theorem calm_joinCopyQueue (r : BufferRef) (s : State) (n : Nat) : Calm s (joinCopyQueue r s n) := by
  unfold joinCopyQueue
  split
  · exact .refl s
  · split
    · exact .of_eq rfl rfl
    · exact (inner_putCopy ..).calm.trans ((inner_releaseAll ..).calm.trans (calm_bump ..))

theorem calm_takeReplay (tag : BitVec 16) (payload : List Byte) (s : State) : Calm s (takeReplay tag payload s) := by
  unfold takeReplay
  split
  · exact calm_bumpPart ..
  · dsimp only
    split
    · exact (calm_bump ..).trans (calm_dropForWant ..)
    · split
      · exact (calm_bump ..).trans (calm_bump ..)
      · exact (Calm.foldl _ (calm_joinCopyQueue _) _ _).after rfl rfl

theorem calm_takeDownlink (dest : Addr) (payload : List Byte) (s : State) : Calm s (takeDownlink dest payload s) := by
  unfold takeDownlink
  split
  · exact calm_bumpPart ..
  · split
    · exact calm_bumpPart ..
    · split
      · exact calm_bumpPart ..
      · split
        · exact calm_bump ..
        · split
          · exact calm_dropForWant ..
          · exact .of_eq rfl rfl

theorem calm_serveBackbone (s : State) : Calm s (serveBackbone s) := by
  unfold serveBackbone
  split
  · exact .refl s
  · split
    · exact .of_eq rfl rfl
    · exact .refl s

theorem calm_applyWeights (w : ClassWeights) (s : State) : Calm s (applyWeights w s) :=
  (Calm.foldl _ (fun s cell => (inner_reweigh cell s).calm) _ _).after rfl rfl

/-! ## Calm work keeps the laws -/

theorem Cell.agrees_of_core {c d : Cell} (h : d.core = c.core) (hc : c.Agrees) : d.Agrees := by
  have hs : d.state = c.state := congrArg (·.state) h
  have hm : d.missed = c.missed := congrArg (·.missed) h
  unfold Cell.Agrees at hc ⊢
  rw [hs, hm]
  exact hc

theorem Trunk.Agrees.gain {t : Trunk} (h : t.Agrees) {more : List Signal}
    (hm : t.state = .held ∨ t.state = .linkDown → more = []) : Trunk.Agrees { t with signals := t.signals ++ more } where
  tag := h.tag
  since := h.since
  run := h.run
  still hs := ⟨by rw [hm hs, (h.still hs).1]; rfl, (h.still hs).2⟩

/-- On an ACTIVE or DRAINING trunk the queue, the link and the position are free; the run count is so on an ACTIVE one. -/
theorem Trunk.Agrees.carries {t : Trunk} (h : t.Agrees) (ht : t.state = .active ∨ t.state = .draining) {run : Nat}
    (hr : t.state = .draining → run = 0) (signals : List Signal) (last : Option Nat) (frame : Option LinkFrame) :
    Trunk.Agrees { t with run := run, signals := signals, lastServed := last, frame := frame } where
  tag := h.tag
  since := h.since
  run hn := ht.elim (fun ha => absurd ha hn) hr
  still hs := by
    change t.state = .held ∨ t.state = .linkDown at hs
    rcases ht with ht | ht <;> simp [ht] at hs

theorem Calm.agrees {s t : State} (h : Calm s t) (hs : s.Agrees) : t.Agrees where
  cells n d hd := by
    have hc := h.cells n
    rw [hd, Option.map_some, eq_comm, Option.map_eq_some_iff] at hc
    obtain ⟨c, hc, he⟩ := hc
    exact Cell.agrees_of_core he.symm (hs.cells n c hc)
  trunks k := by
    obtain ⟨more, he, hm⟩ := h.trunks k
    rw [he]
    exact (hs.trunks k).gain hm

theorem Inner.agrees {s t : State} (h : Inner s t) (hs : s.Agrees) : t.Agrees := h.calm.agrees hs

/-! ## Changes of cells and trunks -/

theorem State.Agrees.setTrunk {s : State} (hs : s.Agrees) {v : Trunk} (hv : v.Agrees) (t : Nat) : (s.setTrunk t v).Agrees where
  cells := hs.cells
  trunks k := by
    rw [trunk_setTrunk]
    split
    · exact hv
    · exact hs.trunks k

/-- The round-robin position is free. -/
theorem State.Agrees.setPosition {s : State} (hs : s.Agrees) (t : Nat) (p : Option Nat) :
    (s.setTrunk t { s.trunk t with lastServed := p }).Agrees :=
  hs.setTrunk (v := { s.trunk t with lastServed := p })
    ⟨(hs.trunks t).tag, (hs.trunks t).since, (hs.trunks t).run, (hs.trunks t).still⟩ t

theorem State.Agrees.setCells {s : State} (hs : s.Agrees) {v : Table Cell} (hv : v.holds Cell.Agrees) : (s.setCells v).Agrees :=
  ⟨hv, hs.trunks⟩

theorem Table.holds_put {α : Type} {t : Table α} {p : α → Prop} (ht : t.holds p) {k : Nat} {v : α} (hv : p v) :
    (t.put k v).holds p := by
  intro j w hj
  rw [Table.look_put] at hj
  split at hj
  · exact Option.some.inj hj ▸ hv
  · exact ht j w hj

theorem Table.holds_mapAll {α : Type} {t : Table α} {p : α → Prop} (ht : t.holds p) {f : Nat → α → α}
    (hf : ∀ k v, p v → p (f k v)) : (t.mapAll f).holds p := by
  intro j w hj
  rw [Table.look_mapAll, Option.map_eq_some_iff] at hj
  obtain ⟨v, hv, rfl⟩ := hj
  exact hf j v (ht j v hv)

theorem Table.holds_modify {α : Type} {t : Table α} {p : α → Prop} (ht : t.holds p) {k : Nat} {f : α → α}
    (hf : ∀ v, p v → p (f v)) : (t.modify k f).holds p := by
  unfold Table.modify
  split
  · exact Table.holds_put ht (hf _ (ht _ _ ‹_›))
  · exact ht

theorem Table.holds_drop {α : Type} {t : Table α} {p : α → Prop} (ht : t.holds p) (k : Nat) : (t.drop k).holds p := by
  intro j w hj
  rw [Table.look_drop] at hj
  split at hj
  · cases hj
  · exact ht j w hj

/-- A record written over one with the same state and count. -/
theorem State.Agrees.putCell {s : State} (hs : s.Agrees) {n : Nat} {c d : Cell} (hc : s.cells.look n = some c)
    (h : d.state = c.state ∧ d.missed = c.missed) : (s.setCells (s.cells.put n d)).Agrees := by
  refine hs.setCells (Table.holds_put hs.cells ?_)
  have ha := hs.cells n c hc
  unfold Cell.Agrees at ha ⊢
  rw [h.1, h.2]
  exact ha

theorem agrees_updateCell {s : State} (hs : s.Agrees) (cell : Nat) {f : Cell → Cell} (hf : ∀ c, c.Agrees → (f c).Agrees) :
    (updateCell cell f s).Agrees := hs.setCells (Table.holds_modify hs.cells hf)

theorem agrees_updateCellsOf {s : State} (hs : s.Agrees) (t : Nat) {f : Cell → Cell} (hf : ∀ c, c.Agrees → (f c).Agrees) :
    (updateCellsOf t f s).Agrees :=
  hs.setCells (Table.holds_mapAll hs.cells fun n c hc => by split <;> [exact hf c hc; exact hc])

/-- Laws kept along a list. -/
theorem agrees_foldl {α : Type} {f : State → α → State} (hf : ∀ s a, s.Agrees → (f s a).Agrees) (l : List α) {s : State}
    (hs : s.Agrees) : (l.foldl f s).Agrees := by
  induction l generalizing s with
  | nil => exact hs
  | cons a rest ih => exact ih (hf s a hs)

/-- A cell goes DOWN with count 3 (R10). -/
theorem agrees_cellDown {s : State} (hs : s.Agrees) (cell : Nat) (cause : DownCause) : (cellDown cell cause s).Agrees := by
  have h1 : (updateCell cell (fun c => { c with state := .down, missed := 3 }) s).Agrees :=
    agrees_updateCell hs cell fun _ _ => rfl
  refine (calm_pushNotice _ _).agrees (agrees_foldl (fun s i hs => (inner_goDormant i s).agrees hs) _
    (agrees_foldl (fun s i hs => (inner_cancelToOld i s).agrees hs) _
      (agrees_foldl (fun s i hs => (inner_forceHandover i s).agrees hs) _ h1)))

/-- A trunk that is drained enters HELD with its tag, no message and no frame (R16). -/
theorem agrees_enterHeld {s : State} (hs : s.Agrees) {t : Nat} (hd : s.drained t = true) : (enterHeld t s).Agrees := by
  simp only [State.drained, Bool.and_eq_true, beq_iff_eq, Option.isNone_iff_eq_none, List.isEmpty_iff] at hd
  obtain ⟨⟨hst, hf⟩, hm⟩ := hd
  have ht := hs.trunks t
  have hv : Trunk.Agrees { s.trunk t with state := .held, heldSince := some s.now } :=
    ⟨by simpa [hst] using ht.tag, by simp, fun _ => ht.run (by simp [hst]), fun _ => ⟨hm, hf⟩⟩
  have h1 := hs.setTrunk hv t
  exact (inner_mapStations _ _).agrees (agrees_foldl (fun s i hs => (inner_cancelToOld i s).agrees hs) _
    (agrees_foldl (fun s i hs => (inner_forceHandover i s).agrees hs) _
      (agrees_updateCellsOf ((calm_pushNotice _ _).agrees h1) t fun _ hc => hc)))

/-! ## Sending and the close (R7, R30, log 9) -/

/-- A frame that leaves on an ACTIVE trunk, or on a DRAINING one without counting a replay run, keeps the laws. -/
theorem agrees_startFrame {s : State} (hs : s.Agrees) {t : Nat} {f : LinkFrame} {replay : Bool}
    (ht : (s.trunk t).state = .active ∨ ((s.trunk t).state = .draining ∧ replay = false)) : (startFrame t f replay s).Agrees := by
  have hv := (hs.trunks t).carries (run := if replay then min 255 ((s.trunk t).run + 1) else 0)
    (ht.imp_right And.left) (fun hd => by rcases ht with ht | ⟨_, rfl⟩ <;> simp_all) (s.trunk t).signals (s.trunk t).lastServed (some f)
  exact (calm_bump _ _).agrees (hs.setTrunk hv t)

/-- The table of R7 keeps count and state in step. -/
theorem agrees_settlePoll {s : State} (hs : s.Agrees) (cell : Nat) : (settlePoll cell s).Agrees := by
  unfold settlePoll
  cases hc : s.cells.look cell with
  | none => exact hs
  | some c =>
    have hb := (calm_bump (.cell cell .pollsMissed) s).agrees hs
    dsimp only
    split
    · exact hs
    · split
      · refine hb.setCells (fun n d hd => ?_)
        rw [Table.look_modify] at hd
        split at hd
        · rw [show (bump (.cell cell .pollsMissed) s).cells = s.cells from rfl, hc, Option.map_some, Option.some.injEq] at hd
          subst hd
          show c.missed + 1 = 1 ∨ c.missed + 1 = 2
          omega
        · exact hs.cells n d hd
      · split
        · exact agrees_cellDown hb cell _
        · exact hb

theorem agrees_sendPoll {s : State} (hs : s.Agrees) {t cell : Nat}
    (ht : (s.trunk t).state = .active ∨ (s.trunk t).state = .draining) : (sendPoll t cell s).Agrees :=
  agrees_updateCell (agrees_settlePoll (agrees_startFrame hs (ht.imp_right fun h => ⟨h, rfl⟩)) cell) cell fun _ hc => hc

theorem agrees_sendSignal {s : State} (hs : s.Agrees) {t : Nat} {m : Signal}
    (ht : (s.trunk t).state = .active ∨ (s.trunk t).state = .draining) : (sendSignal t m s).Agrees := by
  have h := hs.trunks t
  have hv := h.carries ht (fun hd => h.run (by simp [hd])) (s.trunk t).signals.tail (s.trunk t).lastServed (s.trunk t).frame
  exact agrees_startFrame (hs.setTrunk hv t) (by rw [trunk_setTrunk, if_pos rfl]; exact ht.imp_right fun h => ⟨h, rfl⟩)

theorem inner_attemptRecovery (n : Nat) (s : State) : Inner s (attemptRecovery n s) := by
  unfold attemptRecovery
  split
  · exact .refl s
  · split
    · dsimp only
      split
      · exact (inner_putCopy ..).trans ((Inner.load ..).trans (inner_refreshRates ..))
      · exact .refl s
    · exact .refl s

theorem inner_pace (n : Nat) (s : State) : Inner s (pace n s) := by
  unfold pace
  split
  · exact .refl s
  · split
    · exact .refl s
    · dsimp only
      split
      · exact inner_putCopy ..
      · split
        · exact (inner_putCopy ..).trans (inner_attemptRecovery ..)
        · exact inner_putCopy ..

theorem agrees_sendReplay {s : State} (hs : s.Agrees) {t n : Nat} (ht : (s.trunk t).state = .active) :
    (sendReplay t n s).Agrees := by
  unfold sendReplay
  split
  · exact hs
  · split
    · exact hs
    · refine (inner_pace ..).agrees ((calm_bump ..).agrees (agrees_startFrame ((inner_putCopy ..).agrees hs) (.inl ?_)))
      exact ht

theorem agrees_sendStation {s : State} (hs : s.Agrees) {t i : Nat}
    (ht : (s.trunk t).state = .active ∨ (s.trunk t).state = .draining) : (sendStation t i s).Agrees := by
  unfold sendStation
  split
  · exact hs
  · split
    · exact (calm_bump ..).agrees (State.Agrees.setPosition
        (agrees_startFrame ((inner_putStation ..).agrees hs) (ht.imp_right fun h => ⟨h, rfl⟩)) t (some i))
    · exact hs

/-- A choice is made on an ACTIVE or DRAINING trunk only, and a replay frame is chosen on an ACTIVE one (R36). -/
theorem choose_state {s : State} {t : Nat} {c : Choice} (h : s.choose t = some c) :
    ((s.trunk t).state = .active ∨ (s.trunk t).state = .draining) ∧ (∀ n, c = .replay n → (s.trunk t).state = .active) := by
  unfold State.choose at h
  dsimp only at h
  split at h
  · cases h
  · rename_i hn
    refine ⟨?_, ?_⟩
    · revert hn
      cases (s.trunk t).state <;> simp
    · rintro n rfl
      split at h
      · cases h
      · cases h
      · split at h
        · assumption
        · cases hp : s.nextPoll t .onTime <;> simp [hp] at h

theorem agrees_send {s : State} (hs : s.Agrees) {t : Nat} {c : Choice} (hc : s.choose t = some c) : (send t c s).Agrees := by
  obtain ⟨ht, hr⟩ := choose_state hc
  cases c with
  | poll cell => exact agrees_sendPoll hs ht
  | signal m => exact agrees_sendSignal hs ht
  | replay n => exact agrees_sendReplay hs (hr n rfl)
  | station i => exact agrees_sendStation hs ht

theorem firstChoice_choose {s : State} {l : List Nat} {t : Nat} {c : Choice} (h : s.firstChoice l = some (t, c)) :
    s.choose t = some c := by
  induction l with
  | nil => cases h
  | cons k rest ih =>
    unfold State.firstChoice at h
    split at h
    · obtain ⟨rfl, rfl⟩ := Prod.mk.inj (Option.some.inj h)
      assumption
    · exact ih h

theorem agrees_serveLinks (fuel : Nat) {s : State} (hs : s.Agrees) : (serveLinks fuel s).Agrees := by
  induction fuel generalizing s with
  | zero => exact hs
  | succ fuel ih =>
    unfold serveLinks
    split
    · exact hs
    · exact ih ((inner_settleAccounts _).agrees (agrees_send hs (firstChoice_choose ‹_›)))

theorem agrees_checkDrain (s : State) (t : Nat) (hs : s.Agrees) : (checkDrain s t).Agrees := by
  unfold checkDrain
  split
  · exact (inner_settleAccounts _).agrees (agrees_enterHeld hs ‹_›)
  · exact hs

theorem agrees_closeEvent {s : State} (hs : s.Agrees) : (closeEvent s).Agrees :=
  (calm_runExpiries _).agrees ((calm_serveBackbone _).agrees (agrees_serveLinks _
    (agrees_foldl agrees_checkDrain _ ((inner_settleAccounts s).agrees hs))))

theorem agrees_takeOrder (kind : OrderKind) (h : OrderHead) {rule : State → Answer} {s : State} (hs : s.Agrees)
    (hr : (rule s).state.Agrees) : (takeOrder kind h rule s).Agrees := by
  unfold takeOrder
  split
  · exact hs
  · refine (calm_placeReply _ _ _ _ _).agrees ?_
    split
    · exact hr
    · exact hs

theorem agrees_takeActing (kind : OrderKind) (h : OrderHead) {rule : State → Answer} {s : State} (hs : s.Agrees)
    (hr : (rule s).state.Agrees) : (takeActing kind h rule s).Agrees := by
  have hp : ∀ a : Answer, a.state.Agrees → (placeReply (.order kind) h.tag a.status a.body a.state).Agrees :=
    fun a ha => (calm_placeReply ..).agrees ha
  unfold takeActing
  split
  · exact hs
  · have ha : (if h.bodyFits then rule s else refuse .badArgument s).state.Agrees := by
      split
      · exact hr
      · exact hs
    generalize (if h.bodyFits then rule s else refuse .badArgument s) = a at ha ⊢
    dsimp only
    split
    · exact agrees_closeEvent (hp a ha)
    · exact hp a ha

theorem agrees_takeMessage (f : Fate) {owner : State → State} {s : State} (hs : s.Agrees) (ho : (owner s).Agrees) :
    (takeMessage f owner s).Agrees := by
  cases f with
  | absent => exact hs
  | discarded c => exact (calm_bump c s).agrees hs
  | taken => exact agrees_closeEvent ho

end Sys2Proof.Machine
end

