-- ==== Sys2Proof/Proofs/AgreesCommands.lean ====
section
/-! PROOFS. The laws of cells and trunks (R1, R11, R36) are kept by the commands that change the state of a cell or of a trunk. -/

namespace Sys2Proof.Machine

/-! ## Commands that change the state of a cell or of a trunk -/

theorem agrees_answerPoll {s : State} (hs : s.Agrees) (cell : Nat) : (answerPoll cell s).Agrees := by
  unfold answerPoll
  split
  · exact hs
  · have h1 : State.Agrees (s.setCells (s.cells.put cell { ‹Cell› with awaited := false, missed := 0, state := .active })) :=
      hs.setCells (Table.holds_put hs.cells rfl)
    dsimp only
    split
    · exact (calm_pushNotice ..).agrees h1
    · exact h1

theorem agrees_takePollReply {s : State} (hs : s.Agrees) (cell : Nat) (mark : Byte) (heard : List Addr) :
    (takePollReply cell mark heard s).Agrees := by
  have h1 := (Calm.foldl _ (calm_hearAddress cell) heard _).agrees (agrees_answerPoll hs cell)
  unfold takePollReply
  dsimp only
  split
  · exact (inner_press ..).agrees ((calm_bump ..).agrees h1)
  · exact h1

theorem calm_releaseFrame (f : Option LinkFrame) (s : State) : Calm s (releaseFrame f s) := by
  unfold releaseFrame
  split
  · exact (Inner.release ..).calm
  · exact .refl s

/-- The frame of a trunk is gone (R30). -/
theorem agrees_endFrame {s : State} (hs : s.Agrees) (t : Nat) : (endFrame t s).Agrees :=
  have h := hs.trunks t
  (calm_releaseFrame ..).agrees (hs.setTrunk (v := { s.trunk t with frame := none })
    ⟨h.tag, h.since, h.run, fun hst => ⟨(h.still hst).1, rfl⟩⟩ t)

theorem agrees_loseCell (s : State) (cell : Nat) (hs : s.Agrees) : (loseCell s cell).Agrees := by
  unfold loseCell
  split
  · exact hs
  · split
    · exact agrees_updateCell hs cell fun _ hc => hc
    · exact agrees_cellDown hs cell _

/-- A LINK DOWN trunk has no hold, no message, no frame (R12). -/
theorem agrees_dropLink {s : State} (hs : s.Agrees) (t : Nat) : (dropLink t s).Agrees :=
  agrees_updateCellsOf ((calm_releaseFrame ..).agrees (hs.setTrunk
    (v := { s.trunk t with
      state := .linkDown, holdTag := none, heldSince := none, run := 0, signals := [], frame := none })
    ⟨by simp, by simp, fun _ => rfl, fun _ => ⟨rfl, rfl⟩⟩ t)) t fun _ hc => hc

theorem agrees_loseTrunk {s : State} (hs : s.Agrees) (t : Fin 8) : (loseTrunk t s).Agrees := by
  have h0 : (cancelHoldByLoss t.val s).Agrees := by
    unfold cancelHoldByLoss
    dsimp only
    split
    · exact (calm_pushNotice ..).agrees hs
    · exact hs
  exact (calm_pushNotice ..).agrees ((calm_raiseLatch ..).agrees (agrees_foldl agrees_loseCell _ (agrees_dropLink h0 t)))

/-- A restored trunk is ACTIVE with no tag (R13). -/
theorem agrees_restoreTrunk {s : State} (hs : s.Agrees) {t : Nat} (ht : (s.trunk t).state = .linkDown) :
    (restoreTrunk t s).Agrees := by
  have h := hs.trunks t
  have hv : Trunk.Agrees { s.trunk t with state := .active } :=
    ⟨by simpa [ht] using h.tag, by simpa [ht] using h.since, by simp, by simp⟩
  have h1 := (calm_pushNotice (.trunkLinkUp t) _).agrees (hs.setTrunk hv t)
  unfold restoreTrunk
  dsimp only
  split
  · exact agrees_updateCellsOf h1 t fun _ hc => hc
  · exact h1

/-- A hold that begins leaves a DRAINING trunk with its tag and run count 0 (R14). -/
theorem agrees_startDrain {s : State} (hs : s.Agrees) {t : Nat} (ht : (s.trunk t).state = .active) (tag : Byte) :
    (startDrain t tag s).Agrees := by
  have h := hs.trunks t
  have hv : Trunk.Agrees { s.trunk t with state := .draining, holdTag := some tag, run := 0 } :=
    ⟨by simp, by simpa [ht] using h.since, fun _ => rfl, by simp⟩
  exact (inner_holdCopies ..).agrees (hs.setTrunk hv t)

/-- An ACTIVE trunk without tag and without held since agrees, whatever it carries. -/
theorem Trunk.agrees_active (t : Trunk) (h : t.state = .active) (htag : t.holdTag = none) (hsince : t.heldSince = none) :
    t.Agrees := ⟨by simp [h, htag], by simp [h, hsince], by simp [h], by simp [h]⟩

theorem agrees_cancelDrain {s : State} (hs : s.Agrees) {t : Nat} (ht : (s.trunk t).state = .draining) :
    (cancelDrain t s).Agrees := by
  have h := (hs.trunks t).since
  have hv : Trunk.Agrees { s.trunk t with state := .active, holdTag := none } :=
    Trunk.agrees_active _ rfl rfl (by simpa [ht] using h)
  exact (inner_readmitTrunk ..).agrees ((calm_pushNotice ..).agrees (hs.setTrunk hv t))

theorem Cell.Agrees.release {c : Cell} (hc : c.Agrees) (now : Clock) : (releaseCell now c).Agrees := by
  unfold releaseCell
  dsimp only
  split
  · exact hc
  · exact rfl

theorem agrees_releaseHeld {s : State} (hs : s.Agrees) (t : Nat) : (releaseHeld t s).Agrees := by
  have hv : Trunk.Agrees { s.trunk t with state := .active, holdTag := none, heldSince := none } :=
    Trunk.agrees_active _ rfl rfl rfl
  exact (inner_readmitTrunk ..).agrees ((inner_mapStations _ _).agrees
    (agrees_updateCellsOf (hs.setTrunk hv t) t fun _ hc => hc.release _))

theorem agrees_discardSignals {s : State} (hs : s.Agrees) (cell : Nat) : (discardSignals cell s).Agrees :=
  have h := hs.trunks (trunkOf cell)
  hs.setTrunk (v := { s.trunk (trunkOf cell) with
      signals := (s.trunk (trunkOf cell)).signals.filter fun m => m.cell != cell })
    ⟨h.tag, h.since, h.run, fun hst => ⟨by simp [(h.still hst).1], (h.still hst).2⟩⟩ _

theorem agrees_removeConfigured {s : State} (hs : s.Agrees) (cell : Nat) (c : Cell) : (removeConfigured cell c s).Agrees := by
  have h1 : (if c.state = .down then s else cellDown cell .removed s).Agrees := by
    split
    · exact hs
    · exact agrees_cellDown hs cell _
  have h2 := agrees_discardSignals h1 cell
  exact h2.setCells (Table.holds_drop h2.cells cell)

theorem State.agrees_configured (s : State) (cell : Nat) (kind : CellKind) : (s.configured cell kind).Agrees := by
  unfold State.configured Cell.Agrees
  by_cases h : s.trunkStateOf cell = .linkDown <;> simp [h]

theorem agrees_applyAirtime {s : State} (hs : s.Agrees) (cell : Nat) (m : AirtimeMask) (v : AirtimeValues) (a : Account) :
    (applyAirtime cell m v a s).Agrees := by
  have ite : ∀ (p : Prop) [Decidable p] (f : State → State) (x : State), (∀ y, Inner y (f y)) → x.Agrees →
      (if p then f x else x).Agrees := by
    intro p _ f x hf hx
    split
    · exact (hf x).agrees hx
    · exact hx
  exact ite _ (refreshRates cell) _ (inner_refreshRates cell) (ite _ (readmit cell) _ (inner_readmit cell)
    ((inner_shed ..).agrees (ite _ (reload cell) _ (inner_reload cell) (agrees_updateCell hs cell fun _ hc => hc))))

/-! ## Resets and time -/

theorem Trunk.agrees_atReset : Trunk.atReset.Agrees := ⟨by decide, by decide, by decide, by decide⟩
theorem Trunk.agrees_linkDownAtReset : Trunk.linkDownAtReset.Agrees := ⟨by decide, by decide, by decide, by decide⟩

theorem State.agrees_reset : State.reset.Agrees where
  cells := fun _ _ h => by cases h
  trunks := fun _ => Trunk.agrees_atReset

theorem agrees_resetAll (kind : ResetKind) (locks : Locks) (s : State) : (resetAll kind locks s).Agrees where
  cells := fun _ _ h => by cases h
  trunks := by
    refine State.trunks_all (fun e he => ?_) Trunk.agrees_atReset
    obtain ⟨t, _, rfl⟩ := List.mem_map.mp he
    exact Trunk.agrees_linkDownAtReset

theorem agrees_takeReset (h : OrderHead) (bad : Bool) {reset : State → State} {s : State} (hs : s.Agrees)
    (hr : (reset s).Agrees) : (takeReset h bad reset s).Agrees := by
  unfold takeReset
  split
  · exact hs
  · split
    · exact (calm_placeReply ..).agrees hs
    · exact ⟨hr.cells, hr.trunks⟩

theorem calm_passTime (s : State) : Calm s (passTime s) := by
  have hq : ∀ due x, Calm x (queueDue due x) := by
    intro due x
    obtain ⟨l, _, _, h⟩ := queueDue_joins due x
    rw [h]
    exact .of_eq rfl rfl
  have hm : ∀ n x, Calm x (passMoments n x) := fun n x => by rw [passMoments_frame]; exact .of_eq rfl rfl
  have hr : ∀ n x, Calm x (refine n x) := fun n x => by rw [refine_frame]; exact .of_eq rfl rfl
  have hc : ∀ x, Calm x (coarsen x) := fun x => by rw [coarsen_frame]; exact .of_eq rfl rfl
  rcases passTime_cases s with ⟨lack, rate, _, h⟩ | ⟨_, h⟩ <;> rw [h]
  · exact (hr _ _).trans ((hm _ _).trans (hq _ _))
  · have ht : ∀ x v, Calm x (x.setTime v) := fun x v => .of_eq rfl rfl
    have hp : ∀ x v, Calm x (x.setPurge v) := fun x v => .of_eq rfl rfl
    refine Calm.trans ?_ (hq _ _)
    rw [passTick_eq]
    exact (hm _ _).trans ((ht _ _).trans ((hc _).trans (hp _ _)))

/-! ## Every command -/

theorem agrees_handoverTimerExpiry (i : Nat) (s t : State) (hs : s.Agrees) (h : execHandoverTimerExpiry i s = .next t) :
    t.Agrees := by
  obtain rfl := Host.Outcome.next.inj h
  split
  · exact hs
  · split
    · exact agrees_closeEvent ((inner_forceHandover ..).agrees hs)
    · exact hs

theorem agrees_referralTimerExpiry (id : BitVec 16) (s t : State) (hs : s.Agrees)
    (h : execReferralTimerExpiry id s = .next t) : t.Agrees := by
  obtain rfl := Host.Outcome.next.inj h
  split
  · exact hs
  · split
    · exact agrees_closeEvent ((calm_expireReferral ..).agrees hs)
    · exact hs

theorem agrees_stationAgedDormant (i : Nat) (s t : State) (hs : s.Agrees) (h : execStationAgedDormant i s = .next t) :
    t.Agrees := by
  obtain rfl := Host.Outcome.next.inj h
  split
  · exact hs
  · split
    · exact agrees_closeEvent ((inner_goDormant ..).agrees hs)
    · exact hs

theorem agrees_stationExpired (i : Nat) (s t : State) (hs : s.Agrees) (h : execStationExpired i s = .next t) :
    t.Agrees := by
  obtain rfl := Host.Outcome.next.inj h
  split
  · exact hs
  · split
    · exact agrees_closeEvent ((calm_expireStation ..).agrees hs)
    · exact hs

theorem agrees_stateAfter {α : Type} {f : α → State → Outcome} (hf : ∀ a s t, s.Agrees → f a s = .next t → t.Agrees)
    (l : List α) {s : State} (hs : s.Agrees) : (l.foldl (fun s a => stateAfter s (f a s)) s).Agrees := by
  refine agrees_foldl (fun s a hs => ?_) l hs
  cases h : f a s with
  | next t => exact hf a s t hs h
  | fault _ => exact hs
  | refused _ => exact hs

theorem agrees_setTimers {s : State} (hs : s.Agrees) (h : OrderHead) (m : TimerMask) (v : Timers) :
    (followTimers s.settings.timers (takeActing .setTimers h (ruleSetTimers m v) s)).Agrees := by
  have h0 : (takeActing .setTimers h (ruleSetTimers m v) s).Agrees := by
    refine agrees_takeActing _ _ hs ?_
    unfold ruleSetTimers
    split
    · exact hs
    · exact ⟨hs.cells, hs.trunks⟩
  have ite : ∀ (p : Prop) [Decidable p] (f : State → State) (x : State), (∀ y, y.Agrees → (f y).Agrees) → x.Agrees →
      (if p then f x else x).Agrees := by
    intro p _ f x hf hx
    split
    · exact hf x hx
    · exact hx
  refine ite _ ageFree _ (fun y hy => ?_) (ite _ ageDormant _ (fun y hy => ?_) (ite _ expireReferrals _ (fun y hy => ?_)
    (ite _ expireHandovers _ (fun y hy => ?_) h0)))
  · exact agrees_stateAfter agrees_stationExpired _ hy
  · exact agrees_stateAfter agrees_stationAgedDormant _ hy
  · exact agrees_stateAfter (f := fun p : Parked => execReferralTimerExpiry p.id) (fun p => agrees_referralTimerExpiry p.id) _ hy
  · exact agrees_stateAfter agrees_handoverTimerExpiry _ hy

end Sys2Proof.Machine
end

