-- ==== Sys2Proof/Proofs/AgreesSteps.lean ====
section
/-! PROOFS. The laws of cells and trunks are kept by every command and by every step (R1, R11, R36); the state after reset meets the laws. -/

namespace Sys2Proof.Machine

/-- An order whose rule leaves cells and trunks to calm work, or refuses. -/
theorem agrees_purgeOrder {s : State} (hs : s.Agrees) (h : OrderHead) :
    (endEmptyPurge s (takeActing .purgeTickets h (rulePurgeTickets h.tag) s)).Agrees := by
  have h1 : (takeActing .purgeTickets h (rulePurgeTickets h.tag) s).Agrees := by
    refine agrees_takeActing _ _ hs ?_
    unfold rulePurgeTickets
    split
    · exact hs
    · exact (calm_startPurge ..).agrees hs
  unfold endEmptyPurge
  split
  · split
    · exact agrees_closeEvent ((calm_endPurge ..).agrees h1)
    · exact h1
  · exact h1

theorem agrees_takeBackboneFrame {s : State} (hs : s.Agrees) (dest : Addr) (frameType : BitVec 16) (rest : List Byte) :
    (takeBackboneFrame dest frameType rest s).Agrees := by
  have count : ∀ c, (bumpPart c s).Agrees := fun c => (calm_bumpPart c s).agrees hs
  unfold takeBackboneFrame
  split
  · exact hs
  · split
    · exact count _
    · split
      · split
        · exact count _
        · exact agrees_closeEvent ((calm_takeReplay ..).agrees hs)
      · exact count _
      · exact count _
      · split
        · exact count _
        · exact agrees_closeEvent ((calm_takeDownlink ..).agrees hs)

theorem agrees_ruleRuleReferral {s : State} (hs : s.Agrees) (id : BitVec 16) (r : Ruling) :
    (ruleRuleReferral id r s).state.Agrees := by
  have reject : (ruleReject id s).state.Agrees := by
    unfold ruleReject
    split
    · exact hs
    · split
      · exact ((calm_unpark ..).trans (calm_giveVerdict ..)).agrees hs
      · exact (calm_bumpPart ..).agrees hs
  have accept : ∀ n t, (ruleAccept id n t s).state.Agrees := by
    intro n t
    unfold ruleAccept
    split
    · split
      · exact hs
      · split
        · exact hs
        · unfold acceptParked
          dsimp only
          split
          · exact (calm_judgeParked ..).agrees ⟨hs.cells, hs.trunks⟩
          · exact ((calm_unpark ..).trans ((calm_giveVerdict ..).trans (calm_bumpPart ..))).agrees hs
    · split
      · exact hs
      · exact ((calm_loadRecord ..).trans (calm_bumpPart ..)).agrees hs
  unfold ruleRuleReferral
  split
  · exact hs
  · exact reject
  · exact hs
  · split
    · exact hs
    · exact accept ..

theorem agrees_ruleVoidTicket {s : State} (hs : s.Agrees) (n : TicketNumber) : (ruleVoidTicket n s).state.Agrees := by
  unfold ruleVoidTicket
  split
  · exact hs
  · split
    · exact hs
    · split
      · exact hs
      · split
        · exact hs
        · exact (calm_voidOne ..).agrees hs

theorem agrees_ruleUnlockTicket {s : State} (hs : s.Agrees) (n : TicketNumber) : (ruleUnlockTicket n s).state.Agrees := by
  unfold ruleUnlockTicket
  split
  · exact hs
  · split
    · exact hs
    · split
      · exact hs
      · split
        · exact hs
        · exact (calm_updateTicket ..).agrees hs

theorem agrees_ruleHoldTrunk {s : State} (hs : s.Agrees) (t : Nat) (tag : Byte) : (ruleHoldTrunk t tag s).state.Agrees := by
  unfold ruleHoldTrunk
  split
  · exact hs
  · split
    · exact hs
    · split
      · exact agrees_startDrain hs ‹_› tag
      · exact hs
      · exact hs
      · exact hs

theorem agrees_ruleReleaseTrunk {s : State} (hs : s.Agrees) (t : Nat) : (ruleReleaseTrunk t s).state.Agrees := by
  unfold ruleReleaseTrunk
  split
  · exact hs
  · split
    · exact hs
    · split
      · exact hs
      · exact hs
      · exact agrees_cancelDrain hs ‹_›
      · exact agrees_releaseHeld hs t

theorem agrees_ruleConfigureCell {s : State} (hs : s.Agrees) (cell : Nat) (kind : Option CellKind) :
    (ruleConfigureCell cell kind s).state.Agrees := by
  unfold ruleConfigureCell
  split
  · exact hs
  · split
    · exact hs
    · split
      · exact hs.setCells (Table.holds_put hs.cells (s.agrees_configured ..))
      · rename_i c hc
        split
        · exact hs
        · exact hs.putCell hc ⟨rfl, rfl⟩

theorem agrees_ruleRemoveCell {s : State} (hs : s.Agrees) (cell : Nat) : (ruleRemoveCell cell s).state.Agrees := by
  unfold ruleRemoveCell
  split
  · exact hs
  · split
    · exact hs
    · exact agrees_removeConfigured hs ..

/-- The cells and the trunks of an answer are those that the order met. -/
theorem agrees_answer {s : State} (hs : s.Agrees) {a : Answer} (hc : a.state.cells = s.cells) (ht : a.state.trunks = s.trunks) :
    a.state.Agrees := (Calm.of_eq hc ht).agrees hs

/-- Every command keeps the laws. -/
theorem agrees_exec (c : Instr) (s t : State) (hs : s.Agrees) (h : exec c s = .next t) : t.Agrees := by
  have same : ∀ {a : Answer}, a.state.cells = s.cells → a.state.trunks = s.trunks → a.state.Agrees := agrees_answer hs
  cases c with
  | handoverTimerExpiry i => exact agrees_handoverTimerExpiry i s t hs h
  | referralTimerExpiry id => exact agrees_referralTimerExpiry id s t hs h
  | stationAgedDormant i => exact agrees_stationAgedDormant i s t hs h
  | stationExpired i => exact agrees_stationExpired i s t hs h
  | powerOnReset locks =>
    obtain rfl := Host.Outcome.next.inj h
    exact agrees_resetAll ..
  | resetFull hd bad locks =>
    obtain rfl := Host.Outcome.next.inj h
    exact agrees_takeReset _ _ hs (agrees_resetAll ..)
  | resetKeepTickets hd locks =>
    obtain rfl := Host.Outcome.next.inj h
    exact agrees_takeReset _ _ hs ⟨(agrees_resetAll .keepTickets locks s).cells, (agrees_resetAll .keepTickets locks s).trunks⟩
  | trunkLinkLost k =>
    obtain rfl := Host.Outcome.next.inj h
    split
    · exact hs
    · exact agrees_closeEvent (agrees_loseTrunk hs k)
  | trunkLinkRestored k =>
    obtain rfl := Host.Outcome.next.inj h
    split
    · exact agrees_closeEvent (agrees_restoreTrunk hs ‹_›)
    · exact hs
  | backboneLinkLost =>
    obtain rfl := Host.Outcome.next.inj h
    split
    · exact ⟨hs.cells, hs.trunks⟩
    · exact (Inner.release ..).agrees ⟨hs.cells, hs.trunks⟩
  | backboneLinkRestored =>
    obtain rfl := Host.Outcome.next.inj h
    exact agrees_closeEvent ⟨hs.cells, hs.trunks⟩
  | attachRequest m =>
    obtain rfl := Host.Outcome.next.inj h
    exact agrees_takeMessage _ hs ((calm_takeAttach ..).agrees hs)
  | releaseDone m n =>
    obtain rfl := Host.Outcome.next.inj h
    exact agrees_takeMessage _ hs ((calm_takeRelease ..).agrees hs)
  | depart m =>
    obtain rfl := Host.Outcome.next.inj h
    exact agrees_takeMessage _ hs ((calm_takeDepart ..).agrees hs)
  | pollReply m mark n heard =>
    obtain rfl := Host.Outcome.next.inj h
    exact agrees_takeMessage _ hs (agrees_takePollReply hs ..)
  | ticketClaim m kind n token =>
    obtain rfl := Host.Outcome.next.inj h
    refine agrees_takeMessage _ hs ?_
    unfold takeClaim
    split
    · exact hs
    · exact (calm_judgeArrival ..).agrees hs
  | join m channel =>
    obtain rfl := Host.Outcome.next.inj h
    exact agrees_takeMessage _ hs ((calm_takeJoin ..).agrees hs)
  | leave m channel =>
    obtain rfl := Host.Outcome.next.inj h
    exact agrees_takeMessage _ hs ((calm_takeLeave ..).agrees hs)
  | stationDataUp m payload =>
    obtain rfl := Host.Outcome.next.inj h
    exact agrees_takeMessage _ hs ((calm_takeDataUp ..).agrees hs)
  | malformedMessage k n =>
    obtain rfl := Host.Outcome.next.inj h
    exact agrees_takeMessage _ hs hs
  | replayFrame d o y g p =>
    obtain rfl := Host.Outcome.next.inj h
    exact agrees_takeBackboneFrame hs ..
  | stationDownlinkFrame d o y p =>
    obtain rfl := Host.Outcome.next.inj h
    exact agrees_takeBackboneFrame hs ..
  | malformedBackboneFrame =>
    obtain rfl := Host.Outcome.next.inj h
    split
    · exact hs
    · split <;> exact (calm_bumpPart ..).agrees hs
  | trunkFrameEnd k =>
    obtain rfl := Host.Outcome.next.inj h
    split
    · exact hs
    · exact agrees_closeEvent (agrees_endFrame hs k.val)
  | backboneFrameEnd =>
    obtain rfl := Host.Outcome.next.inj h
    split
    · exact hs
    · exact agrees_closeEvent ((Inner.release ..).agrees ⟨hs.cells, hs.trunks⟩)
  | pollDue cell =>
    obtain rfl := Host.Outcome.next.inj h
    split
    · exact hs
    · rename_i c hc
      split
      · exact agrees_closeEvent (hs.putCell hc ⟨rfl, rfl⟩)
      · exact hs
  | pollOverdue cell =>
    obtain rfl := Host.Outcome.next.inj h
    split
    · exact hs
    · rename_i c hc
      split
      · exact agrees_closeEvent (hs.putCell hc ⟨rfl, rfl⟩)
      · exact hs
  | copyDue n =>
    obtain rfl := Host.Outcome.next.inj h
    split
    · exact hs
    · split
      · exact agrees_closeEvent hs
      · exact hs
  | stationCreditReady i =>
    obtain rfl := Host.Outcome.next.inj h
    split
    · exact hs
    · split
      · exact agrees_closeEvent hs
      · exact hs
  | drainComplete k =>
    obtain rfl := Host.Outcome.next.inj h
    split
    · exact agrees_closeEvent (agrees_enterHeld hs ‹_›)
    · exact hs
  | purgeBatch =>
    obtain rfl := Host.Outcome.next.inj h
    split
    · exact hs
    · split
      · exact hs
      · exact agrees_closeEvent ((calm_takePurgeBatch ..).agrees hs)
  | configureCell hd cell kind =>
    obtain rfl := Host.Outcome.next.inj h
    exact agrees_takeActing _ _ hs (agrees_ruleConfigureCell hs ..)
  | removeCell hd cell =>
    obtain rfl := Host.Outcome.next.inj h
    exact agrees_takeActing _ _ hs (agrees_ruleRemoveCell hs ..)
  | queryCell hd cell =>
    obtain rfl := Host.Outcome.next.inj h
    refine agrees_takeOrder _ _ hs ?_
    unfold ruleQueryCell
    split <;> exact hs
  | holdTrunk hd k =>
    obtain rfl := Host.Outcome.next.inj h
    exact agrees_takeActing _ _ hs (agrees_ruleHoldTrunk hs ..)
  | releaseTrunk hd k =>
    obtain rfl := Host.Outcome.next.inj h
    exact agrees_takeActing _ _ hs (agrees_ruleReleaseTrunk hs ..)
  | evictStation hd sel =>
    obtain rfl := Host.Outcome.next.inj h
    refine agrees_takeActing _ _ hs ?_
    unfold ruleEvictStation
    split
    · exact hs
    · exact hs
    · exact (calm_evict ..).agrees hs
  | queryStation hd sel =>
    obtain rfl := Host.Outcome.next.inj h
    refine agrees_takeOrder _ _ hs ?_
    unfold ruleQueryStation
    split <;> exact hs
  | loadTickets hd n records =>
    obtain rfl := Host.Outcome.next.inj h
    refine agrees_takeActing _ _ hs ?_
    unfold ruleLoadTickets
    split
    · exact hs
    · split
      · exact hs
      · exact (calm_loadAll ..).agrees hs
  | voidTicket hd n =>
    obtain rfl := Host.Outcome.next.inj h
    exact agrees_takeActing _ _ hs (agrees_ruleVoidTicket hs n)
  | unlockTicket hd n =>
    obtain rfl := Host.Outcome.next.inj h
    exact agrees_takeOrder _ _ hs (agrees_ruleUnlockTicket hs n)
  | queryTicket hd n =>
    obtain rfl := Host.Outcome.next.inj h
    refine agrees_takeOrder _ _ hs ?_
    unfold ruleQueryTicket
    split
    · exact hs
    · split
      · exact hs
      · split <;> exact hs
  | purgeTickets hd =>
    obtain rfl := Host.Outcome.next.inj h
    exact agrees_purgeOrder hs hd
  | setSection hd k list =>
    obtain rfl := Host.Outcome.next.inj h
    refine agrees_takeOrder _ _ hs ?_
    unfold ruleSetSection
    split <;> exact same rfl rfl
  | setEntryPolicy hd n mode =>
    obtain rfl := Host.Outcome.next.inj h
    refine agrees_takeOrder _ _ hs ?_
    unfold ruleSetEntryPolicy
    split
    · exact hs
    · split <;> exact same rfl rfl
  | ruleReferral hd id r =>
    obtain rfl := Host.Outcome.next.inj h
    exact agrees_takeActing _ _ hs (agrees_ruleRuleReferral hs ..)
  | defineChannel hd k e r f rd =>
    obtain rfl := Host.Outcome.next.inj h
    refine agrees_takeOrder _ _ hs ?_
    unfold ruleDefineChannel
    split
    · exact hs
    · split
      · exact hs
      · split <;> exact same rfl rfl
  | openChannel hd k =>
    obtain rfl := Host.Outcome.next.inj h
    refine agrees_takeOrder _ _ hs ?_
    unfold ruleOpenChannel
    split
    · exact hs
    · split
      · exact hs
      · split
        · exact hs
        · split <;> exact same rfl rfl
  | closeChannel hd k =>
    obtain rfl := Host.Outcome.next.inj h
    refine agrees_takeActing _ _ hs ?_
    unfold ruleCloseChannel
    split
    · exact hs
    · split
      · exact hs
      · split
        · exact (calm_closeOpen ..).agrees hs
        · exact hs
  | queryChannel hd k cell =>
    obtain rfl := Host.Outcome.next.inj h
    refine agrees_takeOrder _ _ hs ?_
    unfold ruleQueryChannel
    split <;> exact hs
  | setCellAirtime hd cell m v =>
    obtain rfl := Host.Outcome.next.inj h
    refine agrees_takeActing _ _ hs ?_
    unfold ruleSetCellAirtime
    split
    · exact hs
    · split
      · exact hs
      · exact agrees_applyAirtime hs ..
  | setClassWeights hd w =>
    obtain rfl := Host.Outcome.next.inj h
    exact agrees_takeActing _ _ hs ((calm_applyWeights ..).agrees hs)
  | startService hd =>
    obtain rfl := Host.Outcome.next.inj h
    refine agrees_takeActing _ _ hs ?_
    unfold ruleStartService
    split
    · exact hs
    · exact ⟨Table.holds_mapAll hs.cells fun _ _ hc => hc, hs.trunks⟩
  | setTimers hd m v =>
    obtain rfl := Host.Outcome.next.inj h
    exact agrees_setTimers hs hd m v
  | setReplayFrameType hd y =>
    obtain rfl := Host.Outcome.next.inj h
    exact agrees_takeOrder _ _ hs (same rfl rfl)
  | setReplayRunLimit hd n =>
    obtain rfl := Host.Outcome.next.inj h
    exact agrees_takeOrder _ _ hs (same rfl rfl)
  | readNotices hd n =>
    obtain rfl := Host.Outcome.next.inj h
    refine agrees_takeOrder _ _ hs ?_
    unfold ruleReadNotices
    split <;> exact same rfl rfl
  | readConditions hd =>
    obtain rfl := Host.Outcome.next.inj h
    exact agrees_takeOrder _ _ hs hs
  | clearConditions hd mask =>
    obtain rfl := Host.Outcome.next.inj h
    refine agrees_takeOrder _ _ hs ?_
    unfold ruleClearConditions
    split <;> exact same rfl rfl
  | snapStats hd =>
    obtain rfl := Host.Outcome.next.inj h
    refine agrees_takeOrder _ _ hs ?_
    unfold ruleSnapStats
    split <;> exact same rfl rfl
  | unsnapStats hd =>
    obtain rfl := Host.Outcome.next.inj h
    refine agrees_takeOrder _ _ hs ?_
    unfold ruleUnsnapStats
    split <;> exact same rfl rfl
  | readStats hd scope =>
    obtain rfl := Host.Outcome.next.inj h
    refine agrees_takeOrder _ _ hs ?_
    unfold ruleReadStats
    split <;> exact hs
  | badFrame bytes =>
    obtain rfl := Host.Outcome.next.inj h
    split
    · exact ((calm_placeReply ..).trans ((calm_bumpPart ..).trans (calm_raiseLatch ..))).agrees hs
    · exact hs
  | replyRead n =>
    obtain rfl := Host.Outcome.next.inj h
    split
    · exact hs
    · unfold readReply
      split <;> exact ⟨hs.cells, hs.trunks⟩
  | resetnFalls =>
    obtain rfl := Host.Outcome.next.inj h
    exact ⟨hs.cells, hs.trunks⟩
  | orderOfUnknownKind kind tag =>
    obtain rfl := Host.Outcome.next.inj h
    split
    · exact hs
    · exact (calm_placeReply ..).agrees hs

/-- Settles O5: every step keeps the laws of cell and trunk records, the front command by `agrees_exec`, the passage of time being calm. -/
theorem everyStepKeepsCellsAndTrunksAgreeing : Obligations.EveryStepKeepsCellsAndTrunksAgreeing := by
  intro s t hs h
  unfold step at h
  split at h
  · obtain rfl := Host.Outcome.next.inj h
    exact (calm_passTime s).agrees hs
  · rename_i c rest _
    exact agrees_exec c (s.setPending rest) t ⟨hs.cells, hs.trunks⟩ h

/-- Settles O8: the state after reset meets the four laws, having no cell, no station, no ticket and no parked claim. -/
theorem theResetStateMeetsTheLaws : Obligations.TheResetStateMeetsTheLaws := by
  have law : State.reset.HandoverLaw := ⟨nofun, nofun⟩
  refine ⟨fits_of_check (by decide), State.agrees_reset, law, ?_⟩
  exact { bound := fun _ _ => ⟨nofun, nofun⟩, absent := nofun, single := List.nodup_nil, ids := List.nodup_nil, next := nofun }

end Sys2Proof.Machine
end

