-- ==== Sys2Proof/Proofs/Cells.lean ====
section
/-! PROOFS. CONFIGURE CELL, the queries and the timed events of polls, copies and credit (R3, R5, R6, R33, R34, R67, R96, R124). -/

namespace Sys2Proof.Machine

/-! ## An order's reply over the state with its effects -/

/-- A reply without a body changes the port and the counters alone. -/
theorem placeReply_empty_frame (kind : ReplyKind) (tag : Byte) (status : Status) (s : State) :
    placeReply kind tag status .empty s =
      { s with
        link := (placeReply kind tag status .empty s).link
        counters := (placeReply kind tag status .empty s).counters } := by
  have h := placeReply_frame kind tag status .empty s
  rw [placeReply_draws] at h
  exact h

/-- The reply over a state with the same slot and the same count of lost replies is one over the state before. -/
theorem Replied.before {s u t : State} {kind : ReplyKind} {tag : Byte} {status : Status} {body : ReplyBody}
    (h : Replied u t kind tag status body) (hl : u.link = s.link)
    (hc : u.counter (.part .repliesLost) = s.counter (.part .repliesLost)) : Replied s t kind tag status body :=
  ⟨h.slot, by rw [← hl]; exact h.port, by rw [← hl, ← hc]; exact h.lost⟩

/-- An acting order that its rule answers `status` over the state `u`: the event is closed over `u` with the reply. -/
theorem takeActing_acts {kind : OrderKind} {h : OrderHead} {rule : State → Answer} {s u : State} {status : Status}
    (ht : s.Takes h) (hr : rule s = ⟨u, status, .empty⟩) (ha : status.acts = true) :
    takeActing kind h rule s = closeEvent (placeReply (.order kind) h.tag status .empty u) := by
  rw [takeActing_taken _ _ _ _ ht, hr, if_pos ha]

/-- An acting order that its rule refuses. -/
theorem takeActing_refused {kind : OrderKind} {h : OrderHead} {rule : State → Answer} {s : State} {status : Status}
    (ht : s.Takes h) (ha : status.acts = false) (hr : rule s = refuse status s) :
    takeActing kind h rule s = placeReply (.order kind) h.tag status .empty s := by
  rw [takeActing_taken _ _ _ _ ht, hr, if_neg]
  · rfl
  · rw [show (refuse status s).status = status from rfl, ha]
    simp

/-! ## CONFIGURE CELL (R3) -/

theorem ruleConfigureCell_new {s : State} {cell : Nat} (kind : CellKind) (hc : cell < 256) (h : s.cells.look cell = none) :
    ruleConfigureCell cell (some kind) s = ⟨s.setCells (s.cells.put cell (s.configured cell kind)), .done, .empty⟩ := by
  simp [ruleConfigureCell, h, hc]

theorem ruleConfigureCell_same {s : State} {cell : Nat} {c : Cell} (hc : cell < 256) (h : s.cells.look cell = some c) :
    ruleConfigureCell cell (some c.kind) s = refuse .already s := by
  simp [ruleConfigureCell, h, hc]

theorem ruleConfigureCell_other {s : State} {cell : Nat} {kind : CellKind} {c : Cell} (hc : cell < 256)
    (h : s.cells.look cell = some c) (hk : c.kind ≠ kind) :
    ruleConfigureCell cell (some kind) s = ⟨s.setCells (s.cells.put cell { c with kind := kind }), .done, .empty⟩ := by
  simp [ruleConfigureCell, h, hc, hk]

/-- The record of R3, its conditions as R3 and R6 write them. -/
theorem State.configured_eq (s : State) (cell : Nat) (kind : CellKind) : s.configured cell kind =
    { kind := kind
      state := if (s.trunk (cell / 32)).state = .linkDown then .down else .active
      missed := if (s.trunk (cell / 32)).state = .linkDown then 3 else 0
      awaited := false
      due := if s.time.service = .service then some s.time.clock else none
      queued := if s.time.service = .service ∧
        ((s.trunk (cell / 32)).state = .active ∨ (s.trunk (cell / 32)).state = .draining) then .onTime else .none
      account := ⟨24, 60, 400, 60000, 0, 0⟩ } := by
  simp [State.configured, State.trunkStateOf, trunkOf, Config.slots, State.now, Account.atConfigure]
  exact ⟨rfl, rfl⟩

/-- Settles O22: by cases on the cell's record and its kind. -/
theorem configureCellFollowsItsTable : Obligations.ConfigureCellFollowsItsTable := by
  intro h cell kind s ht hcell
  refine ⟨?unknown, fun hc => ?new, fun c hc hk => ?same, fun c hc hk => ?other⟩
  case unknown =>
    refine ⟨_, congrArg Host.Outcome.next (takeActing_refused (status := .badArgument) ht rfl rfl), ?_⟩
    exact ⟨replied_placeReply .., placeReply_empty_frame ..⟩
  case new =>
    refine ⟨_, congrArg Host.Outcome.next (takeActing_acts ht (ruleConfigureCell_new kind hcell hc) rfl), (replied_placeReply ..).before rfl rfl,
      countersKept_placeReply _ _ _ _ (s.setCells _), fun n => ?_, ?_⟩
    · rw [placeReply_empty_frame, ← s.configured_eq]
      simp
    · rw [placeReply_empty_frame]
      rfl
  case same =>
    subst hk
    exact ⟨_, congrArg Host.Outcome.next (takeActing_refused ht rfl (ruleConfigureCell_same hcell hc)), replied_placeReply .., placeReply_empty_frame ..⟩
  case other =>
    refine ⟨_, congrArg Host.Outcome.next (takeActing_acts ht (ruleConfigureCell_other hcell hc hk) rfl), (replied_placeReply ..).before rfl rfl,
      fun n => ?_, ?_⟩
    · rw [placeReply_empty_frame]
      simp
    · rw [placeReply_empty_frame]
      rfl

/-! ## Queries (R5, R67, R96, R124) -/

/-- Inserting an element by a key keeps a list in order of the key. -/
theorem pairwise_insertBy {α : Type} (key : α → Nat) (x : α) {l : List α} (h : l.Pairwise fun a b => key a ≤ key b) :
    (insertBy (fun a b => !decide (key b < key a)) x l).Pairwise fun a b => key a ≤ key b := by
  induction l with
  | nil => exact List.pairwise_singleton _ _
  | cons y rest ih =>
    obtain ⟨hy, hrest⟩ := List.pairwise_cons.mp h
    simp only [insertBy, Bool.not_eq_true', decide_eq_false_iff_not, Nat.not_lt]
    split
    · rename_i hxy
      refine List.pairwise_cons.mpr ⟨fun z hz => ?_, h⟩
      rcases List.mem_cons.mp hz with rfl | hz
      · exact hxy
      · exact hxy.trans (hy z hz)
    · rename_i hxy
      refine List.pairwise_cons.mpr ⟨fun z hz => ?_, ih hrest⟩
      rcases List.mem_cons.mp ((insertBy_perm _ x rest).mem_iff.mp hz) with rfl | hz
      · omega
      · exact hy z hz

/-- Sorting by a key puts a list in order of the key. -/
theorem pairwise_sortBy {α : Type} (key : α → Nat) (l : List α) :
    (sortBy (fun a b => decide (key a < key b)) l).Pairwise fun a b => key a ≤ key b := by
  induction l with
  | nil => exact .nil
  | cons x rest ih => exact pairwise_insertBy key x ih

/-- A query that its rule answers over the same state. -/
theorem queried {kind : OrderKind} {h : OrderHead} {rule : State → Answer} {s : State} (ht : s.Takes h)
    (hs : (rule s).state = s) : CountersKept s (takeOrder kind h rule s) (· = .part .repliesLost)
      ∧ takeOrder kind h rule s = { s with
          link := (takeOrder kind h rule s).link, counters := (takeOrder kind h rule s).counters
          draws := (takeOrder kind h rule s).draws }
      ∧ ∀ status body, rule s = ⟨s, status, body⟩ →
          Replied s (takeOrder kind h rule s) (.order kind) h.tag status body := by
  rw [takeOrder_taken _ _ _ _ ht, hs]
  refine ⟨countersKept_placeReply _ _ _ _ s, placeReply_frame .., ?_⟩
  intro status body hr
  rw [hr]
  exact replied_placeReply ..

theorem ruleQueryCell_state (cell : Nat) (s : State) : (ruleQueryCell cell s).state = s := by
  unfold ruleQueryCell
  split <;> rfl

theorem ruleQueryStation_state (sel : StationSelector) (s : State) : (ruleQueryStation sel s).state = s := by
  unfold ruleQueryStation
  split <;> rfl

theorem ruleQueryTicket_state (n : TicketNumber) (s : State) : (ruleQueryTicket n s).state = s := by
  unfold ruleQueryTicket
  split
  · rfl
  · split
    · rfl
    · split <;> rfl

theorem ruleQueryChannel_state (k cell : Nat) (s : State) : (ruleQueryChannel k cell s).state = s := by
  unfold ruleQueryChannel
  split <;> rfl

/-- The index of a record names it. -/
theorem named_index_record {s : State} {n : BitVec 16} {st : Station} (hn : n.toNat < 16384)
    (hl : s.stations.look n.toNat = some st) : s.named (.index n) = .record n.toNat st := by
  simp only [State.named, Config.stations, Nat.not_le.mpr hn, if_false, hl]

theorem named_index_free {s : State} {n : BitVec 16} (hn : n.toNat < 16384) (hl : s.stations.look n.toNat = none) :
    s.named (.index n) = .absent (some n.toNat) := by
  simp only [State.named, Config.stations, Nat.not_le.mpr hn, if_false, hl]

/-- The address of a phone names its record. -/
theorem named_address_record {s : State} {a : Addr} {i : Nat} {st : Station} (ha : a ≠ 0) (hg : isGroup a = false)
    (hw : s.stationWith a = some (i, st)) : s.named (.address a) = .record i st := by
  have h : namesNoStation a = false := by simpa [namesNoStation] using ⟨ha, hg⟩
  simp only [State.named, h, hw, Bool.false_eq_true, if_false]

theorem named_address_unknown {s : State} {a : Addr} (ha : a ≠ 0) (hg : isGroup a = false) (hw : s.stationWith a = none) :
    s.named (.address a) = .absent none := by
  have h : namesNoStation a = false := by simpa [namesNoStation] using ⟨ha, hg⟩
  simp only [State.named, h, hw, Bool.false_eq_true, if_false]

theorem ruleQueryStation_record {s : State} {sel : StationSelector} {i : Nat} {st : Station} (h : s.named sel = .record i st) :
    ruleQueryStation sel s = ⟨s, .done, .station (s.stationReport i st)⟩ := by
  unfold ruleQueryStation
  rw [h]

/-- Selectors that name nothing (R66, R155). -/
theorem named_invalid {s : State} {sel : StationSelector} (h : sel = .unknown ∨ (∃ i, sel = .index i ∧ 16384 ≤ i.toNat)
    ∨ ∃ a, sel = .address a ∧ (a = 0 ∨ isGroup a = true)) : s.named sel = .invalid := by
  rcases h with rfl | ⟨i, rfl, hi⟩ | ⟨a, rfl, ha⟩
  · rfl
  · exact if_pos hi
  · exact if_pos (by simpa [namesNoStation] using ha)

/-- QUERY STATION answers by what its selector names (R67). -/
theorem queryStation_answers (h : OrderHead) (sel : StationSelector) (s : State) (ht : s.Takes h) :
    ∃ t, exec (.queryStation h sel) s = .next t ∧ CountersKept s t (· = .part .repliesLost)
      ∧ t = { s with link := t.link, counters := t.counters, draws := t.draws }
      ∧ (sel = .unknown ∨ (∃ i, sel = .index i ∧ 16384 ≤ i.toNat) ∨ (∃ a, sel = .address a ∧ (a = 0 ∨ isGroup a = true)) →
        Replied s t (.order .queryStation) h.tag .badArgument .empty)
      ∧ (∀ a, sel = .address a → a ≠ 0 → isGroup a = false → s.stationWith a = none →
        Replied s t (.order .queryStation) h.tag .notFound .empty)
      ∧ (∀ i, sel = .index i → i.toNat < 16384 → s.stations.look i.toNat = none →
        Replied s t (.order .queryStation) h.tag .done (.freeStation i.toNat))
      ∧ ∀ i st, (∃ n, sel = .index n ∧ n.toNat = i ∧ i < 16384 ∧ s.stations.look i = some st)
          ∨ (∃ a, sel = .address a ∧ a ≠ 0 ∧ isGroup a = false ∧ s.stationWith a = some (i, st)) →
        Replied s t (.order .queryStation) h.tag .done (.station (s.stationReport i st)) := by
  obtain ⟨kept, frame, replied⟩ := queried (kind := .queryStation) ht (ruleQueryStation_state sel s)
  refine ⟨_, rfl, kept, frame, fun hs => ?_, fun a ha h0 hg hn => ?_, fun i hi hlt hn => ?_, fun i st hst => ?_⟩
  · exact replied _ _ (by rw [ruleQueryStation, named_invalid hs]; rfl)
  · subst ha
    exact replied _ _ (by rw [ruleQueryStation, named_address_unknown h0 hg hn]; rfl)
  · subst hi
    exact replied _ _ (by rw [ruleQueryStation, named_index_free hlt hn])
  · have hr : s.named sel = .record i st := by
      rcases hst with ⟨n, rfl, rfl, hlt, hl⟩ | ⟨a, rfl, h0, hg, hw⟩
      · exact named_index_record hlt hl
      · exact named_address_record h0 hg hw
    exact replied _ _ (ruleQueryStation_record hr)

/-- The figures of R124, its counts taken over the whole table. -/
theorem State.channelReport_eq (s : State) (k cell : Nat) : s.channelReport k cell =
    { number := k
      parameters := (s.channels.look k).map fun ch =>
        { isOpen := ch.isOpen, entitled := ch.entitled, recovery := ch.recovery
          full := ⟨ch.full, (ch.full.frameBytes * 800 + ch.full.rate - 1) / ch.full.rate⟩
          reduced := ch.reduced.map fun r => ⟨r, (r.frameBytes * 800 + r.rate - 1) / r.rate⟩ }
      copies := (s.copies.entries.filter fun x => x.2.channel == k).length
      activeFull := (s.copies.entries.filter fun x =>
        x.2.channel == k && x.2.state == .active && x.2.tier == .full).length
      activeReduced := (s.copies.entries.filter fun x =>
        x.2.channel == k && x.2.state == .active && x.2.tier == .reduced).length
      held := (s.copies.entries.filter fun x => x.2.channel == k && x.2.state == .held).length
      members := ((s.copies.entries.filter fun x => x.2.channel == k).map fun x => x.2.members).sum
      entries := ((s.copiesFrom k cell).take 32).map fun x =>
        { number := x.1, cell := x.2.cell, tier := x.2.tier, state := x.2.state, level := x.2.level
          clean := x.2.clean, members := x.2.members, load := x.2.load, queueLength := x.2.queue.length
          nextDue := x.2.nextDue }
      next := (s.copiesFrom k cell)[32]?.map fun x => x.2.cell } := by
  have count : ∀ p : Nat × Copy → Bool, (s.copies.entries.filter fun x => x.2.channel == k).countP p =
      (s.copies.entries.filter fun x => x.2.channel == k && p x).length := by
    intro p
    rw [List.countP_eq_length_filter, List.filter_filter]
    simp only [Bool.and_comm]
  simp only [State.channelReport, count, Bool.and_assoc]
  rfl

/-- Settles O24: each query is answered over the state that it met, by the cases of its rule. -/
theorem queriesReportAndChangeNothing : Obligations.QueriesReportAndChangeNothing := by
  intro h s ht
  refine ⟨fun cell => ?cell, fun sel => queryStation_answers h sel s ht, fun n => ?ticket, fun k cell => ?channel⟩
  case cell =>
    obtain ⟨kept, frame, replied⟩ := queried (kind := .queryCell) ht (ruleQueryCell_state cell s)
    refine ⟨_, rfl, kept, frame, fun hc => ?_, fun hc hn => ?_, fun c hc hn => ?_⟩
    · exact replied _ _ (if_pos hc)
    · exact replied _ _ (by rw [ruleQueryCell, if_neg (Nat.not_le.mpr hc), State.cellReport, hn])
    · exact replied _ _ (by rw [ruleQueryCell, if_neg (Nat.not_le.mpr hc), State.cellReport, hn]; rfl)
  case ticket =>
    obtain ⟨kept, frame, replied⟩ := queried (kind := .queryTicket) ht (ruleQueryTicket_state n s)
    refine ⟨_, rfl, kept, frame, fun hn => ?_, fun hn hp => ?_, fun hn hp hk => ?_, fun k hn hp hk => ?_⟩
    · exact replied _ _ (if_pos hn)
    · have hp : s.purge.isSome = true := Option.isSome_iff_ne_none.mpr hp
      exact replied _ _ (by rw [ruleQueryTicket, if_neg hn, if_pos hp]; rfl)
    · have hp : ¬ s.purge.isSome = true := by simp [hp]
      exact replied _ _ (by rw [ruleQueryTicket, if_neg hn, if_neg hp, hk]; rfl)
    · have hp : ¬ s.purge.isSome = true := by simp [hp]
      exact replied _ _ (by rw [ruleQueryTicket, if_neg hn, if_neg hp, hk]; rfl)
  case channel =>
    obtain ⟨kept, frame, replied⟩ := queried (kind := .queryChannel) ht (ruleQueryChannel_state k cell s)
    refine ⟨_, rfl, kept, frame, fun hk => replied _ _ (if_pos hk), fun hk hc => ⟨s.copiesFrom k cell, sortBy_perm _ _,
      pairwise_sortBy (fun x : Nat × Copy => x.2.cell) _, replied _ _ ?_⟩⟩
    have hn : ¬ (64 ≤ k ∨ 256 ≤ cell) := by omega
    rw [ruleQueryChannel, if_neg hn, s.channelReport_eq]

/-! ## Timed events (R6, R33, R34) -/

theorem clockReached_iff (now d : Clock) : clockReached now d = true ↔ (now - d).toNat < 2 ^ 31 := decide_eq_true_iff
theorem tickReached_iff (now d : Tick) : tickReached now d = true ↔ (now - d).toNat < 2 ^ 47 := decide_eq_true_iff

/-- A POLL falls due in SERVICE, on an ACTIVE or DRAINING trunk, where none is queued and the due time is reached (R6). -/
theorem State.pollFallsDue_iff (s : State) (n : Nat) (c : Cell) : s.pollFallsDue n c = true ↔
    s.time.service = .service ∧ ((s.trunk (n / 32)).state = .active ∨ (s.trunk (n / 32)).state = .draining) ∧ c.queued = .none
      ∧ ∃ d, c.due = some d ∧ (s.time.clock - d).toNat < 2 ^ 31 := by
  unfold State.pollFallsDue
  cases hd : c.due with
  | none => simp
  | some d =>
    simp only [Bool.and_eq_true, decide_eq_true_eq, Bool.or_eq_true, beq_iff_eq, Option.map_some, Option.getD_some,
      clockReached_iff, Option.some.injEq, exists_eq_left', and_assoc]
    rfl

/-- A POLL becomes overdue in class 5, a quarter of the interval past its due time (R6). -/
theorem State.pollIsOverdue_iff (s : State) (c : Cell) : s.pollIsOverdue c = true ↔
    c.queued = .onTime ∧ ∃ d, c.due = some d ∧ (s.time.clock - d).toNat < 2 ^ 31
      ∧ s.settings.timers.poll / 4 ≤ (s.time.clock - d).toNat := by
  unfold State.pollIsOverdue
  cases hd : c.due with
  | none => simp
  | some d =>
    simp only [Bool.and_eq_true, decide_eq_true_eq, beq_iff_eq, Option.map_some, Option.getD_some, clockReached_iff,
      Option.some.injEq, exists_eq_left']
    rfl

/-- A copy's frame is eligible (R33). -/
theorem State.copyReady_iff (s : State) (c : Copy) : s.copyReady c = true ↔
    c.state = .active ∧ c.queue ≠ [] ∧ (s.time.tick - c.nextDue).toNat < 2 ^ 47 := by
  simp only [State.copyReady, Bool.and_eq_true, beq_iff_eq, tickReached_iff, Bool.not_eq_true', List.isEmpty_eq_false_iff, and_assoc]

/-- A station's credit covers its oldest frame (R34, R151). -/
theorem Station.creditReady_iff (g : Nat) (st : Station) : st.creditReady (800 * g) = true ↔
    0 < st.rate ∧ st.queue.head?.any (fun x => x.length ≤ st.credit / (800 * g)) = true := by
  unfold Station.creditReady
  cases st.queue with
  | nil => simp
  | cons e rest =>
    simp only [Bool.and_eq_true, decide_eq_true_eq, List.head?_cons, Option.any_some]
    rfl

theorem execPollDue_absent {s : State} {cell : Nat} (h : s.cells.look cell = none) : execPollDue cell s = .next s := by
  simp [execPollDue, h]

theorem execPollOverdue_absent {s : State} {cell : Nat} (h : s.cells.look cell = none) : execPollOverdue cell s = .next s := by
  simp [execPollOverdue, h]

/-- POLL_DUE by whether the POLL falls due (R6; log 6). -/
theorem execPollDue_of {s : State} {cell : Nat} {c : Cell} (h : s.cells.look cell = some c) : execPollDue cell s =
    .next (if s.pollFallsDue cell c then closeEvent (s.setCells (s.cells.put cell { c with queued := .onTime })) else s) := by
  simp [execPollDue, h]

/-- POLL_OVERDUE by whether the POLL is overdue (R6; log 6). -/
theorem execPollOverdue_of {s : State} {cell : Nat} {c : Cell} (h : s.cells.look cell = some c) : execPollOverdue cell s =
    .next (if s.pollIsOverdue c then closeEvent (s.setCells (s.cells.put cell { c with queued := .overdue })) else s) := by
  simp [execPollOverdue, h]

theorem execPollDue_early {s : State} {cell : Nat} {c : Cell} (h : s.cells.look cell = some c)
    (hn : ¬ s.pollFallsDue cell c = true) : exec (.pollDue cell) s = .next s :=
  (execPollDue_of h).trans (by rw [if_neg hn])

theorem execPollOverdue_early {s : State} {cell : Nat} {c : Cell} (h : s.cells.look cell = some c)
    (hn : ¬ s.pollIsOverdue c = true) : exec (.pollOverdue cell) s = .next s :=
  (execPollOverdue_of h).trans (by rw [if_neg hn])

/-- Settles O25: each event by the condition of its moment. -/
theorem timedEventsOpenTheArbiter : Obligations.TimedEventsOpenTheArbiter := by
  refine ⟨fun cell s h => ⟨execPollDue_absent h, execPollOverdue_absent h⟩, fun cell c s h => ⟨fun hn => ?_, fun hn => ?_,
    fun d hd hn => ?_⟩, fun cell c d s h hd => ⟨fun hs ht hq hr => ?_, fun hq hr hp => ?_, fun hr => ⟨?_, ?_⟩⟩,
    fun n s => ⟨fun h => ?_, fun h => ?_⟩, fun n c s h => ?_, fun i st s h => ?_⟩
  · refine execPollDue_early h fun hf => ?_
    obtain ⟨hs, ht, hq, d, hd, _⟩ := (s.pollFallsDue_iff cell c).mp hf
    rcases hn with hn | hn | hn | hn | hn
    · simp [hs] at hn
    · simp [hn] at ht
    · simp [hn] at ht
    · exact hn hq
    · simp [hd] at hn
  · refine execPollOverdue_early h fun hf => ?_
    obtain ⟨hq, d, hd, _⟩ := (s.pollIsOverdue_iff c).mp hf
    rcases hn with hn | hn
    · exact hn hq
    · simp [hd] at hn
  · refine execPollOverdue_early h fun hf => ?_
    obtain ⟨_, d', hd', _, hp⟩ := (s.pollIsOverdue_iff c).mp hf
    obtain rfl := Option.some.inj (hd.symm.trans hd')
    omega
  · refine ⟨s.setCells (s.cells.put cell { c with queued := .onTime }), (execPollDue_of h).trans ?_, fun n => by simp, rfl⟩
    rw [if_pos ((s.pollFallsDue_iff cell c).mpr ⟨hs, ht, hq, d, hd, hr⟩)]
  · refine ⟨s.setCells (s.cells.put cell { c with queued := .overdue }), (execPollOverdue_of h).trans ?_, fun n => by simp, rfl⟩
    rw [if_pos ((s.pollIsOverdue_iff c).mpr ⟨hq, d, hd, hr, hp⟩)]
  · refine execPollDue_early h fun hf => ?_
    obtain ⟨_, _, _, d', hd', hlt⟩ := (s.pollFallsDue_iff cell c).mp hf
    obtain rfl := Option.some.inj (hd.symm.trans hd')
    omega
  · refine execPollOverdue_early h fun hf => ?_
    obtain ⟨_, d', hd', hlt, _⟩ := (s.pollIsOverdue_iff c).mp hf
    obtain rfl := Option.some.inj (hd.symm.trans hd')
    omega
  · show execCopyDue n s = _
    simp [execCopyDue, h]
  · show execStationCreditReady n s = _
    simp [execStationCreditReady, h]
  · show execCopyDue n s = _
    simp only [execCopyDue, h, s.copyReady_iff]
  · show execStationCreditReady i s = _
    simp only [execStationCreditReady, h, Time.unit, Station.creditReady_iff]

end Sys2Proof.Machine
end

