-- ==== Sys2Proof/Proofs/Tables.lean ====
section
/-! PROOFS. Tables as lists of entries, counters that advance more than once, references released one after another, folds with an
invariant. -/

namespace Sys2Proof.Machine

/-! ## Entries and records -/

theorem lookIn_eq_some_iff {α : Type} {k a : Nat} {v : α} {l : List (Nat × α)} (hl : risingFrom a l = true) :
    lookIn k l = some v ↔ (k, v) ∈ l := by
  refine ⟨lookIn_mem, fun h => ?_⟩
  induction l generalizing a with
  | nil => cases h
  | cons e rest ih =>
    obtain ⟨i, w⟩ := e
    simp only [risingFrom, Bool.and_eq_true, decide_eq_true_eq] at hl
    rcases List.mem_cons.mp h with h | h
    · obtain ⟨rfl, rfl⟩ := Prod.mk.inj h
      simp [lookIn]
    · have hk := ih hl.2 h
      rw [lookIn, if_neg, hk]
      rintro rfl
      rw [lookIn_lt_none i (i + 1) rest hl.2 (by omega)] at hk
      cases hk

theorem risingFrom_pairwise {α : Type} {a : Nat} {l : List (Nat × α)} (hl : risingFrom a l = true) :
    l.Pairwise (fun x y => x.1 < y.1) ∧ ∀ x ∈ l, a ≤ x.1 := by
  induction l generalizing a with
  | nil => exact ⟨.nil, fun _ h => by cases h⟩
  | cons e rest ih =>
    obtain ⟨i, w⟩ := e
    simp only [risingFrom, Bool.and_eq_true, decide_eq_true_eq] at hl
    obtain ⟨hp, hr⟩ := ih hl.2
    refine ⟨List.pairwise_cons.mpr ⟨fun x hx => Nat.lt_of_succ_le (hr x hx), hp⟩, fun x hx => ?_⟩
    rcases List.mem_cons.mp hx with rfl | hx
    · exact hl.1
    · exact (hl.1.trans (Nat.le_succ i)).trans (hr x hx)

/-- In a canonical table the records are the entries. -/
theorem Table.mem_entries {α : Type} {t : Table α} (ht : t.wf = true) {k : Nat} {v : α} :
    (k, v) ∈ t.entries ↔ t.look k = some v := (lookIn_eq_some_iff ht).symm

/-- The entries of a canonical table stand in rising order. -/
theorem Table.entries_pairwise {α : Type} {t : Table α} (ht : t.wf = true) : t.entries.Pairwise (fun x y => x.1 < y.1) :=
  (risingFrom_pairwise ht).1

theorem Table.mem_keysWhere {α : Type} {t : Table α} (ht : t.wf = true) {p : Nat → α → Bool} {k : Nat} :
    k ∈ t.keysWhere p ↔ ∃ v, t.look k = some v ∧ p k v = true := by
  simp only [Table.keysWhere, List.mem_map, List.mem_filter]
  constructor
  · rintro ⟨⟨k, v⟩, ⟨he, hp⟩, rfl⟩
    exact ⟨v, (Table.mem_entries ht).mp he, hp⟩
  · rintro ⟨v, hl, hp⟩
    exact ⟨(k, v), ⟨(Table.mem_entries ht).mpr hl, hp⟩, rfl⟩

theorem Table.keysWhere_pairwise {α : Type} {t : Table α} (ht : t.wf = true) (p : Nat → α → Bool) :
    (t.keysWhere p).Pairwise (· < ·) :=
  List.pairwise_map.mpr ((Table.entries_pairwise ht).filter _)

/-- A rising list of numbers is known by its members. -/
theorem rising_ext {l m : List Nat} (hl : l.Pairwise (· < ·)) (hm : m.Pairwise (· < ·)) (h : ∀ k, k ∈ l ↔ k ∈ m) : l = m :=
  hl.eq_of_mem_iff hm h

/-- The same numbers picked from two canonical tables are the same list. -/
theorem Table.keysWhere_congr {α β : Type} {t : Table α} {u : Table β} (ht : t.wf = true) (hu : u.wf = true)
    {p : Nat → α → Bool} {q : Nat → β → Bool}
    (h : ∀ k, (∃ v, t.look k = some v ∧ p k v = true) ↔ ∃ v, u.look k = some v ∧ q k v = true) :
    t.keysWhere p = u.keysWhere q :=
  rising_ext (Table.keysWhere_pairwise ht p) (Table.keysWhere_pairwise hu q) fun k => by
    rw [Table.mem_keysWhere ht, Table.mem_keysWhere hu, h k]

theorem Table.length_keysWhere {α : Type} (t : Table α) (p : Nat → α → Bool) :
    (t.keysWhere p).length = (t.entries.filter fun e => p e.1 e.2).length := by
  simp [Table.keysWhere]

/-! ## Folds -/

/-- An invariant of a fold, over the part of the list already taken. -/
theorem foldl_invariant {α β : Type} {f : β → α → β} {P : List α → β → Prop} (l : List α) {s : β} (h0 : P [] s)
    (hf : ∀ done a v, done ++ [a] <+: l → P done v → P (done ++ [a]) (f v a)) : P l (l.foldl f s) := by
  suffices H : ∀ rest done v, done ++ rest = l → P done v → P l (rest.foldl f v) from H l [] s rfl h0
  intro rest
  induction rest with
  | nil =>
    intro done v hd hp
    rw [List.append_nil] at hd
    exact hd ▸ hp
  | cons a rest ih =>
    intro done v hd hp
    refine ih (done ++ [a]) (f v a) (by simpa using hd) (hf done a v ⟨rest, by simpa using hd⟩ hp)

/-! ## Counters -/

theorem Advanced.refl (s : State) (c : Counter) : Advanced s s c 0 := by simp [Advanced]

theorem Advanced.trans {s t u : State} {c : Counter} {m n : Nat} (h : Advanced s t c m) (g : Advanced t u c n) :
    Advanced s u c (m + n) := by
  unfold Advanced at *
  rw [g, h, BitVec.ofNat_add, add_assoc]

theorem CountersKept.refl (s : State) (p : Counter → Prop) : CountersKept s s p := fun _ _ => rfl

theorem CountersKept.trans {s t u : State} {p : Counter → Prop} (h : CountersKept s t p) (g : CountersKept t u p) :
    CountersKept s u p := fun c hc => (g c hc).trans (h c hc)

theorem CountersKept.mono {s t : State} {p q : Counter → Prop} (h : CountersKept s t p) (hpq : ∀ c, p c → q c) :
    CountersKept s t q := fun c hc => h c fun hp => hc (hpq c hp)

/-- A counter that is kept has advanced by 0. -/
theorem CountersKept.advanced {s t : State} {p : Counter → Prop} (h : CountersKept s t p) {c : Counter} (hc : ¬ p c) :
    Advanced s t c 0 := by
  rw [Advanced, h c hc]
  simp

theorem countersKept_advance (c : Counter) (n : Nat) (s : State) : CountersKept s (advance c n s) (· = c) :=
  fun d hd => by rw [counter_advance, if_neg hd]

theorem countersKept_of_eq {s t : State} (h : t.counters = s.counters) (p : Counter → Prop) : CountersKept s t p :=
  fun c _ => by rw [State.counter, State.counter, h]

/-! ## References -/

/-- A buffer after some of its references are released. -/
def Buffer.less (n : Nat) (b : Buffer) : Option Buffer := if b.refs ≤ n then none else some { b with refs := b.refs - n }

theorem ReleasedAll.refl (s : State) : ReleasedAll s s [] := fun _ => by simp

theorem ReleasedAll.of_pools {s t : State} (h : t.pools = s.pools) : ReleasedAll s t [] := fun _ => by simp [State.buffer, h]

theorem Buffer.less_less (m n : Nat) (b : Buffer) : (b.less m).bind (Buffer.less n) = b.less (m + n) := by
  unfold Buffer.less
  by_cases h : b.refs ≤ m
  · simp [h, show b.refs ≤ m + n by omega]
  · simp only [h, if_false, Option.bind_some]
    by_cases h' : b.refs ≤ m + n
    · rw [if_pos (by omega), if_pos h']
    · rw [if_neg (by omega), if_neg h', Nat.sub_sub]

theorem ReleasedAll.trans {s t u : State} {as bs : List BufferRef} (h : ReleasedAll s t as) (g : ReleasedAll t u bs) :
    ReleasedAll s u (as ++ bs) := by
  intro q
  have hq : t.buffer q = if q ∈ as then (s.buffer q).bind (Buffer.less (as.count q)) else s.buffer q := h q
  have gq : u.buffer q = if q ∈ bs then (t.buffer q).bind (Buffer.less (bs.count q)) else t.buffer q := g q
  show u.buffer q = if q ∈ as ++ bs then (s.buffer q).bind (Buffer.less ((as ++ bs).count q)) else s.buffer q
  rw [gq, hq, List.count_append]
  by_cases ha : q ∈ as
  · by_cases hb : q ∈ bs
    · simp only [ha, hb, List.mem_append, or_self, if_true, Option.bind_assoc, Buffer.less_less]
    · simp only [ha, hb, List.mem_append, or_false, if_true, if_false, List.count_eq_zero_of_not_mem hb, Nat.add_zero]
  · by_cases hb : q ∈ bs
    · simp only [ha, hb, List.mem_append, or_true, if_true, if_false, List.count_eq_zero_of_not_mem ha, Nat.zero_add]
    · simp only [ha, hb, List.mem_append, or_self, if_false]

theorem ReleasedAll.perm {s t : State} {as bs : List BufferRef} (h : ReleasedAll s t as) (hp : as.Perm bs) :
    ReleasedAll s t bs := by
  intro q
  rw [h q, hp.count_eq]
  simp only [hp.mem_iff]

theorem releasedAll_releaseRef (r : BufferRef) (s : State) : ReleasedAll s (releaseRef r s) [r] := by
  intro q
  by_cases h : q = r
  · subst h
    rw [(released_releaseRef q s).one q rfl]
    simp
  · rw [(released_releaseRef r s).rest q (fun e => h (Option.some.inj e).symm)]
    simp [h]

theorem releasedAll_releaseAll (rs : List BufferRef) (s : State) : ReleasedAll s (releaseAll rs s) rs := by
  induction rs generalizing s with
  | nil => exact .refl s
  | cons r rest ih => exact (releasedAll_releaseRef r s).trans (ih _)

end Sys2Proof.Machine
end

