-- ==== Sys2Proof/Proofs/Copies.lean ====
section
/-! PROOFS. Accounts, rates and copies: what each operation of the accountant writes, the decision on one copy (R126, R141, R142), and what
the re-admission pass at one cell leaves as it is (R144). -/

namespace Sys2Proof.Machine

/-! ## M, W, rates, statuses -/

theorem look_refreshM (cell n : Nat) (s : State) : (refreshM cell s).cells.look n = (s.cells.look n).map fun x =>
    if n = cell then { x with account := { x.account with m := s.activeLoad cell } } else x := by
  rw [refreshM, updateAccount, look_updateCell]
  by_cases h : n = cell <;> simp [h]

theorem look_refreshW (cell n : Nat) (s : State) : (refreshW cell s).cells.look n = (s.cells.look n).map fun x =>
    if n = cell then { x with account := { x.account with w := s.countedWeight cell } } else x := by
  rw [refreshW, updateAccount, look_updateCell]
  by_cases h : n = cell <;> simp [h]

theorem refreshM_frame (cell : Nat) (s : State) : refreshM cell s = s.setCells (refreshM cell s).cells := rfl
theorem Station.countedAt_iff {st : Station} {cell : Nat} : st.countedAt cell = true ↔ st.place.cell? = some cell := by
  simp [Station.countedAt]

theorem refreshRates_frame (cell : Nat) (s : State) : refreshRates cell s = s.setStations (refreshRates cell s).stations := by
  unfold refreshRates
  split <;> rfl

/-- R148: the stations counted at the cell have its rate, the others keep theirs. -/
theorem look_refreshRates (cell i : Nat) (s : State) : (refreshRates cell s).stations.look i = (s.stations.look i).map fun st =>
    if st.place.cell? = some cell then { st with rate := s.rateAt cell st } else st := by
  unfold refreshRates State.rateAt
  cases s.account cell with
  | none => simp
  | some a => simp [unicastRate, Station.countedAt_iff]

theorem look_setStatuses (channel cell : Nat) (status : MemberStatus) (s : State) (i : Nat) :
    (setStatuses channel cell status s).stations.look i = (s.stations.look i).map fun st =>
      if st.place.cell? = some cell then
        { st with members := st.members.map fun x => if x.channel = channel then { x with status := status } else x }
      else st := by
  simp [setStatuses, Station.countedAt_iff]

theorem State.activeLoad_congr {s t : State} (h : t.copies = s.copies) (cell : Nat) : t.activeLoad cell = s.activeLoad cell := by
  rw [State.activeLoad, State.activeLoad, h]

/-! ## One copy flushed, one copy decided -/

theorem loadAt_eq (a : Account) (t : Tier) (level : Nat) : loadAt a t level = loadOf a t level := rfl

theorem flushCopy_eq {s : State} {n : Nat} {c : Copy} (h : s.copies.look n = some c) : flushCopy n s =
    advance (.cell c.cell .replayDiscarded) c.queue.length
      (releaseAll c.queue (s.setCopies (s.copies.put n { c with queue := [] }))) := by
  simp [flushCopy, h]

/-- A copy's queue is discarded: the copy without it, the counter, the pools. -/
theorem flushCopy_frame {s : State} {n : Nat} {c : Copy} (h : s.copies.look n = some c) : flushCopy n s =
    { s with
      copies := s.copies.put n { c with queue := [] }, counters := (flushCopy n s).counters
      pools := (flushCopy n s).pools } := by
  rw [flushCopy_eq h, releaseAll_frame]
  rfl

theorem advanced_flushCopy {s : State} {n : Nat} {c : Copy} (h : s.copies.look n = some c) :
    Advanced s (flushCopy n s) (.cell c.cell .replayDiscarded) c.queue.length := by
  rw [flushCopy_eq h, releaseAll_frame]
  exact advanced_advance ..

theorem countersKept_flushCopy {s : State} {n : Nat} {c : Copy} (h : s.copies.look n = some c) :
    CountersKept s (flushCopy n s) (· = .cell c.cell .replayDiscarded) := by
  rw [flushCopy_eq h, releaseAll_frame]
  exact fun d hd => countersKept_advance _ _ (s.setCopies _) d hd

theorem releasedAll_flushCopy {s : State} {n : Nat} {c : Copy} (h : s.copies.look n = some c) :
    ReleasedAll s (flushCopy n s) c.queue := by
  rw [flushCopy_eq h]
  exact releasedAll_releaseAll c.queue (s.setCopies _)

/-- The decision of the accountant on one copy, with all that it leaves (R126, R142). -/
theorem redecided_applyDecision {s : State} {n : Nat} {c : Copy} {ch : Channel} {a : Account} (d : Option TierName)
    (h : s.copies.look n = some c) (hch : s.channels.look c.channel = some ch) (ha : s.account c.cell = some a) :
    Redecided s (applyDecision n d s) n c (decided a ch s.time.tick d { c with queue := [] })
      (decided a ch s.time.tick d { c with queue := [] }).status := by
  have hf := flushCopy_frame h
  have hcount := advanced_flushCopy h
  have hkept := countersKept_flushCopy h
  have hrel := releasedAll_flushCopy h
  have hchannel : (decided a ch s.time.tick d { c with queue := [] }).channel = c.channel := by cases d <;> rfl
  have hcell : (decided a ch s.time.tick d { c with queue := [] }).cell = c.cell := by cases d <;> rfl
  have he : applyDecision n d s = refreshM c.cell (writeCopy n (decided a ch s.time.tick d { c with queue := [] })
      (flushCopy n s)) := by simp [applyDecision, h, hch, ha]
  generalize decided a ch s.time.tick d { c with queue := [] } = now at hchannel hcell he ⊢
  generalize flushCopy n s = f at hf hcount hkept hrel he
  have hcopies : f.copies = s.copies.put n { c with queue := [] } := by rw [hf]
  have hstations : f.stations = s.stations := by rw [hf]
  have hcells : f.cells = s.cells := by rw [hf]
  rw [he]
  constructor
  · intro j
    rw [refreshM_frame]
    simp only [setCells_copies, writeCopy, setStatuses, setStations_copies, setCopies_copies, Table.look_put, hcopies]
    by_cases hj : j = n <;> simp [hj]
  · intro i
    rw [refreshM_frame, setCells_stations, writeCopy, look_setStatuses, hchannel, hcell]
    simp [hstations]
  · intro k
    rw [look_refreshM]
    have hl : (writeCopy n now f).cells = s.cells := hcells
    rw [hl]
    by_cases hk : k = c.cell
    · subst hk
      rfl
    · simp [hk]
  · exact ⟨hcount, hkept⟩
  · exact hrel
  · rw [refreshM_frame, writeCopy, setStatuses, hf]
    rfl

/-- A decision on a copy whose channel is UNDEFINED or whose cell is UNCONFIGURED changes nothing. -/
theorem applyDecision_of_none {s : State} {n : Nat} {c : Copy} (d : Option TierName) (h : s.copies.look n = some c)
    (hn : s.channels.look c.channel = none ∨ s.account c.cell = none) : applyDecision n d s = s := by
  rcases hn with hn | hn <;> simp [applyDecision, h, hn]

/-! ## Work at some cells -/

/-- From `s` to `t` the copies of the cells that `p` picks have been dealt with: only their accounts, their stations' statuses and rates,
their copies and the counts of their discarded entries have changed. -/
structure AtCells (p : Nat → Prop) (s t : State) : Prop where
  cells    : ∀ n, ¬ p n → t.cells.look n = s.cells.look n
  stations : ∀ i st, s.stations.look i = some st →
    (∃ members rate, t.stations.look i = some { st with members := members, rate := rate })
      ∧ ((∀ n, st.place.cell? = some n → ¬ p n) → t.stations.look i = some st)
  free     : ∀ i, s.stations.look i = none → t.stations.look i = none
  copies   : ∀ n c, s.copies.look n = some c → ∃ d, t.copies.look n = some d ∧ d.channel = c.channel ∧ d.cell = c.cell
    ∧ (¬ p c.cell → d = c)
  counters : CountersKept s t fun x => ∃ n, p n ∧ x = .cell n .replayDiscarded
  frame    : t = { s with
    counters := t.counters, cells := t.cells, pools := t.pools, stations := t.stations, copies := t.copies }

theorem AtCells.refl (p : Nat → Prop) (s : State) : AtCells p s s where
  cells _ _ := rfl
  stations _ st h := ⟨⟨st.members, st.rate, h⟩, fun _ => h⟩
  free _ h := h
  copies _ c h := ⟨c, h, rfl, rfl, fun _ => rfl⟩
  counters _ _ := rfl
  frame := rfl

theorem AtCells.trans {p : Nat → Prop} {s t u : State} (h : AtCells p s t) (g : AtCells p t u) : AtCells p s u where
  cells n hn := (g.cells n hn).trans (h.cells n hn)
  stations i st hs := by
    obtain ⟨⟨m1, r1, e1⟩, k1⟩ := h.stations i st hs
    obtain ⟨⟨m2, r2, e2⟩, -⟩ := g.stations i _ e1
    exact ⟨⟨m2, r2, e2⟩, fun hc => (g.stations i st (k1 hc)).2 hc⟩
  free i hs := g.free i (h.free i hs)
  copies n c hc := by
    obtain ⟨d, hd, h1, h2, h3⟩ := h.copies n c hc
    obtain ⟨e, he, g1, g2, g3⟩ := g.copies n d hd
    exact ⟨e, he, g1.trans h1, g2.trans h2, fun hne => (g3 (by rwa [h2])).trans (h3 hne)⟩
  counters := h.counters.trans g.counters
  frame := by
    rw [g.frame, h.frame]

theorem AtCells.mono {p q : Nat → Prop} {s t : State} (h : AtCells p s t) (hpq : ∀ n, p n → q n) : AtCells q s t where
  cells n hn := h.cells n fun hp => hn (hpq n hp)
  stations i st hs := ⟨(h.stations i st hs).1, fun hq => (h.stations i st hs).2 fun n hn hp => hq n hn (hpq n hp)⟩
  free := h.free
  copies n c hc := by
    obtain ⟨d, hd, h1, h2, h3⟩ := h.copies n c hc
    exact ⟨d, hd, h1, h2, fun hq => h3 fun hp => hq (hpq _ hp)⟩
  counters := h.counters.mono fun _ ⟨n, hp, e⟩ => ⟨n, hpq n hp, e⟩
  frame := h.frame

theorem atCell_refreshRates (cell : Nat) (s : State) : AtCells (· = cell) s (refreshRates cell s) := by
  have hl := look_refreshRates cell
  rw [refreshRates_frame]
  constructor
  · exact fun _ _ => rfl
  · intro i st h
    rw [setStations_stations, hl, h]
    by_cases hc : st.place.cell? = some cell
    · exact ⟨⟨st.members, _, by rw [Option.map_some, if_pos hc]⟩, fun hn => absurd rfl (hn cell hc)⟩
    · rw [Option.map_some, if_neg hc]
      exact ⟨⟨st.members, st.rate, rfl⟩, fun _ => rfl⟩
  · intro i h
    rw [setStations_stations, hl, h]
    rfl
  · exact fun _ c h => ⟨c, h, rfl, rfl, fun _ => rfl⟩
  · exact fun _ _ => rfl
  · rfl

/-- The decision on a copy is work at its cell. -/
theorem atCell_applyDecision {s : State} {n : Nat} {c : Copy} (d : Option TierName) (h : s.copies.look n = some c) :
    AtCells (· = c.cell) s (applyDecision n d s) := by
  cases hch : s.channels.look c.channel with
  | none => rw [applyDecision_of_none d h (.inl hch)]; exact .refl ..
  | some ch =>
    cases ha : s.account c.cell with
    | none => rw [applyDecision_of_none d h (.inr ha)]; exact .refl ..
    | some a =>
      obtain ⟨hcopies, hmembers, hload, ⟨-, hkept⟩, -, hframe⟩ := redecided_applyDecision d h hch ha
      constructor
      · intro k hk
        rw [hload]
        simp [hk]
      · intro i st hst
        rw [hmembers, hst]
        by_cases hc : st.place.cell? = some c.cell
        · exact ⟨⟨_, st.rate, by rw [Option.map_some, if_pos hc]⟩, fun hn => absurd rfl (hn _ hc)⟩
        · rw [Option.map_some, if_neg hc]
          exact ⟨⟨st.members, st.rate, rfl⟩, fun _ => rfl⟩
      · intro i hst
        rw [hmembers, hst]
        rfl
      · intro j e hj
        rw [hcopies]
        by_cases hjn : j = n
        · subst hjn
          obtain rfl : c = e := Option.some.inj (h.symm.trans hj)
          refine ⟨_, if_pos rfl, ?_, ?_, fun hn => absurd rfl hn⟩ <;> cases d <;> rfl
        · exact ⟨e, by rw [if_neg hjn, hj], rfl, rfl, fun _ => rfl⟩
      · exact hkept.mono fun _ e => ⟨c.cell, rfl, e⟩
      · exact hframe

theorem atCell_tryAdmission {s : State} {n : Nat} {c : Copy} (h : s.copies.look n = some c) :
    AtCells (· = c.cell) s (tryAdmission s n) := by
  unfold tryAdmission
  rw [h]
  dsimp only
  split
  · exact .refl ..
  · split
    · exact atCell_applyDecision _ h
    · exact .refl ..

theorem atCell_tryRaise {s : State} {n : Nat} {c : Copy} (h : s.copies.look n = some c) :
    AtCells (· = c.cell) s (tryRaise s n) := by
  unfold tryRaise
  rw [h]
  dsimp only
  split
  · split
    · exact atCell_applyDecision _ h
    · exact .refl ..
  · exact .refl ..

/-- The copies listed at a cell are copies there. -/
theorem State.mem_copiesAt {s : State} (hw : s.copies.wf = true) {cell n : Nat} {p : Copy → Bool} (h : n ∈ s.copiesAt cell p) :
    ∃ c, s.copies.look n = some c ∧ c.cell = cell ∧ p c = true := by
  simp only [State.copiesAt, List.mem_map, (sortBy_perm _ _).mem_iff, List.mem_filter, Bool.and_eq_true, beq_iff_eq] at h
  obtain ⟨⟨n, c⟩, ⟨he, hcell, hp⟩, rfl⟩ := h
  exact ⟨c, (Table.mem_entries hw).mp he, hcell, hp⟩

/-- Steps on copies at one cell, one after another. -/
theorem AtCells.foldl {cell : Nat} {f : State → Nat → State}
    (hf : ∀ v n c, v.copies.look n = some c → c.cell = cell → AtCells (· = cell) v (f v n)) (l : List Nat) {s : State}
    (hl : ∀ n ∈ l, ∃ c, s.copies.look n = some c ∧ c.cell = cell) : AtCells (· = cell) s (l.foldl f s) := by
  induction l generalizing s with
  | nil => exact .refl ..
  | cons n rest ih =>
    obtain ⟨c, hc, hcell⟩ := hl n (List.mem_cons_self ..)
    have h1 := hf s n c hc hcell
    refine h1.trans (ih fun m hm => ?_)
    obtain ⟨d, hd, hdc⟩ := hl m (List.mem_cons_of_mem _ hm)
    obtain ⟨e, he, -, hec, -⟩ := h1.copies m d hd
    exact ⟨e, he, hec.trans hdc⟩

/-- The re-admission pass at a cell is work at that cell (R144). -/
theorem atCell_readmit (cell : Nat) {s : State} (hw : s.copies.wf = true) : AtCells (· = cell) s (readmit cell s) := by
  unfold readmit
  split
  · exact .refl ..
  · have h1 : AtCells (· = cell) s ((s.copiesAt cell fun c => c.state == .held).foldl tryAdmission s) := by
      refine AtCells.foldl (fun v n c hc hcell => hcell ▸ atCell_tryAdmission hc) _ fun n hn => ?_
      obtain ⟨c, hc, hcell, -⟩ := State.mem_copiesAt hw hn
      exact ⟨c, hc, hcell⟩
    have hw1 := (Inner.foldl _ inner_tryAdmission (s.copiesAt cell fun c => c.state == .held) s).wf.2.1 hw
    refine h1.trans (.trans ?_ (atCell_refreshRates ..))
    refine AtCells.foldl (fun v n c hc hcell => hcell ▸ atCell_tryRaise hc) _ fun n hn => ?_
    obtain ⟨c, hc, hcell, -⟩ := State.mem_copiesAt hw1 hn
    exact ⟨c, hc, hcell⟩

end Sys2Proof.Machine
end

