-- ==== Sys2Proof/Proofs/Holds.lean ====
section
/-! PROOFS. RELEASE TRUNK: the pass in each cell of the trunk, the drain cancelled, the hold ended (R18, R19, R144). -/

namespace Sys2Proof.Machine

theorem trunkOf_eq (n : Nat) : trunkOf n = n / 32 := rfl

theorem State.mem_cellsOf {s : State} (hw : s.cells.wf = true) {k n : Nat} :
    n ∈ s.cellsOf k ↔ n / 32 = k ∧ (s.cells.look n).isSome = true := by
  rw [State.cellsOf, Table.mem_keysWhere hw, Option.isSome_iff_exists]
  simp only [beq_iff_eq, trunkOf_eq]
  exact ⟨fun ⟨v, h, e⟩ => ⟨e, v, h⟩, fun ⟨e, v, h⟩ => ⟨v, h, e⟩⟩

/-- The pass in each configured cell of the trunk, in slot order. -/
theorem trunkReadmitted_readmitTrunk {s : State} (hw : s.cells.wf = true) (k : Nat) : TrunkReadmitted k s (readmitTrunk k s) :=
  ⟨s.cellsOf k, Table.keysWhere_pairwise hw _, fun _ => State.mem_cellsOf hw, rfl⟩

/-- The passes of a trunk are work at its cells. -/
theorem atTrunk_readmitTrunk {s : State} (hc : s.copies.wf = true) (hw : s.cells.wf = true) (k : Nat) :
    AtCells (· / 32 = k) s (readmitTrunk k s) := by
  refine (foldl_invariant (P := fun _ v => AtCells (· / 32 = k) s v ∧ v.copies.wf = true) (s.cellsOf k) ⟨.refl .., hc⟩ ?_).1
  rintro done n v hpre ⟨hv, hvw⟩
  have hn : n / 32 = k := ((State.mem_cellsOf hw).mp (hpre.subset (by simp))).1
  exact ⟨hv.trans ((atCell_readmit n hvw).mono fun m hm => by rw [hm, hn]), (inner_readmit n v).wf.2.1 hvw⟩

/-- A cell that is as before but for M and W is as before but for its account. -/
theorem Calm.cell {s t : State} (h : Calm s t) {n : Nat} {c : Cell} (hc : s.cells.look n = some c) :
    ∃ account, t.cells.look n = some { c with account := account } ∧ account.p = c.account.p ∧ account.h = c.account.h
      ∧ account.b = c.account.b ∧ account.c = c.account.c := by
  have e := h.cells n
  rw [hc] at e
  obtain ⟨d, hd, hdc⟩ := Option.map_eq_some_iff.mp (e.trans rfl)
  simp only [Cell.core, Cell.mk.injEq, Account.mk.injEq] at hdc
  obtain ⟨h1, h2, h3, h4, h5, h6, h7, h8, h9, h10, -⟩ := hdc
  refine ⟨d.account, ?_, h7, h8, h9, h10⟩
  rw [hd, ← h1, ← h2, ← h3, ← h4, ← h5, ← h6]

/-- A cell is as before but for M and W. -/
theorem Calm.loads {s t : State} (h : Calm s t) {n : Nat} {c : Cell} (hc : s.cells.look n = some c) :
    ∃ m w, t.cells.look n = some { c with account := { c.account with m := m, w := w } } := by
  obtain ⟨⟨ap, ah, ab, ac, m, w⟩, ha, h1, h2, h3, h4⟩ := h.cell hc
  simp only at h1 h2 h3 h4
  exact ⟨m, w, by rw [ha, h1, h2, h3, h4]⟩

/-- A cell that is not configured stays so. -/
theorem Calm.absent {s t : State} (h : Calm s t) {n : Nat} (hc : s.cells.look n = none) : t.cells.look n = none := by
  have e := h.cells n
  rwa [hc, Option.map_none, Option.map_eq_none_iff] at e

theorem pushNotice_room {b : NoticeBody} {s : State} (h : s.notices.length < Config.notices) :
    pushNotice b s = s.setNotices (s.notices ++ [⟨s.time.clock, b⟩]) := by
  rw [pushNotice, if_pos h]
  rfl

/-- Work at cells, with the reply made over it, is a reply over the state before. -/
theorem AtCells.replied {p : Nat → Prop} {s u v : State} (h : AtCells p u v) (hl : u.link = s.link)
    (hc : u.counters = s.counters) (kind : ReplyKind) (tag : Byte) (status : Status) :
    Replied s (placeReply kind tag status .empty v) kind tag status .empty := by
  refine (replied_placeReply kind tag status .empty v).before ?_ ?_
  · rw [h.frame, ← hl]
  · rw [h.counters _ (by rintro ⟨n, -, e⟩; cases e), State.counter, State.counter, hc]

/-- What the passes of a trunk leave, the reply made, of the cells, stations and copies off it. -/
theorem AtCells.offTrunk {s u v e : State} {k : Nat} (h : AtCells (· / 32 = k) u v)
    (hcells : ∀ n, n / 32 ≠ k → u.cells.look n = s.cells.look n)
    (hstations : ∀ i st, s.stations.look i = some st → (∀ cell, st.place.cell? = some cell → cell / 32 ≠ k) →
      u.stations.look i = some st)
    (hcopies : u.copies = s.copies) (ec : e.cells = v.cells) (es : e.stations = v.stations) (ey : e.copies = v.copies) :
    OffTrunkKept s e k where
  cells n hn := by rw [ec, h.cells n hn, hcells n hn]
  stations i st hs hoff := by rw [es, (h.stations i st (hstations i st hs hoff)).2 hoff]
  copies n c hc hoff := by
    obtain ⟨d, hd, -, -, e⟩ := h.copies n c (by rw [hcopies, hc])
    rw [ey, hd, e hoff]

/-! ## RELEASE TRUNK (R18, R19) -/

theorem ruleReleaseTrunk_range {k : Nat} (hk : 8 ≤ k) (s : State) : ruleReleaseTrunk k s = refuse .badArgument s := if_pos hk

theorem not_range {k : Nat} (hk : k < 8) : ¬ Config.trunks ≤ k := fun h => absurd hk (Nat.not_lt.mpr h)

theorem ruleReleaseTrunk_active {k : Nat} (hk : k < 8) {s : State} (hs : s.time.service = .service)
    (hst : (s.trunk k).state = .active) : ruleReleaseTrunk k s = refuse .already s := by
  simp [ruleReleaseTrunk, not_range hk, hs, hst]

theorem ruleReleaseTrunk_draining {k : Nat} (hk : k < 8) {s : State} (hs : s.time.service = .service)
    (hst : (s.trunk k).state = .draining) : ruleReleaseTrunk k s = ⟨cancelDrain k s, .done, .empty⟩ := by
  simp [ruleReleaseTrunk, not_range hk, hs, hst]

theorem ruleReleaseTrunk_held {k : Nat} (hk : k < 8) {s : State} (hs : s.time.service = .service)
    (hst : (s.trunk k).state = .held) : ruleReleaseTrunk k s = ⟨releaseHeld k s, .done, .empty⟩ := by
  simp [ruleReleaseTrunk, not_range hk, hs, hst]

theorem ruleReleaseTrunk_wrong {k : Nat} (hk : k < 8) {s : State}
    (h : s.time.service = .config ∨ (s.trunk k).state = .linkDown) : ruleReleaseTrunk k s = refuse .wrongState s := by
  by_cases hs : s.time.service = .config
  · simp [ruleReleaseTrunk, not_range hk, hs]
  · simp [ruleReleaseTrunk, not_range hk, hs, h.resolve_left hs]

/-- An acting order that its rule refuses is refused. -/
theorem refused_takeActing {kind : OrderKind} {h : OrderHead} {rule : State → Answer} {s : State} {status : Status}
    (ht : s.Takes h) (ha : status.acts = false) (hr : rule s = refuse status s) :
    Refused s (takeActing kind h rule s) kind h.tag status := by
  rw [takeActing_refused ht ha hr]
  exact refused_placeReply ..

/-- The state when a drain is cancelled, before the passes. -/
def drainCancelled (k : Nat) (s : State) : State :=
  pushNotice (.holdCancelled k (s.trunk k).holdTag .release) (s.setTrunk k { s.trunk k with state := .active, holdTag := none })

/-- The state when a hold has ended, before the passes. -/
def holdEnded (k : Nat) (s : State) : State :=
  let t := updateCellsOf k (releaseCell s.now)
    (s.setTrunk k { s.trunk k with state := .active, holdTag := none, heldSince := none })
  t.setStations (t.stations.mapAll fun _ st =>
    if st.onTrunk k then { st with paused := false, lastHeard := st.lastHeard + s.holdLength k } else st)

theorem Station.onTrunk_iff {st : Station} {k : Nat} : st.onTrunk k = true ↔ st.place.cell?.map (· / 32) = some k := by
  unfold Station.onTrunk
  cases st.place.cell? <;> simp [trunkOf_eq]

theorem releaseCell_eq (now : Clock) (c : Cell) : releaseCell now c =
    { c with
      state := if c.state = .down then .down else .active, missed := if c.state = .down then c.missed else 0
      due := some now, queued := .overdue } := by
  obtain ⟨kind, state, missed, awaited, due, queued, account⟩ := c
  cases state <;> rfl

theorem look_holdEnded_cells (k n : Nat) (s : State) : (holdEnded k s).cells.look n = (s.cells.look n).map fun c =>
    if n / 32 = k then
      { c with
        state := if c.state = .down then .down else .active, missed := if c.state = .down then c.missed else 0
        due := some s.time.clock, queued := .overdue }
    else c := by
  show ((s.cells.mapAll fun n c => if trunkOf n = k then releaseCell s.now c else c).look n) = _
  rw [Table.look_mapAll]
  simp only [releaseCell_eq, trunkOf_eq]
  rfl

theorem look_holdEnded_stations {k : Nat} {s : State} {since : Clock} (hs : (s.trunk k).heldSince = some since) (i : Nat) :
    (holdEnded k s).stations.look i = (s.stations.look i).map fun st => if st.place.cell?.map (· / 32) = some k then
      { st with paused := false, lastHeard := st.lastHeard + (s.time.clock - since) } else st := by
  show ((s.stations.mapAll fun _ st => if st.onTrunk k then
    { st with paused := false, lastHeard := st.lastHeard + s.holdLength k } else st).look i) = _
  have hl : s.holdLength k = s.time.clock - since := by rw [State.holdLength, hs]; rfl
  rw [Table.look_mapAll, hl]
  simp only [Station.onTrunk_iff]

/-- RELEASE TRUNK where it acts: the passes over a state `u`, then the reply. -/
theorem releaseTrunk_passes {h : OrderHead} {k : Nat} {s u : State} (ht : s.Takes h)
    (hr : ruleReleaseTrunk k s = ⟨readmitTrunk k u, .done, .empty⟩) (hcopies : u.copies.wf = true) (hcells : u.cells.wf = true)
    (hl : u.link = s.link) (hc : u.counters = s.counters) : ∃ v e, exec (.releaseTrunk h k) s = .next (closeEvent e)
      ∧ Replied s e (.order .releaseTrunk) h.tag .done .empty ∧ TrunkReadmitted k u v ∧ AtCells (· / 32 = k) u v ∧ Calm u v
      ∧ CountersKept v e (· = .part .repliesLost) ∧ e = { v with link := e.link, counters := e.counters } := by
  have hv := atTrunk_readmitTrunk hcopies hcells k
  exact ⟨_, _, congrArg Host.Outcome.next (takeActing_acts ht hr rfl), hv.replied hl hc .., trunkReadmitted_readmitTrunk hcells k,
    hv, (inner_readmitTrunk k u).calm, countersKept_placeReply _ _ _ _ _, placeReply_empty_frame ..⟩

/-- Settles O33: the state before the passes is `drainCancelled` or `holdEnded`, and the passes are work at the trunk's cells. -/
theorem releaseTrunkEndsTheHold : Obligations.ReleaseTrunkEndsTheHold := by
  unfold Obligations.ReleaseTrunkEndsTheHold
  intro h k s ht hf
  refine ⟨fun hk => ⟨_, rfl, refused_takeActing ht rfl (ruleReleaseTrunk_range hk s)⟩, fun hk => ⟨?_, ?_, ?_, ?_⟩⟩
  · exact fun hw => ⟨_, rfl, refused_takeActing ht rfl (ruleReleaseTrunk_wrong hk hw)⟩
  · intro hs hst
    exact ⟨_, rfl, refused_takeActing ht rfl (ruleReleaseTrunk_active hk hs hst)⟩
  · intro hs hst hroom
    have hr : ruleReleaseTrunk k s = ⟨readmitTrunk k (drainCancelled k s), .done, .empty⟩ :=
      ruleReleaseTrunk_draining hk hs hst
    have htrunk := fun j => trunk_setTrunk s k j { s.trunk k with state := .active, holdTag := none }
    have hu : drainCancelled k s = { s with
        trunks := (s.setTrunk k { s.trunk k with state := .active, holdTag := none }).trunks
        notices := s.notices ++ [⟨s.time.clock, .holdCancelled k (s.trunk k).holdTag .release⟩] } := by
      rw [drainCancelled]
      exact pushNotice_room hroom
    rw [hu] at hr
    obtain ⟨v, e, hexec, hreply, hre, hat, -, hkept, he⟩ := releaseTrunk_passes ht hr hf.copies.form hf.cells.form rfl rfl
    have hf1 := hat.frame
    have hnotices : e.notices = s.notices ++ [⟨s.time.clock, .holdCancelled k (s.trunk k).holdTag .release⟩] := by rw [he, hf1]
    have htrunks : e.trunks = (s.setTrunk k { s.trunk k with state := .active, holdTag := none }).trunks := by rw [he, hf1]
    refine ⟨e, hexec, hreply, fun j => ?_, hnotices, ⟨v, ?_, hkept, he⟩, ?_, ?_⟩
    · rw [← htrunk j, State.trunk, htrunks]
      rfl
    · rw [hnotices, htrunks]
      exact hre
    · exact hat.offTrunk (fun _ _ => rfl) (fun _ _ h _ => h) rfl (by rw [he]) (by rw [he]) (by rw [he])
    · rw [he, hf1]
  · intro since hs hst hsince
    have hr : ruleReleaseTrunk k s = ⟨readmitTrunk k (holdEnded k s), .done, .empty⟩ :=
      ruleReleaseTrunk_held hk hs hst
    have hcells := fun n => look_holdEnded_cells k n s
    have hstations := look_holdEnded_stations hsince
    have htrunk : ∀ j, (holdEnded k s).trunk j = if j = k then
        { s.trunk k with state := .active, holdTag := none, heldSince := none } else s.trunk j := fun j =>
      trunk_setTrunk s k j { s.trunk k with state := .active, holdTag := none, heldSince := none }
    obtain ⟨v, e, hexec, hreply, hre, hat, hcalm, hkept, he⟩ :=
      releaseTrunk_passes (u := holdEnded k s) ht hr hf.copies.form (Table.wf_mapAll _ _ hf.cells.form) rfl rfl
    have hu : holdEnded k s = { s with
        trunks := (holdEnded k s).trunks, cells := (holdEnded k s).cells, stations := (holdEnded k s).stations } := rfl
    generalize holdEnded k s = u at *
    have hf1 := hat.frame
    have htrunks : e.trunks = u.trunks := by rw [he, hf1]
    have ec : e.cells = v.cells := by rw [he]
    have es : e.stations = v.stations := by rw [he]
    have hoff : ∀ n, n / 32 ≠ k → u.cells.look n = s.cells.look n := fun n hn => by
      rw [hcells]
      simp [hn]
    refine ⟨e, hexec, hreply, fun j => ?_, ?_, ?_, ⟨u, v, hcells, hstations, ?_, hre, hkept, he⟩, ?_, ?_⟩
    · rw [← htrunk j, State.trunk, htrunks]
      rfl
    · intro n c hc
      rw [ec]
      split
      · next hn =>
        have hcu := hcells n
        rw [hc, Option.map_some, if_pos hn] at hcu
        obtain ⟨account, hd, -⟩ := hcalm.cell hcu
        exact ⟨account, hd⟩
      · next hn => rw [hat.cells n hn, hoff n hn, hc]
    · intro i st cell hst hcell hk
      have hsu := hstations i
      rw [hst, Option.map_some, hcell, Option.map_some, if_pos (by rw [hk])] at hsu
      rw [es]
      exact (hat.stations i _ hsu).1
    · rw [htrunks]
      exact hu
    · refine hat.offTrunk hoff (fun i st hst hn => ?_) (by rw [hu]) ec es (by rw [he])
      rw [hstations, hst, Option.map_some, if_neg]
      rw [Option.map_eq_some_iff]
      rintro ⟨cell, hcell, hk⟩
      exact hn cell hcell hk
    · rw [he, hf1, hu]

end Sys2Proof.Machine
end

