-- ==== Sys2Proof/Proofs/HoldTrunk.lean ====
section
/-! PROOFS. HOLD TRUNK: the copies of the trunk held one after another, then M and the rates of its cells (R14, R15, R141, R148). -/

namespace Sys2Proof.Machine

/-! ## The copies held one after another -/

/-- A copy held by the accountant (R126, R141). -/
def heldCopy (a : Account) (ch : Channel) (c : Copy) : Copy :=
  { c with state := .held, tier := .full, level := 0, clean := 0, queue := [], load := loadAt a ch.full 0 }

/-- A member of one of these copies, at the cell, is WAITING (R126). -/
def waitingIn (held : List (Nat × Copy)) (n : Nat) (x : Membership) : Membership :=
  if ∃ y ∈ held, y.2.channel = x.channel ∧ y.2.cell = n then { x with status := .waiting } else x

/-- The entries whose cell is configured. -/
def State.configuredOf (s : State) (l : List (Nat × Copy)) : List (Nat × Copy) :=
  l.filter fun x => (s.cells.look x.2.cell).isSome

/-- From `s` to `v` these ACTIVE copies of a trunk have been held, as far as their cells are configured. -/
structure CopiesHeld (k : Nat) (s : State) (l : List (Nat × Copy)) (v : State) : Prop where
  work     : AtCells (· / 32 = k) s v
  absent   : ∀ n, s.copies.look n = none → v.copies.look n = none
  others   : ∀ n c, s.copies.look n = some c → (n, c) ∉ s.configuredOf l → v.copies.look n = some c
  held     : ∀ n c a ch, (n, c) ∈ l → s.account c.cell = some a → s.channels.look c.channel = some ch →
    v.copies.look n = some (heldCopy a ch c)
  stations : ∀ i, v.stations.look i = (s.stations.look i).map fun st => match st.place.cell? with
    | some n => { st with members := st.members.map (waitingIn (s.configuredOf l) n) }
    | none => st
  cells    : ∀ n c, s.cells.look n = some c → ∃ m, v.cells.look n = some { c with account := { c.account with m := m } }
  bare     : ∀ n, s.cells.look n = none → v.cells.look n = none
  counted  : ∀ n, Advanced s v (.cell n .replayDiscarded)
    (((s.configuredOf l).filter fun x => x.2.cell == n).map fun x => x.2.queue.length).sum
  released : ReleasedAll s v ((s.configuredOf l).flatMap fun x => x.2.queue)

theorem waitingIn_nil (n : Nat) : waitingIn [] n = id := by
  funext x
  simp [waitingIn]

theorem copiesHeld_nil (k : Nat) (s : State) : CopiesHeld k s [] s where
  work := .refl ..
  absent _ h := h
  others _ _ h _ := h
  held _ _ _ _ h := by cases h
  stations i := by
    cases s.stations.look i with
    | none => rfl
    | some st => cases h : st.place.cell? <;> simp [h, State.configuredOf, waitingIn_nil]
  cells _ c h := ⟨c.account.m, h⟩
  bare _ h := h
  counted n := by simpa [State.configuredOf] using Advanced.refl ..
  released := by simpa [State.configuredOf] using ReleasedAll.refl _

theorem State.account_eq_some {s : State} {n : Nat} {a : Account} (h : s.account n = some a) :
    ∃ c, s.cells.look n = some c ∧ c.account = a := Option.map_eq_some_iff.mp h

theorem State.account_isSome (s : State) (n : Nat) : (s.account n).isSome = (s.cells.look n).isSome := by
  simp [State.account]

theorem State.configuredOf_append (s : State) (l m : List (Nat × Copy)) :
    s.configuredOf (l ++ m) = s.configuredOf l ++ s.configuredOf m := List.filter_append ..

theorem waitingIn_append (held : List (Nat × Copy)) (e : Nat × Copy) (n : Nat) (x : Membership) :
    waitingIn (held ++ [e]) n x =
      if (waitingIn held n x).channel = e.2.channel ∧ e.2.cell = n then { waitingIn held n x with status := .waiting }
      else waitingIn held n x := by
  have hch : (waitingIn held n x).channel = x.channel := by
    unfold waitingIn
    split <;> rfl
  rw [hch]
  unfold waitingIn
  by_cases h1 : ∃ y ∈ held, y.2.channel = x.channel ∧ y.2.cell = n
  · have h2 : ∃ y ∈ held ++ [e], y.2.channel = x.channel ∧ y.2.cell = n := by
      obtain ⟨y, hy, h⟩ := h1
      exact ⟨y, List.mem_append_left _ hy, h⟩
    simp only [h1, h2, if_true, ite_self]
  · by_cases he : x.channel = e.2.channel ∧ e.2.cell = n
    · have h2 : ∃ y ∈ held ++ [e], y.2.channel = x.channel ∧ y.2.cell = n := ⟨e, by simp, he.1.symm, he.2⟩
      rw [if_pos h2, if_neg h1, if_pos he]
    · have h2 : ¬ ∃ y ∈ held ++ [e], y.2.channel = x.channel ∧ y.2.cell = n := by
        rintro ⟨y, hy, hyc, hyn⟩
        rcases List.mem_append.mp hy with hy | hy
        · exact h1 ⟨y, hy, hyc, hyn⟩
        · rw [List.mem_singleton] at hy
          exact he ⟨by rw [← hyc, hy], by rw [← hyn, hy]⟩
      simp only [h1, h2, he, if_false]

/-- One more ACTIVE copy is held. -/
theorem CopiesHeld.step {k : Nat} {s v : State} {l : List (Nat × Copy)} (hv : CopiesHeld k s l v) {n : Nat} {c : Copy}
    (hc : s.copies.look n = some c) (hk : c.cell / 32 = k) (hch : (s.channels.look c.channel).isSome = true)
    (hnew : ∀ e ∈ l, e.1 ≠ n) : CopiesHeld k s (l ++ [(n, c)]) (applyDecision n none v) := by
  have hvn : v.copies.look n = some c := hv.others n c hc fun h => hnew _ (List.mem_filter.mp h).1 rfl
  obtain ⟨ch, hch⟩ := Option.isSome_iff_exists.mp hch
  have hvch : v.channels.look c.channel = some ch := by rw [hv.work.frame, hch]
  cases ha : s.account c.cell with
  | none =>
    have hn : s.cells.look c.cell = none := by
      rw [State.account, Option.map_eq_none_iff] at ha
      exact ha
    have hva : v.account c.cell = none := by rw [State.account, hv.bare _ hn]; rfl
    rw [applyDecision_of_none none hvn (.inr hva)]
    have hl : s.configuredOf (l ++ [(n, c)]) = s.configuredOf l := by
      rw [State.configuredOf_append]
      simp [State.configuredOf, hn]
    refine ⟨hv.work, hv.absent, by rw [hl]; exact hv.others, ?_, by rw [hl]; exact hv.stations, hv.cells, hv.bare,
      by rw [hl]; exact hv.counted, by rw [hl]; exact hv.released⟩
    intro j d a dh hmem had hdh
    rcases List.mem_append.mp hmem with hmem | hmem
    · exact hv.held j d a dh hmem had hdh
    · obtain ⟨rfl, rfl⟩ := Prod.mk.inj (List.mem_singleton.mp hmem)
      rw [ha] at had
      cases had
  | some a =>
    obtain ⟨x, hx, rfl⟩ := State.account_eq_some ha
    obtain ⟨m, hvx⟩ := hv.cells _ x hx
    have hva : v.account c.cell = some { x.account with m := m } := by rw [State.account, hvx]; rfl
    have hl : s.configuredOf (l ++ [(n, c)]) = s.configuredOf l ++ [(n, c)] := by
      rw [State.configuredOf_append]
      simp [State.configuredOf, hx]
    obtain ⟨rcopies, rmembers, rload, ⟨rcount, rkept⟩, rrel, -⟩ := redecided_applyDecision none hvn hvch hva
    have hnow : decided { x.account with m := m } ch v.time.tick none { c with queue := [] } = heldCopy x.account ch c := rfl
    rw [hnow] at rcopies rmembers
    have hat := (atCell_applyDecision none hvn).mono (q := (· / 32 = k)) fun j hj => by rw [hj]; exact hk
    generalize applyDecision n none v = w at *
    constructor
    · exact hv.work.trans hat
    · intro j hj
      rw [rcopies, if_neg (by rintro rfl; rw [hc] at hj; cases hj)]
      exact hv.absent j hj
    · intro j d hd hmem
      rw [hl, List.mem_append, not_or] at hmem
      rw [rcopies, if_neg]
      · exact hv.others j d hd hmem.1
      · rintro rfl
        rw [hc] at hd
        exact hmem.2 (by rw [Option.some.inj hd]; exact List.mem_singleton.mpr rfl)
    · intro j d b dh hmem hb hdh
      rcases List.mem_append.mp hmem with hmem | hmem
      · rw [rcopies, if_neg (hnew _ hmem)]
        exact hv.held j d b dh hmem hb hdh
      · obtain ⟨rfl, rfl⟩ := Prod.mk.inj (List.mem_singleton.mp hmem)
        rw [hb] at ha
        rw [hdh] at hch
        rw [rcopies, if_pos rfl, Option.some.inj ha, Option.some.inj hch]
    · intro i
      rw [rmembers, hv.stations, hl]
      cases s.stations.look i with
      | none => rfl
      | some st =>
        simp only [Option.map_some, Option.some.injEq]
        cases hp : st.place.cell? with
        | none => simp [hp]
        | some p =>
          simp only [hp, Option.some.injEq]
          by_cases hpc : p = c.cell
          · subst hpc
            simp only [if_true, List.map_map, Station.mk.injEq, true_and, and_true]
            refine List.map_congr_left fun y _ => ?_
            rw [waitingIn_append]
            simp [heldCopy, Copy.status]
          · rw [if_neg hpc]
            simp only [Station.mk.injEq, true_and, and_true]
            refine List.map_congr_left fun y _ => ?_
            rw [waitingIn_append, if_neg fun h => hpc h.2.symm]
    · intro j d hd
      obtain ⟨m', hvd⟩ := hv.cells j d hd
      rw [rload, hvd]
      by_cases hj : j = c.cell
      · exact ⟨w.activeLoad j, by rw [Option.map_some, if_pos hj]⟩
      · exact ⟨m', by rw [Option.map_some, if_neg hj]⟩
    · intro j hj
      rw [rload, hv.bare j hj]
      rfl
    · intro j
      rw [hl, List.filter_append, List.map_append, List.sum_append]
      by_cases hj : c.cell = j
      · subst hj
        simpa using (hv.counted c.cell).trans rcount
      · have hkept := rkept.advanced (c := .cell j .replayDiscarded) fun h => hj (by cases h; rfl)
        simpa [hj] using (hv.counted j).trans hkept
    · rw [hl, List.flatMap_append]
      simpa using hv.released.trans rrel

/-- All the ACTIVE copies of a trunk are held. -/
theorem copiesHeld_foldl {s : State} (hw : s.copies.wf = true)
    (hnamed : ∀ n c, s.copies.look n = some c → (s.channels.look c.channel).isSome = true) (k : Nat) : CopiesHeld k s
    (s.copies.entries.filter fun x => x.2.state == .active && x.2.cell / 32 == k)
    ((s.copies.keysWhere fun _ c => c.state == .active && trunkOf c.cell == k).foldl (fun s n => applyDecision n none s) s) := by
  rw [Table.keysWhere, List.foldl_map]
  refine foldl_invariant (P := CopiesHeld k s) _ (copiesHeld_nil k s) ?_
  rintro done ⟨n, c⟩ v hpre hv
  have hmem := hpre.subset (List.mem_append_right done (List.mem_singleton.mpr rfl))
  simp only [List.mem_filter, Bool.and_eq_true, beq_iff_eq] at hmem
  obtain ⟨he, -, hk⟩ := hmem
  have hc := (Table.mem_entries hw).mp he
  refine hv.step hc hk (hnamed n c hc) fun e hed => ?_
  have hp := ((Table.entries_pairwise hw).filter _).sublist hpre.sublist
  exact ne_of_lt ((List.pairwise_append.mp hp).2.2 e hed _ (List.mem_singleton.mpr rfl))

/-! ## M and the rates after it -/

/-- The rate of a station depends on its weight and its own rate alone. -/
theorem State.rateAt_of_weight {s : State} {n : Nat} {x y : Station} (hw : x.weight = y.weight) (hr : x.rate = y.rate) :
    s.rateAt n x = s.rateAt n y := by
  unfold State.rateAt
  cases s.account n with
  | none => exact hr
  | some a => rw [hw]

theorem State.rateAt_congr {s t : State} {n : Nat} (h : t.cells.look n = s.cells.look n) (st : Station) :
    t.rateAt n st = s.rateAt n st := by
  rw [State.rateAt, State.rateAt, State.account, State.account, h]

/-- From `s` to `v` M of these cells has become 0, and their stations' rates have followed (R142, R148). -/
structure Unloaded (s : State) (l : List Nat) (v : State) : Prop where
  cells    : ∀ n, v.cells.look n = (s.cells.look n).map fun c =>
    if n ∈ l then { c with account := { c.account with m := 0 } } else c
  stations : ∀ i, v.stations.look i = (s.stations.look i).map fun st => match st.place.cell? with
    | some n => if n ∈ l then { st with rate := v.rateAt n st } else st
    | none => st
  frame    : v = { s with cells := v.cells, stations := v.stations }

theorem Unloaded.step {s v : State} {l : List Nat} (hv : Unloaded s l v) {cell : Nat} (h0 : s.activeLoad cell = 0)
    (hnew : cell ∉ l) : Unloaded s (l ++ [cell]) (refreshRates cell (refreshM cell v)) := by
  have hload : v.activeLoad cell = 0 := (State.activeLoad_congr (s := s) (by rw [hv.frame]) cell).trans h0
  have hcells := fun n => look_refreshM cell n v
  rw [hload] at hcells
  have hw : refreshM cell v = { s with cells := (refreshM cell v).cells, stations := v.stations } := by
    rw [refreshM_frame, hv.frame]
    rfl
  generalize refreshM cell v = w at hcells hw
  have hstations : w.stations = v.stations := by rw [hw]
  have hothers : ∀ n st, n ≠ cell → w.rateAt n st = v.rateAt n st := fun n st hn =>
    State.rateAt_congr (by rw [hcells]; simp [hn]) st
  have hrates := fun i => look_refreshRates cell i w
  have hframe := refreshRates_frame cell w
  have hrate : ∀ n st, (refreshRates cell w).rateAt n st = w.rateAt n st := fun n st =>
    State.rateAt_congr (by rw [hframe]; rfl) st
  generalize refreshRates cell w = u at hrates hframe hrate
  constructor
  · intro n
    rw [hframe, setStations_cells, hcells, hv.cells]
    cases s.cells.look n with
    | none => rfl
    | some c =>
      by_cases hn : n = cell
      · subst hn
        simp [hnew]
      · simp [hn]
  · intro i
    rw [hrates, hstations, hv.stations]
    cases s.stations.look i with
    | none => rfl
    | some st =>
      cases hp : st.place.cell? with
      | none => simp [hp]
      | some p =>
        simp only [Option.map_some, Option.some.injEq, hp]
        by_cases hpc : p = cell
        · subst hpc
          simp [hnew, hp, hrate]
        · by_cases hl : p ∈ l
          · simp [hl, hp, hpc, hrate, hothers]
          · simp [hl, hp, hpc]
  · rw [hframe, hw]
    rfl

theorem unloaded_foldl {s : State} {l : List Nat} (hl : l.Pairwise (· < ·)) (h0 : ∀ n ∈ l, s.activeLoad n = 0) :
    Unloaded s l (l.foldl (fun s cell => refreshRates cell (refreshM cell s)) s) := by
  refine foldl_invariant (P := Unloaded s) _ ⟨fun n => ?_, fun i => ?_, rfl⟩ ?_
  · cases s.cells.look n <;> simp
  · cases s.stations.look i with
    | none => rfl
    | some st => cases hp : st.place.cell? <;> simp [hp]
  · intro done cell v hpre hv
    have hmem := hpre.subset (List.mem_append_right done (List.mem_singleton.mpr rfl))
    refine hv.step (h0 cell hmem) fun hd => ?_
    exact lt_irrefl _ ((List.pairwise_append.mp (hl.sublist hpre.sublist)).2.2 cell hd cell (List.mem_singleton.mpr rfl))

/-- A sum of zeros. -/
theorem State.activeLoad_eq_zero {s : State} (hw : s.copies.wf = true) {cell : Nat}
    (h : ∀ n c, s.copies.look n = some c → c.cell = cell → c.state ≠ .active) : s.activeLoad cell = 0 := by
  refine List.sum_eq_zero fun x hx => ?_
  obtain ⟨⟨n, c⟩, he, rfl⟩ := List.mem_map.mp hx
  exact if_neg fun ⟨hc, ha⟩ => h n c ((Table.mem_entries hw).mp he) hc ha

/-- No ACTIVE copy is left at the trunk's configured cells. -/
theorem CopiesHeld.activeLoad {s v : State} {k : Nat} (hs : s.copies.wf = true)
    (hnamed : ∀ n c, s.copies.look n = some c → (s.channels.look c.channel).isSome = true) (hv : CopiesHeld k s
    (s.copies.entries.filter fun x => x.2.state == .active && x.2.cell / 32 == k) v) (hw : v.copies.wf = true) {n : Nat}
    (hn : n / 32 = k) (hsome : (s.cells.look n).isSome = true) : v.activeLoad n = 0 := by
  refine State.activeLoad_eq_zero hw fun j d hd hdn hact => ?_
  cases hj : s.copies.look j with
  | none =>
    rw [hv.absent j hj] at hd
    cases hd
  | some c =>
    obtain ⟨d', hd', -, hcell, -⟩ := hv.work.copies j c hj
    obtain rfl : d = d' := Option.some.inj (hd.symm.trans hd')
    have hcn : c.cell = n := hcell.symm.trans hdn
    obtain ⟨ch, hch⟩ := Option.isSome_iff_exists.mp (hnamed j c hj)
    cases hx : s.cells.look n with
    | none =>
      rw [hx] at hsome
      cases hsome
    | some x =>
      by_cases hc : c.state = .active
      · have hmem : (j, c) ∈ s.copies.entries.filter fun x => x.2.state == .active && x.2.cell / 32 == k := by
          simp [List.mem_filter, (Table.mem_entries hs).mpr hj, hc, hcn, hn]
        have := hv.held j c x.account ch hmem (by rw [hcn, State.account, hx]; rfl) hch
        rw [hd] at this
        rw [Option.some.inj this] at hact
        cases hact
      · have := hv.others j c hj fun h => hc ((by simpa using (List.mem_filter.mp (List.mem_filter.mp h).1).2 : c.state = .active ∧ _).1)
        rw [hd] at this
        exact hc (by rw [← Option.some.inj this, hact])

/-! ## HOLD TRUNK (R14) -/

theorem State.configuredOf_active (s : State) (k : Nat) :
    s.configuredOf (s.copies.entries.filter fun x => x.2.state == .active && x.2.cell / 32 == k) = s.activeOn k := by
  rw [State.configuredOf, List.filter_filter, State.activeOn]
  congr 1
  funext x
  cases (s.cells.look x.2.cell).isSome <;> simp

theorem ruleHoldTrunk_wrong {k : Nat} (hk : k < 8) {tag : Byte} {s : State}
    (h : s.time.service = .config ∨ (s.trunk k).state = .linkDown) : ruleHoldTrunk k tag s = refuse .wrongState s := by
  by_cases hs : s.time.service = .config
  · simp [ruleHoldTrunk, not_range hk, hs]
  · simp [ruleHoldTrunk, not_range hk, hs, h.resolve_left hs]

theorem ruleHoldTrunk_already {k : Nat} (hk : k < 8) {tag : Byte} {s : State} (hs : s.time.service = .service)
    (hst : (s.trunk k).state = .draining ∨ (s.trunk k).state = .held) : ruleHoldTrunk k tag s = refuse .already s := by
  rcases hst with hst | hst <;> simp [ruleHoldTrunk, not_range hk, hs, hst]

theorem ruleHoldTrunk_active {k : Nat} (hk : k < 8) {tag : Byte} {s : State} (hs : s.time.service = .service)
    (hst : (s.trunk k).state = .active) : ruleHoldTrunk k tag s = ⟨startDrain k tag s, .accepted, .empty⟩ := by
  simp [ruleHoldTrunk, not_range hk, hs, hst]

/-- The trunk of a drain that starts. -/
def drainingTrunk (k : Nat) (tag : Byte) (s : State) : State :=
  s.setTrunk k { s.trunk k with state := .draining, holdTag := some tag, run := 0 }

theorem State.mem_activeOn {s : State} (hw : s.copies.wf = true) {k n : Nat} {c : Copy} : (n, c) ∈ s.activeOn k ↔
    s.copies.look n = some c ∧ c.state = .active ∧ c.cell / 32 = k ∧ (s.cells.look c.cell).isSome = true := by
  simp [State.activeOn, List.mem_filter, Table.mem_entries hw, and_assoc]

/-- The drain started: the copies of the trunk are held, then M and the rates of its cells follow. -/
theorem startDrain_spec {s : State} (hf : s.Fits) (k : Nat) (tag : Byte) : ∃ v, CopiesHeld k (drainingTrunk k tag s)
    (s.copies.entries.filter fun x => x.2.state == .active && x.2.cell / 32 == k) v
      ∧ Unloaded v (s.cellsOf k) (startDrain k tag s) := by
  have hheld := copiesHeld_foldl (s := drainingTrunk k tag s) hf.copies.form hf.named k
  refine ⟨_, hheld, unloaded_foldl (Table.keysWhere_pairwise hf.cells.form _) fun n hn => ?_⟩
  obtain ⟨hk, hsome⟩ := (State.mem_cellsOf hf.cells.form).mp hn
  exact hheld.activeLoad (s := drainingTrunk k tag s) hf.copies.form hf.named
    ((Inner.foldl _ (fun s n => inner_applyDecision n none s) _ _).wf.2.1 hf.copies.form) hk hsome

/-- Settles O32: the copies are held one after another (`CopiesHeld`), then M and the rates of each cell follow (`Unloaded`). -/
theorem holdTrunkStartsTheDrain : Obligations.HoldTrunkStartsTheDrain := by
  unfold Obligations.HoldTrunkStartsTheDrain
  intro h k s ht hf
  refine ⟨fun hk => ⟨_, rfl, refused_takeActing ht rfl (if_pos hk)⟩, fun hk => ⟨?_, ?_, ?_⟩⟩
  · exact fun hw => ⟨_, rfl, refused_takeActing ht rfl (ruleHoldTrunk_wrong hk hw)⟩
  · exact fun hs hst => ⟨_, rfl, refused_takeActing ht rfl (ruleHoldTrunk_already hk hs hst)⟩
  · intro hs hst
    have hr := ruleHoldTrunk_active hk (tag := h.tag) hs hst
    obtain ⟨v, hheld, hun⟩ := startDrain_spec hf k h.tag
    have htrunk := fun j => trunk_setTrunk s k j { s.trunk k with state := .draining, holdTag := some h.tag, run := 0 }
    have hd : drainingTrunk k h.tag s = { s with trunks := (drainingTrunk k h.tag s).trunks } := rfl
    have htd : ∀ j, (drainingTrunk k h.tag s).trunk j = _ := htrunk
    have hact : (drainingTrunk k h.tag s).configuredOf _ = _ := s.configuredOf_active k
    have hexec : exec (.holdTrunk h k) s = .next (closeEvent
        (placeReply (.order .holdTrunk) h.tag .accepted .empty (startDrain k h.tag s))) :=
      congrArg Host.Outcome.next (takeActing_acts ht hr rfl)
    generalize startDrain k h.tag s = u at hun hexec
    generalize drainingTrunk k h.tag s = d at hheld hd htd hact
    have hcounters : u.counters = v.counters := by rw [hun.frame]
    have hvd : v.link = s.link := by rw [hheld.work.frame, hd]
    have hreply : Replied s (placeReply (.order .holdTrunk) h.tag .accepted .empty u) (.order .holdTrunk) h.tag .accepted
        .empty := by
      refine (replied_placeReply ..).before (by rw [hun.frame, hvd]) ?_
      rw [State.counter, hcounters]
      refine (hheld.work.counters _ (by rintro ⟨n, -, e⟩; cases e)).trans ?_
      rw [hd]
      rfl
    refine ⟨_, hexec, hreply, ?_⟩
    have hkept := countersKept_placeReply (.order .holdTrunk) h.tag .accepted .empty u
    have he := placeReply_empty_frame (.order .holdTrunk) h.tag .accepted u
    generalize placeReply (.order .holdTrunk) h.tag .accepted .empty u = e at hkept he
    clear hexec hreply hr
    have huc : u.copies = v.copies := by rw [hun.frame]
    have hec : e.copies = v.copies := by rw [he, huc]
    have hdc : d.copies = s.copies := by rw [hd]
    have hdx : d.cells = s.cells := by rw [hd]
    have hds : d.stations = s.stations := by rw [hd]
    have hdk : d.counters = s.counters := by rw [hd]
    have hcounts : ∀ c, c ≠ .part .repliesLost → e.counter c = v.counter c := fun c hc => by
      rw [hkept c hc, State.counter, hcounters]
      rfl
    refine ⟨?_, ?_, ?_, ?_, ?_, ?_, ?_, ?_, ?_, ?_⟩
    · intro j
      rw [← htd j, State.trunk, he, hun.frame, hheld.work.frame]
      rfl
    · intro n c a ch hc hact' hcell ha hch
      rw [hec]
      refine hheld.held n c a ch ?_ (by rw [hd]; exact ha) (by rw [hd]; exact hch)
      simp [List.mem_filter, (Table.mem_entries hf.copies.form).mpr hc, hact', hcell]
    · intro n c hc hor
      rw [hec]
      refine hheld.others n c (by rw [hdc, hc]) fun hm => ?_
      rw [hact] at hm
      obtain ⟨-, hca, hck, -⟩ := (State.mem_activeOn hf.copies.form).mp hm
      rcases hor with hor | hor
      · rw [hor] at hca
        cases hca
      · exact hor hck
    · intro n hn
      rw [hec]
      exact hheld.absent n (by rw [hdc, hn])
    · intro n
      rw [he]
      show u.cells.look n = _
      rw [hun.cells]
      have hmem := State.mem_cellsOf hf.cells.form (k := k) (n := n)
      cases hc : s.cells.look n with
      | none => rw [hheld.bare n (by rw [hdx, hc])]; rfl
      | some c =>
        rw [hc] at hmem
        by_cases hn : n / 32 = k
        · obtain ⟨m, hm⟩ := hheld.cells n c (by rw [hdx, hc])
          rw [hm, Option.map_some, if_pos (hmem.mpr ⟨hn, rfl⟩), Option.map_some, if_pos hn]
        · rw [hheld.work.cells n hn, hdx, hc, Option.map_some, if_neg (fun h => hn (hmem.mp h).1), Option.map_some, if_neg hn]
    · intro i
      have hrate : ∀ n st, e.rateAt n st = u.rateAt n st := fun n st => State.rateAt_congr (by rw [he]) st
      rw [show e.stations = u.stations by rw [he], hun.stations, hheld.stations, hact, hds]
      cases s.stations.look i with
      | none => rfl
      | some st =>
        simp only [Option.map_some, Option.some.injEq, hrate]
        cases hp : st.place.cell? with
        | none => simp only [hp]
        | some n =>
          have hmem := State.mem_cellsOf hf.cells.form (k := k) (n := n)
          simp only [hp]
          by_cases hn : n / 32 = k
          · rw [if_pos hn]
            have hr := State.rateAt_of_weight (s := u) (n := n)
              (x := { st with members := st.members.map (waitingIn (s.activeOn k) n) }) (y := st) rfl rfl
            by_cases hsome : (s.cells.look n).isSome = true
            · rw [if_pos (hmem.mpr ⟨hn, hsome⟩), hr]
              rfl
            · have hx : u.account n = none := by
                rw [State.account, hun.cells, hheld.bare n (by rw [hdx]; simpa using hsome)]
                rfl
              rw [if_neg (fun h => hsome (hmem.mp h).2), State.rateAt, hx]
              rfl
          · rw [if_neg hn, if_neg (fun h => hn (hmem.mp h).1)]
            have hid : waitingIn (s.activeOn k) n = id := by
              funext x
              refine if_neg fun ⟨⟨j, y⟩, hy, _, hyn⟩ => hn ?_
              rw [← hyn]
              exact ((State.mem_activeOn hf.copies.form).mp hy).2.2.1
            rw [hid, List.map_id]
    · intro n
      have hc := hheld.counted n
      rw [hact] at hc
      rw [Advanced, hcounts _ (by simp), hc, State.counter, hdk]
      rfl
    · intro x hx
      rw [not_or] at hx
      rw [hcounts x hx.1, hheld.work.counters x fun ⟨n, _, e⟩ => hx.2 ⟨n, e⟩, State.counter, hdk]
      rfl
    · intro q
      have hr := hheld.released q
      rw [hact] at hr
      have hq : e.buffer q = v.buffer q := by rw [State.buffer, he, hun.frame]; rfl
      have hq' : d.buffer q = s.buffer q := by rw [State.buffer, hd]; rfl
      rw [hq, hr, hq']
    · rw [he, hun.frame, hheld.work.frame, hd]

end Sys2Proof.Machine
end

