-- ==== Sys2Proof/Proofs/PollReply.lean ====
section
/-! PROOFS. POLL REPLY: the stations heard, the copies pressed, the pass where M fell (R8, R9, R61, R135, R146). -/

namespace Sys2Proof.Machine

/-- Two canonical tables with the same records are the same table. -/
theorem Table.ext_look {α : Type} {t u : Table α} (ht : t.wf = true) (hu : u.wf = true) (h : ∀ k, t.look k = u.look k) : t = u := by
  have : Std.Irrefl (fun x y : Nat × α => x.1 < y.1) := ⟨fun x => lt_irrefl x.1⟩
  have : Std.Antisymm (fun x y : Nat × α => x.1 < y.1) := ⟨fun x y h g => absurd h (lt_asymm g)⟩
  have he : t.entries = u.entries :=
    (Table.entries_pairwise ht).eq_of_mem_iff (Table.entries_pairwise hu) fun ⟨k, v⟩ => by
      rw [Table.mem_entries ht, Table.mem_entries hu, h]
  cases t
  cases u
  exact congrArg Table.mk he

/-! ## The message is taken, the cell answers -/

theorem fate_pollReply {s : State} {m : MessageHead} {mark count : Byte} {heard : List Addr} {c : Cell}
    (ht : (s.trunk m.trunk.val).state = .active ∨ (s.trunk m.trunk.val).state = .draining) (hs : s.time.service = .service)
    (hslot : m.slot.toNat < 32) (hframe : m.frameLength = 10 + m.bodyLength.toNat)
    (hbody : m.bodyLength.toNat = 2 + 6 * count.toNat) (hcount : count.toNat ≤ 64) (hheard : heard.length = count.toNat)
    (hc : s.cells.look (cellOf m) = some c) (hmark : mark.toNat ≤ 1) :
    s.fate m (pollReplyFits m mark count heard) true = .taken := by
  have hfits : pollReplyFits m mark count heard = true := by
    simp only [pollReplyFits, headerFits, Bool.and_eq_true, decide_eq_true_eq]
    exact ⟨⟨⟨⟨⟨hframe, hslot⟩, hbody⟩, hmark⟩, hcount⟩, hheard⟩
  have hlen : ¬ Config.longBytes < m.bodyLength.toNat := by
    show ¬ 2048 < m.bodyLength.toNat
    omega
  have hmay : s.mayTake (cellOf m) true = true := by simp [State.mayTake, hc]
  rcases ht with ht | ht <;> simp [State.fate, State.frameFate, ht, hs, hfits, hlen, hmay]

/-- The cell's record when its reply has come (R8). -/
def answered (c : Cell) : Cell := { c with awaited := false, missed := 0, state := .active }

theorem answerPoll_eq {s : State} {cell : Nat} {c : Cell} (hc : s.cells.look cell = some c)
    (hroom : s.notices.length < Config.notices) : answerPoll cell s =
      { s with
        cells := s.cells.put cell (answered c)
        notices := s.notices ++ (if c.state = .down then [⟨s.time.clock, .cellUp cell⟩] else []) } := by
  simp only [answerPoll, hc]
  by_cases hd : c.state = .down
  · rw [if_pos hd, if_pos hd]
    exact pushNotice_room (s := s.setCells _) hroom
  · rw [if_neg hd, if_neg hd, List.append_nil]
    rfl

/-! ## The heard list (R61) -/

/-- A station's record when the phones of a list have been heard at the cell. -/
def heardAs (s : State) (cell : Nat) (heard : List Addr) (i : Nat) (st : Station) : Station :=
  if st.place.associatedAt cell = true ∧ st.addr ∈ heard ∧ st.addr ≠ 0 ∧ isGroup st.addr = false
    ∧ s.stationWith st.addr = some (i, st) then { st with lastHeard := s.time.clock } else st

theorem heardAs_addr (s : State) (cell : Nat) (heard : List Addr) (i : Nat) (st : Station) :
    (heardAs s cell heard i st).addr = st.addr ∧ (heardAs s cell heard i st).place = st.place := by
  unfold heardAs
  split <;> exact ⟨rfl, rfl⟩

/-- A station found by its address has it and is listed. -/
theorem State.stationWith_spec {s : State} {a : Addr} {i : Nat} {st : Station} (hw : s.stations.wf = true)
    (h : s.stationWith a = some (i, st)) : st.addr = a ∧ s.stations.look i = some st :=
  ⟨by simpa using List.find?_some h, (Table.mem_entries hw).mp (List.mem_of_find?_eq_some h)⟩

/-- Records changed but for their addresses are found as before. -/
theorem State.stationWith_mapAll {s t : State} {f : Nat → Station → Station} (ht : t.stations = s.stations.mapAll f)
    (hf : ∀ i st, (f i st).addr = st.addr) (a : Addr) :
    t.stationWith a = (s.stationWith a).map fun e => (e.1, f e.1 e.2) := by
  rw [State.stationWith, ht, Table.mapAll, List.find?_map]
  simp only [Function.comp_def, hf]
  rfl

theorem namesNoStation_eq_false {a : Addr} : namesNoStation a = false ↔ a ≠ 0 ∧ isGroup a = false := by
  simp [namesNoStation]

/-- An address that does not name this station at the cell leaves it as it is. -/
theorem heardAs_append_other {s : State} {cell : Nat} {done : List Addr} {a : Addr} {i : Nat} {st : Station}
    (h : st.addr = a → ¬ (st.place.associatedAt cell = true ∧ namesNoStation a = false ∧ s.stationWith a = some (i, st))) :
    heardAs s cell (done ++ [a]) i st = heardAs s cell done i st := by
  unfold heardAs
  refine if_congr ⟨?_, fun ⟨h1, h2, h3⟩ => ⟨h1, List.mem_append_left _ h2, h3⟩⟩ rfl rfl
  rintro ⟨h1, h2, h3, h4, h5⟩
  refine ⟨h1, (List.mem_append.mp h2).resolve_right fun hm => ?_, h3, h4, h5⟩
  have ha := List.mem_singleton.mp hm
  exact h ha ⟨h1, ha ▸ namesNoStation_eq_false.mpr ⟨h3, h4⟩, ha ▸ h5⟩

/-- The address of a station ASSOCIATED at the cell refreshes it, heard before or not. -/
theorem heardAs_append_self {s : State} {cell : Nat} (done : List Addr) {i : Nat} {st : Station}
    (hp : st.place.associatedAt cell = true) (hn : namesNoStation st.addr = false) (hs : s.stationWith st.addr = some (i, st)) :
    heardAs s cell (done ++ [st.addr]) i st = { heardAs s cell done i st with lastHeard := s.time.clock } := by
  obtain ⟨h0, hg⟩ := namesNoStation_eq_false.mp hn
  rw [heardAs, if_pos ⟨hp, by simp, h0, hg, hs⟩, heardAs]
  split <;> rfl

/-- One address more has been heard. -/
theorem hearAddress_step {s v : State} {cell : Nat} {done : List Addr} (hw : s.stations.wf = true)
    (hst : v.stations = s.stations.mapAll (heardAs s cell done)) (hv : v.time = s.time) (a : Addr) :
    hearAddress cell v a = { v with stations := s.stations.mapAll (heardAs s cell (done ++ [a])) } := by
  have hsame : (∀ i st, s.stations.look i = some st → st.addr = a →
      ¬ (st.place.associatedAt cell = true ∧ namesNoStation a = false ∧ s.stationWith a = some (i, st))) →
      v = { v with stations := s.stations.mapAll (heardAs s cell (done ++ [a])) } := by
    intro hno
    have : s.stations.mapAll (heardAs s cell (done ++ [a])) = v.stations := by
      rw [hst]
      refine Table.ext_look (Table.wf_mapAll _ _ hw) (Table.wf_mapAll _ _ hw) fun i => ?_
      rw [Table.look_mapAll, Table.look_mapAll]
      cases hi : s.stations.look i with
      | none => rfl
      | some st => rw [Option.map_some, Option.map_some, heardAs_append_other (hno i st hi)]
    rw [this]
  unfold hearAddress
  split
  · next hname => exact hsame fun i st _ _ h => by rw [hname] at h; cases h.2.1
  · next hname =>
    rw [Bool.not_eq_true] at hname
    rw [State.stationWith_mapAll hst (fun i st => (heardAs_addr s cell done i st).1) a]
    cases hs : s.stationWith a with
    | none => exact hsame fun i st _ _ h => by rw [hs] at h; cases h.2.2
    | some e =>
      obtain ⟨i, st⟩ := e
      obtain ⟨rfl, hlook⟩ := State.stationWith_spec hw hs
      simp only [Option.map_some, (heardAs_addr s cell done i st).2]
      split
      · next hp =>
        refine congrArg v.setStations (Table.ext_look (Table.wf_modify _ _ _ (by rw [hst]; exact Table.wf_mapAll _ _ hw))
          (Table.wf_mapAll _ _ hw) fun j => ?_)
        simp only [Table.look_modify, hst, Table.look_mapAll]
        by_cases hj : j = i
        · subst hj
          rw [if_pos rfl, hlook, Option.map_some, Option.map_some, Option.map_some, heardAs_append_self done hp hname hs,
            State.now, hv]
        · rw [if_neg hj]
          cases hjl : s.stations.look j with
          | none => rfl
          | some sj =>
            rw [Option.map_some, Option.map_some, heardAs_append_other]
            rintro - ⟨-, -, h⟩
            rw [hs] at h
            cases h
            exact hj rfl
      · next hp =>
        refine hsame fun j sj _ _ h => hp ?_
        obtain ⟨h1, -, h3⟩ := h
        rw [hs] at h3
        cases h3
        exact h1

/-- The heard list refreshes the stations ASSOCIATED at the cell that it names. -/
theorem hear_foldl {s v : State} (cell : Nat) (heard : List Addr) (hw : s.stations.wf = true) (hst : v.stations = s.stations)
    (hv : v.time = s.time) :
    heard.foldl (hearAddress cell) v = { v with stations := s.stations.mapAll (heardAs s cell heard) } := by
  refine foldl_invariant (P := fun done w => w = { v with stations := s.stations.mapAll (heardAs s cell done) }) heard ?_ ?_
  · have : s.stations.mapAll (heardAs s cell []) = s.stations := by
      refine Table.ext_look (Table.wf_mapAll _ _ hw) hw fun i => ?_
      rw [Table.look_mapAll]
      cases s.stations.look i <;> simp [heardAs]
    rw [this, ← hst]
  · rintro done a w - rfl
    exact hearAddress_step (v := { v with stations := _ }) hw rfl hv a

/-! ## The pressure mark (R135, R146) -/

/-- The copy's channel has the recovery code FLUSH. -/
def State.flushes (s : State) (x : Nat × Copy) : Bool := (s.channels.look x.2.channel).any fun ch => ch.recovery == .flush

theorem recoveryThreshold_none {r : RecoveryCode} : recoveryThreshold r = none ↔ r = .flush := by
  cases r <;> simp [recoveryThreshold]

/-- From `s` to `v` these ACTIVE copies of a cell, of account `a`, have been pressed. -/
structure CopiesPressed (s : State) (cell : Nat) (a : Account) (l : List (Nat × Copy)) (v : State) : Prop where
  made     : ∀ n c ch, (n, c) ∈ l → s.channels.look c.channel = some ch → v.copies.look n = some (pressed a ch c)
  others   : ∀ n c, s.copies.look n = some c → (n, c) ∉ l → v.copies.look n = some c
  counted  : Advanced s v (.cell cell .replayDiscarded) ((l.filter s.flushes).flatMap fun x => x.2.queue).length
  kept     : CountersKept s v (· = .cell cell .replayDiscarded)
  released : ReleasedAll s v ((l.filter s.flushes).flatMap fun x => x.2.queue)
  frame    : v = { s with counters := v.counters, pools := v.pools, copies := v.copies }

theorem copiesPressed_nil (s : State) (cell : Nat) (a : Account) : CopiesPressed s cell a [] s where
  made _ _ _ h := by cases h
  others _ _ h _ := h
  counted := .refl ..
  kept _ _ := rfl
  released := .refl _
  frame := rfl

/-- RECOVER: the copy alone changes. -/
theorem pressCopy_recover {s : State} {n : Nat} {c : Copy} {ch : Channel} {a : Account} (hc : s.copies.look n = some c)
    (hch : s.channels.look c.channel = some ch) (ha : s.account c.cell = some a) (hr : ch.recovery ≠ .flush) :
    pressCopy s n = s.setCopies (s.copies.put n (pressed a ch c)) := by
  obtain ⟨k, hk⟩ := Option.ne_none_iff_exists'.mp (mt recoveryThreshold_none.mp hr)
  simp only [pressCopy, hc, hch, ha, hk, pressed, hr, if_false, loadAt_eq]

/-- FLUSH: the queue is discarded too. -/
theorem pressCopy_flush {s : State} {n : Nat} {c : Copy} {ch : Channel} {a : Account} (hc : s.copies.look n = some c)
    (hch : s.channels.look c.channel = some ch) (ha : s.account c.cell = some a) (hr : ch.recovery = .flush) :
    pressCopy s n = (flushCopy n s).setCopies ((flushCopy n s).copies.put n (pressed a ch c)) := by
  simp only [pressCopy, hc, hch, ha, hr, recoveryThreshold, pressed, if_true]

/-- One more copy is pressed. -/
theorem CopiesPressed.step {s v : State} {a : Account} {l : List (Nat × Copy)} {n : Nat} {c : Copy}
    (hv : CopiesPressed s c.cell a l v) (hc : s.copies.look n = some c) {ch : Channel} (hch : s.channels.look c.channel = some ch)
    (ha : s.account c.cell = some a) (hnew : ∀ e ∈ l, e.1 ≠ n) : CopiesPressed s c.cell a (l ++ [(n, c)]) (pressCopy v n) := by
  have hvn : v.copies.look n = some c := hv.others n c hc fun h => hnew _ h rfl
  have hvch : v.channels.look c.channel = some ch := by rw [hv.frame, hch]
  have hva : v.account c.cell = some a := by rw [State.account, hv.frame]; exact ha
  have hpressed : ∀ w : State, (∀ j, w.copies.look j = if j = n then some (pressed a ch c) else v.copies.look j) →
      (∀ j d dh, (j, d) ∈ l ++ [(n, c)] → s.channels.look d.channel = some dh → w.copies.look j = some (pressed a dh d))
      ∧ ∀ j d, s.copies.look j = some d → (j, d) ∉ l ++ [(n, c)] → w.copies.look j = some d := by
    refine fun w hw => ⟨fun j d dh hm hdh => ?_, fun j d hd hm => ?_⟩
    · rcases List.mem_append.mp hm with hm | hm
      · rw [hw, if_neg (hnew _ hm)]
        exact hv.made j d dh hm hdh
      · obtain ⟨rfl, rfl⟩ := Prod.mk.inj (List.mem_singleton.mp hm)
        rw [hdh] at hch
        rw [hw, if_pos rfl, Option.some.inj hch]
    · rw [List.mem_append, not_or] at hm
      rw [hw, if_neg]
      · exact hv.others j d hd hm.1
      · rintro rfl
        rw [hc] at hd
        exact hm.2 (by rw [Option.some.inj hd]; exact List.mem_singleton.mpr rfl)
  by_cases hr : ch.recovery = .flush
  · have hl : (l ++ [(n, c)]).filter s.flushes = l.filter s.flushes ++ [(n, c)] := by
      rw [List.filter_append]
      simp [State.flushes, hch, hr]
    rw [pressCopy_flush hvn hvch hva hr]
    have hframe := flushCopy_frame hvn
    have hcount := advanced_flushCopy hvn
    have hkept := countersKept_flushCopy hvn
    have hrel := releasedAll_flushCopy hvn
    generalize flushCopy n v = f at *
    obtain ⟨h1, h2⟩ := hpressed (f.setCopies (f.copies.put n (pressed a ch c))) fun j => by
      rw [setCopies_copies, Table.look_put]
      by_cases hj : j = n
      · rw [if_pos hj, if_pos hj]
      · rw [if_neg hj, if_neg hj, hframe, Table.look_put, if_neg hj]
    refine ⟨h1, h2, ?_, hv.kept.trans hkept, ?_, ?_⟩
    · rw [hl, List.flatMap_append, List.length_append, List.flatMap_singleton]
      exact hv.counted.trans hcount
    · rw [hl, List.flatMap_append, List.flatMap_singleton]
      exact hv.released.trans hrel
    · rw [hframe, hv.frame]
      rfl
  · have hl : (l ++ [(n, c)]).filter s.flushes = l.filter s.flushes := by
      rw [List.filter_append]
      simp [State.flushes, hch, hr]
    rw [pressCopy_recover hvn hvch hva hr]
    obtain ⟨h1, h2⟩ := hpressed (v.setCopies (v.copies.put n (pressed a ch c))) fun j => by
      rw [setCopies_copies, Table.look_put]
    refine ⟨h1, h2, by rw [hl]; exact hv.counted, hv.kept, by rw [hl]; exact hv.released, ?_⟩
    rw [hv.frame]
    rfl

/-- The ACTIVE copies of a cell, oldest first. -/
def State.pressList (s : State) (cell : Nat) : List (Nat × Copy) :=
  sortBy (fun a b => a.2.olderThan b.2) (s.copies.entries.filter fun e => e.2.cell == cell && e.2.state == .active)

theorem State.pressList_perm (s : State) (cell : Nat) :
    (s.pressList cell).Perm (s.copies.entries.filter fun e => e.2.cell == cell && e.2.state == .active) := sortBy_perm _ _

theorem State.mem_pressList {s : State} (hw : s.copies.wf = true) {cell n : Nat} {c : Copy} :
    (n, c) ∈ s.pressList cell ↔ s.copies.look n = some c ∧ c.cell = cell ∧ c.state = .active := by
  rw [(s.pressList_perm cell).mem_iff]
  simp [List.mem_filter, Table.mem_entries hw]

/-- Every ACTIVE copy of the cell is pressed. -/
theorem copiesPressed_foldl {s : State} (hw : s.copies.wf = true)
    (hnamed : ∀ n c, s.copies.look n = some c → (s.channels.look c.channel).isSome = true) {cell : Nat} {a : Account}
    (ha : s.account cell = some a) : CopiesPressed s cell a (s.pressList cell)
      ((s.copiesAt cell fun c => c.state == .active).foldl pressCopy s) := by
  show CopiesPressed s cell a (s.pressList cell) (((s.pressList cell).map (·.1)).foldl pressCopy s)
  rw [List.foldl_map]
  refine foldl_invariant (P := CopiesPressed s cell a) _ (copiesPressed_nil s cell a) ?_
  rintro done ⟨n, c⟩ v hpre hv
  obtain ⟨hc, rfl, -⟩ := (State.mem_pressList hw).mp (hpre.subset (List.mem_append_right done (List.mem_singleton.mpr rfl)))
  obtain ⟨ch, hch⟩ := Option.isSome_iff_exists.mp (hnamed n c hc)
  refine hv.step hc hch ha fun e he => ?_
  have hp : (s.pressList c.cell).Pairwise fun x y => x.1 ≠ y.1 := by
    refine (List.Perm.pairwise_iff (fun h => Ne.symm h) (s.pressList_perm c.cell)).mpr ?_
    exact ((Table.entries_pairwise hw).filter _).imp fun h => ne_of_lt h
  exact (List.pairwise_append.mp (hp.sublist hpre.sublist)).2.2 e he _ (List.mem_singleton.mpr rfl)

/-- The state when the copies of a cell have been pressed and M recomputed, before the pass. -/
def pressedState (cell : Nat) (s : State) : State :=
  refreshM cell ((s.copiesAt cell fun c => c.state == .active).foldl pressCopy s)

theorem press_eq {s : State} {cell : Nat} {a : Account} (ha : s.account cell = some a)
    (hu : (pressedState cell s).account cell = some { a with m := (pressedState cell s).activeLoad cell }) :
    press cell s = if (pressedState cell s).activeLoad cell < a.m then
      refreshRates cell (readmit cell (pressedState cell s)) else pressedState cell s := by
  unfold pressedState at *
  simp only [press, ha, hu]

theorem account_pressedState {s : State} {cell : Nat} {a : Account}
    (ha : (((s.copiesAt cell fun c => c.state == .active).foldl pressCopy s).account cell) = some a) :
    (pressedState cell s).account cell = some { a with m := (pressedState cell s).activeLoad cell } := by
  obtain ⟨c, hc, rfl⟩ := State.account_eq_some ha
  have hm := look_refreshM cell cell ((s.copiesAt cell fun c => c.state == .active).foldl pressCopy s)
  rw [hc, Option.map_some, if_pos rfl] at hm
  rw [State.account, pressedState, hm]
  rfl

/-- The state when the cell has answered and the heard list is done. -/
def pollAnswered (s : State) (cell : Nat) (c : Cell) (heard : List Addr) : State :=
  { s with
    cells := s.cells.put cell (answered c)
    notices := s.notices ++ (if c.state = .down then [⟨s.time.clock, .cellUp cell⟩] else [])
    stations := s.stations.mapAll (heardAs s cell heard) }

theorem takePollReply_eq {s : State} {cell : Nat} {c : Cell} (hw : s.stations.wf = true) (hc : s.cells.look cell = some c)
    (hroom : s.notices.length < Config.notices) (mark : Byte) (heard : List Addr) : takePollReply cell mark heard s =
      if mark = 1 then press cell (bump (.cell cell .pressureMarks) (pollAnswered s cell c heard))
      else pollAnswered s cell c heard := by
  have hhear := hear_foldl (v := { s with
    cells := s.cells.put cell (answered c)
    notices := s.notices ++ (if c.state = .down then [⟨s.time.clock, .cellUp cell⟩] else []) }) cell heard hw rfl rfl
  rw [takePollReply, answerPoll_eq hc hroom, hhear]
  rfl

theorem look_pollAnswered_stations {s : State} {cell : Nat} {c : Cell} {heard : List Addr} {i : Nat} {st : Station}
    (h : s.stations.look i = some st) : (pollAnswered s cell c heard).stations.look i = some (heardAs s cell heard i st) := by
  show (s.stations.mapAll (heardAs s cell heard)).look i = _
  rw [Table.look_mapAll, h]
  rfl

theorem look_pollAnswered_cells (s : State) (cell : Nat) (c : Cell) (heard : List Addr) (n : Nat) :
    (pollAnswered s cell c heard).cells.look n = if n = cell then some (answered c) else s.cells.look n :=
  Table.look_put ..

/-- From `b` to `u` the copies of the cell are pressed and M recomputed. -/
structure Pressed (b u : State) (cell : Nat) (a : Account) : Prop where
  account  : u.account cell = some { a with m := u.activeLoad cell }
  cells    : ∀ n, n ≠ cell → u.cells.look n = b.cells.look n
  made     : ∀ n k ch, b.copies.look n = some k → k.cell = cell → k.state = .active →
    b.channels.look k.channel = some ch → u.copies.look n = some (pressed a ch k)
  others   : ∀ n k, b.copies.look n = some k → k.cell ≠ cell ∨ k.state = .held → u.copies.look n = some k
  counts   : ∀ lost, lost = (b.copies.entries.filter fun x => x.2.cell == cell && x.2.state == .active
      && b.flushes x).flatMap (fun x => x.2.queue) →
    Advanced b u (.cell cell .replayDiscarded) lost.length ∧ CountersKept b u (· = .cell cell .replayDiscarded)
      ∧ ReleasedAll b u lost
  calm     : Calm b u
  frame    : u = { b with counters := u.counters, cells := u.cells, pools := u.pools, copies := u.copies }

theorem pressed_pressedState {b : State} (hw : b.copies.wf = true)
    (hnamed : ∀ n c, b.copies.look n = some c → (b.channels.look c.channel).isSome = true) {cell : Nat} {a : Account}
    (ha : b.account cell = some a) : Pressed b (pressedState cell b) cell a := by
  have hp := copiesPressed_foldl hw hnamed ha
  have hpa : ((b.copiesAt cell fun c => c.state == .active).foldl pressCopy b).account cell = some a := by
    rw [State.account, hp.frame]
    exact ha
  have hperm := b.pressList_perm cell
  have hmem := fun n k => State.mem_pressList (n := n) (c := k) (cell := cell) hw
  refine ⟨account_pressedState hpa, fun n hn => ?_, fun n k ch hk hc hst hch => ?_, fun n k hk hor => ?_, ?_,
    ((Inner.foldl _ inner_pressCopy _ b).trans (.load _ cell)).calm, ?_⟩
  · rw [pressedState, look_refreshM, hp.frame]
    simp [hn]
  · exact hp.made n k ch ((hmem n k).mpr ⟨hk, hc, hst⟩) hch
  · refine hp.others n k hk fun hm => ?_
    obtain ⟨-, hc, hst⟩ := (hmem n k).mp hm
    rcases hor with hor | hor
    · exact hor hc
    · rw [hst] at hor
      cases hor
  · rintro lost rfl
    have hl : ((b.pressList cell).filter b.flushes).flatMap (fun x => x.2.queue) |>.Perm
        ((b.copies.entries.filter fun x => x.2.cell == cell && x.2.state == .active && b.flushes x).flatMap
          fun x => x.2.queue) := by
      refine (List.Perm.flatMap_right _ (hperm.filter _)).trans (.of_eq ?_)
      rw [List.filter_filter]
      congr 2
      funext x
      exact Bool.and_comm ..
    exact ⟨by rw [← hl.length_eq]; exact hp.counted, hp.kept, hp.released.perm hl⟩
  · rw [pressedState, refreshM_frame, hp.frame]
    rfl

/-- Settles O27: the answer and the heard list are `pollAnswered`; a mark presses the copies (`Pressed`), and the pass runs where M fell. -/
theorem aPollReplyBringsItsCellToActive : Obligations.APollReplyBringsItsCellToActive := by
  unfold Obligations.APollReplyBringsItsCellToActive
  intro m mark count heard c s hf ht hs hslot hframe hbody hcount hheard hc hroom
  have hexec : mark.toNat ≤ 1 → exec (.pollReply m mark count heard) s =
      .next (closeEvent (takePollReply (cellOf m) mark heard s)) := fun hmark => by
    show Host.Outcome.next (takeMessage _ _ _) = _
    rw [fate_pollReply ht hs hslot hframe hbody hcount hheard hc hmark]
    rfl
  rw [takePollReply_eq hf.stations.form hc hroom] at hexec
  have hlook := fun i st (h : s.stations.look i = some st) =>
    look_pollAnswered_stations (cell := cellOf m) (c := c) (heard := heard) h
  have hcells := look_pollAnswered_cells s (cellOf m) c heard
  have hfw : pollAnswered s (cellOf m) c heard = { s with
      cells := (pollAnswered s (cellOf m) c heard).cells, notices := (pollAnswered s (cellOf m) c heard).notices
      stations := (pollAnswered s (cellOf m) c heard).stations } := rfl
  have hnotices : (pollAnswered s (cellOf m) c heard).notices =
      s.notices ++ (if c.state = .down then [⟨s.time.clock, .cellUp (cellOf m)⟩] else []) := rfl
  generalize pollAnswered s (cellOf m) c heard = w at *
  refine ⟨fun hmark => ?_, fun hmark => ?_⟩
  · subst hmark
    refine ⟨w, hexec (by decide), hcells, hnotices, ?_, ?_, hfw⟩
    · intro i st hfind hp hmem h0 hg
      rw [hlook i st (State.stationWith_spec hf.stations.form hfind).2, heardAs, if_pos ⟨hp, hmem, h0, hg, hfind⟩]
    · intro i st hi hno
      rw [hlook i st hi, heardAs, if_neg]
      rintro ⟨hp, hmem, -⟩
      rcases hno with hno | hno
      · rw [hno] at hp
        cases hp
      · exact hno hmem
  · subst hmark
    have hx := hexec (by decide)
    rw [if_pos rfl] at hx
    have hwa : w.account (cellOf m) = some c.account := by
      rw [State.account, hcells, if_pos rfl]
      rfl
    have hbumped := onlyCounts_bump (.cell (cellOf m) .pressureMarks) w
    have hfb : bump (.cell (cellOf m) .pressureMarks) w = { s with
        cells := w.cells, notices := w.notices, stations := w.stations
        counters := (bump (.cell (cellOf m) .pressureMarks) w).counters } := by
      rw [hbumped.frame, hfw]
    generalize bump (.cell (cellOf m) .pressureMarks) w = b at *
    have hwc : w.counters = s.counters := by rw [hfw]
    have hba : b.account (cellOf m) = some c.account := by rw [hfb]; exact hwa
    have hp := pressed_pressedState (b := b) (by rw [hfb]; exact hf.copies.form) (by rw [hfb]; exact hf.named) hba
    rw [press_eq hba hp.account] at hx
    generalize pressedState (cellOf m) b = u at hp hx
    have hbs : b.copies = s.copies ∧ b.channels = s.channels ∧ b.pools = s.pools := by
      rw [hfb]
      exact ⟨rfl, rfl, rfl⟩
    obtain ⟨hbcopies, hbchannels, hbpools⟩ := hbs
    have hmarks : Advanced s u (.cell (cellOf m) .pressureMarks) 1 := by
      rw [Advanced, hp.counts _ rfl |>.2.1 _ (by simp), hbumped.moved, State.counter, hwc]
      rfl
    have hin : Inner u (if u.activeLoad (cellOf m) < c.account.m then refreshRates (cellOf m) (readmit (cellOf m) u) else u) := by
      split
      · exact (inner_readmit ..).trans (inner_refreshRates ..)
      · exact .refl u
    refine ⟨_, hx, ?_, ?_, u, hp.account, ?_, ?_, ?_, ?_, ?_, ?_, ?_, rfl⟩
    · rw [Advanced, hin.counters _ (by simp [Counter.interior]), hmarks]
    · have hbc : b.cells.look (cellOf m) = some (answered c) := by rw [hfb, hcells, if_pos rfl]
      obtain ⟨account, he, -⟩ := (hp.calm.trans hin.calm).cell hbc
      exact ⟨_, account, he, rfl⟩
    · intro n k ch hk hkc hst hch
      exact hp.made n k ch (by rw [hbcopies, hk]) hkc hst (by rw [hbchannels, hch])
    · intro n k hk hor
      exact hp.others n k (by rw [hbcopies, hk]) hor
    · intro i st hi
      have : u.stations = w.stations := by rw [hp.frame, hfb]
      rw [this, hlook i st hi]
      rfl
    · rw [hp.frame, hfb]
      exact hnotices
    · intro n hn
      rw [hp.cells n hn, hfb]
      rw [hcells, if_neg hn]
    · intro lost hlost
      have hflush : b.flushes = fun x => (s.channels.look x.2.channel).any fun ch => ch.recovery == .flush := by
        funext x
        rw [State.flushes, hbchannels]
      obtain ⟨h1, h2, h3⟩ := hp.counts lost (by rw [hlost, hbcopies, hflush])
      have hbc : ∀ x, x ≠ .cell (cellOf m) .pressureMarks → b.counter x = s.counter x := fun x hx => by
        rw [hbumped.kept x hx, State.counter, hwc]
        rfl
      refine ⟨hmarks, ?_, fun x hx => ?_, fun q => ?_⟩
      · rw [Advanced, h1, hbc _ (by simp)]
      · rw [not_or] at hx
        rw [h2 x hx.2, hbc x hx.1]
      · have hq : b.buffer q = s.buffer q := by rw [State.buffer, hbpools]; rfl
        rw [h3 q, hq]
    · rw [hp.frame, hfb]

end Sys2Proof.Machine
end

