-- ==== Sys2Proof/Proofs/Rates.lean ====
section
/-! PROOFS. W and the rates of a cell (R147, R148): what keeps the law of rates, and the room that a table below its capacity has. -/

namespace Sys2Proof.Machine

/-! ## Views of a table -/

/-- The table of what `f` sees of each record. -/
def Table.view {α β : Type} (t : Table α) (f : α → β) : Table β := ⟨t.entries.map fun e => (e.1, f e.2)⟩

theorem Table.look_view {α β : Type} (t : Table α) (f : α → β) (k : Nat) : (t.view f).look k = (t.look k).map f := by
  obtain ⟨l⟩ := t
  simp only [Table.look, Table.view]
  induction l with
  | nil => rfl
  | cons e rest ih =>
    simp only [List.map_cons, lookIn]
    split
    · rfl
    · exact ih

theorem Table.wf_view {α β : Type} {t : Table α} (f : α → β) (h : t.wf = true) : (t.view f).wf = true := by
  suffices H : ∀ (l : List (Nat × α)) (a : Nat), risingFrom a l = true → risingFrom a (l.map fun e => (e.1, f e.2)) = true from
    H t.entries 0 h
  intro l
  induction l with
  | nil => exact fun _ _ => rfl
  | cons e rest ih =>
    intro a ha
    simp only [risingFrom, Bool.and_eq_true, List.map_cons] at ha ⊢
    exact ⟨ha.1, ih _ ha.2⟩

/-- Two canonical tables that look alike through `f` give the same list of what it sees. -/
theorem Table.map_entries_congr {α β : Type} {t u : Table α} (f : α → β) (ht : t.wf = true) (hu : u.wf = true)
    (h : ∀ k, (t.look k).map f = (u.look k).map f) :
    (t.entries.map fun e => (e.1, f e.2)) = u.entries.map fun e => (e.1, f e.2) :=
  congrArg Table.entries (Table.ext_look (t := t.view f) (u := u.view f) (Table.wf_view f ht) (Table.wf_view f hu)
    fun k => by rw [Table.look_view, Table.look_view, h])

/-- A number free below the capacity is found while fewer numbers than the capacity are listed. -/
theorem Table.lowestFree_isSome {α : Type} {t : Table α} {capacity : Nat} (h : t.size < capacity) :
    (t.lowestFree capacity).isSome = true := by
  by_contra hn
  have full : ∀ fuel k, t.freeFrom fuel k = none → ∀ j, k ≤ j → j < k + fuel → (t.look j).isSome = true := by
    intro fuel
    induction fuel with
    | zero => exact fun k _ j h1 h2 => absurd h1 (by omega)
    | succ fuel ih =>
      intro k hk j h1 h2
      rw [Table.freeFrom] at hk
      split at hk
      · cases hk
      · next hs =>
        by_cases hj : j = k
        · subst hj
          simpa [Option.isSome_iff_ne_none] using hs
        · exact ih (k + 1) hk j (by omega) (by omega)
  have hall := full capacity 0 (by simpa [Table.lowestFree] using hn)
  have hsub : List.range capacity ⊆ t.entries.map (·.1) := fun j hj => by
    obtain ⟨v, hv⟩ := Option.isSome_iff_exists.mp (hall j (Nat.zero_le _) (by simpa using hj))
    exact List.mem_map.mpr ⟨(j, v), lookIn_mem hv, rfl⟩
  have hlen := (List.nodup_range.subperm hsub).length_le
  rw [List.length_range, List.length_map] at hlen
  exact absurd h (Nat.not_lt.mpr hlen)

/-! ## W and the rates -/

/-- What a cell's account counts of a station: its weight, if it is counted there. -/
def Station.shareAt (cell : Nat) (st : Station) : Option Nat := if st.place.cell? = some cell then some st.weight else none

/-- Weight and rate of a station, if it is counted at the cell. -/
def Station.ratedAt (cell : Nat) (st : Station) : Option (Nat × Nat) :=
  if st.place.cell? = some cell then some (st.weight, st.rate) else none

theorem Station.shareAt_eq (cell : Nat) (st : Station) : st.shareAt cell = (st.ratedAt cell).map (·.1) := by
  unfold Station.shareAt Station.ratedAt
  split <;> rfl

/-- Stations that share in the cell alike give it the same W. -/
theorem State.countedWeight_congr {s t : State} (hs : s.stations.wf = true) (ht : t.stations.wf = true) {cell : Nat}
    (h : ∀ i, (t.stations.look i).map (Station.shareAt cell) = (s.stations.look i).map (Station.shareAt cell)) :
    t.countedWeight cell = s.countedWeight cell := by
  have key : ∀ u : State, u.countedWeight cell =
      ((u.stations.entries.map fun e => (e.1, e.2.shareAt cell)).map fun e => e.2.getD 0).sum := by
    intro u
    rw [State.countedWeight, List.map_map]
    congr 1
    refine List.map_congr_left fun e _ => ?_
    by_cases hc : e.2.place.cell? = some cell <;> simp [Station.countedAt, Station.shareAt, hc]
  rw [key, key, Table.map_entries_congr _ ht hs h]

/-- W of the cell is the sum of the counted stations' weights (R147). -/
def State.WeightLaw (s : State) (cell : Nat) : Prop := ∀ a, s.account cell = some a → a.w = s.countedWeight cell

theorem State.RatesLaw.weight {s : State} {cell : Nat} (h : s.RatesLaw cell) : s.WeightLaw cell := fun a ha => (h a ha).1

/-- The law of rates is about the account and the weights and rates of the counted stations alone. -/
theorem State.RatesLaw.congr {s t : State} {cell : Nat} (h : s.RatesLaw cell) (hs : s.stations.wf = true)
    (ht : t.stations.wf = true) (ha : t.account cell = s.account cell)
    (hst : ∀ i, (t.stations.look i).map (Station.ratedAt cell) = (s.stations.look i).map (Station.ratedAt cell)) :
    t.RatesLaw cell := by
  have hw : t.countedWeight cell = s.countedWeight cell := State.countedWeight_congr hs ht fun i => by
    have := congrArg (Option.map (Option.map (·.1))) (hst i)
    simpa [Option.map_map, Function.comp_def, ← Station.shareAt_eq] using this
  intro a hta
  rw [ha] at hta
  obtain ⟨h1, h2⟩ := h a hta
  refine ⟨h1.trans hw.symm, fun i st hi hc => ?_⟩
  have he := hst i
  rw [hi, Option.map_some, Station.ratedAt, if_pos hc] at he
  obtain ⟨x, hx, hxe⟩ := Option.map_eq_some_iff.mp he.symm
  unfold Station.ratedAt at hxe
  split at hxe
  · next hxc =>
    obtain ⟨hw', hr'⟩ := Prod.mk.inj (Option.some.inj hxe)
    rw [← hw', ← hr']
    exact h2 i x hx hxc
  · cases hxe

/-- The rates follow W and M: the law of rates holds where W does (R148). -/
theorem ratesLaw_refreshRates {s : State} {cell : Nat} (hs : s.stations.wf = true) (h : s.WeightLaw cell) :
    (refreshRates cell s).RatesLaw cell := by
  have hl := fun i => look_refreshRates cell i s
  have hwf : (refreshRates cell s).stations.wf = true := (inner_refreshRates cell s).wf.1 hs
  have hw : (refreshRates cell s).countedWeight cell = s.countedWeight cell := State.countedWeight_congr hs hwf fun i => by
    rw [hl]
    cases s.stations.look i with
    | none => rfl
    | some st =>
      by_cases hc : st.place.cell? = some cell
      · simp [Station.shareAt, hc]
      · simp [hc]
  have hc : (refreshRates cell s).cells = s.cells := by rw [refreshRates_frame]; rfl
  intro a ha
  rw [State.account, hc] at ha
  refine ⟨(h a ha).trans hw.symm, fun i st hi hcell => ?_⟩
  rw [hl] at hi
  obtain ⟨x, hx, rfl⟩ := Option.map_eq_some_iff.mp hi
  by_cases hxc : x.place.cell? = some cell
  · rw [if_pos hxc, State.rateAt, show s.account cell = some a from ha]
  · rw [if_neg hxc] at hcell
    exact absurd hcell hxc

/-- What keeps the law of rates at every cell. -/
def RatesKept (s t : State) : Prop := s.stations.wf = true → ∀ cell, s.RatesLaw cell → t.RatesLaw cell

theorem RatesKept.of_eq {s t : State} (hc : t.cells = s.cells) (hs : t.stations = s.stations) : RatesKept s t :=
  fun hw cell h => h.congr hw (by rw [hs]; exact hw) (by rw [State.account, State.account, hc]) fun i => by rw [hs]

/-- The rates of one cell written leave the law of rates at the others. -/
theorem ratesLaw_refreshRates_ne {s : State} {cell n : Nat} (hs : s.stations.wf = true) (hn : n ≠ cell) (h : s.RatesLaw n) :
    (refreshRates cell s).RatesLaw n := by
  refine h.congr hs ((inner_refreshRates cell s).wf.1 hs) (by rw [refreshRates_frame]; rfl) fun i => ?_
  rw [look_refreshRates]
  cases s.stations.look i with
  | none => rfl
  | some st =>
    by_cases hc : st.place.cell? = some cell
    · have : ¬ some cell = some n := fun e => hn (Option.some.inj e).symm
      simp [Station.ratedAt, hc, this]
    · simp [hc]

theorem State.account_refreshM (cell n : Nat) (s : State) : (refreshM cell s).account n =
    (s.account n).map fun a => if n = cell then { a with m := s.activeLoad cell } else a := by
  rw [State.account, look_refreshM, State.account]
  cases s.cells.look n with
  | none => rfl
  | some c => by_cases h : n = cell <;> simp [h]

theorem State.account_refreshW (cell n : Nat) (s : State) : (refreshW cell s).account n =
    (s.account n).map fun a => if n = cell then { a with w := s.countedWeight cell } else a := by
  rw [State.account, look_refreshW, State.account]
  cases s.cells.look n with
  | none => rfl
  | some c => by_cases h : n = cell <;> simp [h]

/-- W recomputed and the rates after it give the law of rates at the cell (R147, R148). -/
theorem ratesLaw_reweigh {s : State} (hs : s.stations.wf = true) (cell : Nat) : (reweigh cell s).RatesLaw cell := by
  refine ratesLaw_refreshRates hs fun a ha => ?_
  rw [State.account_refreshW] at ha
  obtain ⟨b, -, rfl⟩ := Option.map_eq_some_iff.mp ha
  rw [if_pos rfl]
  rfl

theorem ratesLaw_reweigh_ne {s : State} {cell n : Nat} (hs : s.stations.wf = true) (hn : n ≠ cell) (h : s.RatesLaw n) :
    (reweigh cell s).RatesLaw n := by
  refine ratesLaw_refreshRates_ne hs hn (h.congr hs hs ?_ fun _ => rfl)
  rw [State.account_refreshW]
  simp [hn]

theorem ratesKept_reweigh (cell : Nat) (s : State) : RatesKept s (reweigh cell s) := fun hs n h => by
  by_cases hn : n = cell
  · subst hn
    exact ratesLaw_reweigh hs n
  · exact ratesLaw_reweigh_ne hs hn h

/-- M recomputed and the rates after it keep the law of rates at every cell. -/
theorem ratesKept_reload (cell : Nat) (s : State) : RatesKept s (refreshRates cell (refreshM cell s)) := fun hs n h => by
  by_cases hn : n = cell
  · subst hn
    refine ratesLaw_refreshRates hs fun a ha => ?_
    rw [State.account_refreshM] at ha
    obtain ⟨b, hb, rfl⟩ := Option.map_eq_some_iff.mp ha
    rw [if_pos rfl]
    exact h.weight b hb
  · refine ratesLaw_refreshRates_ne hs hn (h.congr hs hs ?_ fun _ => rfl)
    rw [State.account_refreshM]
    simp [hn]

/-- A record changed but for place, weight and rate keeps the law of rates. -/
theorem ratesKept_updateStation {i : Nat} {f : Station → Station}
    (hf : ∀ st, (f st).place = st.place ∧ (f st).weight = st.weight ∧ (f st).rate = st.rate) (s : State) :
    RatesKept s (updateStation i f s) := fun hs n h => by
  refine h.congr hs (Table.wf_modify _ _ _ hs) rfl fun j => ?_
  rw [look_updateStation]
  split
  · next hj =>
    subst hj
    rw [Option.map_map]
    congr 1
    funext st
    obtain ⟨h1, h2, h3⟩ := hf st
    simp [Station.ratedAt, h1, h2, h3]
  · rfl

theorem ratesKept_flushCopy (n : Nat) (s : State) : RatesKept s (flushCopy n s) := by
  cases h : s.copies.look n with
  | none => simpa [flushCopy, h] using RatesKept.of_eq rfl rfl
  | some c => exact .of_eq (by rw [flushCopy_frame h]) (by rw [flushCopy_frame h])

end Sys2Proof.Machine
end

