-- ==== Sys2Proof/Proofs/Shift.lean ====
section
/-! PROOFS. A membership leaves or joins a copy (R130, R131): the small moves that the ends of handovers and dormancy are made of, and what a
chain of them keeps. -/

namespace Sys2Proof.Machine

theorem owePass_frame (cell : Nat) (s : State) : owePass cell s = { s with owed := (owePass cell s).owed } := by
  unfold owePass
  split <;> rfl

/-! ## Fields that an operation leaves -/

@[simp] theorem owePass_cells (cell : Nat) (s : State) : (owePass cell s).cells = s.cells := by rw [owePass_frame]
@[simp] theorem owePass_stations (cell : Nat) (s : State) : (owePass cell s).stations = s.stations := by rw [owePass_frame]
@[simp] theorem owePass_copies (cell : Nat) (s : State) : (owePass cell s).copies = s.copies := by rw [owePass_frame]
@[simp] theorem owePass_counters (cell : Nat) (s : State) : (owePass cell s).counters = s.counters := by rw [owePass_frame]
@[simp] theorem owePass_pools (cell : Nat) (s : State) : (owePass cell s).pools = s.pools := by rw [owePass_frame]
@[simp] theorem owePass_trunks (cell : Nat) (s : State) : (owePass cell s).trunks = s.trunks := by rw [owePass_frame]
@[simp] theorem owePass_handovers (cell : Nat) (s : State) : (owePass cell s).handovers = s.handovers := by rw [owePass_frame]
@[simp] theorem postSignal_cells (cell : Nat) (addr : Addr) (body : SignalBody) (s : State) :
    (postSignal cell addr body s).cells = s.cells := by rw [postSignal_frame]
@[simp] theorem postSignal_stations (cell : Nat) (addr : Addr) (body : SignalBody) (s : State) :
    (postSignal cell addr body s).stations = s.stations := by rw [postSignal_frame]
@[simp] theorem postSignal_copies (cell : Nat) (addr : Addr) (body : SignalBody) (s : State) :
    (postSignal cell addr body s).copies = s.copies := by rw [postSignal_frame]
@[simp] theorem postSignal_pools (cell : Nat) (addr : Addr) (body : SignalBody) (s : State) :
    (postSignal cell addr body s).pools = s.pools := by rw [postSignal_frame]
@[simp] theorem postSignal_handovers (cell : Nat) (addr : Addr) (body : SignalBody) (s : State) :
    (postSignal cell addr body s).handovers = s.handovers := by rw [postSignal_frame]
@[simp] theorem postSignal_owed (cell : Nat) (addr : Addr) (body : SignalBody) (s : State) :
    (postSignal cell addr body s).owed = s.owed := by rw [postSignal_frame]
@[simp] theorem refreshRates_cells (cell : Nat) (s : State) : (refreshRates cell s).cells = s.cells := by rw [refreshRates_frame]; rfl
@[simp] theorem refreshRates_copies (cell : Nat) (s : State) : (refreshRates cell s).copies = s.copies := by rw [refreshRates_frame]; rfl
@[simp] theorem refreshRates_counters (cell : Nat) (s : State) : (refreshRates cell s).counters = s.counters := by rw [refreshRates_frame]; rfl
@[simp] theorem refreshRates_pools (cell : Nat) (s : State) : (refreshRates cell s).pools = s.pools := by rw [refreshRates_frame]; rfl
@[simp] theorem refreshRates_trunks (cell : Nat) (s : State) : (refreshRates cell s).trunks = s.trunks := by rw [refreshRates_frame]; rfl
@[simp] theorem refreshRates_handovers (cell : Nat) (s : State) : (refreshRates cell s).handovers = s.handovers := by rw [refreshRates_frame]; rfl
@[simp] theorem refreshRates_owed (cell : Nat) (s : State) : (refreshRates cell s).owed = s.owed := by rw [refreshRates_frame]; rfl
@[simp] theorem reweigh_copies (cell : Nat) (s : State) : (reweigh cell s).copies = s.copies := refreshRates_copies cell (refreshW cell s)
@[simp] theorem reweigh_counters (cell : Nat) (s : State) : (reweigh cell s).counters = s.counters := refreshRates_counters cell (refreshW cell s)
@[simp] theorem reweigh_pools (cell : Nat) (s : State) : (reweigh cell s).pools = s.pools := refreshRates_pools cell (refreshW cell s)
@[simp] theorem reweigh_trunks (cell : Nat) (s : State) : (reweigh cell s).trunks = s.trunks := refreshRates_trunks cell (refreshW cell s)
@[simp] theorem reweigh_handovers (cell : Nat) (s : State) : (reweigh cell s).handovers = s.handovers := refreshRates_handovers cell (refreshW cell s)
@[simp] theorem reweigh_owed (cell : Nat) (s : State) : (reweigh cell s).owed = s.owed := refreshRates_owed cell (refreshW cell s)

/-! ## A copy removed, a copy created -/

theorem removeCopy_eq {s : State} {n : Nat} {c : Copy} (h : s.copies.look n = some c) : removeCopy n s = owePass c.cell
    (refreshRates c.cell (refreshM c.cell ((flushCopy n s).setCopies ((flushCopy n s).copies.drop n)))) := by
  simp [removeCopy, h]

/-- The copy that is created for a channel at a cell (R128). -/
def newCopy (s : State) (channel cell : Nat) (ch : Channel) (a : Account) : Copy :=
  decided a ch s.time.tick (s.admission cell ch) ⟨channel, cell, .full, .held, 0, 0, 1, 0, [], s.time.tick, s.created⟩

theorem newCopy_spec (s : State) (channel cell : Nat) (ch : Channel) (a : Account) :
    (newCopy s channel cell ch a).channel = channel ∧ (newCopy s channel cell ch a).cell = cell
      ∧ (newCopy s channel cell ch a).queue = [] ∧ (newCopy s channel cell ch a).members = 1 := by
  unfold newCopy
  cases s.admission cell ch <;> exact ⟨rfl, rfl, rfl, rfl⟩

/-- The state with the created copy, before M and the rates follow. -/
def withCopy (s : State) (n : Nat) (c : Copy) : State :=
  ((s.setCopies (s.copies.put n c)).setCreated (nextStamp s)).setDraws
    (if s.created = BitVec.allOnes 32 then s.draws + 1 else s.draws)

theorem withCopy_frame (s : State) (n : Nat) (c : Copy) : withCopy s n c =
    { s with copies := s.copies.put n c, created := (withCopy s n c).created, draws := (withCopy s n c).draws } := rfl

/-- M and the rates after it change the cells and the stations alone. -/
theorem reload_frame (cell : Nat) (s : State) : refreshRates cell (refreshM cell s) =
    { s with
      cells := (refreshRates cell (refreshM cell s)).cells, stations := (refreshRates cell (refreshM cell s)).stations } := by
  rw [refreshRates_frame]
  rfl

theorem createCopy_eq {s : State} {channel cell n : Nat} {ch : Channel} {a : Account}
    (hn : s.copies.lowestFree Config.copies = some n) (hch : s.channels.look channel = some ch)
    (ha : s.account cell = some a) : createCopy channel cell s =
      (refreshRates cell (refreshM cell (withCopy s n (newCopy s channel cell ch a))),
        some (newCopy s channel cell ch a).status) := by
  simp only [createCopy, hn, hch, ha]
  rfl

/-! ## Chains of small moves -/

/-- The counters that a membership lost on its way moves (R29, R131). -/
inductive Spilled : Counter → Prop
  | table : Spilled (.part .copyTableFull)
  | lost : Spilled (.part .membershipsLost)
  | signalling (k : Nat) : Spilled (.trunk k .signallingDiscarded)

/-- Small moves: copies at the cells that `p` picks lose members or are removed; copies at the cells that `q` picks gain members or are
created; station `i` has its memberships and its credit written; W and rates follow; where `loose` holds, memberships may be lost with their
verdicts. -/
inductive Shift (p q : Nat → Prop) (i : Nat) (loose : Prop) : State → State → Prop
  | refl (s : State) : Shift p q i loose s s
  | trans {s t u : State} : Shift p q i loose s t → Shift p q i loose t u → Shift p q i loose s u
  | weigh (s : State) (cell : Nat) : Shift p q i loose s (reweigh cell s)
  | fewer (s : State) (n : Nat) (c : Copy) : s.copies.look n = some c → p c.cell →
      Shift p q i loose s (s.setCopies (s.copies.put n { c with members := c.members - 1 }))
  | remove (s : State) (n : Nat) (c : Copy) : s.copies.look n = some c → p c.cell → Shift p q i loose s (removeCopy n s)
  | more (s : State) (n : Nat) (c : Copy) : s.copies.look n = some c → q c.cell →
      Shift p q i loose s (s.setCopies (s.copies.put n { c with members := c.members + 1 }))
  | create (s : State) (n channel cell : Nat) (ch : Channel) (a : Account) : q cell → s.copyAt channel cell = none →
      s.copies.lowestFree Config.copies = some n → s.channels.look channel = some ch → s.account cell = some a →
      Shift p q i loose s (createCopy channel cell s).1
  | members (s : State) (f : List Membership → List Membership) :
      Shift p q i loose s (updateStation i (fun st => { st with members := f st.members }) s)
  | credit (s : State) : Shift p q i loose s (fillCredit i s)
  | owe (s : State) (cell : Nat) : Shift p q i loose s (owePass cell s)
  | spill (s : State) (c : Counter) : loose → Spilled c → Shift p q i loose s (bump c s)
  | post (s : State) (cell : Nat) (addr : Addr) (body : SignalBody) : loose → Shift p q i loose s (postSignal cell addr body s)

variable {p q : Nat → Prop} {i : Nat} {loose : Prop} {s t u : State}

theorem Shift.inner (h : Shift p q i loose s t) : Inner s t := by
  induction h with
  | refl s => exact .refl s
  | trans _ _ ih1 ih2 => exact ih1.trans ih2
  | weigh s cell => exact inner_reweigh ..
  | fewer s n c _ _ => exact inner_putCopy ..
  | remove s n c _ _ => exact inner_removeCopy ..
  | more s n c _ _ => exact inner_putCopy ..
  | create s => exact inner_createCopy ..
  | members s f => exact inner_updateStation ..
  | credit s => exact inner_fillCredit ..
  | owe s cell => exact inner_owePass ..
  | spill s c _ hc => exact .count _ _ _ (by cases hc <;> rfl)
  | post s cell addr body _ => exact .post ..

theorem Shift.foldl {α : Type} {f : State → α → State} (hf : ∀ s a, Shift p q i loose s (f s a)) (l : List α) (s : State) :
    Shift p q i loose s (l.foldl f s) := by
  induction l generalizing s with
  | nil => exact .refl s
  | cons a rest ih => exact (hf s a).trans (ih (f s a))

theorem Shift.mono {p' q' : Nat → Prop} {loose' : Prop} (hp : ∀ n, p n → p' n) (hq : ∀ n, q n → q' n) (hl : loose → loose')
    (h : Shift p q i loose s t) : Shift p' q' i loose' s t := by
  induction h with
  | refl s => exact .refl s
  | trans _ _ ih1 ih2 => exact ih1.trans ih2
  | weigh s cell => exact .weigh ..
  | fewer s n c hc h => exact .fewer s n c hc (hp _ h)
  | remove s n c hc h => exact .remove s n c hc (hp _ h)
  | more s n c hc h => exact .more s n c hc (hq _ h)
  | create s n channel cell ch a h hno hn hch ha => exact .create s n channel cell ch a (hq _ h) hno hn hch ha
  | members s f => exact .members ..
  | credit s => exact .credit ..
  | owe s cell => exact .owe ..
  | spill s c h hc => exact .spill s c (hl h) hc
  | post s cell addr body h => exact .post s cell addr body (hl h)

/-! ## What the moves do to the stations -/

/-- From `s` to `t` every station but `i` is as before but for its rate, a DORMANT one wholly. -/
structure OnlyRates (i : Nat) (s t : State) : Prop where
  kept : ∀ j st, j ≠ i → s.stations.look j = some st →
    ∃ rate, t.stations.look j = some { st with rate := rate } ∧ (st.place = .dormant → rate = st.rate)
  free : ∀ j, s.stations.look j = none → t.stations.look j = none

theorem OnlyRates.refl (i : Nat) (s : State) : OnlyRates i s s := ⟨fun _ st _ h => ⟨st.rate, h, fun _ => rfl⟩, fun _ h => h⟩

theorem OnlyRates.of_eq (i : Nat) (h : t.stations = s.stations) : OnlyRates i s t :=
  ⟨fun _ st _ hj => ⟨st.rate, by rw [h, hj], fun _ => rfl⟩, fun j hj => by rw [h, hj]⟩

theorem OnlyRates.trans (h : OnlyRates i s t) (g : OnlyRates i t u) : OnlyRates i s u where
  kept j st hj hs := by
    obtain ⟨r, hr, hd⟩ := h.kept j st hj hs
    obtain ⟨r', hr', hd'⟩ := g.kept j _ hj hr
    exact ⟨r', hr', fun hp => (hd' hp).trans (hd hp)⟩
  free j hj := g.free j (h.free j hj)

theorem onlyRates_refreshRates (i cell : Nat) (s : State) : OnlyRates i s (refreshRates cell s) where
  kept j st _ hs := by
    rw [look_refreshRates, hs, Option.map_some]
    by_cases hc : st.place.cell? = some cell
    · exact ⟨_, by rw [if_pos hc], fun hd => by rw [hd] at hc; cases hc⟩
    · exact ⟨st.rate, by rw [if_neg hc], fun _ => rfl⟩
  free j hj := by
    rw [look_refreshRates, hj]
    rfl

theorem onlyRates_updateStation (i : Nat) (f : Station → Station) (s : State) : OnlyRates i s (updateStation i f s) where
  kept j st hj hs := ⟨st.rate, by rw [look_updateStation, if_neg hj, hs], fun _ => rfl⟩
  free j hj := by
    rw [look_updateStation]
    split
    · next h => rw [← h, hj]; rfl
    · exact hj

theorem flushCopy_stations (n : Nat) (s : State) : (flushCopy n s).stations = s.stations := by
  cases h : s.copies.look n with
  | none => simp [flushCopy, h]
  | some c => rw [flushCopy_frame h]

/-- Rates written at a cell after a change of other records. -/
theorem onlyRates_reload (i cell : Nat) (h : t.stations = s.stations) :
    OnlyRates i s (refreshRates cell (refreshM cell t)) :=
  (OnlyRates.of_eq (t := refreshM cell t) i h).trans (onlyRates_refreshRates ..)

theorem Shift.onlyRates (h : Shift p q i loose s t) : OnlyRates i s t := by
  induction h with
  | refl s => exact .refl ..
  | trans _ _ ih1 ih2 => exact ih1.trans ih2
  | weigh s cell => exact (OnlyRates.of_eq (s := s) (t := refreshW cell s) i rfl).trans (onlyRates_refreshRates ..)
  | fewer s n c _ _ => exact .of_eq _ rfl
  | remove s n c hc _ =>
    rw [removeCopy_eq hc]
    exact (onlyRates_reload (s := s) (t := (flushCopy n s).setCopies ((flushCopy n s).copies.drop n)) i c.cell
      (flushCopy_stations n s)).trans (.of_eq _ (owePass_stations ..))
  | more s n c _ _ => exact .of_eq _ rfl
  | create s n channel cell ch a _ _ hn hch ha =>
    rw [createCopy_eq hn hch ha]
    exact onlyRates_reload (s := s) i cell rfl
  | members s f => exact onlyRates_updateStation ..
  | credit s => exact onlyRates_updateStation ..
  | owe s cell => exact .of_eq _ (owePass_stations ..)
  | spill s c _ _ => exact .of_eq _ rfl
  | post s cell addr body _ => exact .of_eq _ (by rw [postSignal_frame])

/-- Station `i` has kept all but its memberships, its rate and its credit. -/
theorem Shift.station (h : Shift p q i loose s t) {st : Station} (hs : s.stations.look i = some st) :
    ∃ members rate credit, t.stations.look i = some { st with members := members, rate := rate, credit := credit } := by
  have rates : ∀ {s t : State} {st : Station}, OnlyRates (i + 1) s t → s.stations.look i = some st →
      ∃ members rate credit, t.stations.look i = some { st with members := members, rate := rate, credit := credit } :=
    fun h hs => by
      obtain ⟨r, hr, -⟩ := h.kept i _ (by omega) hs
      exact ⟨_, r, _, hr⟩
  induction h generalizing st with
  | refl s => exact ⟨_, _, _, hs⟩
  | trans _ _ ih1 ih2 =>
    obtain ⟨m, r, c, h1⟩ := ih1 hs
    obtain ⟨m', r', c', h2⟩ := ih2 h1
    exact ⟨m', r', c', h2⟩
  | weigh s cell => exact rates (Shift.weigh (p := p) (q := q) (loose := loose) s cell).onlyRates hs
  | fewer s n c hc hp => exact ⟨_, _, _, hs⟩
  | remove s n c hc hp => exact rates (Shift.remove (q := q) (loose := loose) s n c hc hp).onlyRates hs
  | more s n c hc hq => exact ⟨_, _, _, hs⟩
  | create s n channel cell ch a hq hno hn hch ha =>
    exact rates (Shift.create (p := p) (loose := loose) s n channel cell ch a hq hno hn hch ha).onlyRates hs
  | members s f => exact ⟨f st.members, st.rate, st.credit, by rw [look_updateStation, if_pos rfl, hs]; rfl⟩
  | credit s => exact ⟨_, _, _, by rw [fillCredit, look_updateStation, if_pos rfl, hs]; rfl⟩
  | owe s cell => exact ⟨_, _, _, by rw [owePass_stations, hs]⟩
  | spill s c _ _ => exact ⟨_, _, _, hs⟩
  | post s cell addr body _ => exact ⟨_, _, _, by rw [postSignal_stations, hs]⟩

theorem ratesKept_owePass (cell : Nat) (s : State) : RatesKept s (owePass cell s) :=
  .of_eq (owePass_cells ..) (owePass_stations ..)

/-- The law of rates is kept. -/
theorem Shift.rates (h : Shift p q i loose s t) : RatesKept s t := by
  induction h with
  | refl s => exact fun _ _ h => h
  | trans h1 _ ih1 ih2 => exact fun hw n hn => ih2 (h1.inner.wf.1 hw) n (ih1 hw n hn)
  | weigh s cell => exact ratesKept_reweigh cell s
  | fewer s n c _ _ => exact .of_eq rfl rfl
  | remove s n c hc _ =>
    rw [removeCopy_eq hc]
    intro hw k hk
    have h1 := ratesKept_flushCopy n s hw k hk
    have hwf := (inner_flushCopy n s).wf.1 hw
    generalize flushCopy n s = f at h1 hwf
    have h2 : RatesKept f (f.setCopies (f.copies.drop n)) := .of_eq rfl rfl
    have h3 := ratesKept_reload c.cell (f.setCopies (f.copies.drop n))
    have h4 := ratesKept_owePass c.cell (refreshRates c.cell (refreshM c.cell (f.setCopies (f.copies.drop n))))
    exact h4 ((inner_refreshRates ..).wf.1 hwf) k (h3 hwf k (h2 hwf k h1))
  | more s n c _ _ => exact .of_eq rfl rfl
  | create s n channel cell ch a _ _ hn hch ha =>
    rw [createCopy_eq hn hch ha]
    generalize newCopy s channel cell ch a = c
    have hk : RatesKept s (withCopy s n c) := .of_eq rfl rfl
    exact fun hw k h => ratesKept_reload cell (withCopy s n c) hw k (hk hw k h)
  | members s f => exact ratesKept_updateStation (f := fun st => { st with members := f st.members }) (fun _ => ⟨rfl, rfl, rfl⟩) s
  | credit s => exact ratesKept_updateStation (f := fun st => { st with credit := fullCredit s.time.unit st.rate }) (fun _ => ⟨rfl, rfl, rfl⟩) s
  | owe s cell => exact ratesKept_owePass cell s
  | spill s c _ _ => exact .of_eq rfl rfl
  | post s cell addr body _ =>
    exact .of_eq (postSignal_cells ..) (postSignal_stations ..)

/-! ## Copies, counters, pools, trunks, handovers -/

theorem removeCopy_copies {n : Nat} {c : Copy} (h : s.copies.look n = some c) (j : Nat) :
    (removeCopy n s).copies.look j = if j = n then none else s.copies.look j := by
  rw [removeCopy_eq h, owePass_copies, refreshRates_copies, refreshM_frame, setCells_copies, setCopies_copies, Table.look_drop,
    flushCopy_frame h, Table.look_put]
  by_cases hj : j = n <;> simp [hj]

theorem removeCopy_counters {n : Nat} {c : Copy} (h : s.copies.look n = some c) :
    (removeCopy n s).counters = (flushCopy n s).counters := by
  rw [removeCopy_eq h, owePass_counters, refreshRates_counters]
  rfl

theorem removeCopy_pools {n : Nat} {c : Copy} (h : s.copies.look n = some c) :
    (removeCopy n s).pools = (flushCopy n s).pools := by
  rw [removeCopy_eq h, owePass_pools, refreshRates_pools]
  rfl

theorem removeCopy_trunks (n : Nat) (s : State) : (removeCopy n s).trunks = s.trunks ∧ (removeCopy n s).handovers = s.handovers := by
  cases h : s.copies.look n with
  | none => simp [removeCopy, h]
  | some c =>
    rw [removeCopy_eq h, owePass_trunks, owePass_handovers, refreshRates_trunks, refreshRates_handovers, refreshM_frame,
      flushCopy_frame h]
    exact ⟨rfl, rfl⟩

theorem createCopy_copies {n channel cell : Nat} {ch : Channel} {a : Account}
    (hn : s.copies.lowestFree Config.copies = some n) (hch : s.channels.look channel = some ch)
    (ha : s.account cell = some a) (j : Nat) : (createCopy channel cell s).1.copies.look j =
      if j = n then some (newCopy s channel cell ch a) else s.copies.look j := by
  rw [createCopy_eq hn hch ha]
  generalize newCopy s channel cell ch a = c
  rw [refreshRates_copies]
  exact Table.look_put ..

/-- What a created copy leaves of the other fields. -/
theorem createCopy_frame {n channel cell : Nat} {ch : Channel} {a : Account}
    (hn : s.copies.lowestFree Config.copies = some n) (hch : s.channels.look channel = some ch)
    (ha : s.account cell = some a) : (createCopy channel cell s).1 = { s with
      cells := (createCopy channel cell s).1.cells, stations := (createCopy channel cell s).1.stations
      copies := s.copies.put n (newCopy s channel cell ch a), created := (createCopy channel cell s).1.created
      draws := (createCopy channel cell s).1.draws } := by
  rw [createCopy_eq hn hch ha]
  have hw := withCopy_frame s n (newCopy s channel cell ch a)
  generalize withCopy s n (newCopy s channel cell ch a) = w at hw ⊢
  have hr := reload_frame cell w
  generalize refreshRates cell (refreshM cell w) = r at hr ⊢
  show r = _
  rw [hr, hw]

/-- A copy at a cell that loses none has kept all but its member count. -/
theorem Shift.copies (h : Shift p q i loose s t) {n : Nat} {c : Copy} (hc : s.copies.look n = some c) (hp : ¬ p c.cell) :
    ∃ members, t.copies.look n = some { c with members := members } := by
  induction h generalizing c with
  | refl s => exact ⟨_, hc⟩
  | trans _ _ ih1 ih2 =>
    obtain ⟨m, h1⟩ := ih1 hc hp
    obtain ⟨m', h2⟩ := ih2 h1 hp
    exact ⟨m', h2⟩
  | weigh s cell => exact ⟨_, by rw [reweigh_copies, hc]⟩
  | fewer s k d hd hpd =>
    have hn : n ≠ k := by
      rintro rfl
      rw [hc] at hd
      exact hp (Option.some.inj hd ▸ hpd)
    exact ⟨_, by rw [setCopies_copies, Table.look_put, if_neg hn, hc]⟩
  | remove s k d hd hpd =>
    have hn : n ≠ k := by
      rintro rfl
      rw [hc] at hd
      exact hp (Option.some.inj hd ▸ hpd)
    exact ⟨_, by rw [removeCopy_copies hd, if_neg hn, hc]⟩
  | more s k d hd hqd =>
    by_cases hn : n = k
    · subst hn
      rw [hc] at hd
      obtain rfl := Option.some.inj hd
      exact ⟨_, by rw [setCopies_copies, Table.look_put, if_pos rfl]⟩
    · exact ⟨_, by rw [setCopies_copies, Table.look_put, if_neg hn, hc]⟩
  | create s k channel cell ch a _ _ hn hch ha =>
    have hnk : n ≠ k := by
      rintro rfl
      rw [(Table.lowestFree_spec _ _ _ hn).2.1] at hc
      cases hc
    exact ⟨_, by rw [createCopy_copies hn hch ha, if_neg hnk, hc]⟩
  | members s f => exact ⟨_, hc⟩
  | credit s => exact ⟨_, hc⟩
  | owe s cell => exact ⟨_, by rw [owePass_copies, hc]⟩
  | spill s c _ _ => exact ⟨_, hc⟩
  | post s cell addr body _ => exact ⟨_, by rw [postSignal_copies, hc]⟩

/-- Only entries discarded at the cells that lose members are counted, and what is lost on its way. -/
theorem Shift.counters (h : Shift p q i loose s t) :
    CountersKept s t fun c => (∃ n, p n ∧ c = .cell n .replayDiscarded) ∨ (loose ∧ Spilled c) := by
  induction h with
  | refl s => exact fun _ _ => rfl
  | trans _ _ ih1 ih2 => exact ih1.trans ih2
  | weigh s cell => exact countersKept_of_eq (reweigh_counters ..) _
  | fewer s n c _ _ => exact fun _ _ => rfl
  | remove s n c hc hp =>
    refine CountersKept.mono (fun d hd => ?_) fun d hd => .inl ⟨c.cell, hp, hd⟩
    rw [State.counter, removeCopy_counters hc]
    exact countersKept_flushCopy hc d hd
  | more s n c _ _ => exact fun _ _ => rfl
  | create s n channel cell ch a _ _ hn hch ha => exact countersKept_of_eq (by rw [createCopy_frame hn hch ha]) _
  | members s f => exact fun _ _ => rfl
  | credit s => exact fun _ _ => rfl
  | owe s cell => exact countersKept_of_eq (owePass_counters ..) _
  | spill s c h hc => exact (countersKept_advance c 1 s).mono fun d hd => .inr ⟨h, hd ▸ hc⟩
  | post s cell addr body h =>
    rcases postSignal_cases cell addr body s with ⟨_, v, e⟩ | e | e <;> rw [e]
    · exact fun _ _ => rfl
    · exact fun _ _ => rfl
    · exact (countersKept_advance _ 1 s).mono fun d hd => .inr ⟨h, hd ▸ .signalling _⟩

/-- No handover record changes. -/
theorem Shift.handovers (h : Shift p q i loose s t) : t.handovers = s.handovers := by
  induction h with
  | refl s => rfl
  | trans _ _ ih1 ih2 => exact ih2.trans ih1
  | weigh s cell => exact reweigh_handovers ..
  | fewer s n c _ _ => rfl
  | remove s n c hc _ => exact (removeCopy_trunks n s).2
  | more s n c _ _ => rfl
  | create s n channel cell ch a _ _ hn hch ha => rw [createCopy_frame hn hch ha]
  | members s f => rfl
  | credit s => rfl
  | owe s cell => exact owePass_handovers ..
  | spill s c _ _ => rfl
  | post s cell addr body _ => exact postSignal_handovers ..

/-- Where nothing is lost on its way, no message is made. -/
theorem Shift.trunks (h : Shift p q i loose s t) (hl : ¬ loose) : t.trunks = s.trunks := by
  induction h with
  | refl s => rfl
  | trans _ _ ih1 ih2 => exact ih2.trans ih1
  | weigh s cell => exact reweigh_trunks ..
  | fewer s n c _ _ => rfl
  | remove s n c hc _ => exact (removeCopy_trunks n s).1
  | more s n c _ _ => rfl
  | create s n channel cell ch a _ _ hn hch ha => rw [createCopy_frame hn hch ha]
  | members s f => rfl
  | credit s => rfl
  | owe s cell => exact owePass_trunks ..
  | spill s c h _ => exact absurd h hl
  | post s cell addr body h => exact absurd h hl

end Sys2Proof.Machine
end

