-- ==== Sys2Proof/Proofs/Ends.lean ====
section
/-! PROOFS. The three ends of a handover or of a stay: forced, cancelled to the old cell, dormant (R60, R76, R77). -/

namespace Sys2Proof.Machine

/-! ## Memberships that leave a cell, memberships that are carried -/

theorem State.copyAt_spec {s : State} (hw : s.copies.wf = true) {channel cell n : Nat} {c : Copy}
    (h : s.copyAt channel cell = some (n, c)) : s.copies.look n = some c ∧ c.channel = channel ∧ c.cell = cell := by
  have hp := List.find?_some h
  simp only [Bool.and_eq_true, beq_iff_eq] at hp
  exact ⟨(Table.mem_entries hw).mp (List.mem_of_find?_eq_some h), hp⟩

theorem shift_dropMember {s : State} (hw : s.copies.wf = true) (channel cell : Nat) (q : Nat → Prop) (i : Nat) (loose : Prop) :
    Shift (· = cell) q i loose s (dropMember channel cell s) := by
  unfold dropMember
  cases h : s.copyAt channel cell with
  | none => exact .refl s
  | some e =>
    obtain ⟨n, c⟩ := e
    obtain ⟨hn, -, hc⟩ := State.copyAt_spec hw h
    dsimp only
    split
    · exact .remove s n c hn hc
    · exact .fewer s n c hn hc

theorem shift_dropMembers {s : State} (hw : s.copies.wf = true) (cell : Nat) (q : Nat → Prop) (i : Nat) (loose : Prop)
    (channels : List Nat) : Shift (· = cell) q i loose s (channels.foldl (fun s ch => dropMember ch cell s) s) := by
  induction channels generalizing s with
  | nil => exact .refl s
  | cons ch rest ih =>
    have h := shift_dropMember hw ch cell q i loose
    exact h.trans (ih (h.inner.wf.2.1 hw))

/-- A membership placed at a cell: the copy there gains it, or one is created for it; else nothing but the full table is counted. -/
theorem placeMembership_cases {s : State} (hw : s.copies.wf = true) (i channel cell : Nat) :
    (∃ u status, placeMembership i channel cell s = (updateStation i (fun st =>
        { st with members := st.members ++ [⟨channel, status⟩] }) u, some status)
      ∧ ((∃ n c, s.copies.look n = some c ∧ c.channel = channel ∧ c.cell = cell ∧ c.status = status
          ∧ u = s.setCopies (s.copies.put n { c with members := c.members + 1 }))
        ∨ ∃ n ch a, s.copyAt channel cell = none ∧ s.copies.lowestFree Config.copies = some n
          ∧ s.channels.look channel = some ch ∧ s.account cell = some a ∧ (newCopy s channel cell ch a).status = status
          ∧ u = (createCopy channel cell s).1))
    ∨ ((placeMembership i channel cell s = (s, none) ∨ placeMembership i channel cell s = (bumpPart .copyTableFull s, none))
      ∧ s.copyAt channel cell = none
      ∧ (s.copies.lowestFree Config.copies = none ∨ s.channels.look channel = none ∨ s.account cell = none)) := by
  cases h : s.copyAt channel cell with
  | some e =>
    obtain ⟨n, c⟩ := e
    obtain ⟨hn, hch, hc⟩ := State.copyAt_spec hw h
    exact .inl ⟨_, c.status, by simp [placeMembership, h], .inl ⟨n, c, hn, hch, hc, rfl, rfl⟩⟩
  | none =>
    cases hn : s.copies.lowestFree Config.copies with
    | none => exact .inr ⟨.inr (by simp [placeMembership, h, createCopy, hn]), rfl, .inl rfl⟩
    | some n =>
      cases hch : s.channels.look channel with
      | none => exact .inr ⟨.inl (by simp [placeMembership, h, createCopy, hn, hch]), rfl, .inr (.inl rfl)⟩
      | some ch =>
        cases ha : s.account cell with
        | none => exact .inr ⟨.inl (by simp [placeMembership, h, createCopy, hn, hch, ha]), rfl, .inr (.inr rfl)⟩
        | some a =>
          have he := createCopy_eq hn hch ha
          exact .inl ⟨_, _, by simp [placeMembership, h, he]; rfl, .inr ⟨n, ch, a, rfl, rfl, rfl, rfl, rfl, by rw [he]⟩⟩

/-- A membership has the status of its copy at the cell (R126). -/
def State.Follows (s : State) (cell : Nat) (x : Membership) : Prop :=
  ∃ n c, s.copies.look n = some c ∧ c.channel = x.channel ∧ c.cell = cell ∧ c.status = x.status

theorem Copy.status_eq (c : Copy) :
    c.status = if c.state = .held then .waiting else if c.tier = .full then .full else .reduced := by
  unfold Copy.status
  cases c.state <;> cases c.tier <;> rfl

theorem Shift.follows {p q : Nat → Prop} {i cell : Nat} {loose : Prop} {s t : State} (h : Shift p q i loose s t) (hp : ¬ p cell)
    {x : Membership} (hx : s.Follows cell x) : t.Follows cell x := by
  obtain ⟨n, c, hn, hch, hc, hs⟩ := hx
  obtain ⟨m, hm⟩ := h.copies hn (by rw [hc]; exact hp)
  exact ⟨n, _, hm, hch, hc, hs⟩

/-- One membership placed: a chain of small moves at that cell, after which the station has it with the status of its copy there. -/
theorem placeMembership_some {s : State} (hw : s.copies.wf = true) {i channel cell : Nat} {status : MemberStatus}
    (h : (placeMembership i channel cell s).2 = some status) :
    Shift (fun _ => False) (· = cell) i False s (placeMembership i channel cell s).1
      ∧ (∃ u : State, OnlyRates (i + 1) s u ∧ (placeMembership i channel cell s).1 =
          updateStation i (fun st => { st with members := st.members ++ [⟨channel, status⟩] }) u)
      ∧ (placeMembership i channel cell s).1.Follows cell ⟨channel, status⟩
      ∧ (placeMembership i channel cell s).1.copies.size ≤ s.copies.size + 1 := by
  rcases placeMembership_cases hw i channel cell with ⟨u, st', he, hu⟩ | ⟨he | he, -⟩
  · rw [he] at h ⊢
    obtain rfl : st' = status := Option.some.inj h
    rcases hu with ⟨n, c, hn, hch, hc, hst, rfl⟩ | ⟨n, ch, a, hno, hn, hch, ha, hst, rfl⟩
    · refine ⟨(Shift.more s n c hn hc).trans (.members _ (· ++ [⟨channel, st'⟩])),
        ⟨s.setCopies (s.copies.put n { c with members := c.members + 1 }), .of_eq _ rfl, rfl⟩,
        ⟨n, { c with members := c.members + 1 }, ?_, hch, hc, hst⟩, ?_⟩
      · show (s.copies.put n _).look n = _
        rw [Table.look_put, if_pos rfl]
      · exact (Table.size_put_le s.copies n _)
    · have hsh : Shift (fun _ => False) (· = cell) i False s (createCopy channel cell s).1 :=
        .create s n channel cell ch a rfl hno hn hch ha
      obtain ⟨h1, h2, -, -⟩ := newCopy_spec s channel cell ch a
      refine ⟨hsh.trans (.members _ (· ++ [⟨channel, st'⟩])),
        ⟨_, (Shift.create (p := fun _ => False) (q := (· = cell)) (i := i + 1) (loose := False) s n channel cell ch a rfl hno hn hch
          ha).onlyRates, rfl⟩, ⟨n, newCopy s channel cell ch a, ?_, h1, h2, hst⟩, ?_⟩
      · show (createCopy channel cell s).1.copies.look n = _
        rw [createCopy_copies hn hch ha, if_pos rfl]
      · show (createCopy channel cell s).1.copies.size ≤ _
        rw [createCopy_frame hn hch ha]
        exact Table.size_put_le s.copies n _
  · rw [he] at h
    cases h
  · rw [he] at h
    cases h

/-- A membership is placed where its channel is defined, its cell configured and the copy table not full. -/
theorem placeMembership_room {s : State} (hw : s.copies.wf = true) (i : Nat) {channel cell : Nat}
    (hch : (s.channels.look channel).isSome = true) (hc : (s.account cell).isSome = true) (hn : s.copies.size < 2048) :
    ∃ status, (placeMembership i channel cell s).2 = some status := by
  rcases placeMembership_cases hw i channel cell with ⟨u, status, he, -⟩ | ⟨-, -, h | h | h⟩
  · exact ⟨status, by rw [he]⟩
  · rw [Option.eq_none_iff_forall_ne_some] at h
    obtain ⟨n, hn⟩ := Option.isSome_iff_exists.mp (Table.lowestFree_isSome (capacity := Config.copies) hn)
    exact absurd hn (h n)
  · rw [h] at hch
    cases hch
  · rw [h] at hc
    cases hc

/-- A carried channel: small moves at the new cell, a membership lost on its way among them. -/
theorem shift_carryChannel {s : State} (hw : s.copies.wf = true) (i newCell : Nat) (addr : Addr) (channel : Nat) :
    Shift (fun _ => False) (· = newCell) i True s (carryChannel i newCell addr s channel) := by
  unfold carryChannel
  cases h : (placeMembership i channel newCell s).2 with
  | some status =>
    simp only [h]
    exact (placeMembership_some hw h).1.mono (fun _ h => h) (fun _ h => h) False.elim
  | none =>
    have h1 : Shift (fun _ => False) (· = newCell) i True s (placeMembership i channel newCell s).1 := by
      rcases placeMembership_cases hw i channel newCell with ⟨u, status, he, -⟩ | ⟨he | he, -⟩ <;> rw [he] at h ⊢
      · cases h
      · exact .refl s
      · exact .spill s _ trivial .table
    simp only [h]
    refine h1.trans (.trans ?_ (.spill _ _ trivial .lost))
    unfold postNoRoom
    split
    · exact .post _ _ _ _ trivial
    · exact .refl _

theorem shift_carryChannels {s : State} (hw : s.copies.wf = true) (i newCell : Nat) (addr : Addr) (channels : List Nat) :
    Shift (fun _ => False) (· = newCell) i True s (channels.foldl (carryChannel i newCell addr) s) := by
  induction channels generalizing s with
  | nil => exact .refl s
  | cons ch rest ih =>
    have h := shift_carryChannel hw i newCell addr ch
    exact h.trans (ih (h.inner.wf.2.1 hw))

/-- With room, every carried channel is placed: nothing is lost, and each membership has the status of its copy at the new cell. -/
theorem carryChannels_room {s : State} (hw : s.copies.wf = true) {i newCell : Nat} (addr : Addr) {channels : List Nat}
    (hch : ∀ ch ∈ channels, (s.channels.look ch).isSome = true) (hc : (s.cells.look newCell).isSome = true)
    (hsize : s.copies.size + channels.length ≤ 2048) {st : Station} (hst : s.stations.look i = some st)
    (hold : ∀ x ∈ st.members, s.Follows newCell x) :
    Shift (fun _ => False) (· = newCell) i False s (channels.foldl (carryChannel i newCell addr) s)
      ∧ (channels.foldl (carryChannel i newCell addr) s).copies.size ≤ s.copies.size + channels.length
      ∧ ∃ now, (channels.foldl (carryChannel i newCell addr) s).stations.look i = some now
        ∧ now.members.map (·.channel) = st.members.map (·.channel) ++ channels
        ∧ ∀ x ∈ now.members, (channels.foldl (carryChannel i newCell addr) s).Follows newCell x := by
  induction channels generalizing s st with
  | nil => exact ⟨.refl s, Nat.le_refl _, st, hst, by simp, hold⟩
  | cons ch rest ih =>
    rw [List.length_cons] at hsize
    obtain ⟨status, h⟩ := placeMembership_room hw i (hch ch (List.mem_cons_self ..))
      (by rw [State.account_isSome]; exact hc) (by omega)
    obtain ⟨hsh, ⟨u, hu, he⟩, hfol, hsz⟩ := placeMembership_some hw h
    have hstep : carryChannel i newCell addr s ch = (placeMembership i ch newCell s).1 := by simp [carryChannel, h]
    obtain ⟨r, hr, -⟩ := hu.kept i st (by omega) hst
    have hnow : (placeMembership i ch newCell s).1.stations.look i =
        some { st with members := st.members ++ [⟨ch, status⟩], rate := r } := by
      rw [he, look_updateStation, if_pos rfl, hr]
      rfl
    have hframe := hsh.inner.frame
    rw [List.foldl_cons, hstep]
    obtain ⟨h1, h2, now, h3, h4, h5⟩ := ih (hsh.inner.wf.2.1 hw)
      (fun c hcm => by rw [hframe]; exact hch c (List.mem_cons_of_mem _ hcm))
      (by
        cases hcell : s.cells.look newCell with
        | none => rw [hcell] at hc; cases hc
        | some c =>
          obtain ⟨a, ha, -⟩ := hsh.inner.calm.cell hcell
          rw [ha]
          rfl) (by omega) hnow (fun x hx => by
        rcases List.mem_append.mp hx with hx | hx
        · exact hsh.follows (by simp) (hold x hx)
        · rw [List.mem_singleton.mp hx]
          exact hfol)
    refine ⟨hsh.trans h1, by rw [List.length_cons]; omega, now, h3, ?_, h5⟩
    rw [h4]
    simp

end Sys2Proof.Machine
end

