-- ==== Sys2Proof/Proofs/Acts.lean ====
section
/-! PROOFS. What one end does: a handover forced, a handover cancelled to its old cell, a station gone DORMANT (R60, R76, R77, R131). -/

namespace Sys2Proof.Machine

variable {p q : Nat → Prop} {i : Nat} {loose : Prop} {s t u : State}

/-! ## More that small moves keep -/

/-- Where no copy is created, the table of copies does not grow. -/
theorem Shift.size (h : Shift p q i loose s t) (hq : ∀ n, ¬ q n) (hw : s.copies.wf = true) : t.copies.size ≤ s.copies.size := by
  induction h with
  | refl s => exact Nat.le_refl _
  | trans h1 _ ih1 ih2 => exact (ih2 (h1.inner.wf.2.1 hw)).trans (ih1 hw)
  | weigh s cell => rw [reweigh_copies]
  | fewer s n c hc _ => exact le_of_eq (Table.size_put_listed _ _ _ hw (by rw [hc]; rfl))
  | remove s n c hc _ =>
    have hf : (flushCopy n s).copies.size = s.copies.size := by
      rw [flushCopy_frame hc]
      exact Table.size_put_listed _ _ _ hw (by rw [hc]; rfl)
    rw [removeCopy_eq hc, owePass_copies, refreshRates_copies, ← hf]
    exact Table.size_drop_le _ _
  | more s n c hc h => exact absurd h (hq _)
  | create s n channel cell ch a h => exact absurd h (hq _)
  | members s f => exact Nat.le_refl _
  | credit s => exact Nat.le_refl _
  | owe s cell => rw [owePass_copies]
  | spill s c _ _ => exact Nat.le_refl _
  | post s cell addr body _ => rw [postSignal_copies]

/-- The copies at the cells that `r` picks have no entries queued. -/
def State.NoEntries (s : State) (r : Nat → Prop) : Prop := ∀ n c, s.copies.look n = some c → r c.cell → c.queue = []

theorem releaseAll_nil (s : State) : releaseAll [] s = s := rfl

theorem flushCopy_pools_of_nil {n : Nat} {c : Copy} (h : s.copies.look n = some c) (hq : c.queue = []) :
    (flushCopy n s).pools = s.pools := by
  rw [flushCopy_eq h, hq, releaseAll_nil]
  rfl

/-- Where the copies that lose members have no entries queued, no buffer is released. -/
theorem Shift.pools (h : Shift p q i loose s t) {r : Nat → Prop} (hpr : ∀ n, p n → r n) (hr : s.NoEntries r) :
    t.pools = s.pools ∧ t.NoEntries r := by
  induction h with
  | refl s => exact ⟨rfl, hr⟩
  | trans _ _ ih1 ih2 =>
    obtain ⟨e1, r1⟩ := ih1 hr
    obtain ⟨e2, r2⟩ := ih2 r1
    exact ⟨e2.trans e1, r2⟩
  | weigh s cell => exact ⟨reweigh_pools .., fun n c => by rw [reweigh_copies]; exact hr n c⟩
  | fewer s n c hc hp =>
    refine ⟨rfl, fun m d hd hrd => ?_⟩
    rw [setCopies_copies, Table.look_put] at hd
    split at hd
    · obtain rfl := Option.some.inj hd
      exact hr n c hc hrd
    · exact hr m d hd hrd
  | remove s n c hc hp =>
    refine ⟨(removeCopy_pools hc).trans (flushCopy_pools_of_nil hc (hr n c hc (hpr _ hp))), fun m d hd hrd => ?_⟩
    rw [removeCopy_copies hc] at hd
    split at hd
    · cases hd
    · exact hr m d hd hrd
  | more s n c hc hq =>
    refine ⟨rfl, fun m d hd hrd => ?_⟩
    rw [setCopies_copies, Table.look_put] at hd
    split at hd
    · obtain rfl := Option.some.inj hd
      exact hr n c hc hrd
    · exact hr m d hd hrd
  | create s n channel cell ch a hq hno hn hch ha =>
    refine ⟨by rw [createCopy_frame hn hch ha], fun m d hd hrd => ?_⟩
    rw [createCopy_copies hn hch ha] at hd
    split at hd
    · rw [← Option.some.inj hd]
      exact (newCopy_spec s channel cell ch a).2.2.1
    · exact hr m d hd hrd
  | members s f => exact ⟨rfl, hr⟩
  | credit s => exact ⟨rfl, hr⟩
  | owe s cell => exact ⟨owePass_pools .., fun n c => by rw [owePass_copies]; exact hr n c⟩
  | spill s c _ _ => exact ⟨rfl, hr⟩
  | post s cell addr body _ => exact ⟨postSignal_pools .., fun n c => by rw [postSignal_copies]; exact hr n c⟩

/-! ## The memberships of a station carried (R131) -/

theorem putStation_eq {st : Station} (h : s.stations.look i = some st) (f : Station → Station) :
    s.setStations (s.stations.put i (f st)) = updateStation i f s := by
  simp [updateStation, Table.modify, h]

/-- The state of a carried list between its two phases. -/
def leftOld (i oldCell : Nat) (st : Station) (s : State) : State :=
  owePass oldCell ((st.members.map (·.channel)).foldl (fun s ch => dropMember ch oldCell s)
    (s.setStations (s.stations.put i { st with members := [] })))

theorem carryMemberships_eq {st : Station} (h : s.stations.look i = some st) (oldCell newCell : Nat) :
    carryMemberships i oldCell newCell s =
      (st.members.map (·.channel)).foldl (carryChannel i newCell st.addr) (leftOld i oldCell st s) := by
  simp only [carryMemberships, h]
  rfl

theorem shift_leftOld {st : Station} (hw : s.copies.wf = true) (h : s.stations.look i = some st) (oldCell : Nat) (q : Nat → Prop)
    (loose : Prop) : Shift (· = oldCell) q i loose s (leftOld i oldCell st s) := by
  rw [leftOld, putStation_eq h fun st => { st with members := [] }]
  exact (Shift.members s fun _ => []).trans ((shift_dropMembers (s := updateStation i _ s) hw ..).trans (.owe ..))

theorem shift_carryMemberships (hw : s.copies.wf = true) (i oldCell newCell : Nat) :
    Shift (· = oldCell) (· = newCell) i True s (carryMemberships i oldCell newCell s) := by
  cases h : s.stations.look i with
  | none => simpa [carryMemberships, h] using Shift.refl s
  | some st =>
    rw [carryMemberships_eq h]
    have h1 := shift_leftOld hw h oldCell (· = newCell) True
    exact h1.trans ((shift_carryChannels (h1.inner.wf.2.1 hw) ..).mono (fun _ h => h.elim) (fun _ h => h) id)

/-- With room every membership follows the station, and nothing is lost. -/
theorem carryMemberships_room (hw : s.copies.wf = true) {st : Station} (h : s.stations.look i = some st) (oldCell : Nat)
    {newCell : Nat} (hch : ∀ x ∈ st.members, (s.channels.look x.channel).isSome = true)
    (hc : (s.cells.look newCell).isSome = true) (hsize : s.copies.size + st.members.length ≤ 2048) :
    Shift (· = oldCell) (· = newCell) i False s (carryMemberships i oldCell newCell s)
      ∧ (carryMemberships i oldCell newCell s).copies.size ≤ s.copies.size + st.members.length
      ∧ ∃ now, (carryMemberships i oldCell newCell s).stations.look i = some now
        ∧ now.members.map (·.channel) = st.members.map (·.channel)
        ∧ ∀ x ∈ now.members, (carryMemberships i oldCell newCell s).Follows newCell x := by
  rw [carryMemberships_eq h]
  have h1 := shift_leftOld hw h oldCell (· = newCell) False
  have hsz := (shift_leftOld hw h oldCell (fun _ => False) False).size (fun _ => id) hw
  have hnow : ∃ now, (leftOld i oldCell st s).stations.look i = some now ∧ now.members = [] := by
    have hput : (s.setStations (s.stations.put i { st with members := [] })).stations.look i = some { st with members := [] } := by
      rw [setStations_stations, Table.look_put, if_pos rfl]
    have hdrop := shift_dropMembers (s := s.setStations (s.stations.put i { st with members := [] })) hw oldCell (fun _ => False)
      (i + 1) False (st.members.map (·.channel))
    obtain ⟨r, hr, -⟩ := (hdrop.trans (.owe _ oldCell)).onlyRates.kept i _ (by omega) hput
    exact ⟨_, hr, rfl⟩
  have hframe := h1.inner.frame
  have hcell : ((leftOld i oldCell st s).cells.look newCell).isSome = true := by
    obtain ⟨c, hcs⟩ := Option.isSome_iff_exists.mp hc
    obtain ⟨a, ha, -⟩ := h1.inner.calm.cell hcs
    rw [ha]
    rfl
  obtain ⟨now0, hnow0, hnil⟩ := hnow
  obtain ⟨g1, g2, now, g3, g4, g5⟩ := carryChannels_room (h1.inner.wf.2.1 hw) (i := i) (newCell := newCell) st.addr
    (channels := st.members.map (·.channel)) (fun ch hm => by
      obtain ⟨x, hx, rfl⟩ := List.mem_map.mp hm
      rw [hframe]
      exact hch x hx) hcell (by rw [List.length_map]; omega) hnow0 (fun x hx => by rw [hnil] at hx; cases hx)
  refine ⟨h1.trans (g1.mono (fun _ h => h.elim) (fun _ h => h) id), ?_, now, g3, ?_, g5⟩
  · rw [List.length_map] at g2
    omega
  · rw [g4, hnil]
    rfl

end Sys2Proof.Machine
end

