-- ==== Sys2Proof/Proofs/ActSpecs.lean ====
section
/-! PROOFS. The three acts as one change of the station's place followed by small moves; what each act does and keeps. -/

namespace Sys2Proof.Machine

variable {p q : Nat → Prop} {i : Nat} {loose : Prop} {s t u : State}

/-! ## The acts taken apart -/

/-- The record of a station whose handover has completed (R76, steps 2 to 4). -/
def arrived (now : Clock) (h : Handover) (st : Station) : Station :=
  { st with place := .associated h.newCell now, prev := some h.oldCell, paused := false }

/-- The handover record freed, the station placed at its new cell, W and rates of both cells after it. -/
def arrivedState (i : Nat) (h : Handover) (st : Station) (s : State) : State :=
  reweigh h.newCell (reweigh h.oldCell
    ((s.setHandovers (s.handovers.drop i)).setStations (s.stations.put i (arrived s.now h st))))

/-- The grant made over it. -/
def grantedState (i : Nat) (h : Handover) (st : Station) (s : State) : State :=
  postSignal h.newCell st.addr (.attachGrant i) (arrivedState i h st s)

theorem forceHandover_eq {h : Handover} {st : Station} (hh : s.handovers.look i = some h) (hst : s.stations.look i = some st) :
    forceHandover i s = bumpPart .handoversForced (bumpPart .handoversCompleted
      (fillCredit i (carryMemberships i h.oldCell h.newCell (grantedState i h st s)))) := by
  simp only [forceHandover, hh, endHandover, completeHandover, hst]
  rfl

/-- The station placed at its old cell again, its handover record freed. -/
def returnedState (i cell : Nat) (since : Clock) (st : Station) (s : State) : State :=
  (s.setHandovers (s.handovers.drop i)).setStations (s.stations.put i { st with place := .associated cell since })

theorem cancelToOld_eq {st : Station} {cell : Nat} {since : Clock} (hst : s.stations.look i = some st)
    (hp : st.place = .moving cell since) : cancelToOld i s =
      bumpPart .handoversCancelled (postSignal cell st.addr (.attachGrant i) (returnedState i cell since st s)) := by
  simp only [cancelToOld, hst, hp]
  rfl

/-- A DORMANT station's copies left, W and rates after it (R60, steps 1 to 3). -/
def leftCell (i cell : Nat) (st : Station) (s : State) : State :=
  reweigh cell (st.members.foldl (fun s m => dropMember m.channel cell s)
    (s.setStations (s.stations.put i (dormantFrom cell st))))

/-- What is owed when a station has gone DORMANT past the expiry age (R63). -/
def oweIfAged (i : Nat) (st : Station) (s : State) : State :=
  if msOfSeconds s.settings.timers.expire ≤ age s.now st.lastHeard then oweExpiry i s else s

theorem goDormant_eq {st : Station} {cell : Nat} (hst : s.stations.look i = some st) (hc : st.place.cell? = some cell) :
    goDormant i s = oweIfAged i st (bumpPart .goneDormant (releaseAll (st.queue.map (·.buffer)) (leftCell i cell st s))) := by
  have hframe : ∀ u : State, Inner s u → u.settings = s.settings ∧ u.now = s.now := fun u hu => by
    rw [hu.frame]
    exact ⟨rfl, rfl⟩
  have hin : Inner s (bumpPart .goneDormant (releaseAll (st.queue.map (·.buffer)) (leftCell i cell st s))) :=
    (inner_putStation ..).trans ((inner_dropMembers ..).trans ((inner_reweigh ..).trans ((inner_releaseAll ..).trans
      (inner_bumpPart ..))))
  obtain ⟨h1, h2⟩ := hframe _ hin
  rw [oweIfAged, h1, h2]
  simp only [goDormant, hst, hc]
  rfl

/-! ## What every act keeps -/

/-- From `s` to `t` one handover or stay of station `i` has ended: the other stations are as before but for their rates, only its handover
record is gone, the law of rates is kept, and only copies at the cells that `p` picks have lost more than a member count. -/
structure Ended (p : Nat → Prop) (i : Nat) (s t : State) : Prop where
  inner     : Inner s t
  others    : OnlyRates i s t
  handovers : ∀ j, t.handovers.look j = if j = i then none else s.handovers.look j
  rates     : RatesKept s t
  copies    : ∀ n c, s.copies.look n = some c → ¬ p c.cell → ∃ members, t.copies.look n = some { c with members := members }

theorem onlyRates_putStation (i : Nat) (st : Station) (h : t.stations = s.stations.put i st)
    (hs : (s.stations.look i).isSome = true) : OnlyRates i s t where
  kept j x hj hx := ⟨x.rate, by rw [h, Table.look_put, if_neg hj, hx], fun _ => rfl⟩
  free j hj := by
    rw [h, Table.look_put, if_neg, hj]
    rintro rfl
    rw [hj] at hs
    cases hs

/-- A count changes the counters alone; so do two. -/
theorem bumpPart_eq (c : PartCounter) (s : State) : ∃ counters, bumpPart c s = s.setCounters counters := ⟨_, rfl⟩

theorem bumpPart_bumpPart_eq (c d : PartCounter) (s : State) : ∃ counters, bumpPart c (bumpPart d s) = s.setCounters counters :=
  ⟨_, rfl⟩

theorem countersKept_bumpPart (c : PartCounter) (s : State) : CountersKept s (bumpPart c s) (· = .part c) :=
  countersKept_advance (.part c) 1 s

/-- A station placed at another cell keeps the law of rates at all cells but those two, where W and the rates are written again. -/
theorem ratesLaw_moved {st now : Station} {oldCell newCell n : Nat} (hw : s.stations.wf = true)
    (hst : s.stations.look i = some st) (hold : st.place.cell? = some oldCell) (hnew : now.place.cell? = some newCell)
    (h : s.RatesLaw n ∨ n = oldCell ∨ n = newCell) {v : State} (hv : v.stations = s.stations.put i now) (hc : v.cells = s.cells) :
    (reweigh newCell (reweigh oldCell v)).RatesLaw n := by
  have hvw : v.stations.wf = true := by rw [hv]; exact Table.wf_put _ _ _ hw
  have hrw : (reweigh oldCell v).stations.wf = true := (inner_reweigh oldCell v).wf.1 hvw
  by_cases h1 : n = newCell
  · rw [h1]
    exact ratesLaw_reweigh hrw newCell
  · refine ratesLaw_reweigh_ne hrw h1 ?_
    by_cases h2 : n = oldCell
    · rw [h2]
      exact ratesLaw_reweigh hvw oldCell
    · refine ratesLaw_reweigh_ne hvw h2 ((h.resolve_right (by tauto)).congr hw hvw (by rw [State.account, State.account, hc])
        fun j => ?_)
      rw [hv, Table.look_put]
      split
      · next hj =>
        rw [hj, hst]
        have e1 : ¬ now.place.cell? = some n := by rw [hnew]; exact fun e => h1 (Option.some.inj e).symm
        have e2 : ¬ st.place.cell? = some n := by rw [hold]; exact fun e => h2 (Option.some.inj e).symm
        simp [Station.ratedAt, e1, e2]
      · rfl

/-! ## A handover forced -/

/-- The counters of a handover forced. -/
def ForcedCounter (cell : Nat) (c : Counter) : Prop :=
  c = .part .handoversForced ∨ c = .part .handoversCompleted ∨ c = .cell cell .replayDiscarded

/-- From `s` to `t` the handover of station `i` has completed as forced. -/
structure Forced (i : Nat) (h : Handover) (st : Station) (s t : State) : Prop extends Ended (· = h.oldCell) i s t where
  station   : ∃ members rate credit, t.stations.look i = some { st with
    place := .associated h.newCell s.time.clock, prev := some h.oldCell, paused := false, members := members, rate := rate
    credit := credit }
  laws      : t.RatesLaw h.oldCell ∧ t.RatesLaw h.newCell
  forced    : Advanced s t (.part .handoversForced) 1
  completed : Advanced s t (.part .handoversCompleted) 1
  kept      : CountersKept s t fun c => ForcedCounter h.oldCell c ∨ Spilled c
  pools     : ∀ r : Nat → Prop, r h.oldCell → s.NoEntries r → t.pools = s.pools ∧ t.NoEntries r

theorem onlyRates_arrivedState (h : Handover) {st : Station} (hst : s.stations.look i = some st) :
    OnlyRates i s (arrivedState i h st s) :=
  (onlyRates_putStation i (arrived s.now h st)
    (t := (s.setHandovers (s.handovers.drop i)).setStations (s.stations.put i (arrived s.now h st))) rfl (by rw [hst]; rfl)).trans
    ((Shift.weigh (p := fun _ => False) (q := fun _ => False) (loose := False) _ h.oldCell).onlyRates.trans
      (Shift.weigh (p := fun _ => False) (q := fun _ => False) (loose := False) _ h.newCell).onlyRates)

theorem look_arrivedState (h : Handover) (st : Station) (s : State) :
    ∃ rate, (arrivedState i h st s).stations.look i = some { arrived s.now h st with rate := rate } := by
  have hput : ((s.setHandovers (s.handovers.drop i)).setStations (s.stations.put i (arrived s.now h st))).stations.look i =
      some (arrived s.now h st) := by rw [setStations_stations, Table.look_put, if_pos rfl]
  obtain ⟨r, hr, -⟩ := ((Shift.weigh (p := fun _ => False) (q := fun _ => False) (i := i + 1) (loose := False) _ h.oldCell).trans
    (.weigh _ h.newCell)).onlyRates.kept i _ (by omega) hput
  exact ⟨r, hr⟩

theorem reweigh_frame (cell : Nat) (s : State) :
    reweigh cell s = { s with cells := (reweigh cell s).cells, stations := (reweigh cell s).stations } := by
  unfold reweigh
  rw [refreshRates_frame]
  rfl

theorem arrivedState_frame (i : Nat) (h : Handover) (st : Station) (s : State) : arrivedState i h st s = { s with
    handovers := s.handovers.drop i, cells := (arrivedState i h st s).cells, stations := (arrivedState i h st s).stations } := by
  unfold arrivedState
  generalize hb : (s.setHandovers (s.handovers.drop i)).setStations (s.stations.put i (arrived s.now h st)) = b
  have h1 := reweigh_frame h.oldCell b
  generalize reweigh h.oldCell b = v at h1 ⊢
  have h2 := reweigh_frame h.newCell v
  generalize reweigh h.newCell v = w at h2 ⊢
  rw [h2, h1, ← hb]
  rfl

theorem inner_arrivedState (i : Nat) (h : Handover) (st : Station) (s : State) : Inner s (arrivedState i h st s) :=
  (inner_dropHandover i s).trans ((inner_putStation ..).trans ((inner_reweigh ..).trans (inner_reweigh ..)))

theorem ratesLaw_arrivedState {h : Handover} {st : Station} (hw : s.stations.wf = true) (hst : s.stations.look i = some st)
    (hp : st.place.cell? = some h.oldCell) {n : Nat} (hn : s.RatesLaw n ∨ n = h.oldCell ∨ n = h.newCell) :
    (arrivedState i h st s).RatesLaw n :=
  ratesLaw_moved hw hst hp rfl hn rfl rfl

/-- What the carried list of a handover leaves, whether or not a membership is lost. -/
theorem forced_of_shift {h : Handover} {st : Station} (hw : s.stations.wf = true) (hst : s.stations.look i = some st)
    (hp : st.place.cell? = some h.oldCell) {x : State}
    (hx : Shift (· = h.oldCell) (· = h.newCell) i True (grantedState i h st s) x)
    (he : forceHandover i s = bumpPart .handoversForced (bumpPart .handoversCompleted x)) :
    Forced i h st s (forceHandover i s) := by
  have hg : OnlyRates i s (grantedState i h st s) :=
    (onlyRates_arrivedState h hst).trans (.of_eq i (postSignal_stations ..))
  have hgin : Inner s (grantedState i h st s) := (inner_arrivedState i h st s).trans (.post ..)
  obtain ⟨counters, hcount⟩ := bumpPart_bumpPart_eq .handoversForced .handoversCompleted x
  have hrun : forceHandover i s = x.setCounters counters := he.trans hcount
  have hframe := arrivedState_frame i h st s
  have hgc : (grantedState i h st s).copies = s.copies := by
    rw [grantedState, postSignal_copies, hframe]
  have hgp : (grantedState i h st s).pools = s.pools := by
    rw [grantedState, postSignal_pools, hframe]
  have hgh : (grantedState i h st s).handovers = s.handovers.drop i := by
    rw [grantedState, postSignal_handovers, hframe]
  have hgk : CountersKept s (grantedState i h st s) Spilled := by
    have h1 : CountersKept s (arrivedState i h st s) Spilled := countersKept_of_eq (by rw [hframe]) _
    refine h1.trans (CountersKept.mono (Shift.counters (p := fun _ => False) (q := fun _ => False) (i := i)
      (Shift.post (loose := True) (arrivedState i h st s) h.newCell st.addr (.attachGrant i) trivial)) ?_)
    rintro c (⟨n, hn, -⟩ | ⟨-, hc⟩)
    · exact hn.elim
    · exact hc
  have hk : CountersKept s x fun c => c = .cell h.oldCell .replayDiscarded ∨ Spilled c :=
    (hgk.mono fun _ h => .inr h).trans (hx.counters.mono fun c hc => by
      rcases hc with ⟨n, rfl, hc⟩ | ⟨-, hc⟩
      · exact .inl hc
      · exact .inr hc)
  have hrates : ∀ n, s.RatesLaw n ∨ n = h.oldCell ∨ n = h.newCell → (forceHandover i s).RatesLaw n := fun n hn => by
    have h1 := ratesLaw_arrivedState hw hst hp hn
    have hwa := (inner_arrivedState i h st s).wf.1 hw
    have h2 : (grantedState i h st s).RatesLaw n :=
      RatesKept.of_eq (t := grantedState i h st s) (postSignal_cells ..) (postSignal_stations ..) hwa n h1
    have h3 := hx.rates (hgin.wf.1 hw) n h2
    rw [hrun]
    exact RatesKept.of_eq (t := x.setCounters counters) rfl rfl (hx.inner.wf.1 (hgin.wf.1 hw)) n h3
  have hforced : CountersKept s (forceHandover i s) fun c => ForcedCounter h.oldCell c ∨ Spilled c := by
    rw [he]
    refine (hk.mono ?_).trans (((countersKept_bumpPart .handoversCompleted x).mono ?_).trans
      ((countersKept_bumpPart .handoversForced _).mono ?_))
    · rintro c (hc | hc)
      · exact .inl (.inr (.inr hc))
      · exact .inr hc
    · exact fun c hc => .inl (.inr (.inl hc))
    · exact fun c hc => .inl (.inl hc)
  have hx0 : ∀ c : PartCounter, ¬ Spilled (.part c) → x.counter (.part c) = s.counter (.part c) := fun c hc =>
    hk _ fun h => h.elim (by rintro ⟨⟩) hc
  refine ⟨⟨?_, ?_, ?_, fun _ n hn => hrates n (.inl hn), ?_⟩, ?_, ⟨hrates _ (.inr (.inl rfl)), hrates _ (.inr (.inr rfl))⟩,
    ?_, ?_, hforced, ?_⟩
  · exact inner_forceHandover i s
  · rw [hrun]
    exact (hg.trans hx.onlyRates).trans (.of_eq (s := x) i rfl)
  · intro j
    rw [hrun]
    show x.handovers.look j = _
    rw [hx.handovers, hgh, Table.look_drop]
  · intro n c hc hn
    rw [hrun]
    exact hx.copies (by rw [hgc, hc]) hn
  · obtain ⟨r, hr⟩ := look_arrivedState (i := i) h st s
    have hgl : (grantedState i h st s).stations.look i = some { arrived s.now h st with rate := r } := by
      rw [grantedState, postSignal_stations, hr]
    obtain ⟨m, r', c, hm⟩ := hx.station hgl
    rw [hrun]
    exact ⟨m, r', c, hm⟩
  · rw [he, Advanced, bumpPart, bump, counter_advance, if_pos rfl]
    congr 1
    rw [bumpPart, bump, counter_advance, if_neg (by simp)]
    exact hx0 _ (by rintro ⟨⟩)
  · rw [he, Advanced, bumpPart, bump, counter_advance, if_neg (by simp)]
    rw [bumpPart, bump, counter_advance, if_pos rfl]
    congr 1
    exact hx0 _ (by rintro ⟨⟩)
  · intro r hr hne
    obtain ⟨h1, h2⟩ := hx.pools (r := r) (by rintro n rfl; exact hr) (fun n c hc => by rw [hgc] at hc; exact hne n c hc)
    rw [hrun]
    exact ⟨h1.trans hgp, h2⟩

theorem shift_forceHandover (hw : s.copies.wf = true) {h : Handover} {st : Station} (hh : s.handovers.look i = some h)
    (hst : s.stations.look i = some st) : ∃ x, Shift (· = h.oldCell) (· = h.newCell) i True (grantedState i h st s) x
      ∧ forceHandover i s = bumpPart .handoversForced (bumpPart .handoversCompleted x) := by
  have hgw : (grantedState i h st s).copies.wf = true := by
    rw [grantedState, postSignal_copies, arrivedState_frame]
    exact hw
  exact ⟨_, (shift_carryMemberships hgw i h.oldCell h.newCell).trans (.credit _), forceHandover_eq hh hst⟩

theorem forced_forceHandover (hw : s.stations.wf = true) (hcw : s.copies.wf = true) {h : Handover} {st : Station}
    (hh : s.handovers.look i = some h) (hst : s.stations.look i = some st) (hp : st.place.cell? = some h.oldCell) :
    Forced i h st s (forceHandover i s) := by
  obtain ⟨x, hx, he⟩ := shift_forceHandover hcw hh hst
  exact forced_of_shift hw hst hp hx he

end Sys2Proof.Machine
end

