-- ==== Sys2Proof/Proofs/Stays.lean ====
section
/-! PROOFS. A handover cancelled to its old cell (R77); a station gone DORMANT (R60). -/

namespace Sys2Proof.Machine

variable {p q : Nat → Prop} {i : Nat} {loose : Prop} {s t u : State}

/-! ## Cancelled to the old cell -/

/-- From `s` to `t` the handover of station `i` has been cancelled back to its old cell. -/
structure Cancelled (i : Nat) (st : Station) (cell : Nat) (since : Clock) (s t : State) : Prop extends Ended (fun _ => False) i s t where
  station  : t.stations.look i = some { st with place := .associated cell since }
  apart    : ∀ j, j ≠ i → t.stations.look j = s.stations.look j
  counted  : Advanced s t (.part .handoversCancelled) 1
  kept     : CountersKept s t fun c => c = .part .handoversCancelled ∨ Spilled c
  cells    : t.cells = s.cells
  untouched : t.copies = s.copies ∧ t.pools = s.pools ∧ t.owed = s.owed

theorem look_returnedState {st : Station} (cell : Nat) (since : Clock) (j : Nat) :
    (returnedState i cell since st s).stations.look j =
      if j = i then some { st with place := .associated cell since } else s.stations.look j := by
  rw [returnedState, setStations_stations, Table.look_put]

theorem countersKept_postSignal (cell : Nat) (addr : Addr) (body : SignalBody) (s : State) :
    CountersKept s (postSignal cell addr body s) Spilled := by
  refine CountersKept.mono (Shift.counters (p := fun _ => False) (q := fun _ => False) (i := 0)
      (Shift.post (loose := True) s cell addr body trivial)) ?_
  rintro c (⟨n, hn, -⟩ | ⟨-, hc⟩)
  · exact hn.elim
  · exact hc

theorem cancelled_cancelToOld (hw : s.stations.wf = true) {st : Station} {cell : Nat} {since : Clock}
    (hst : s.stations.look i = some st) (hp : st.place = .moving cell since) :
    Cancelled i st cell since s (cancelToOld i s) := by
  have hin := inner_cancelToOld i s
  have hl := fun j => look_returnedState (s := s) (i := i) (st := st) cell since j
  have hpost := countersKept_postSignal cell st.addr (.attachGrant i) (returnedState i cell since st s)
  have hc : (postSignal cell st.addr (.attachGrant i) (returnedState i cell since st s)).cells = s.cells := postSignal_cells ..
  have hs : (postSignal cell st.addr (.attachGrant i) (returnedState i cell since st s)).stations =
      (returnedState i cell since st s).stations := postSignal_stations ..
  have hy : (postSignal cell st.addr (.attachGrant i) (returnedState i cell since st s)).copies = s.copies := postSignal_copies ..
  have hpo : (postSignal cell st.addr (.attachGrant i) (returnedState i cell since st s)).pools = s.pools := postSignal_pools ..
  have ho : (postSignal cell st.addr (.attachGrant i) (returnedState i cell since st s)).owed = s.owed := postSignal_owed ..
  have hh : (postSignal cell st.addr (.attachGrant i) (returnedState i cell since st s)).handovers = s.handovers.drop i :=
    postSignal_handovers ..
  have hk : (returnedState i cell since st s).counters = s.counters := rfl
  have hx : ∀ c : PartCounter, ¬ Spilled (.part c) →
      (postSignal cell st.addr (.attachGrant i) (returnedState i cell since st s)).counter (.part c) = s.counter (.part c) :=
    fun c hc => hpost _ hc
  rw [cancelToOld_eq hst hp] at hin ⊢
  have hsr : ∀ j, (bumpPart .handoversCancelled (postSignal cell st.addr (.attachGrant i)
      (returnedState i cell since st s))).stations.look j =
        if j = i then some { st with place := .associated cell since } else s.stations.look j := fun j => by
    rw [← hl j, ← hs]
    rfl
  refine ⟨⟨hin, ⟨fun j x hj hx => ⟨x.rate, by rw [hsr, if_neg hj, hx], fun _ => rfl⟩, fun j hj => ?_⟩, fun j => ?_, ?_, ?_⟩,
    ?_, ?_, ?_, ?_, hc, hy, hpo, ho⟩
  · rw [hsr, if_neg, hj]
    rintro rfl
    rw [hst] at hj
    cases hj
  · show (postSignal cell st.addr (.attachGrant i) (returnedState i cell since st s)).handovers.look j = _
    rw [hh, Table.look_drop]
  · intro _ n hn
    refine hn.congr hw (hin.wf.1 hw) (by rw [State.account, State.account, show (bumpPart _ _).cells = _ from hc]) fun j => ?_
    rw [hsr]
    split
    · next hj =>
      rw [hj, hst]
      simp [Station.ratedAt, hp, Place.cell?]
    · rfl
  · exact fun n c hn _ => ⟨c.members, by rw [show (bumpPart _ _).copies = _ from hy, hn]⟩
  · rw [hsr, if_pos rfl]
  · exact fun j hj => by rw [hsr, if_neg hj]
  · rw [Advanced, bumpPart, bump, counter_advance, if_pos rfl]
    congr 1
    exact hx _ (by rintro ⟨⟩)
  · have h0 : CountersKept s (postSignal cell st.addr (.attachGrant i) (returnedState i cell since st s)) Spilled :=
      fun c hc => hpost c hc
    exact (h0.mono fun c hc => .inr hc).trans ((countersKept_bumpPart .handoversCancelled _).mono fun c hc => .inl hc)

/-! ## Gone DORMANT -/

/-- From `s` to `t` station `i` has gone DORMANT from its cell. -/
structure Dormant (i : Nat) (cell : Nat) (st : Station) (s t : State) : Prop extends Ended (· = cell) i s t where
  station : t.stations.look i = some (dormantFrom cell st)
  counted : Advanced s t (.part .goneDormant) 1
  kept    : CountersKept s t fun c => c = .part .goneDormant ∨ c = .cell cell .replayDiscarded
  trunks  : t.trunks = s.trunks

theorem shift_leftCell (hw : s.copies.wf = true) (i cell : Nat) (st : Station) :
    Shift (· = cell) (fun _ => False) (i + 1) False (s.setStations (s.stations.put i (dormantFrom cell st))) (leftCell i cell st s) := by
  have h := shift_dropMembers (s := s.setStations (s.stations.put i (dormantFrom cell st))) hw cell (fun _ => False) (i + 1) False
    (st.members.map (·.channel))
  rw [List.foldl_map] at h
  exact h.trans (.weigh ..)

theorem oweIfAged_frame (i : Nat) (st : Station) (s : State) : oweIfAged i st s = { s with owed := (oweIfAged i st s).owed } := by
  unfold oweIfAged
  split <;> rfl

/-- Where a station goes DORMANT, it leaves its cell; a count, buffers released and an expiry owed are all else. -/
theorem goDormant_frame {st : Station} {cell : Nat} (hst : s.stations.look i = some st) (hc : st.place.cell? = some cell) :
    ∃ counters pools owed, goDormant i s = { leftCell i cell st s with counters := counters, pools := pools, owed := owed } := by
  have hrun := goDormant_eq hst hc
  have hrel := releaseAll_frame (st.queue.map (·.buffer)) (leftCell i cell st s)
  generalize releaseAll (st.queue.map (·.buffer)) (leftCell i cell st s) = y at hrun hrel
  generalize leftCell i cell st s = z at hrel
  obtain ⟨counters, hcount⟩ := bumpPart_eq .goneDormant y
  rw [hrun, oweIfAged_frame, hcount, hrel]
  exact ⟨_, _, _, rfl⟩

theorem dormant_goDormant (hw : s.stations.wf = true) (hcw : s.copies.wf = true) {st : Station} {cell : Nat}
    (hst : s.stations.look i = some st) (hc : st.place.cell? = some cell) (hno : s.handovers.look i = none) :
    Dormant i cell st s (goDormant i s) := by
  have hin := inner_goDormant i s
  have hsh := shift_leftCell hcw i cell st
  have hlook : (leftCell i cell st s).stations.look i = some (dormantFrom cell st) := by
    obtain ⟨r, hr, hd⟩ := hsh.onlyRates.kept i (dormantFrom cell st) (by omega)
      (by rw [setStations_stations, Table.look_put, if_pos rfl])
    rw [hr, hd rfl]
  have hothers : OnlyRates i s (leftCell i cell st s) := by
    refine (onlyRates_putStation i (dormantFrom cell st) (t := s.setStations (s.stations.put i (dormantFrom cell st))) rfl
      (by rw [hst]; rfl)).trans ?_
    have h := shift_dropMembers (s := s.setStations (s.stations.put i (dormantFrom cell st))) hcw cell (fun _ => False) i False
      (st.members.map (·.channel))
    rw [List.foldl_map] at h
    exact (h.trans (.weigh _ cell)).onlyRates
  have hrates : ∀ n, s.RatesLaw n ∨ n = cell → (leftCell i cell st s).RatesLaw n := by
    intro n hn
    have hpw : (s.setStations (s.stations.put i (dormantFrom cell st))).stations.wf = true := Table.wf_put _ _ _ hw
    have hdrop := shift_dropMembers (s := s.setStations (s.stations.put i (dormantFrom cell st))) hcw cell (fun _ => False) i False
      (st.members.map (·.channel))
    rw [List.foldl_map] at hdrop
    have hdw := hdrop.inner.wf.1 hpw
    by_cases hnc : n = cell
    · rw [hnc]
      exact ratesLaw_reweigh hdw cell
    · refine ratesLaw_reweigh_ne hdw hnc (hdrop.rates hpw n ((hn.resolve_right hnc).congr hw hpw rfl fun j => ?_))
      rw [setStations_stations, Table.look_put]
      split
      · next hj =>
        rw [hj, hst]
        have e1 : ¬ st.place.cell? = some n := by rw [hc]; exact fun e => hnc (Option.some.inj e).symm
        have e2 : ¬ (dormantFrom cell st).place.cell? = some n := by rintro ⟨⟩
        simp [Station.ratedAt, e1, e2]
      · rfl
  have hcount := hsh.counters
  have hcopies := fun n c => hsh.copies (n := n) (c := c)
  have hh := hsh.handovers
  have ht := hsh.trunks id
  rw [goDormant_eq hst hc] at hin ⊢
  generalize leftCell i cell st s = x at *
  have hrel := releaseAll_frame (st.queue.map (·.buffer)) x
  generalize releaseAll (st.queue.map (·.buffer)) x = y at *
  have hbump := onlyCounts_bump (.part .goneDormant) y
  have howe := oweIfAged_frame i st (bumpPart .goneDormant y)
  have hyc : y.counters = x.counters := by rw [hrel]; rfl
  have hk : CountersKept s y fun c => c = .cell cell .replayDiscarded := by
    intro c hc
    rw [State.counter, hyc]
    refine (hcount c ?_).trans rfl
    rintro (⟨n, rfl, h⟩ | ⟨h, -⟩)
    · exact hc h
    · exact h
  have hst' : (oweIfAged i st (bumpPart .goneDormant y)).stations = x.stations := by rw [howe, hrel]; rfl
  refine ⟨⟨hin, ⟨fun j z hj hz => ?_, fun j hj => ?_⟩, fun j => ?_, ?_, ?_⟩, ?_, ?_, ?_, ?_⟩
  · rw [hst']
    exact hothers.kept j z hj hz
  · rw [hst']
    exact hothers.free j hj
  · have : (oweIfAged i st (bumpPart .goneDormant y)).handovers = s.handovers := by rw [howe, hrel]; exact hh
    rw [this]
    split
    · next hj => rw [hj, hno]
    · rfl
  · intro _ n hn
    have hxw : x.stations.wf = true := by rw [← hst']; exact hin.wf.1 hw
    exact RatesKept.of_eq (s := x) (by rw [howe, hrel]; rfl) hst' hxw n (hrates n (.inl hn))
  · intro n c hn hne
    have : (oweIfAged i st (bumpPart .goneDormant y)).copies = x.copies := by rw [howe, hrel]; rfl
    rw [this]
    exact hcopies n c hn hne
  · rw [hst', hlook]
  · have : (oweIfAged i st (bumpPart .goneDormant y)).counter (.part .goneDormant) = (bump (.part .goneDormant) y).counter
        (.part .goneDormant) := by rw [howe]; rfl
    rw [Advanced, this, hbump.moved, hk _ (by simp)]
  · have : CountersKept s (bumpPart .goneDormant y) fun c => c = .part .goneDormant ∨ c = .cell cell .replayDiscarded :=
      (hk.mono fun _ h => .inr h).trans (hbump.kept.mono fun _ h => .inl h)
    intro c hc
    rw [howe]
    exact this c hc
  · rw [howe, hrel]
    exact ht

end Sys2Proof.Machine
end

