-- ==== Sys2Proof/Proofs/Chains.lean ====
section
/-! PROOFS. Ends of handovers and stays, one after another (R10, R12, R16): what a chain of them leaves, said over the state before it. -/

namespace Sys2Proof.Machine

/-- One end: a handover forced, a handover cancelled to its old cell, a station gone DORMANT. -/
inductive Act where
  | force (i : Nat)
  | cancel (i : Nat)
  | sleep (i : Nat)
deriving DecidableEq

/-- The station whose handover or stay ends. -/
def Act.index : Act → Nat
  | .force i | .cancel i | .sleep i => i

/-- The end takes place. -/
def Act.run (s : State) : Act → State
  | .force i => forceHandover i s
  | .cancel i => cancelToOld i s
  | .sleep i => goDormant i s

/-- The end can take place: the handover to force has its record and its MOVING station, the handover to cancel its MOVING station; the station
that goes DORMANT is ASSOCIATED and has no handover record. Only at a cell that `p` picks do copies lose members. -/
def Act.Can (p : Nat → Prop) (s : State) : Act → Prop
  | .force i => ∃ h st since, s.handovers.look i = some h ∧ s.stations.look i = some st ∧ st.place = .moving h.oldCell since ∧ p h.oldCell
  | .cancel i => ∃ st cell since, s.stations.look i = some st ∧ st.place = .moving cell since
  | .sleep i => ∃ st cell since, s.stations.look i = some st ∧ st.place = .associated cell since ∧ s.handovers.look i = none ∧ p cell

/-- What the end makes of the station's record. -/
def Act.Makes (s : State) : Act → Station → Station → Prop
  | .force i, st, now => ∀ h, s.handovers.look i = some h → ∃ members rate credit, now = { st with
      place := .associated h.newCell s.time.clock, prev := some h.oldCell, paused := false, members := members, rate := rate
      credit := credit }
  | .cancel _, st, now => ∀ cell since, st.place = .moving cell since → ∃ rate, now = { st with place := .associated cell since, rate := rate }
  | .sleep _, st, now => ∀ cell, st.place.cell? = some cell → now = dormantFrom cell st

def Act.isForce : Act → Bool
  | .force _ => true
  | _ => false
def Act.isCancel : Act → Bool
  | .cancel _ => true
  | _ => false
def Act.isSleep : Act → Bool
  | .sleep _ => true
  | _ => false

/-- The counters that these ends move. -/
inductive EndCounter (p : Nat → Prop) : Counter → Prop
  | forced : EndCounter p (.part .handoversForced)
  | completed : EndCounter p (.part .handoversCompleted)
  | cancelled : EndCounter p (.part .handoversCancelled)
  | dormant : EndCounter p (.part .goneDormant)
  | discarded (n : Nat) : p n → EndCounter p (.cell n .replayDiscarded)

/-- From `s` to `v` these ends have taken place, one after another, each of another station. -/
structure Done (p : Nat → Prop) (s : State) (l : List Act) (v : State) : Prop where
  inner     : Inner s v
  ended     : ∀ a ∈ l, ∀ st, s.stations.look a.index = some st → ∃ now, v.stations.look a.index = some now ∧ a.Makes s st now
  others    : ∀ j st, (∀ a ∈ l, a.index ≠ j) → s.stations.look j = some st →
    ∃ rate, v.stations.look j = some { st with rate := rate } ∧ (st.place = .dormant → rate = st.rate)
  free      : ∀ j, s.stations.look j = none → v.stations.look j = none
  handovers : ∀ j, v.handovers.look j = if ∃ a ∈ l, a.index = j then none else s.handovers.look j
  rates     : RatesKept s v
  laws      : s.stations.wf = true → ∀ i h, .force i ∈ l → s.handovers.look i = some h → v.RatesLaw h.oldCell ∧ v.RatesLaw h.newCell
  copies    : ∀ n c, s.copies.look n = some c → ¬ p c.cell → ∃ members, v.copies.look n = some { c with members := members }
  pools     : (∀ a ∈ l, a.isSleep = false) → s.NoEntries p → v.pools = s.pools ∧ v.NoEntries p
  forced    : Advanced s v (.part .handoversForced) (l.countP Act.isForce)
  completed : Advanced s v (.part .handoversCompleted) (l.countP Act.isForce)
  cancelled : Advanced s v (.part .handoversCancelled) (l.countP Act.isCancel)
  dormant   : Advanced s v (.part .goneDormant) (l.countP Act.isSleep)
  kept      : CountersKept s v fun c => EndCounter p c ∨ Spilled c

variable {p : Nat → Prop} {s t v : State} {l : List Act} {a : Act}

theorem done_nil (p : Nat → Prop) (s : State) : Done p s [] s where
  inner := .refl s
  ended _ h := by cases h
  others _ st _ h := ⟨st.rate, h, fun _ => rfl⟩
  free _ h := h
  handovers _ := by simp
  rates _ _ h := h
  laws _ _ _ h := by cases h
  copies _ c h _ := ⟨c.members, h⟩
  pools _ h := ⟨rfl, h⟩
  forced := .refl ..
  completed := .refl ..
  cancelled := .refl ..
  dormant := .refl ..
  kept _ _ := rfl

/-- The record an end makes does not depend on the rate before it, and a later change of the rate leaves it one that the end makes. -/
theorem Act.Makes.rates {st now : Station} {r : Nat} (h : a.Makes s { st with rate := r } now) {r' : Nat}
    (hr : now.place = .dormant → r' = now.rate) : a.Makes s st { now with rate := r' } := by
  cases a with
  | force i =>
    intro h' hh
    obtain ⟨m, r'', c, rfl⟩ := h h' hh
    exact ⟨m, r', c, rfl⟩
  | cancel i =>
    intro cell since hp
    obtain ⟨r'', rfl⟩ := h cell since hp
    exact ⟨r', rfl⟩
  | sleep i =>
    intro cell hc
    have hn := h cell hc
    rw [hr (by rw [hn]; rfl), hn]
    rfl

/-- What one end adds to a chain, whichever it is. -/
structure Adds (p : Nat → Prop) (a : Act) (s v t : State) : Prop extends Ended p a.index v t where
  record    : ∀ st, v.stations.look a.index = some st → ∃ now, t.stations.look a.index = some now ∧ a.Makes s st now
  laws      : ∀ i h, a = .force i → s.handovers.look i = some h → t.RatesLaw h.oldCell ∧ t.RatesLaw h.newCell
  pools     : a.isSleep = false → v.NoEntries p → t.pools = v.pools ∧ t.NoEntries p
  forced    : Advanced v t (.part .handoversForced) ([a].countP Act.isForce)
  completed : Advanced v t (.part .handoversCompleted) ([a].countP Act.isForce)
  cancelled : Advanced v t (.part .handoversCancelled) ([a].countP Act.isCancel)
  dormant   : Advanced v t (.part .goneDormant) ([a].countP Act.isSleep)
  kept      : CountersKept v t fun c => EndCounter p c ∨ Spilled c

theorem Ended.mono {p' : Nat → Prop} {i : Nat} (h : Ended p i s t) (hp : ∀ n, p n → p' n) : Ended p' i s t :=
  ⟨h.inner, h.others, h.handovers, h.rates, fun n c hc hn => h.copies n c hc fun hpc => hn (hp _ hpc)⟩

theorem Done.step (hv : Done p s l v) (hnew : ∀ b ∈ l, b.index ≠ a.index) (ht : Adds p a s v t) :
    Done p s (l ++ [a]) t where
  inner := hv.inner.trans ht.inner
  ended b hb st hst := by
    rcases List.mem_append.mp hb with hb | hb
    · obtain ⟨now, hnow, hm⟩ := hv.ended b hb st hst
      obtain ⟨r, hr, hd⟩ := ht.others.kept b.index now (hnew b hb) hnow
      exact ⟨_, hr, Act.Makes.rates (r := st.rate) hm hd⟩
    · obtain rfl := List.mem_singleton.mp hb
      obtain ⟨r, hr, -⟩ := hv.others b.index st hnew hst
      obtain ⟨now, hnow, hm⟩ := ht.record _ hr
      exact ⟨now, hnow, Act.Makes.rates (r' := now.rate) hm fun _ => rfl⟩
  others j st hj hst := by
    obtain ⟨r, hr, hd⟩ := hv.others j st (fun b hb => hj b (List.mem_append_left _ hb)) hst
    obtain ⟨r', hr', hd'⟩ := ht.others.kept j _ (fun e => hj a (by simp) e.symm) hr
    exact ⟨r', hr', fun hp => (hd' hp).trans (hd hp)⟩
  free j hj := ht.others.free j (hv.free j hj)
  handovers j := by
    rw [ht.handovers, hv.handovers]
    by_cases ha : j = a.index
    · rw [if_pos ha, if_pos ⟨a, by simp, ha.symm⟩]
    · rw [if_neg ha]
      refine if_congr ⟨fun ⟨b, hb, e⟩ => ⟨b, List.mem_append_left _ hb, e⟩, fun ⟨b, hb, e⟩ => ?_⟩ rfl rfl
      rcases List.mem_append.mp hb with hb | hb
      · exact ⟨b, hb, e⟩
      · exact absurd (by rw [← e, List.mem_singleton.mp hb]) ha
  rates hw n hn := ht.rates (hv.inner.wf.1 hw) n (hv.rates hw n hn)
  laws hw i h hm hh := by
    rcases List.mem_append.mp hm with hm | hm
    · obtain ⟨h1, h2⟩ := hv.laws hw i h hm hh
      exact ⟨ht.rates (hv.inner.wf.1 hw) _ h1, ht.rates (hv.inner.wf.1 hw) _ h2⟩
    · exact ht.laws i h (List.mem_singleton.mp hm).symm hh
  copies n c hc hp := by
    obtain ⟨m, hm⟩ := hv.copies n c hc hp
    obtain ⟨m', hm'⟩ := ht.copies n _ hm hp
    exact ⟨m', hm'⟩
  pools hl hn := by
    obtain ⟨e1, n1⟩ := hv.pools (fun b hb => hl b (List.mem_append_left _ hb)) hn
    obtain ⟨e2, n2⟩ := ht.pools (hl a (by simp)) n1
    exact ⟨e2.trans e1, n2⟩
  forced := by rw [List.countP_append]; exact hv.forced.trans ht.forced
  completed := by rw [List.countP_append]; exact hv.completed.trans ht.completed
  cancelled := by rw [List.countP_append]; exact hv.cancelled.trans ht.cancelled
  dormant := by rw [List.countP_append]; exact hv.dormant.trans ht.dormant
  kept := hv.kept.trans ht.kept

/-- Each end adds to a chain what it does to its own station. -/
theorem adds_run (hs : s.stations.wf = true) (hcs : s.copies.wf = true) (hv : Done p s l v) (hnew : ∀ b ∈ l, b.index ≠ a.index)
    (hcan : a.Can p s) : Adds p a s v (a.run v) := by
  have hw := hv.inner.wf.1 hs
  have hcw := hv.inner.wf.2.1 hcs
  have hh := hv.handovers a.index
  rw [if_neg fun ⟨b, hb, e⟩ => hnew b hb e] at hh
  have hclock : v.time = s.time := by rw [hv.inner.frame]
  cases a with
  | force i =>
    obtain ⟨h, st, since, hhs, hst, hp, hpc⟩ := hcan
    obtain ⟨r, hr, -⟩ := hv.others i st hnew hst
    have hhv : v.handovers.look i = some h := hh.trans hhs
    have hf := forced_forceHandover hw hcw hhv hr (by rw [hp]; rfl)
    refine ⟨hf.toEnded.mono fun n hn => by rw [hn]; exact hpc, fun x hx => ?_, fun j g hj hg => ?_, fun _ hn => ?_, hf.forced,
      hf.completed, ?_, ?_, ?_⟩
    · obtain ⟨m, r', c, hm⟩ := hf.station
      refine ⟨_, hm, fun g hg => ?_⟩
      obtain rfl : h = g := Option.some.inj (hhs.symm.trans hg)
      obtain rfl : { st with rate := r } = x := Option.some.inj (hr.symm.trans hx)
      exact ⟨m, r', c, by rw [hclock]⟩
    · cases hj
      obtain rfl : h = g := Option.some.inj (hhs.symm.trans hg)
      exact hf.laws
    · exact hf.pools p hpc hn
    · exact hf.kept.advanced (by rintro ((h | h | h) | h) <;> cases h)
    · exact hf.kept.advanced (by rintro ((h | h | h) | h) <;> cases h)
    · refine hf.kept.mono fun c hc => ?_
      rcases hc with (rfl | rfl | rfl) | hc
      · exact .inl .forced
      · exact .inl .completed
      · exact .inl (.discarded _ hpc)
      · exact .inr hc
  | cancel i =>
    obtain ⟨st, cell, since, hst, hp⟩ := hcan
    obtain ⟨r, hr, -⟩ := hv.others i st hnew hst
    have hf := cancelled_cancelToOld hw hr (cell := cell) (since := since) hp
    refine ⟨hf.toEnded.mono fun n hn => hn.elim, fun x hx => ?_, fun j g hj _ => (by cases hj), fun _ hn => ?_, ?_, ?_,
      hf.counted, ?_, ?_⟩
    · obtain rfl : { st with rate := r } = x := Option.some.inj (hr.symm.trans hx)
      refine ⟨_, hf.station, fun c t hc => ?_⟩
      have hc' : st.place = .moving c t := hc
      rw [hp] at hc'
      cases hc'
      exact ⟨r, rfl⟩
    · exact ⟨hf.untouched.2.1, fun n c hc => hn n c (by rw [← hf.untouched.1]; exact hc)⟩
    · exact hf.kept.advanced (by rintro (h | h) <;> cases h)
    · exact hf.kept.advanced (by rintro (h | h) <;> cases h)
    · exact hf.kept.advanced (by rintro (h | h) <;> cases h)
    · refine hf.kept.mono fun c hc => ?_
      rcases hc with rfl | hc
      · exact .inl .cancelled
      · exact .inr hc
  | sleep i =>
    obtain ⟨st, cell, since, hst, hp, hno, hpc⟩ := hcan
    obtain ⟨r, hr, -⟩ := hv.others i st hnew hst
    have hf := dormant_goDormant hw hcw hr (cell := cell) (by rw [hp]; rfl) (hh.trans hno)
    refine ⟨hf.toEnded.mono fun n hn => by rw [hn]; exact hpc, fun x hx => ?_, fun j g hj _ => (by cases hj), nofun, ?_, ?_, ?_,
      hf.counted, ?_⟩
    · obtain rfl : { st with rate := r } = x := Option.some.inj (hr.symm.trans hx)
      refine ⟨_, hf.station, fun c hc => ?_⟩
      have hc' : st.place.cell? = some c := hc
      rw [hp] at hc'
      cases hc'
      rfl
    · exact hf.kept.advanced (by rintro (h | h) <;> cases h)
    · exact hf.kept.advanced (by rintro (h | h) <;> cases h)
    · exact hf.kept.advanced (by rintro (h | h) <;> cases h)
    · refine hf.kept.mono fun c hc => ?_
      rcases hc with rfl | rfl
      · exact .inl .dormant
      · exact .inl (.discarded _ hpc)

/-- A chain goes on. -/
theorem Done.foldl {m : List Act} (hs : s.stations.wf = true) (hcs : s.copies.wf = true) (hv : Done p s l v)
    (hm : (l ++ m).Pairwise fun a b => a.index ≠ b.index) (hcan : ∀ a ∈ m, a.Can p s) : Done p s (l ++ m) (m.foldl Act.run v) := by
  induction m generalizing l v with
  | nil => simpa using hv
  | cons a rest ih =>
    have hnew : ∀ b ∈ l, b.index ≠ a.index := fun b hb => (List.pairwise_append.mp hm).2.2 b hb a (by simp)
    have h := hv.step hnew (adds_run hs hcs hv hnew (hcan a (by simp)))
    have e : l ++ a :: rest = (l ++ [a]) ++ rest := by simp
    rw [e] at hm ⊢
    exact ih h hm fun b hb => hcan b (List.mem_cons_of_mem _ hb)

theorem foldl_force (l : List Nat) (s : State) : (l.map Act.force).foldl Act.run s = l.foldl (fun s i => forceHandover i s) s :=
  List.foldl_map ..
theorem foldl_cancel (l : List Nat) (s : State) : (l.map Act.cancel).foldl Act.run s = l.foldl (fun s i => cancelToOld i s) s :=
  List.foldl_map ..
theorem foldl_sleep (l : List Nat) (s : State) : (l.map Act.sleep).foldl Act.run s = l.foldl (fun s i => goDormant i s) s :=
  List.foldl_map ..

/-- Numbers picked in rising order are of different stations. -/
theorem rising_index {l : List Nat} {f : Nat → Act} (hf : ∀ i, (f i).index = i) (hl : l.Pairwise (· < ·)) :
    (l.map f).Pairwise fun a b => a.index ≠ b.index :=
  List.pairwise_map.mpr (hl.imp fun {a b} h => by rw [hf, hf]; exact ne_of_lt h)

theorem countP_force (l : List Nat) : (l.map Act.force).countP Act.isForce = l.length ∧ (l.map Act.force).countP Act.isCancel = 0
    ∧ (l.map Act.force).countP Act.isSleep = 0 := by
  simp [List.countP_map, Function.comp_def, Act.isForce, Act.isCancel, Act.isSleep]

theorem countP_cancel (l : List Nat) : (l.map Act.cancel).countP Act.isForce = 0
    ∧ (l.map Act.cancel).countP Act.isCancel = l.length ∧ (l.map Act.cancel).countP Act.isSleep = 0 := by
  simp [List.countP_map, Function.comp_def, Act.isForce, Act.isCancel, Act.isSleep]

theorem countP_sleep (l : List Nat) : (l.map Act.sleep).countP Act.isForce = 0
    ∧ (l.map Act.sleep).countP Act.isCancel = 0 ∧ (l.map Act.sleep).countP Act.isSleep = l.length := by
  simp [List.countP_map, Function.comp_def, Act.isForce, Act.isCancel, Act.isSleep]

end Sys2Proof.Machine
end

