-- ==== Sys2Proof/Proofs/Downs.lean ====
section
/-! PROOFS. A cell going DOWN as a chain of ends (R10): REMOVE CELL and the third missed POLL (R4, R7). -/

namespace Sys2Proof.Machine

variable {s u e : State} {cell : Nat}

/-! ## The chain of a cell going DOWN -/

/-- The cell marked DOWN, what it serves untouched. -/
def markedDown (cell : Nat) (s : State) : State := updateCell cell (fun c => { c with state := .down, missed := 3 }) s

/-- The handovers that a cell going DOWN forces, those it cancels, and the stations that it sends to dormancy (R10). -/
def State.forcedAt (s : State) (cell : Nat) : List Nat := s.handovers.keysWhere fun _ h => h.oldCell == cell
def State.cancelledAt (s : State) (cell : Nat) : List Nat := s.handovers.keysWhere fun _ h => h.newCell == cell
def State.sleepersAt (s : State) (cell : Nat) : List Nat := s.stations.keysWhere fun _ st => st.place.associatedAt cell

/-- The ends that a cell going DOWN makes, in their order (R10). -/
def State.downActs (s : State) (cell : Nat) : List Act :=
  (s.forcedAt cell).map Act.force ++ (s.cancelledAt cell).map Act.cancel ++ (s.sleepersAt cell).map Act.sleep

theorem Place.associatedAt_iff {p : Place} : p.associatedAt cell = true ↔ ∃ since, p = .associated cell since := by
  cases p <;> simp [Place.associatedAt]

theorem mem_forcedAt (hw : s.handovers.wf = true) {i : Nat} :
    i ∈ s.forcedAt cell ↔ ∃ h, s.handovers.look i = some h ∧ h.oldCell = cell := by
  rw [State.forcedAt, Table.mem_keysWhere hw]
  simp only [beq_iff_eq]

theorem mem_cancelledAt (hw : s.handovers.wf = true) {i : Nat} :
    i ∈ s.cancelledAt cell ↔ ∃ h, s.handovers.look i = some h ∧ h.newCell = cell := by
  rw [State.cancelledAt, Table.mem_keysWhere hw]
  simp only [beq_iff_eq]

theorem mem_sleepersAt (hw : s.stations.wf = true) {i : Nat} :
    i ∈ s.sleepersAt cell ↔ ∃ st since, s.stations.look i = some st ∧ st.place = .associated cell since := by
  rw [State.sleepersAt, Table.mem_keysWhere hw]
  exact exists_congr fun st => ⟨fun ⟨h, hp⟩ => (Place.associatedAt_iff.mp hp).imp fun _ h' => ⟨h, h'⟩,
    fun ⟨since, h, hp⟩ => ⟨h, Place.associatedAt_iff.mpr ⟨since, hp⟩⟩⟩

/-- Every handover record names a MOVING station at its old cell, and two cells (R53, R69). -/
def State.MovingLaw (s : State) : Prop := ∀ i h, s.handovers.look i = some h →
  ∃ st since, s.stations.look i = some st ∧ st.place = .moving h.oldCell since ∧ h.oldCell ≠ h.newCell

/-- A station with a handover record is not ASSOCIATED. -/
theorem State.MovingLaw.not_associated (law : s.MovingLaw) {i n : Nat} {h : Handover} {st : Station} {since : Clock}
    (hh : s.handovers.look i = some h) (hst : s.stations.look i = some st) : st.place ≠ .associated n since := by
  obtain ⟨x, t, hx, hp, -⟩ := law i h hh
  rw [← Option.some.inj (hst.symm.trans hx)] at hp
  simp [hp]

/-- The ends of a cell going DOWN are of different stations, and each can take place. -/
theorem downActs_spec (hw : s.stations.wf = true) (hhw : s.handovers.wf = true) (law : s.MovingLaw) :
    (s.downActs cell).Pairwise (fun a b => a.index ≠ b.index) ∧ ∀ a ∈ s.downActs cell, a.Can (· = cell) s := by
  refine ⟨?_, fun a ha => ?_⟩
  · refine List.pairwise_append.mpr ⟨List.pairwise_append.mpr ⟨rising_index (fun _ => rfl) (Table.keysWhere_pairwise hhw _),
      rising_index (fun _ => rfl) (Table.keysWhere_pairwise hhw _), ?_⟩,
      rising_index (fun _ => rfl) (Table.keysWhere_pairwise hw _), ?_⟩
    · intro a ha b hb heq
      obtain ⟨i, hi, rfl⟩ := List.mem_map.mp ha
      obtain ⟨j, hj, rfl⟩ := List.mem_map.mp hb
      obtain rfl : i = j := heq
      obtain ⟨h, hh, h1⟩ := (mem_forcedAt hhw).mp hi
      obtain ⟨g, hg, h2⟩ := (mem_cancelledAt hhw).mp hj
      obtain rfl := Option.some.inj (hh.symm.trans hg)
      obtain ⟨-, -, -, -, hne⟩ := law i h hh
      exact hne (h1.trans h2.symm)
    · intro a ha b hb heq
      obtain ⟨j, hj, rfl⟩ := List.mem_map.mp hb
      obtain ⟨st, since, hst, hp⟩ := (mem_sleepersAt hw).mp hj
      have : ∃ h, s.handovers.look j = some h := by
        rcases List.mem_append.mp ha with ha | ha <;> obtain ⟨i, hi, rfl⟩ := List.mem_map.mp ha <;> obtain rfl : i = j := heq
        · exact ((mem_forcedAt hhw).mp hi).imp fun _ h => h.1
        · exact ((mem_cancelledAt hhw).mp hi).imp fun _ h => h.1
      exact law.not_associated this.choose_spec hst hp
  · rcases List.mem_append.mp ha with ha | ha
    · rcases List.mem_append.mp ha with ha | ha <;> obtain ⟨i, hi, rfl⟩ := List.mem_map.mp ha
      · obtain ⟨h, hh, hc⟩ := (mem_forcedAt hhw).mp hi
        obtain ⟨st, since, hst, hp, -⟩ := law i h hh
        exact ⟨h, st, since, hh, hst, hp, hc⟩
      · obtain ⟨h, hh, hc⟩ := (mem_cancelledAt hhw).mp hi
        obtain ⟨st, since, hst, hp, -⟩ := law i h hh
        exact ⟨st, _, since, hst, hp⟩
    · obtain ⟨i, hi, rfl⟩ := List.mem_map.mp ha
      obtain ⟨st, since, hst, hp⟩ := (mem_sleepersAt hw).mp hi
      refine ⟨st, cell, since, hst, hp, ?_, rfl⟩
      by_contra hno
      obtain ⟨h, hh⟩ := Option.ne_none_iff_exists'.mp hno
      exact law.not_associated hh hst hp

/-- Where handovers from the cell have been forced, the handovers to it stand as before. -/
theorem cancelledAt_forced (hhw : s.handovers.wf = true) (law : s.MovingLaw) {v : State}
    (hv : Done (· = cell) s ((s.forcedAt cell).map Act.force) v) : v.cancelledAt cell = s.cancelledAt cell := by
  refine Table.keysWhere_congr (hv.inner.wf.2.2.1 hhw) hhw fun j => ?_
  rw [hv.handovers]
  split
  · next hj =>
    obtain ⟨a, ha, rfl⟩ := hj
    obtain ⟨i, hi, rfl⟩ := List.mem_map.mp ha
    obtain ⟨h, hh, hc⟩ := (mem_forcedAt hhw).mp hi
    obtain ⟨-, -, -, -, hne⟩ := law i h hh
    simp only [Act.index, hh, reduceCtorEq, false_and, exists_false, Option.some.injEq, beq_iff_eq, false_iff, not_exists, not_and]
    rintro g rfl hg
    exact hne (hc.trans hg.symm)
  · rfl

/-- Where the handovers of the cell have ended, the stations ASSOCIATED at it are those of before. -/
theorem sleepersAt_ended (hw : s.stations.wf = true) (hhw : s.handovers.wf = true) (law : s.MovingLaw) {v : State}
    (hv : Done (· = cell) s ((s.forcedAt cell).map Act.force ++ (s.cancelledAt cell).map Act.cancel) v) :
    v.sleepersAt cell = s.sleepersAt cell := by
  refine rising_ext (Table.keysWhere_pairwise (hv.inner.wf.1 hw) _) (Table.keysWhere_pairwise hw _) fun j => ?_
  rw [mem_sleepersAt (hv.inner.wf.1 hw), mem_sleepersAt hw]
  cases hst : s.stations.look j with
  | none => simp [hv.free j hst]
  | some st =>
    by_cases hj : ∃ a ∈ (s.forcedAt cell).map Act.force ++ (s.cancelledAt cell).map Act.cancel, a.index = j
    · obtain ⟨a, ha, rfl⟩ := hj
      have key : ∃ h n t, s.handovers.look a.index = some h ∧ n ≠ cell ∧
          ∃ now, v.stations.look a.index = some now ∧ now.place = .associated n t := by
        obtain ⟨now, hnow, hm⟩ := hv.ended a ha st hst
        rcases List.mem_append.mp ha with ha | ha <;> obtain ⟨i, hi, rfl⟩ := List.mem_map.mp ha
        · obtain ⟨h, hh, hc⟩ := (mem_forcedAt hhw).mp hi
          obtain ⟨-, -, -, -, hne⟩ := law i h hh
          obtain ⟨m, r, c, rfl⟩ := hm h hh
          exact ⟨h, _, _, hh, fun e => hne (hc.trans e.symm), _, hnow, rfl⟩
        · obtain ⟨h, hh, hc⟩ := (mem_cancelledAt hhw).mp hi
          obtain ⟨x, t, hx, hp, hne⟩ := law i h hh
          obtain rfl := Option.some.inj (hst.symm.trans hx)
          obtain ⟨r, rfl⟩ := hm _ _ hp
          exact ⟨h, _, _, hh, fun e => hne (e.trans hc.symm), _, hnow, rfl⟩
      obtain ⟨h, n, t, hh, hn, now, hnow, hp⟩ := key
      refine ⟨fun ⟨x, since, hx, hxp⟩ => ?_, fun ⟨x, since, hx, hxp⟩ => ?_⟩
      · rw [← Option.some.inj (hnow.symm.trans hx), hp] at hxp
        exact absurd (Place.associated.inj hxp).1 hn
      · rw [← Option.some.inj hx] at hxp
        exact absurd hxp (law.not_associated hh hst)
    · obtain ⟨r, hr, -⟩ := hv.others j st (fun a ha e => hj ⟨a, ha, e⟩) hst
      simp [hr]

/-- The three folds of a cell going DOWN, read as chains (R10). -/
theorem cellDown_eq (cause : DownCause) {v w : State} (hv : v = ((s.forcedAt cell).map Act.force).foldl Act.run (markedDown cell s))
    (hv' : w = ((v.cancelledAt cell).map Act.cancel).foldl Act.run v) :
    cellDown cell cause s = pushNotice (.cellDown cell cause) (((w.sleepersAt cell).map Act.sleep).foldl Act.run w) := by
  rw [foldl_force] at hv
  rw [foldl_cancel] at hv'
  rw [foldl_sleep, hv', hv]
  rfl

/-- A cell goes DOWN by a chain of ends, and CELL DOWN follows (R10). -/
theorem cellDown_chain (hw : s.stations.wf = true) (hhw : s.handovers.wf = true) (hcw : s.copies.wf = true)
    (law : s.MovingLaw) (cause : DownCause) :
    cellDown cell cause s = pushNotice (.cellDown cell cause) ((s.downActs cell).foldl Act.run (markedDown cell s))
      ∧ Done (· = cell) (markedDown cell s) (s.downActs cell) ((s.downActs cell).foldl Act.run (markedDown cell s)) := by
  have hlaw : (markedDown cell s).MovingLaw := law
  obtain ⟨hpair, hcan⟩ := downActs_spec (s := markedDown cell s) (cell := cell) hw hhw hlaw
  have hF := Done.foldl (s := markedDown cell s) (l := []) (m := (s.forcedAt cell).map Act.force) hw hcw (done_nil (· = cell) _)
    (hpair.sublist (List.sublist_append_left .. |>.trans (List.sublist_append_left ..)))
    fun a ha => hcan a (List.mem_append_left _ (List.mem_append_left _ ha))
  have hC := Done.foldl (s := markedDown cell s) (m := (s.cancelledAt cell).map Act.cancel) hw hcw hF (hpair.sublist (List.sublist_append_left ..))
    fun a ha => hcan a (List.mem_append_left _ (List.mem_append_right _ ha))
  have hD := Done.foldl (s := markedDown cell s) (m := (s.sleepersAt cell).map Act.sleep) hw hcw hC hpair
    fun a ha => hcan a (List.mem_append_right _ ha)
  have e2 : _ = s.cancelledAt cell := cancelledAt_forced (s := markedDown cell s) hhw hlaw hF
  have e3 : _ = s.sleepersAt cell := sleepersAt_ended (s := markedDown cell s) hw hhw hlaw hC
  have hrun : ((s.downActs cell).foldl Act.run (markedDown cell s)) = ((s.sleepersAt cell).map Act.sleep).foldl Act.run
      (((s.cancelledAt cell).map Act.cancel).foldl Act.run (((s.forcedAt cell).map Act.force).foldl Act.run (markedDown cell s))) := by
    rw [State.downActs, List.foldl_append, List.foldl_append]
  rw [hrun]
  refine ⟨(cellDown_eq cause rfl rfl).trans ?_, hD⟩
  rw [e2]
  rw [e3]

/-! ## What it leaves (R10) -/

theorem countP_downActs (s : State) (cell : Nat) : (s.downActs cell).countP Act.isForce = (s.forcedAt cell).length
    ∧ (s.downActs cell).countP Act.isCancel = (s.cancelledAt cell).length
    ∧ (s.downActs cell).countP Act.isSleep = (s.sleepersAt cell).length := by
  simp only [State.downActs, List.countP_append, countP_force, countP_cancel, countP_sleep]
  omega

/-- A state with the same stations, handovers and counts of ends. -/
structure SameEnds (s t : State) : Prop where
  stations  : t.stations = s.stations
  handovers : t.handovers = s.handovers
  dormant   : t.counter (.part .goneDormant) = s.counter (.part .goneDormant)
  forced    : t.counter (.part .handoversForced) = s.counter (.part .handoversForced)
  completed : t.counter (.part .handoversCompleted) = s.counter (.part .handoversCompleted)
  cancelled : t.counter (.part .handoversCancelled) = s.counter (.part .handoversCancelled)

theorem SameEnds.trans {t : State} (h : SameEnds s t) (g : SameEnds t u) : SameEnds s u :=
  ⟨g.stations.trans h.stations, g.handovers.trans h.handovers, g.dormant.trans h.dormant, g.forced.trans h.forced,
    g.completed.trans h.completed, g.cancelled.trans h.cancelled⟩

theorem SameEnds.of_eq (hs : e.stations = s.stations) (hh : e.handovers = s.handovers) (hc : e.counters = s.counters) :
    SameEnds s e := by
  have (c : Counter) : e.counter c = s.counter c := by rw [State.counter, State.counter, hc]
  exact ⟨hs, hh, this _, this _, this _, this _⟩

theorem Advanced.same {c : Counter} {n : Nat} {v : State} (h : Advanced u v c n) (h0 : u.counter c = s.counter c)
    (h1 : e.counter c = v.counter c) : Advanced s e c n := by
  rw [Advanced, h1, h, h0]

/-- The chain of ends of a cell going DOWN leaves what R10 says. -/
theorem wentDown_of_done (hw : s.stations.wf = true) (hhw : s.handovers.wf = true) {v : State}
    (hv : Done (· = cell) u (s.downActs cell) v) (hu : SameEnds s u) (ht : u.time = s.time) (he : SameEnds v e) :
    WentDown s e cell := by
  obtain ⟨hnf, hnc, hns⟩ := countP_downActs s cell
  have hmem {i : Nat} (a : Nat → Act) (h : a i ∈ s.downActs cell) {st : Station} (hst : s.stations.look (a i).index = some st) :
      ∃ now, e.stations.look (a i).index = some now ∧ (a i).Makes u st now := by
    rw [he.stations]
    exact hv.ended _ h st (by rw [hu.stations, hst])
  have hgone {a : Act} (h : a ∈ s.downActs cell) : e.handovers.look a.index = none := by
    rw [he.handovers, hv.handovers, if_pos ⟨a, h, rfl⟩]
  refine ⟨fun i st since hst hp => ?_, fun i h st hh hst hc => ?_, fun i h st since hh hst hc hp => ?_,
    fun i st hst hn hno => ?_, ?_, ?_, ?_, ?_⟩
  · obtain ⟨now, hnow, hm⟩ := hmem Act.sleep (List.mem_append_right _ (List.mem_map_of_mem
      ((mem_sleepersAt hw).mpr ⟨st, since, hst, hp⟩))) hst
    rw [← hm cell (by rw [hp]; rfl)]
    exact hnow
  · have ha : Act.force i ∈ s.downActs cell := List.mem_append_left _ (List.mem_append_left _ (List.mem_map_of_mem
      ((mem_forcedAt hhw).mpr ⟨h, hh, hc⟩)))
    obtain ⟨now, hnow, hm⟩ := hmem Act.force ha hst
    obtain ⟨m, r, c, rfl⟩ := hm h (by rw [hu.handovers, hh])
    exact ⟨hgone ha, m, r, c, by rw [← hc, ← ht]; exact hnow⟩
  · have ha : Act.cancel i ∈ s.downActs cell := List.mem_append_left _ (List.mem_append_right _ (List.mem_map_of_mem
      ((mem_cancelledAt hhw).mpr ⟨h, hh, hc⟩)))
    obtain ⟨now, hnow, hm⟩ := hmem Act.cancel ha hst
    obtain ⟨r, rfl⟩ := hm _ _ hp
    exact ⟨hgone ha, r, hnow⟩
  · have hj : ∀ a ∈ s.downActs cell, a.index ≠ i := by
      rintro a ha rfl
      rcases List.mem_append.mp ha with ha | ha
      · rcases List.mem_append.mp ha with ha | ha <;> obtain ⟨j, hj, rfl⟩ := List.mem_map.mp ha
        · obtain ⟨h, hh, hc⟩ := (mem_forcedAt hhw).mp hj
          exact (hno h hh).1 hc
        · obtain ⟨h, hh, hc⟩ := (mem_cancelledAt hhw).mp hj
          exact (hno h hh).2 hc
      · obtain ⟨j, hj, rfl⟩ := List.mem_map.mp ha
        obtain ⟨x, since, hx, hp⟩ := (mem_sleepersAt hw).mp hj
        rw [← Option.some.inj (hst.symm.trans hx)] at hp
        rw [Place.associatedAt_iff.mpr ⟨since, hp⟩] at hn
        cases hn
    obtain ⟨r, hr, -⟩ := hv.others i st hj (by rw [hu.stations, hst])
    refine ⟨?_, r, by rw [he.stations, hr]⟩
    rw [he.handovers, hv.handovers, if_neg fun ⟨a, ha, e⟩ => hj a ha e, hu.handovers]
  · rw [← Table.length_keysWhere s.stations fun _ x => x.place.associatedAt cell]
    exact hns ▸ hv.dormant.same hu.dormant he.dormant
  · rw [← Table.length_keysWhere s.handovers fun _ x => x.oldCell == cell]
    exact hnf ▸ hv.forced.same hu.forced he.forced
  · rw [← Table.length_keysWhere s.handovers fun _ x => x.oldCell == cell]
    exact hnf ▸ hv.completed.same hu.completed he.completed
  · rw [← Table.length_keysWhere s.handovers fun _ x => x.newCell == cell]
    exact hnc ▸ hv.cancelled.same hu.cancelled he.cancelled

theorem countersKept_pushNotice (b : NoticeBody) (s : State) : CountersKept s (pushNotice b s) (· = .part .noticesLost) := by
  unfold pushNotice
  split
  · exact countersKept_of_eq rfl _
  · have h1 := countersKept_bumpPart .noticesLost s
    split
    · exact h1
    · exact (h1.trans (countersKept_bumpPart .noticesLost _)).trans (countersKept_of_eq rfl _)

theorem latchSet_pushNotice {l : Latch} (hl : l ≠ .noticeOverflow) {b : NoticeBody} {s : State} :
    (pushNotice b s).latchSet l = s.latchSet l := by
  unfold pushNotice
  split
  · rfl
  · split
    · rfl
    · rw [latchSet_setLatch, decide_eq_false hl, Bool.or_false]
      rfl

theorem sameEnds_pushNotice (b : NoticeBody) (s : State) : SameEnds s (pushNotice b s) := by
  have h := countersKept_pushNotice b s
  have hf := pushNotice_frame b s
  exact ⟨by rw [hf], by rw [hf], h _ (by simp), h _ (by simp), h _ (by simp), h _ (by simp)⟩

/-- A cell that goes DOWN leaves what R10 says, and one notice where there is room. -/
theorem wentDown_cellDown (hw : s.stations.wf = true) (hhw : s.handovers.wf = true) (hcw : s.copies.wf = true)
    (law : s.MovingLaw) (cause : DownCause) : WentDown s (cellDown cell cause s) cell := by
  obtain ⟨hv, hd⟩ := cellDown_chain (cell := cell) hw hhw hcw law cause
  rw [hv]
  exact wentDown_of_done hw hhw hd (.of_eq rfl rfl rfl) rfl (sameEnds_pushNotice ..)

theorem WentDown.congr {t : State} (h : WentDown s e cell) (hs : SameEnds t s) (htime : s.time = t.time) (he : SameEnds e u) :
    WentDown t u cell := by
  obtain ⟨hd, hf, hc, ho, h1, h2, h3, h4⟩ := h
  rw [hs.stations] at hd hf hc ho h1
  rw [hs.handovers] at hf hc ho h2 h3 h4
  rw [htime] at hf
  rw [← he.stations] at hd hf hc ho
  rw [← he.handovers] at hf hc ho
  exact ⟨hd, hf, hc, ho, h1.same hs.dormant he.dormant, h2.same hs.forced he.forced, h3.same hs.completed he.completed,
    h4.same hs.cancelled he.cancelled⟩

/-- What stands between a cell marked DOWN and its notice. -/
theorem cellDown_inner (cell : Nat) (cause : DownCause) (s : State) :
    ∃ v, Inner (markedDown cell s) v ∧ cellDown cell cause s = pushNotice (.cellDown cell cause) v :=
  ⟨_, (Inner.foldl _ (fun s i => inner_forceHandover i s) _ _).trans ((Inner.foldl _ (fun s i => inner_cancelToOld i s) _ _).trans
    (Inner.foldl _ (fun s i => inner_goDormant i s) _ _)), rfl⟩

end Sys2Proof.Machine
end

