-- ==== Sys2Proof/Proofs/Removals.lean ====
section
/-! PROOFS. REMOVE CELL (R4) and a POLL sent (R7). -/

namespace Sys2Proof.Machine

variable {s u e : State} {cell : Nat}

/-! ## The cell's own record -/

theorem look_markedDown {c : Cell} (hc : s.cells.look cell = some c) :
    (markedDown cell s).cells.look cell = some { c with state := .down, missed := 3 } := by
  rw [markedDown, look_updateCell, if_pos rfl, hc, Option.map_some]

theorem look_markedDown_ne (s : State) {n : Nat} (hn : n ≠ cell) : (markedDown cell s).cells.look n = s.cells.look n := by
  rw [markedDown, look_updateCell, if_neg hn]

/-- A cell that serves nothing goes DOWN alone. -/
theorem cellDown_idle (cause : DownCause) (hs : ∀ x ∈ s.stations.entries, x.2.place.associatedAt cell = false)
    (hh : ∀ x ∈ s.handovers.entries, x.2.oldCell ≠ cell ∧ x.2.newCell ≠ cell) :
    cellDown cell cause s = pushNotice (.cellDown cell cause) (markedDown cell s) := by
  have h1 : s.forcedAt cell = [] := by
    simp only [State.forcedAt, Table.keysWhere, List.map_eq_nil_iff, List.filter_eq_nil_iff, beq_iff_eq]
    exact fun x hx => (hh x hx).1
  have h2 : (markedDown cell s).cancelledAt cell = [] := by
    simp only [State.cancelledAt, Table.keysWhere, List.map_eq_nil_iff, List.filter_eq_nil_iff, beq_iff_eq]
    exact fun x hx => (hh x hx).2
  have h3 : (markedDown cell s).sleepersAt cell = [] := by
    simp only [State.sleepersAt, Table.keysWhere, List.map_eq_nil_iff, List.filter_eq_nil_iff, Bool.not_eq_true]
    exact hs
  rw [cellDown_eq cause (v := markedDown cell s) (w := markedDown cell s) (by rw [h1]; rfl) (by rw [h2]; rfl), h3]
  rfl

/-- What a cell that goes DOWN leaves besides what R10 says. -/
structure DownFrame (s : State) (cell : Nat) (cause : DownCause) (t : State) : Prop where
  own    : ∀ c, s.cells.look cell = some c → ∃ m w, t.cells.look cell =
    some { c with state := .down, missed := 3, account := { c.account with m := m, w := w } }
  cells  : ∀ n c, n ≠ cell → s.cells.look n = some c → ∃ m w, t.cells.look n =
    some { c with account := { c.account with m := m, w := w } }
  notice : s.notices.length < Config.notices → t.notices = s.notices ++ [⟨s.time.clock, .cellDown cell cause⟩]
  counts : CountersKept s t fun c => c.interior = true
  latch  : ∀ l, l ≠ .noticeOverflow → t.latchSet l = s.latchSet l
  closed : ∀ k, (s.trunk k).state = .held ∨ (s.trunk k).state = .linkDown → t.trunk k = s.trunk k
  frame  : t = { s with
    notices := t.notices, latches := t.latches, counters := t.counters, cells := t.cells, trunks := t.trunks
    pools := t.pools, stations := t.stations, handovers := t.handovers, copies := t.copies, created := t.created
    owed := t.owed, draws := t.draws }

theorem downFrame_cellDown (s : State) (cell : Nat) (cause : DownCause) : DownFrame s cell cause (cellDown cell cause s) := by
  obtain ⟨v, hv, h⟩ := cellDown_inner cell cause s
  have hf := hv.frame
  have hp := pushNotice_frame (.cellDown cell cause) v
  have hcells : (cellDown cell cause s).cells = v.cells := by rw [h, hp]
  refine ⟨fun c hc => ?_, fun n c hn hc => ?_, fun hn => ?_, ?_, fun l hl => ?_, fun k hk => ?_, ?_⟩
  · obtain ⟨m, w, ha⟩ := hv.calm.loads (look_markedDown hc)
    exact ⟨m, w, by rw [hcells, ha]⟩
  · obtain ⟨m, w, ha⟩ := hv.calm.loads (n := n) (c := c) (by rw [look_markedDown_ne s hn, hc])
    exact ⟨m, w, by rw [hcells, ha]⟩
  · have hn' : v.notices = s.notices := by rw [hf]; rfl
    have ht' : v.time = s.time := by rw [hf]; rfl
    rw [h, pushNotice_room (by rw [hn']; exact hn), setNotices_notices, hn', ht']
  · rw [h]
    have h0 : CountersKept s (markedDown cell s) fun c => c.interior = true := countersKept_of_eq rfl _
    refine (h0.trans hv.counters).trans (CountersKept.mono (countersKept_pushNotice _ v) ?_)
    rintro c rfl
    rfl
  · rw [h, latchSet_pushNotice hl, hf]
    rfl
  · obtain ⟨more, he, hm⟩ := hv.calm.trunks k
    have hv' : v.trunk k = s.trunk k := by rw [he, hm hk, List.append_nil]; rfl
    rw [h, ← hv', hp]
    rfl
  · rw [h, hp, hf]
    rfl

/-- A cell that goes DOWN moves no count of lost replies. -/
theorem repliesLost_cellDown (hw : s.stations.wf = true) (hhw : s.handovers.wf = true) (hcw : s.copies.wf = true)
    (law : s.MovingLaw) (cause : DownCause) :
    (cellDown cell cause s).counter (.part .repliesLost) = s.counter (.part .repliesLost) := by
  obtain ⟨hv, hd⟩ := cellDown_chain (cell := cell) hw hhw hcw law cause
  rw [hv, countersKept_pushNotice _ _ _ (by simp), hd.kept _ (by rintro (h | h) <;> cases h)]
  rfl

/-! ## REMOVE CELL (R4) -/

theorem ruleRemoveCell_absent (hc : cell < 256) (h : s.cells.look cell = none) : ruleRemoveCell cell s = refuse .notFound s := by
  simp [ruleRemoveCell, h, hc]

theorem ruleRemoveCell_configured {c : Cell} (hc : cell < 256) (h : s.cells.look cell = some c) :
    ruleRemoveCell cell s = ⟨removeConfigured cell c s, .done, .empty⟩ := by
  simp [ruleRemoveCell, h, hc]

/-- The cell's messages and its record gone (R4). -/
def cellErased (cell : Nat) (s : State) : State :=
  (discardSignals cell s).setCells ((discardSignals cell s).cells.drop cell)

theorem removeConfigured_eq (cell : Nat) (c : Cell) (s : State) :
    removeConfigured cell c s = cellErased cell (if c.state = .down then s else cellDown cell .removed s) := rfl

theorem cellErased_frame (cell : Nat) (s : State) :
    cellErased cell s = { s with cells := (cellErased cell s).cells, trunks := (cellErased cell s).trunks } := rfl

theorem look_cellErased (cell : Nat) (s : State) (n : Nat) :
    (cellErased cell s).cells.look n = if n = cell then none else s.cells.look n := Table.look_drop ..

theorem trunk_cellErased (cell : Nat) (s : State) (t : Nat) : (cellErased cell s).trunk t = if t = cell / 32 then
    { s.trunk t with signals := (s.trunk t).signals.filter fun m => m.cell != cell } else s.trunk t := by
  show (discardSignals cell s).trunk t = _
  rw [discardSignals, trunk_setTrunk, trunkOf_eq]
  split
  · next h => rw [h]
  · rfl

/-- A cell that serves nothing is removed: its messages, its record, and CELL DOWN unless it was DOWN. -/
theorem removeConfigured_idle {c : Cell} (hs : ∀ x ∈ s.stations.entries, x.2.place.associatedAt cell = false)
    (hh : ∀ x ∈ s.handovers.entries, x.2.oldCell ≠ cell ∧ x.2.newCell ≠ cell) (hn : s.notices.length < Config.notices) :
    ∃ cells, (∀ n, n ≠ cell → cells.look n = s.cells.look n) ∧ removeConfigured cell c s = cellErased cell ((s.setCells cells).setNotices
      (s.notices ++ (if c.state = .down then [] else [⟨s.time.clock, .cellDown cell .removed⟩]))) := by
  rw [removeConfigured_eq]
  split
  · refine ⟨s.cells, fun _ _ => rfl, ?_⟩
    rw [List.append_nil]
    rfl
  · refine ⟨(markedDown cell s).cells, fun n h => look_markedDown_ne s h, ?_⟩
    rw [cellDown_idle .removed hs hh, pushNotice_room (by exact hn)]
    rfl

theorem trunk_placeReply (kind : ReplyKind) (tag : Byte) (status : Status) (s : State) (t : Nat) :
    (placeReply kind tag status .empty s).trunk t = s.trunk t := by
  rw [placeReply_empty_frame]
  rfl

/-- Settles O23: by cases on the cell's record; R10 is told by the chain of ends that a cell going DOWN makes. -/
theorem removeCellDiscardsTheCell : Obligations.RemoveCellDiscardsTheCell := by
  intro h cell s ht hcell
  refine ⟨fun hc => ?absent, fun c hc hs hh hn => ?idle, fun c hc hup hfits law => ?serving⟩
  case absent =>
    exact ⟨_, congrArg Host.Outcome.next (takeActing_refused ht rfl (ruleRemoveCell_absent hcell hc)), replied_placeReply ..,
      placeReply_empty_frame ..⟩
  case idle =>
    obtain ⟨cells, hcells, he⟩ := removeConfigured_idle (c := c) hs hh hn
    refine ⟨_, congrArg Host.Outcome.next (takeActing_acts ht (ruleRemoveCell_configured hcell hc) rfl), ?_⟩
    rw [he]
    refine ⟨(replied_placeReply ..).before rfl rfl, countersKept_placeReply _ _ _ _ (cellErased cell _), fun n => ?_, fun t => ?_, ?_, ?_⟩
    · rw [placeReply_empty_frame]
      show (cellErased cell _).cells.look n = _
      rw [look_cellErased]
      exact ite_congr rfl (fun _ => rfl) fun hn => hcells n hn
    · rw [trunk_placeReply, trunk_cellErased]
      rfl
    · rw [placeReply_empty_frame]
      rfl
    · rw [placeReply_empty_frame]
      rfl
  case serving =>
    refine ⟨_, congrArg Host.Outcome.next (takeActing_acts ht (ruleRemoveCell_configured hcell hc) rfl), ?_⟩
    have hd := downFrame_cellDown s cell .removed
    have hlost := repliesLost_cellDown (cell := cell) hfits.stations.1 hfits.handovers.1 hfits.copies.1 law.moving .removed
    have hwent := wentDown_cellDown (cell := cell) hfits.stations.1 hfits.handovers.1 hfits.copies.1 law.moving .removed
    rw [removeConfigured_eq, if_neg hup]
    generalize cellDown cell .removed s = v at hd hlost hwent
    have hlink : v.link = s.link := by rw [hd.frame]
    refine ⟨(replied_placeReply ..).before hlink hlost, ?_, fun n k hn hk => ?_, ?_, ?_, fun hn => ?_, ?_⟩
    · have hkept := countersKept_placeReply (.order .removeCell) h.tag .done .empty (cellErased cell v)
      have hf := placeReply_empty_frame (.order .removeCell) h.tag .done (cellErased cell v)
      have he : SameEnds (cellErased cell v) (placeReply (.order .removeCell) h.tag .done .empty (cellErased cell v)) :=
        ⟨by rw [hf], by rw [hf], hkept _ (by simp), hkept _ (by simp), hkept _ (by simp), hkept _ (by simp)⟩
      exact hwent.congr (.of_eq rfl rfl rfl) rfl (.trans (.of_eq (e := cellErased cell v) rfl rfl rfl) he)
    · obtain ⟨m, w, ha⟩ := hd.cells n k hn hk
      rw [placeReply_empty_frame]
      exact ⟨_, by rw [look_cellErased, if_neg hn, ha]⟩
    · rw [placeReply_empty_frame]
      exact (look_cellErased cell v cell).trans (if_pos rfl)
    · rw [trunk_placeReply, trunk_cellErased, if_pos rfl]
      simp
    · rw [placeReply_empty_frame]
      exact hd.notice hn
    · rw [placeReply_empty_frame, cellErased_frame, hd.frame]

/-! ## A POLL sent (R7) -/

theorem startFrame_frame (t : Nat) (f : LinkFrame) (b : Bool) (s : State) :
    startFrame t f b s = { s with counters := (startFrame t f b s).counters, trunks := (startFrame t f b s).trunks } := rfl

theorem countersKept_startFrame (t : Nat) (f : LinkFrame) (b : Bool) (s : State) :
    CountersKept s (startFrame t f b s) (· = .trunk t .framesOut) :=
  countersKept_advance (.trunk t .framesOut) 1 (s.setTrunk t _)

/-- No reply was awaited: nothing is settled. -/
theorem settlePoll_unawaited {c : Cell} (hc : s.cells.look cell = some c) (h : c.awaited = false) : settlePoll cell s = s := by
  simp [settlePoll, hc, h]

/-- The first and the second miss. -/
theorem settlePoll_silent {c : Cell} (hc : s.cells.look cell = some c) (h : c.awaited = true) (hm : c.missed < 2) :
    settlePoll cell s =
      updateCell cell (fun c => { c with missed := c.missed + 1, state := .silent }) (bump (.cell cell .pollsMissed) s) := by
  simp [settlePoll, hc, h, hm]

/-- The third miss takes the cell DOWN. -/
theorem settlePoll_down {c : Cell} (hc : s.cells.look cell = some c) (h : c.awaited = true) (hm : c.missed = 2) :
    settlePoll cell s = cellDown cell .missedPolls (bump (.cell cell .pollsMissed) s) := by
  simp [settlePoll, hc, h, hm]

/-- A cell that is DOWN stays so. -/
theorem settlePoll_after {c : Cell} (hc : s.cells.look cell = some c) (h : c.awaited = true) (hm : 2 < c.missed) :
    settlePoll cell s = bump (.cell cell .pollsMissed) s := by
  simp [settlePoll, hc, h, not_lt.mpr hm.le, hm.ne']

/-- The POLL is marked as sent: a reply awaited, the next due time, no POLL queued. -/
def pollMarked (cell : Nat) (s : State) : State :=
  updateCell cell (fun c =>
    { c with awaited := true, due := some (s.now + BitVec.ofNat 32 s.settings.timers.poll), queued := .none }) s

theorem sameEnds_pollMarked (cell : Nat) (s : State) : SameEnds s (pollMarked cell s) := .of_eq rfl rfl rfl

theorem pollMarked_notices (cell : Nat) (s : State) : (pollMarked cell s).notices = s.notices := rfl

theorem sendPoll_eq (t cell : Nat) (s : State) :
    sendPoll t cell s = pollMarked cell (settlePoll cell (startFrame t (.poll cell) false s)) := rfl

/-- The record after, the table of R7 for a miss count of at most 3. -/
theorem look_pollMarked {c : Cell} (hc : s.cells.look cell = some c) : (pollMarked cell s).cells.look cell =
    some { c with awaited := true, due := some (s.time.clock + BitVec.ofNat 32 s.settings.timers.poll), queued := .none } := by
  rw [pollMarked, look_updateCell, if_pos rfl, hc]
  rfl

/-- What settling the previous POLL does to the cell, and to the state of which it needs the clock and the settings (R7). -/
theorem settlePoll_spec {c : Cell} (hc : s.cells.look cell = some c) (hm : c.missed ≤ 3) :
    (∃ account, (settlePoll cell s).cells.look cell = some { c with
      state := if c.awaited = false then c.state else if c.missed < 2 then .silent else if c.missed = 2 then .down else c.state
      missed := if c.awaited = false then c.missed else if c.missed < 3 then c.missed + 1 else 3, account := account })
    ∧ Advanced s (settlePoll cell s) (.cell cell .pollsMissed) (if c.awaited = true then 1 else 0)
    ∧ (settlePoll cell s).time = s.time ∧ (settlePoll cell s).settings = s.settings := by
  have hbump := advanced_advance (.cell cell .pollsMissed) 1 s
  rcases Bool.eq_false_or_eq_true c.awaited with h | h
  · simp only [h, Bool.true_eq_false, if_false, if_true]
    rcases Nat.lt_trichotomy c.missed 2 with h2 | h2 | h2
    · rw [settlePoll_silent hc h h2, if_pos h2, if_pos (by omega)]
      refine ⟨⟨c.account, ?_⟩, hbump, rfl, rfl⟩
      rw [look_updateCell, if_pos rfl]
      show (s.cells.look cell).map _ = _
      simp [hc, h]
    · rw [settlePoll_down hc h h2, if_neg (by omega), if_pos h2, if_pos (by omega), h2]
      have hd := downFrame_cellDown (bump (.cell cell .pollsMissed) s) cell .missedPolls
      obtain ⟨m, w, hown⟩ := hd.own c hc
      refine ⟨⟨_, by simpa [h] using hown⟩, ?_, ?_, ?_⟩
      · exact Advanced.trans (n := 0) hbump (hd.counts.advanced (c := .cell cell .pollsMissed) nofun)
      · rw [hd.frame]; rfl
      · rw [hd.frame]; rfl
    · have h3 : c.missed = 3 := by omega
      rw [settlePoll_after hc h h2, if_neg (by omega), if_neg (by omega), if_neg (by omega)]
      refine ⟨⟨c.account, ?_⟩, hbump, rfl, rfl⟩
      rw [← h3, ← h]
      exact hc
  · rw [settlePoll_unawaited hc h]
    refine ⟨⟨c.account, ?_⟩, ?_, rfl, rfl⟩
    · rw [if_pos h, if_pos h]
      exact hc
    · rw [h]
      exact .refl ..

/-- Settles O26: by the miss count of a cell whose reply was awaited. -/
theorem aPollSentSettlesThePreviousOne : Obligations.APollSentSettlesThePreviousOne := by
  intro t cell c s hc hm
  have hstart := countersKept_startFrame t (.poll cell) false s
  have hv := startFrame_frame t (.poll cell) false s
  rw [sendPoll_eq]
  generalize startFrame t (.poll cell) false s = v at hstart hv
  have hcv : v.cells.look cell = some c := by rw [hv, hc]
  have htime : v.time = s.time := by rw [hv]
  refine ⟨?_, fun hfits law h h2 => ?_, fun h => ?_⟩
  · obtain ⟨⟨a, ha⟩, hcount, ht, hset⟩ := settlePoll_spec hcv hm
    refine ⟨a, ?_, ?_, by rw [← htime, ← ht]; rfl, ?_⟩
    · rw [look_pollMarked ha, ht, hset, hv]
    · exact hcount.same (hstart _ nofun) rfl
    · show (settlePoll cell v).settings = _
      rw [hset, hv]
  · have hb := countersKept_advance (.cell cell .pollsMissed) 1 v
    have hk : ∀ d : PartCounter, (bump (.cell cell .pollsMissed) v).counter (.part d) = s.counter (.part d) := fun d =>
      (hb (.part d) nofun).trans (hstart (.part d) nofun)
    have hsame : SameEnds s (bump (.cell cell .pollsMissed) v) :=
      ⟨by rw [hv]; rfl, by rw [hv]; rfl, hk _, hk _, hk _, hk _⟩
    have hlaw : (bump (.cell cell .pollsMissed) v).MovingLaw := by
      rw [hv]
      exact law.moving
    rw [settlePoll_down hcv h h2]
    have hw : (bump (.cell cell .pollsMissed) v).stations.wf = true ∧ (bump (.cell cell .pollsMissed) v).handovers.wf = true
        ∧ (bump (.cell cell .pollsMissed) v).copies.wf = true := by
      rw [hv]
      exact ⟨hfits.stations.1, hfits.handovers.1, hfits.copies.1⟩
    refine ⟨(wentDown_cellDown (cell := cell) hw.1 hw.2.1 hw.2.2 hlaw .missedPolls).congr hsame htime (sameEnds_pollMarked ..),
      fun hn => ?_⟩
    have hnv : v.notices = s.notices := by rw [hv]
    have hd := downFrame_cellDown (bump (.cell cell .pollsMissed) v) cell .missedPolls
    have hbn : (bump (.cell cell .pollsMissed) v).notices = s.notices := hnv
    have hbt : (bump (.cell cell .pollsMissed) v).time = s.time := htime
    have hnotice := hd.notice (by rw [hbn]; exact hn)
    rw [hbn, hbt] at hnotice
    rw [pollMarked_notices, hnotice]
  · have hsettled : (settlePoll cell v).stations = v.stations ∧ (settlePoll cell v).handovers = v.handovers
        ∧ (settlePoll cell v).notices = v.notices := by
      rcases Bool.eq_false_or_eq_true c.awaited with ha | ha
      · have h2 := h.resolve_left (by simp [ha])
        rcases Nat.lt_or_gt_of_ne h2 with h2 | h2
        · rw [settlePoll_silent hcv ha h2]
          exact ⟨rfl, rfl, rfl⟩
        · rw [settlePoll_after hcv ha h2]
          exact ⟨rfl, rfl, rfl⟩
      · rw [settlePoll_unawaited hcv ha]
        exact ⟨rfl, rfl, rfl⟩
    rw [hv] at hsettled ⊢
    exact hsettled

end Sys2Proof.Machine
end

