-- ==== Sys2Proof/Proofs/Told.lean ====
section
/-! PROOFS. A chain of ends where there is room for what it makes: the messages on the trunks, the memberships carried, nothing lost on its way
(R29, R76, R77, R131). -/

namespace Sys2Proof.Machine

variable {p q : Nat → Prop} {i : Nat} {s t u v : State} {l : List Act} {a : Act} {ms : List Signal}

/-! ## Messages made one after another -/

/-- The state has made these messages, one after another, and lost none: its trunks hold them, its configured cells are those before. -/
structure Sent (s : State) (ms : List Signal) (v : State) : Prop where
  trunks : ∀ j, v.trunk j = s.trunkAfter ms j
  cells  : ∀ n, (v.cells.look n).isSome = (s.cells.look n).isSome

theorem State.trunkAfter_nil (s : State) (j : Nat) : s.trunkAfter [] j = s.trunk j := by
  simp [State.trunkAfter]

theorem sent_nil (s : State) : Sent s [] s := ⟨fun j => (s.trunkAfter_nil j).symm, fun _ => rfl⟩

theorem Calm.configured (h : Calm s t) (n : Nat) : (t.cells.look n).isSome = (s.cells.look n).isSome := by
  cases hc : s.cells.look n with
  | none => rw [h.absent hc]
  | some c =>
    obtain ⟨a, ha, -⟩ := h.cell hc
    rw [ha]
    rfl

/-- What makes no message leaves what is sent. -/
theorem Sent.after (h : Sent s ms v) (ht : t.trunks = v.trunks) (hc : Calm v t) : Sent s ms t where
  trunks j := by rw [← h.trunks, State.trunk, State.trunk, ht]
  cells n := (hc.configured n).trans (h.cells n)

theorem Sent.state (h : Sent s ms v) (j : Nat) : (v.trunk j).state = (s.trunk j).state := by
  rw [h.trunks, State.trunkAfter]
  split <;> rfl

theorem State.trunkAfter_append (s : State) (ms : List Signal) (m : Signal) (j : Nat) : s.trunkAfter (ms ++ [m]) j =
    if m.cell / 32 = j ∧ (s.cells.look m.cell).isSome = true ∧ ((s.trunk j).state = .active ∨ (s.trunk j).state = .draining) then
      { s.trunkAfter ms j with signals := (s.trunkAfter ms j).signals ++ [m] } else s.trunkAfter ms j := by
  unfold State.trunkAfter
  by_cases hj : m.cell / 32 = j <;> by_cases hc : (s.cells.look m.cell).isSome = true <;>
    by_cases hs : (s.trunk j).state = .active ∨ (s.trunk j).state = .draining <;> simp [hj, hc, hs]

/-- One message more, where its trunk has room for it: it joins class 2 or falls away uncounted. -/
theorem Sent.post (h : Sent s ms v) (cell : Nat) (addr : Addr) (body : SignalBody)
    (hr : ∀ j, s.RoomFor (ms ++ [⟨cell, addr, body⟩]) j) :
    Sent s (ms ++ [⟨cell, addr, body⟩]) (postSignal cell addr body v) ∧ (postSignal cell addr body v).counters = v.counters := by
  have hcells : ∀ n, ((postSignal cell addr body v).cells.look n).isSome = (s.cells.look n).isSome := fun n => by
    rw [postSignal_cells, h.cells]
  have hroom := hr (cell / 32)
  rw [State.RoomFor, State.trunkAfter_append] at hroom
  by_cases hin : (s.cells.look cell).isSome = true ∧ ((s.trunk (cell / 32)).state = .active ∨ (s.trunk (cell / 32)).state = .draining)
  · rw [if_pos ⟨rfl, hin⟩, ← h.trunks] at hroom
    simp only [List.length_append, List.length_singleton] at hroom
    have hhas : v.HasRoom cell := ⟨(h.cells cell).trans hin.1, by rw [h.state]; exact hin.2, by omega⟩
    have hpost : postSignal cell addr body v =
        v.setTrunk (cell / 32) { v.trunk (cell / 32) with signals := (v.trunk (cell / 32)).signals ++ [⟨cell, addr, body⟩] } := by
      obtain ⟨h1, h2, h3⟩ := hhas
      have hne : ¬ ((v.trunk (cell / 32)).state = .held ∨ (v.trunk (cell / 32)).state = .linkDown) := by
        rcases h2 with h2 | h2 <;> simp [h2]
      have hfull : ¬ Config.signals ≤ (v.trunk (cell / 32)).signals.length := Nat.not_le.mpr h3
      simp [postSignal, trunkOf_eq, Option.isNone_iff_eq_none, Option.isSome_iff_ne_none.mp h1, hne, hfull]
    rw [hpost]
    refine ⟨⟨fun j => ?_, h.cells⟩, rfl⟩
    rw [trunk_setTrunk, State.trunkAfter_append, h.trunks, h.trunks]
    by_cases hj : j = cell / 32
    · subst hj
      rw [if_pos rfl, if_pos ⟨rfl, hin⟩]
    · rw [if_neg hj, if_neg fun hx => hj hx.1.symm]
  · have hpost : postSignal cell addr body v = v := by
      rw [not_and_or] at hin
      rcases hin with hin | hin
      · have : (v.cells.look cell).isNone = true := by
          have := (h.cells cell).trans (Bool.not_eq_true _ ▸ hin)
          simpa using this
        simp [postSignal, this]
      · have : (v.trunk (cell / 32)).state = .held ∨ (v.trunk (cell / 32)).state = .linkDown := by
          rw [h.state]
          revert hin
          cases (s.trunk (cell / 32)).state <;> simp
        simp [postSignal, trunkOf_eq, this]
    rw [hpost]
    refine ⟨⟨fun j => ?_, h.cells⟩, rfl⟩
    rw [State.trunkAfter_append, h.trunks]
    exact (if_neg fun ⟨h1, h2, h3⟩ => hin (by rw [h1]; exact ⟨h2, h3⟩)).symm

/-! ## Ends with room -/

/-- The messages that an end makes: the grant of a handover that is over. -/
def Act.told (s : State) : Act → List Signal
  | .force i => (s.handovers.look i).toList.flatMap fun h => (s.stations.look i).toList.map fun st => ⟨h.newCell, st.addr, .attachGrant i⟩
  | .cancel i => (s.stations.look i).toList.flatMap fun st => st.place.cell?.toList.map fun c => ⟨c, st.addr, .attachGrant i⟩
  | .sleep _ => []

/-- The memberships that an end carries can be carried: at most two, their channels defined, the new cell configured. -/
def Act.Carries (s : State) : Act → Prop
  | .force i => ∀ h st, s.handovers.look i = some h → s.stations.look i = some st → (s.cells.look h.newCell).isSome = true
      ∧ st.members.length ≤ 2 ∧ ∀ x ∈ st.members, (s.channels.look x.channel).isSome = true
  | _ => True

/-- From `s` to `v` the chain has carried every membership: at most two copies a handover have been made for it. -/
structure Brought (p : Nat → Prop) (s : State) (l : List Act) (v : State) : Prop where
  size     : v.copies.size ≤ s.copies.size + 2 * l.countP Act.isForce
  followed : ∀ i h st, .force i ∈ l → s.handovers.look i = some h → s.stations.look i = some st → ¬ p h.newCell →
    ∃ now, v.stations.look i = some now ∧ now.members.map (·.channel) = st.members.map (·.channel)
      ∧ ∀ x ∈ now.members, v.Follows h.newCell x

/-- From `s` to `v` the chain has made these messages, and lost nothing on its way. -/
structure Told (p : Nat → Prop) (s : State) (ms : List Signal) (v : State) : Prop where
  sent : Sent s ms v
  kept : CountersKept s v (EndCounter p)

theorem brought_nil (p : Nat → Prop) (s : State) : Brought p s [] s := ⟨by simp, fun _ _ _ h => by cases h⟩

theorem told_nil (p : Nat → Prop) (s : State) : Told p s [] s := ⟨sent_nil s, fun _ _ => rfl⟩

/-- A handover forced where its memberships can be carried: small moves that lose nothing follow the grant. -/
theorem forceHandover_carried (hcw : v.copies.wf = true) {h : Handover} {st : Station} (hh : v.handovers.look i = some h)
    (hst : v.stations.look i = some st) (hc : (v.cells.look h.newCell).isSome = true)
    (hch : ∀ x ∈ st.members, (v.channels.look x.channel).isSome = true) (hsize : v.copies.size + st.members.length ≤ 2048) :
    ∃ x, forceHandover i v = bumpPart .handoversForced (bumpPart .handoversCompleted x)
      ∧ Shift (· = h.oldCell) (· = h.newCell) i False (grantedState i h st v) x
      ∧ x.copies.size ≤ v.copies.size + st.members.length
      ∧ ∃ now, x.stations.look i = some now ∧ now.members.map (·.channel) = st.members.map (·.channel)
        ∧ ∀ y ∈ now.members, x.Follows h.newCell y := by
  have hframe := arrivedState_frame i h st v
  obtain ⟨r, hl⟩ := look_arrivedState (i := i) h st v
  have hgin : Inner v (grantedState i h st v) := (inner_arrivedState i h st v).trans (.post ..)
  have hgc : (grantedState i h st v).copies = v.copies := by rw [grantedState, postSignal_copies, hframe]
  have hgch : (grantedState i h st v).channels = v.channels := by rw [hgin.frame]
  have hgl : (grantedState i h st v).stations.look i = some { arrived v.now h st with rate := r } := by
    rw [grantedState, postSignal_stations, hl]
  obtain ⟨hsh, hsz, now, hnow, hm, hf⟩ := carryMemberships_room (newCell := h.newCell) (by rw [hgc]; exact hcw) hgl h.oldCell
    (by rw [hgch]; exact hch) (by rw [hgin.calm.configured]; exact hc) (by rw [hgc]; exact hsize)
  have he := forceHandover_eq hh hst
  generalize carryMemberships i h.oldCell h.newCell (grantedState i h st v) = x at he hsh hsz hnow hf
  have hfill : (fillCredit i x).stations.look i = some { now with credit := fullCredit x.time.unit now.rate } := by
    rw [fillCredit, look_updateStation, if_pos rfl, hnow]
    rfl
  exact ⟨_, he, hsh.trans (.credit _), by rw [← hgc]; exact hsz, _, hfill, hm, hf⟩

/-- Its grant made where there is room for it. -/
theorem forceHandover_told {h : Handover} {st : Station} {x : State} (hp : p h.oldCell)
    (he : forceHandover i v = bumpPart .handoversForced (bumpPart .handoversCompleted x))
    (hsh : Shift (· = h.oldCell) (· = h.newCell) i False (grantedState i h st v) x) (hs : Sent s ms v)
    (hr : ∀ j, s.RoomFor (ms ++ [⟨h.newCell, st.addr, .attachGrant i⟩]) j) :
    Sent s (ms ++ [⟨h.newCell, st.addr, .attachGrant i⟩]) (forceHandover i v) ∧ CountersKept v (forceHandover i v) (EndCounter p) := by
  have hframe := arrivedState_frame i h st v
  obtain ⟨hpost, hcount⟩ := (hs.after (t := arrivedState i h st v) (by rw [hframe]) (inner_arrivedState i h st v).calm).post
    h.newCell st.addr (.attachGrant i) hr
  have hgk : (grantedState i h st v).counters = v.counters := hcount.trans (by rw [hframe])
  rw [he]
  refine ⟨?_, ?_⟩
  · obtain ⟨counters, hc⟩ := bumpPart_bumpPart_eq .handoversForced .handoversCompleted x
    rw [hc]
    exact hpost.after (hsh.trunks not_false) (hsh.inner.calm.trans (.of_eq rfl rfl))
  have h1 : CountersKept v (grantedState i h st v) (EndCounter p) := countersKept_of_eq hgk _
  have h2 : CountersKept (grantedState i h st v) x (EndCounter p) := hsh.counters.mono fun c hc => by
    rcases hc with ⟨n, rfl, rfl⟩ | ⟨hc, -⟩
    · exact .discarded _ hp
    · exact hc.elim
  exact (h1.trans h2).trans (((countersKept_bumpPart .handoversCompleted _).mono fun c hc => hc ▸ .completed).trans
    ((countersKept_bumpPart .handoversForced _).mono fun c hc => hc ▸ .forced))

/-- A handover cancelled to its old cell where there is room for the grant. -/
theorem cancelToOld_told {st : Station} {cell : Nat} {since : Clock} (hst : v.stations.look i = some st)
    (hp : st.place = .moving cell since) (hs : Sent s ms v) (hr : ∀ j, s.RoomFor (ms ++ [⟨cell, st.addr, .attachGrant i⟩]) j) :
    Sent s (ms ++ [⟨cell, st.addr, .attachGrant i⟩]) (cancelToOld i v) ∧ CountersKept v (cancelToOld i v) (EndCounter p) := by
  obtain ⟨hpost, hcount⟩ := (hs.after (t := returnedState i cell since st v) rfl (.of_eq rfl rfl)).post cell st.addr (.attachGrant i) hr
  rw [cancelToOld_eq hst hp]
  generalize postSignal cell st.addr (.attachGrant i) (returnedState i cell since st v) = x at hpost hcount
  have h1 : CountersKept v x (EndCounter p) := countersKept_of_eq hcount _
  exact ⟨hpost.after rfl (.of_eq rfl rfl), h1.trans ((countersKept_bumpPart .handoversCancelled _).mono fun c hc => hc ▸ .cancelled)⟩

/-- A station that goes DORMANT leaves no copy more than there was. -/
theorem size_goDormant (hcw : v.copies.wf = true) {st : Station} {cell : Nat} (hst : v.stations.look i = some st)
    (hc : st.place.cell? = some cell) : (goDormant i v).copies.size ≤ v.copies.size := by
  have h1 := (shift_leftCell hcw i cell st).size (fun _ => id) hcw
  obtain ⟨_, _, _, hf⟩ := goDormant_frame hst hc
  rw [hf]
  exact h1

/-- The station of a handover to force, when its turn comes. -/
theorem Done.forced_station {h : Handover} {st : Station} (hv : Done p s l v) (hnew : ∀ b ∈ l, b.index ≠ i)
    (hcarry : (Act.force i).Carries s) (hh : s.handovers.look i = some h) (hst : s.stations.look i = some st) :
    v.handovers.look i = some h ∧ (∃ r, v.stations.look i = some { st with rate := r }) ∧ (v.cells.look h.newCell).isSome = true
      ∧ (∀ x ∈ st.members, (v.channels.look x.channel).isSome = true) ∧ st.members.length ≤ 2 := by
  obtain ⟨hc, h2, hch⟩ := hcarry h st hh hst
  obtain ⟨r, hl, -⟩ := hv.others i st hnew hst
  refine ⟨?_, ⟨r, hl⟩, (hv.inner.calm.configured _).trans hc, ?_, h2⟩
  · rw [hv.handovers, if_neg fun ⟨b, hb, e⟩ => hnew b hb e, hh]
  · rw [hv.inner.frame]
    exact hch

/-- One end more, its memberships carried. -/
theorem Brought.step (hs : s.stations.wf = true) (hcs : s.copies.wf = true) (hv : Done p s l v) (hnew : ∀ b ∈ l, b.index ≠ a.index)
    (hcan : a.Can p s) (hcarry : a.Carries s) (hb : Brought p s l v)
    (hsize : s.copies.size + 2 * (l ++ [a]).countP Act.isForce ≤ 2048) : Brought p s (l ++ [a]) (a.run v) := by
  have hadd := adds_run hs hcs hv hnew hcan
  have hold : ∀ {i h st}, Act.force i ∈ l → s.handovers.look i = some h → s.stations.look i = some st → ¬ p h.newCell →
      ∃ now, (a.run v).stations.look i = some now ∧ now.members.map (·.channel) = st.members.map (·.channel)
        ∧ ∀ x ∈ now.members, (a.run v).Follows h.newCell x := fun {i h st} hi hh hst hn => by
    obtain ⟨now, hnow, hm, hf⟩ := hb.followed i h st hi hh hst hn
    obtain ⟨r, hr, -⟩ := hadd.others.kept i now (hnew _ hi) hnow
    refine ⟨_, hr, hm, fun x hx => ?_⟩
    obtain ⟨n, c, hc, hch, hcell, hst⟩ := hf x hx
    obtain ⟨m, hm⟩ := hadd.copies n c hc (by rw [hcell]; exact hn)
    exact ⟨n, _, hm, hch, hcell, hst⟩
  have hsz := hb.size
  rw [List.countP_append] at hsize
  cases a with
  | force i =>
    obtain ⟨h, st, since, hh, hst, hp, hpc⟩ := hcan
    obtain ⟨hhv, ⟨r, hl⟩, hc, hch, h2⟩ := hv.forced_station hnew hcarry hh hst
    have h1 : [Act.force i].countP Act.isForce = 1 := rfl
    rw [h1] at hsize
    obtain ⟨x, he, -, hxs, now, hnow, hm, hf⟩ := forceHandover_carried (hv.inner.wf.2.1 hcs) hhv hl hc hch
      (show v.copies.size + st.members.length ≤ 2048 by omega)
    obtain ⟨counters, hx⟩ := bumpPart_bumpPart_eq .handoversForced .handoversCompleted x
    have he' : (Act.force i).run v = x.setCounters counters := he.trans hx
    refine ⟨?_, fun j g y hj hg hy hn => ?_⟩
    · have hxs' : x.copies.size ≤ v.copies.size + st.members.length := hxs
      rw [List.countP_append, h1, he']
      show x.copies.size ≤ _
      omega
    · rcases List.mem_append.mp hj with hj | hj
      · exact hold hj hg hy hn
      · obtain rfl : j = i := Act.force.inj (List.mem_singleton.mp hj)
        obtain rfl := Option.some.inj (hh.symm.trans hg)
        obtain rfl := Option.some.inj (hst.symm.trans hy)
        rw [he']
        exact ⟨now, hnow, hm, hf⟩
  | cancel i =>
    obtain ⟨st, cell, since, hst, hp⟩ := hcan
    obtain ⟨r, hl, -⟩ := hv.others i st hnew hst
    have hf := cancelled_cancelToOld (hv.inner.wf.1 hs) hl hp
    refine ⟨?_, fun j g x hj hg hx hn => ?_⟩
    · show (cancelToOld i v).copies.size ≤ _
      rw [hf.untouched.1, List.countP_append]
      exact hsz
    · rcases List.mem_append.mp hj with hj | hj
      · exact hold hj hg hx hn
      · cases List.mem_singleton.mp hj
  | sleep i =>
    obtain ⟨st, cell, since, hst, hp, hno, hpc⟩ := hcan
    obtain ⟨r, hl, -⟩ := hv.others i st hnew hst
    refine ⟨?_, fun j g x hj hg hx hn => ?_⟩
    · rw [List.countP_append]
      exact (size_goDormant (hv.inner.wf.2.1 hcs) hl (by rw [hp]; rfl)).trans hsz
    · rcases List.mem_append.mp hj with hj | hj
      · exact hold hj hg hx hn
      · cases List.mem_singleton.mp hj

/-- One end more, with room for its message. -/
theorem Told.step (hs : s.stations.wf = true) (hcs : s.copies.wf = true) (hv : Done p s l v) (hnew : ∀ b ∈ l, b.index ≠ a.index)
    (hcan : a.Can p s) (hcarry : a.Carries s) (hb : Brought p s l v)
    (hsize : s.copies.size + 2 * (l ++ [a]).countP Act.isForce ≤ 2048) (ht : Told p s ms v)
    (hr : ∀ j, s.RoomFor (ms ++ a.told s) j) : Told p s (ms ++ a.told s) (a.run v) := by
  have hadd := adds_run hs hcs hv hnew hcan
  have hsz := hb.size
  rw [List.countP_append] at hsize
  cases a with
  | force i =>
    obtain ⟨h, st, since, hh, hst, hp, hpc⟩ := hcan
    obtain ⟨hhv, ⟨r, hl⟩, hc, hch, h2⟩ := hv.forced_station hnew hcarry hh hst
    have htold : (Act.force i).told s = [⟨h.newCell, st.addr, .attachGrant i⟩] := by simp [Act.told, hh, hst]
    rw [show [Act.force i].countP Act.isForce = 1 from rfl] at hsize
    obtain ⟨x, he, hsh, -⟩ := forceHandover_carried (hv.inner.wf.2.1 hcs) hhv hl hc hch
      (show v.copies.size + st.members.length ≤ 2048 by omega)
    rw [htold] at hr ⊢
    obtain ⟨g1, g2⟩ := forceHandover_told hpc he hsh ht.sent hr
    exact ⟨g1, ht.kept.trans g2⟩
  | cancel i =>
    obtain ⟨st, cell, since, hst, hp⟩ := hcan
    obtain ⟨r, hl, -⟩ := hv.others i st hnew hst
    have htold : (Act.cancel i).told s = [⟨cell, st.addr, .attachGrant i⟩] := by simp [Act.told, hst, hp, Place.cell?]
    rw [htold] at hr ⊢
    obtain ⟨g1, g2⟩ := cancelToOld_told (p := p) hl hp ht.sent hr
    exact ⟨g1, ht.kept.trans g2⟩
  | sleep i =>
    obtain ⟨st, cell, since, hst, hp, hno, hpc⟩ := hcan
    obtain ⟨r, hl, -⟩ := hv.others i st hnew hst
    have hf := dormant_goDormant (hv.inner.wf.1 hs) (hv.inner.wf.2.1 hcs) hl (cell := cell) (by rw [hp]; rfl)
      (by rw [hv.handovers, if_neg fun ⟨b, hb, e⟩ => hnew b hb e, hno])
    refine ⟨?_, ht.kept.trans (hf.kept.mono fun c hc => ?_)⟩
    · rw [show ms ++ (Act.sleep i).told s = ms from List.append_nil _]
      exact ht.sent.after hf.trunks hadd.inner.calm
    · rcases hc with rfl | rfl
      · exact .dormant
      · exact .discarded _ hpc

theorem State.RoomFor.of_append {more : List Signal} {j : Nat} (h : s.RoomFor (ms ++ more) j) : s.RoomFor ms j := by
  unfold State.RoomFor State.trunkAfter at *
  split
  · next hs =>
    rw [if_pos hs] at h
    simp only [List.filter_append, List.length_append] at h ⊢
    omega
  · next hs => rwa [if_neg hs] at h

/-- A chain goes on, its memberships carried, and where there is room its messages made. -/
theorem carried_foldl {m : List Act} (hs : s.stations.wf = true) (hcs : s.copies.wf = true) (hv : Done p s l v) (hb : Brought p s l v)
    (hm : (l ++ m).Pairwise fun a b => a.index ≠ b.index) (hcan : ∀ a ∈ m, a.Can p s) (hcarry : ∀ a ∈ m, a.Carries s)
    (hsize : s.copies.size + 2 * (l ++ m).countP Act.isForce ≤ 2048) :
    Brought p s (l ++ m) (m.foldl Act.run v) ∧ (Told p s ms v → (∀ j, s.RoomFor (ms ++ m.flatMap (Act.told s)) j) →
      Told p s (ms ++ m.flatMap (Act.told s)) (m.foldl Act.run v)) := by
  induction m generalizing l ms v with
  | nil => simpa using ⟨hb, fun h _ => h⟩
  | cons a rest ih =>
    have hnew : ∀ b ∈ l, b.index ≠ a.index := fun b hb => (List.pairwise_append.mp hm).2.2 b hb a (by simp)
    have e : l ++ a :: rest = (l ++ [a]) ++ rest := by simp
    have e' : ms ++ (a :: rest).flatMap (Act.told s) = (ms ++ a.told s) ++ rest.flatMap (Act.told s) := by simp
    rw [e] at hm hsize ⊢
    rw [e']
    have hdone := hv.step hnew (adds_run hs hcs hv hnew (hcan a (by simp)))
    have hsize' : s.copies.size + 2 * (l ++ [a]).countP Act.isForce ≤ 2048 := by
      rw [List.countP_append] at hsize
      omega
    obtain ⟨h1, h2⟩ := ih (ms := ms ++ a.told s) hdone
      (hb.step hs hcs hv hnew (hcan a (by simp)) (hcarry a (by simp)) hsize') hm
      (fun b hb => hcan b (List.mem_cons_of_mem _ hb)) (fun b hb => hcarry b (List.mem_cons_of_mem _ hb)) hsize
    exact ⟨h1, fun ht hr => h2 (ht.step hs hcs hv hnew (hcan a (by simp)) (hcarry a (by simp)) hb hsize'
      fun j => (hr j).of_append) hr⟩

/-! ## The grants of a chain -/

theorem flatMap_told_force (E : List (Nat × Handover)) (hE : ∀ x ∈ E, s.handovers.look x.1 = some x.2) :
    ((E.map (·.1)).map Act.force).flatMap (Act.told s) =
      E.filterMap fun x => (s.stations.look x.1).map fun st => ⟨x.2.newCell, st.addr, .attachGrant x.1⟩ := by
  induction E with
  | nil => rfl
  | cons x rest ih =>
    have h := hE x (by simp)
    rw [List.map_cons, List.map_cons, List.flatMap_cons, ih fun y hy => hE y (List.mem_cons_of_mem _ hy), List.filterMap_cons]
    cases hst : s.stations.look x.1 <;> simp [Act.told, h, hst]

theorem flatMap_told_cancel (law : s.HandoverLaw) (E : List (Nat × Handover)) (hE : ∀ x ∈ E, s.handovers.look x.1 = some x.2) :
    ((E.map (·.1)).map Act.cancel).flatMap (Act.told s) =
      E.filterMap fun x => (s.stations.look x.1).map fun st => ⟨x.2.oldCell, st.addr, .attachGrant x.1⟩ := by
  induction E with
  | nil => rfl
  | cons x rest ih =>
    obtain ⟨st, since, hst, hp, -⟩ := law.moving x.1 x.2 (hE x (by simp))
    rw [List.map_cons, List.map_cons, List.flatMap_cons, ih fun y hy => hE y (List.mem_cons_of_mem _ hy), List.filterMap_cons]
    simp [Act.told, hst, hp, Place.cell?]

/-- The grants of the ends of handovers are what the chain of them makes. -/
theorem grantsOf_eq (hhw : s.handovers.wf = true) (law : s.HandoverLaw) (f c : Handover → Bool) : s.grantsOf f c =
    ((s.handovers.keysWhere fun _ h => f h).map Act.force ++ (s.handovers.keysWhere fun _ h => c h).map Act.cancel).flatMap
      (Act.told s) := by
  have hE : ∀ (g : Handover → Bool), ∀ x ∈ s.handovers.entries.filter fun x => g x.2, s.handovers.look x.1 = some x.2 := fun g x hx =>
    (Table.mem_entries hhw).mp (List.mem_of_mem_filter hx)
  rw [List.flatMap_append, Table.keysWhere, Table.keysWhere, flatMap_told_force _ (hE f), flatMap_told_cancel law _ (hE c)]
  rfl

theorem Act.told_congr (hh : t.handovers = s.handovers) (hs : t.stations = s.stations) : Act.told t = Act.told s := by
  funext a
  cases a <;> simp only [Act.told, hh, hs]

/-- The same trunk, the same configured cells: the same messages join. -/
theorem State.trunkAfter_congr {j : Nat} (ht : t.trunk j = s.trunk j) (hc : ∀ n, (t.cells.look n).isSome = (s.cells.look n).isSome)
    (ms : List Signal) : t.trunkAfter ms j = s.trunkAfter ms j := by
  simp only [State.trunkAfter, ht, hc]

/-- A trunk that is HELD or LINK DOWN takes none. -/
theorem State.trunkAfter_closed {j : Nat} (h : (s.trunk j).state = .held ∨ (s.trunk j).state = .linkDown) (ms : List Signal) :
    s.trunkAfter ms j = s.trunk j := by
  rw [State.trunkAfter, if_neg]
  rcases h with h | h <;> simp [h]

end Sys2Proof.Machine
end

