-- ==== Sys2Proof/Proofs/Drains.lean ====
section
/-! PROOFS. A complete drain enters HELD and ends the trunk's handovers (R16, R83). -/

namespace Sys2Proof.Machine

variable {s u v e : State} {k : Nat}

/-! ## The trunk HELD, before its handovers end -/

/-- The trunk HELD, TRUNK HELD queued, its cells not polled. -/
def heldState (k : Nat) (s : State) : State :=
  updateCellsOf k (fun c => { c with queued := .none, awaited := false })
    (pushNotice (.trunkHeld k (s.trunk k).holdTag) (s.setTrunk k { s.trunk k with state := .held, heldSince := some s.now }))

theorem heldState_frame (hn : s.notices.length < Config.notices) : heldState k s = { s with
    notices := s.notices ++ [⟨s.time.clock, .trunkHeld k (s.trunk k).holdTag⟩]
    cells := (heldState k s).cells, trunks := (heldState k s).trunks } := by
  unfold heldState
  rw [pushNotice_room (by exact hn)]
  rfl

theorem trunk_heldState (s : State) (k j : Nat) : (heldState k s).trunk j =
    if j = k then { s.trunk k with state := .held, heldSince := some s.time.clock } else s.trunk j := by
  have h : (heldState k s).trunks = (s.setTrunk k { s.trunk k with state := .held, heldSince := some s.now }).trunks := by
    show (pushNotice _ _).trunks = _
    rw [pushNotice_frame]
  exact (congrArg (fun t => (t.look j).getD Trunk.atReset) h).trans (trunk_setTrunk s k j _)

theorem look_heldState (s : State) (k n : Nat) : (heldState k s).cells.look n = (s.cells.look n).map fun c =>
    if n / 32 = k then { c with queued := .none, awaited := false } else c := by
  have h : (heldState k s).cells = s.cells.mapAll fun n c => if n / 32 = k then { c with queued := .none, awaited := false } else c := by
    simp only [heldState, updateCellsOf, trunkOf_eq, setCells_cells]
    rw [pushNotice_frame]
    rfl
  rw [h, Table.look_mapAll]

/-! ## The handovers that end -/

/-- The ends that a trunk entering HELD makes, in their order (R83). -/
def State.heldActs (s : State) (k : Nat) : List Act :=
  (s.handovers.keysWhere fun _ h => h.oldCell / 32 == k).map Act.force
    ++ (s.handovers.keysWhere fun _ h => h.oldCell / 32 != k && h.newCell / 32 == k).map Act.cancel

theorem mem_heldActs_force (hhw : s.handovers.wf = true) {i : Nat} :
    .force i ∈ s.heldActs k ↔ ∃ h, s.handovers.look i = some h ∧ h.oldCell / 32 = k := by
  simp [State.heldActs, Table.mem_keysWhere hhw]

theorem mem_heldActs_cancel (hhw : s.handovers.wf = true) {i : Nat} :
    .cancel i ∈ s.heldActs k ↔ ∃ h, s.handovers.look i = some h ∧ h.oldCell / 32 ≠ k ∧ h.newCell / 32 = k := by
  simp [State.heldActs, Table.mem_keysWhere hhw]

theorem heldActs_not_sleep {i : Nat} : .sleep i ∉ s.heldActs k := by
  simp [State.heldActs]

/-- The handovers that end are those that touch the trunk. -/
theorem heldActs_index (hhw : s.handovers.wf = true) {i : Nat} :
    (∃ a ∈ s.heldActs k, a.index = i) ↔ ∃ h, s.handovers.look i = some h ∧ (h.oldCell / 32 = k ∨ h.newCell / 32 = k) := by
  constructor
  · rintro ⟨a, ha, rfl⟩
    cases a with
    | force i => exact ((mem_heldActs_force hhw).mp ha).imp fun _ h => ⟨h.1, .inl h.2⟩
    | cancel i => exact ((mem_heldActs_cancel hhw).mp ha).imp fun _ h => ⟨h.1, .inr h.2.2⟩
    | sleep i => exact absurd ha heldActs_not_sleep
  · rintro ⟨h, hh, hk⟩
    by_cases ho : h.oldCell / 32 = k
    · exact ⟨.force i, (mem_heldActs_force hhw).mpr ⟨h, hh, ho⟩, rfl⟩
    · exact ⟨.cancel i, (mem_heldActs_cancel hhw).mpr ⟨h, hh, ho, hk.resolve_left ho⟩, rfl⟩

theorem heldActs_spec (hhw : s.handovers.wf = true) (law : s.HandoverLaw) :
    (s.heldActs k).Pairwise (fun a b => a.index ≠ b.index) ∧ ∀ a ∈ s.heldActs k, a.Can (· / 32 = k) s := by
  refine ⟨List.pairwise_append.mpr ⟨rising_index (fun _ => rfl) (Table.keysWhere_pairwise hhw _),
    rising_index (fun _ => rfl) (Table.keysWhere_pairwise hhw _), ?_⟩, fun a ha => ?_⟩
  · intro a ha b hb heq
    obtain ⟨i, hi, rfl⟩ := List.mem_map.mp ha
    obtain ⟨j, hj, rfl⟩ := List.mem_map.mp hb
    obtain rfl : i = j := heq
    obtain ⟨h, hh, h1⟩ := (Table.mem_keysWhere hhw).mp hi
    obtain ⟨g, hg, h2⟩ := (Table.mem_keysWhere hhw).mp hj
    obtain rfl := Option.some.inj (hh.symm.trans hg)
    simp_all
  · cases a with
    | force i =>
      obtain ⟨h, hh, hk⟩ := (mem_heldActs_force hhw).mp ha
      obtain ⟨st, since, hst, hp, -⟩ := law.moving i h hh
      exact ⟨h, st, since, hh, hst, hp, hk⟩
    | cancel i =>
      obtain ⟨h, hh, -⟩ := (mem_heldActs_cancel hhw).mp ha
      obtain ⟨st, since, hst, hp, -⟩ := law.moving i h hh
      exact ⟨st, _, since, hst, hp⟩
    | sleep i => exact absurd ha heldActs_not_sleep

theorem countP_heldActs (s : State) (k : Nat) :
    (s.heldActs k).countP Act.isForce = (s.handovers.keysWhere fun _ h => h.oldCell / 32 == k).length
    ∧ (s.heldActs k).countP Act.isCancel = (s.handovers.keysWhere fun _ h => h.oldCell / 32 != k && h.newCell / 32 == k).length := by
  simp only [State.heldActs, List.countP_append, countP_force, countP_cancel]
  omega

/-- The aging of the stations of a HELD trunk paused (R16). -/
def pausedState (k : Nat) (s : State) : State :=
  s.setStations (s.stations.mapAll fun _ st => if st.place.isAssociated && st.onTrunk k then { st with paused := true } else st)

theorem look_pausedState (s : State) (k i : Nat) : (pausedState k s).stations.look i = (s.stations.look i).map fun st =>
    if st.place.isAssociated && st.onTrunk k then { st with paused := true } else st := Table.look_mapAll ..

/-- The two folds of a trunk entering HELD, read as chains (R83). -/
theorem enterHeld_folds (hv : v = (((heldState k s).handovers.keysWhere fun _ h => h.oldCell / 32 == k).map Act.force).foldl Act.run
    (heldState k s)) : enterHeld k s =
      pausedState k (((v.handovers.keysWhere fun _ h => h.newCell / 32 == k).map Act.cancel).foldl Act.run v) := by
  rw [foldl_force] at hv
  rw [foldl_cancel, hv]
  rfl

/-- Of the handovers to the trunk those from it have already ended, so those left are cancelled. -/
theorem enterHeld_eq (hhw : s.handovers.wf = true) (hn : s.notices.length < Config.notices) (hw : s.stations.wf = true)
    (hcw : s.copies.wf = true) (law : s.HandoverLaw) :
    enterHeld k s = pausedState k ((s.heldActs k).foldl Act.run (heldState k s))
      ∧ Done (· / 32 = k) (heldState k s) (s.heldActs k) ((s.heldActs k).foldl Act.run (heldState k s)) := by
  have hf := heldState_frame (k := k) hn
  have hbase : (heldState k s).stations = s.stations ∧ (heldState k s).handovers = s.handovers
      ∧ (heldState k s).copies = s.copies := by rw [hf]; exact ⟨rfl, rfl, rfl⟩
  obtain ⟨hbs, hbh, hbc⟩ := hbase
  have hlaw : (heldState k s).HandoverLaw := ⟨by rw [hbs, hbh]; exact law.moving, by rw [hbs, hbh]; exact law.record⟩
  have hacts : (heldState k s).heldActs k = s.heldActs k := by rw [State.heldActs, hbh]; rfl
  obtain ⟨hpair, hcan⟩ := heldActs_spec (k := k) (s := heldState k s) (by rw [hbh]; exact hhw) hlaw
  rw [hacts] at hpair hcan
  have hF := Done.foldl (s := heldState k s) (by rw [hbs]; exact hw) (by rw [hbc]; exact hcw) (done_nil (· / 32 = k) _)
    (hpair.sublist (List.sublist_append_left ..)) fun a ha => hcan a (List.mem_append_left _ ha)
  have hC := Done.foldl (s := heldState k s) (by rw [hbs]; exact hw) (by rw [hbc]; exact hcw) hF hpair
    fun a ha => hcan a (List.mem_append_right _ ha)
  refine ⟨?_, by rw [State.heldActs, List.foldl_append]; exact hC⟩
  have hleft : ((List.map Act.force (s.handovers.keysWhere fun _ h => h.oldCell / 32 == k)).foldl Act.run (heldState k s)).handovers.keysWhere
      (fun _ h => h.newCell / 32 == k) = s.handovers.keysWhere fun _ h => h.oldCell / 32 != k && h.newCell / 32 == k := by
    refine Table.keysWhere_congr (hF.inner.wf.2.2.1 (by rw [hbh]; exact hhw)) hhw fun j => ?_
    rw [hF.handovers, hbh]
    split
    · next hj =>
      obtain ⟨a, ha, rfl⟩ := hj
      obtain ⟨i, hi, rfl⟩ := List.mem_map.mp ha
      obtain ⟨h, hh, ho⟩ := (Table.mem_keysWhere hhw).mp hi
      have ho : h.oldCell / 32 = k := by simpa using ho
      simp [Act.index, hh, ho]
    · next hj =>
      refine exists_congr fun h => and_congr_right fun hh => ?_
      have ho : h.oldCell / 32 ≠ k := fun ho => hj ⟨.force j, List.mem_map_of_mem
        ((Table.mem_keysWhere hhw).mpr ⟨h, hh, by simp [ho]⟩), rfl⟩
      simp [ho]
  rw [State.heldActs, List.foldl_append, ← hleft]
  exact enterHeld_folds (by rw [hbh])

/-! ## What it leaves (R16, R83) -/

theorem execDrainComplete_undrained {k : Fin 8} (h : (s.trunk k.val).state ≠ .draining ∨ (s.trunk k.val).frame ≠ none
    ∨ (s.trunk k.val).signals ≠ []) : exec (.drainComplete k) s = .next s := by
  have : s.drained k.val = false := by
    simp only [State.drained, Bool.and_eq_false_iff, beq_eq_false_iff_ne, Option.isNone_eq_false_iff, Option.isSome_iff_ne_none,
      List.isEmpty_eq_false_iff, or_assoc]
    exact h
  exact congrArg Host.Outcome.next (if_neg (by simp [this]))

theorem execDrainComplete_drained {k : Fin 8} (h1 : (s.trunk k.val).state = .draining) (h2 : (s.trunk k.val).frame = none)
    (h3 : (s.trunk k.val).signals = []) : exec (.drainComplete k) s = .next (closeEvent (enterHeld k.val s)) :=
  congrArg Host.Outcome.next (if_pos (by simp [State.drained, h1, h2, h3]))

/-- A membership that follows its copy has the status that R131 says. -/
theorem followedTo_of_follows {before now : List Membership} {cell : Nat} (hm : now.map (·.channel) = before.map (·.channel))
    (hf : ∀ x ∈ now, e.Follows cell x) : FollowedTo e before now cell := by
  refine ⟨hm, fun x hx => ?_⟩
  obtain ⟨n, c, hn, hch, hc, hs⟩ := hf x hx
  exact ⟨n, c, hn, hch, hc, by rw [← hs, Copy.status_eq]⟩

/-- Where there is room for what the handovers carry, each can be carried. -/
theorem State.CarryRoom.carries (hroom : s.CarryRoom) (hfits : s.stations.holds Station.Fits) (law : s.HandoverLaw) (a : Act) : a.Carries s := by
  cases a with
  | force i =>
    intro h st hh hst
    obtain ⟨x, since, hx, hp, -⟩ := law.moving i h hh
    obtain rfl := Option.some.inj (hst.symm.trans hx)
    obtain ⟨-, h2, -⟩ := hfits i st hst
    exact ⟨hroom.cells i h hh, h2, fun y hy => hroom.channels i st y hst (by rw [hp]; rfl) hy⟩
  | cancel i => trivial
  | sleep i => trivial

/-- A pause leaves the law of rates. -/
theorem State.RatesLaw.paused {cell : Nat} (h : s.RatesLaw cell) (hw : s.stations.wf = true) (k : Nat) :
    (pausedState k s).RatesLaw cell :=
  h.congr hw (Table.wf_mapAll _ _ hw) rfl fun i => by
    rw [look_pausedState]
    cases s.stations.look i with
    | none => rfl
    | some st =>
      rw [Option.map_some, Option.map_some, Option.map_some]
      split <;> rfl

/-- The chain of ends of a trunk entering HELD, over the state before: what every part of R16 and R83 is read off. -/
structure Drained (k : Nat) (s v : State) : Prop where
  done    : Done (· / 32 = k) (heldState k s) (s.heldActs k) v
  entered : enterHeld k s = pausedState k v
  base    : heldState k s = { s with
    notices := s.notices ++ [⟨s.time.clock, .trunkHeld k (s.trunk k).holdTag⟩]
    cells := (heldState k s).cells, trunks := (heldState k s).trunks }

theorem Drained.fields (h : Drained k s v) : (heldState k s).stations = s.stations ∧ (heldState k s).handovers = s.handovers
    ∧ (heldState k s).copies = s.copies ∧ (heldState k s).pools = s.pools ∧ (heldState k s).time = s.time
    ∧ (heldState k s).channels = s.channels ∧ ∀ c, (heldState k s).counter c = s.counter c := by
  rw [h.base]
  exact ⟨rfl, rfl, rfl, rfl, rfl, rfl, fun _ => rfl⟩

/-- The station record that a pause on entry to HELD gives. -/
theorem Drained.look (h : Drained k s v) {i : Nat} {st : Station} (hst : v.stations.look i = some st) :
    (enterHeld k s).stations.look i = some { st with
      paused := st.paused || (st.place.isAssociated && st.place.cell?.map (· / 32) == some k) } := by
  have hon : st.onTrunk k = (st.place.cell?.map (· / 32) == some k) := by
    rw [Bool.eq_iff_iff, Station.onTrunk_iff, beq_iff_eq]
  rw [h.entered, look_pausedState, hst, Option.map_some, hon]
  cases st.place.isAssociated && st.place.cell?.map (· / 32) == some k <;> simp

theorem Drained.counted (h : Drained k s v) :
    HandoversCounted s (enterHeld k s) (fun h => h.oldCell / 32 == k) fun h => h.oldCell / 32 != k && h.newCell / 32 == k := by
  obtain ⟨-, -, -, -, -, -, hc⟩ := h.fields
  obtain ⟨hf, hx⟩ := countP_heldActs s k
  rw [Table.length_keysWhere] at hf hx
  rw [h.entered]
  exact ⟨hf ▸ h.done.forced.same (hc _) rfl, hf ▸ h.done.completed.same (hc _) rfl, hx ▸ h.done.cancelled.same (hc _) rfl⟩

/-- A handover forced by the entry to HELD. -/
theorem Drained.forced (h : Drained k s v) (hhw : s.handovers.wf = true) (hw : s.stations.wf = true) {i : Nat} {ho : Handover}
    {st : Station} (hh : s.handovers.look i = some ho) (hst : s.stations.look i = some st) (hk : ho.oldCell / 32 = k) :
    (enterHeld k s).RatesLaw ho.oldCell ∧ (enterHeld k s).RatesLaw ho.newCell
      ∧ ∃ members rate credit, (enterHeld k s).stations.look i = some { st with
          place := .associated ho.newCell s.time.clock, prev := some ho.oldCell
          paused := decide (ho.newCell / 32 = k), members := members, rate := rate, credit := credit } := by
  obtain ⟨hbs, hbh, -, -, hbt, -⟩ := h.fields
  have ha : .force i ∈ s.heldActs k := (mem_heldActs_force hhw).mpr ⟨ho, hh, hk⟩
  have hbw : (heldState k s).stations.wf = true := by rw [hbs]; exact hw
  have hvw := h.done.inner.wf.1 hbw
  obtain ⟨h1, h2⟩ := h.done.laws hbw i ho ha (by rw [hbh, hh])
  obtain ⟨now, hnow, hm⟩ := h.done.ended _ ha st (by rw [hbs]; exact hst)
  obtain ⟨m, r, c, rfl⟩ := hm ho (by rw [hbh, hh])
  refine ⟨by rw [h.entered]; exact h1.paused hvw k, by rw [h.entered]; exact h2.paused hvw k, m, r, c, ?_⟩
  rw [h.look (i := i) hnow, hbt]
  simp [Place.isAssociated, Place.cell?, Bool.beq_eq_decide_eq]

/-- A handover cancelled by the entry to HELD. -/
theorem Drained.cancelled (h : Drained k s v) (hhw : s.handovers.wf = true) {i : Nat} {ho : Handover} {st : Station} {since : Clock}
    (hh : s.handovers.look i = some ho) (hst : s.stations.look i = some st) (hp : st.place = .moving ho.oldCell since)
    (hk : ho.oldCell / 32 ≠ k) (hk' : ho.newCell / 32 = k) :
    ∃ rate, (enterHeld k s).stations.look i = some { st with place := .associated ho.oldCell since, rate := rate } := by
  obtain ⟨hbs, -⟩ := h.fields
  obtain ⟨now, hnow, hm⟩ := h.done.ended _ ((mem_heldActs_cancel hhw).mpr ⟨ho, hh, hk, hk'⟩) st (by rw [hbs]; exact hst)
  obtain ⟨r, rfl⟩ := hm _ _ hp
  refine ⟨r, ?_⟩
  rw [h.look (i := i) hnow]
  simp [Place.isAssociated, Place.cell?, hk]

/-- A station whose handover, if any, does not touch the trunk. -/
theorem Drained.others (h : Drained k s v) (hhw : s.handovers.wf = true) {i : Nat} {st : Station} (hst : s.stations.look i = some st)
    (hno : ∀ h, s.handovers.look i = some h → h.oldCell / 32 ≠ k ∧ h.newCell / 32 ≠ k) :
    (enterHeld k s).handovers.look i = s.handovers.look i ∧ ∃ rate, (enterHeld k s).stations.look i = some { st with
      paused := st.paused || (st.place.isAssociated && st.place.cell?.map (· / 32) == some k), rate := rate } := by
  obtain ⟨hbs, hbh, -⟩ := h.fields
  have hj : ¬ ∃ a ∈ s.heldActs k, a.index = i := fun hx => by
    obtain ⟨ho, hh, hk⟩ := (heldActs_index hhw).mp hx
    exact hk.elim (hno ho hh).1 (hno ho hh).2
  obtain ⟨r, hr, -⟩ := h.done.others i st (fun a ha e => hj ⟨a, ha, e⟩) (by rw [hbs]; exact hst)
  refine ⟨?_, r, h.look hr⟩
  rw [h.entered]
  exact (h.done.handovers i).trans ((if_neg hj).trans (by rw [hbh]))

/-- The chain where every membership can be carried. -/
theorem Drained.carried (h : Drained k s v) (hfits : s.Fits) (law : s.HandoverLaw) (hroom : s.CarryRoom)
    (hv : v = (s.heldActs k).foldl Act.run (heldState k s)) :
    Brought (· / 32 = k) (heldState k s) (s.heldActs k) v ∧ ((∀ j, (heldState k s).RoomFor ((s.heldActs k).flatMap (Act.told s)) j) →
      Told (· / 32 = k) (heldState k s) ((s.heldActs k).flatMap (Act.told s)) v) := by
  obtain ⟨hbs, hbh, hbc, -, -, hbch, -⟩ := h.fields
  have hbl : (heldState k s).HandoverLaw := ⟨by rw [hbs, hbh]; exact law.moving, by rw [hbs, hbh]; exact law.record⟩
  have hacts : (heldState k s).heldActs k = s.heldActs k := by rw [State.heldActs, hbh]; rfl
  obtain ⟨hpair, hcan⟩ := heldActs_spec (k := k) (s := heldState k s) (by rw [hbh]; exact hfits.handovers.1) hbl
  rw [hacts] at hpair hcan
  have htold : Act.told (heldState k s) = Act.told s := Act.told_congr hbh hbs
  have hcarry : ∀ a ∈ s.heldActs k, a.Carries (heldState k s) := fun a _ => by
    cases a with
    | force i =>
      intro ho st hh hst
      rw [hbh] at hh
      rw [hbs] at hst
      obtain ⟨g1, g2, g3⟩ := hroom.carries hfits.stations.holds law (.force i) ho st hh hst
      exact ⟨by rw [look_heldState, Option.isSome_map, g1], g2, by rw [hbch]; exact g3⟩
    | cancel i => trivial
    | sleep i => trivial
  have hsize : (heldState k s).copies.size + 2 * ([] ++ s.heldActs k).countP Act.isForce ≤ 2048 := by
    have h1 := hroom.copies
    have h2 : (s.heldActs k).countP Act.isForce ≤ s.handovers.size := by
      rw [(countP_heldActs s k).1, Table.length_keysWhere]
      exact List.length_filter_le ..
    rw [hbc, List.nil_append]
    omega
  obtain ⟨g1, g2⟩ := carried_foldl (ms := []) (m := s.heldActs k) (l := []) (by rw [hbs]; exact hfits.stations.1)
    (by rw [hbc]; exact hfits.copies.1) (done_nil (· / 32 = k) (heldState k s)) (brought_nil ..) hpair hcan hcarry hsize
  rw [hv, ← htold]
  exact ⟨g1, g2 (told_nil ..)⟩

theorem Drained.followed (h : Drained k s v) (hfits : s.Fits) (law : s.HandoverLaw) (hroom : s.CarryRoom)
    (hv : v = (s.heldActs k).foldl Act.run (heldState k s)) {i : Nat} {ho : Handover} {st : Station}
    (hh : s.handovers.look i = some ho) (hst : s.stations.look i = some st) (hk : ho.oldCell / 32 = k) (hk' : ho.newCell / 32 ≠ k) :
    ∃ now, (enterHeld k s).stations.look i = some now ∧ FollowedTo (enterHeld k s) st.members now.members ho.newCell := by
  obtain ⟨hbs, hbh, -⟩ := h.fields
  obtain ⟨hb, -⟩ := h.carried hfits law hroom hv
  obtain ⟨now, hnow, hm, hf⟩ := hb.followed i ho st ((mem_heldActs_force hfits.handovers.1).mpr ⟨ho, hh, hk⟩) (by rw [hbh, hh])
    (by rw [hbs, hst]) hk'
  refine ⟨_, h.look hnow, followedTo_of_follows hm fun x hx => ?_⟩
  rw [h.entered]
  exact hf x hx

/-- The grants on the other trunks, and no counter moved but those of the ends. -/
theorem Drained.told (h : Drained k s v) (hfits : s.Fits) (law : s.HandoverLaw) (hroom : s.CarryRoom)
    (hv : v = (s.heldActs k).foldl Act.run (heldState k s)) (hsig : (s.trunk k).signals = [])
    (hr : ∀ j, j ≠ k → s.RoomFor ((s.heldActs k).flatMap (Act.told s)) j) :
    (∀ j, j ≠ k → (enterHeld k s).trunk j = s.trunkAfter ((s.heldActs k).flatMap (Act.told s)) j)
      ∧ CountersKept s (enterHeld k s) fun x => x = .part .handoversForced ∨ x = .part .handoversCompleted
        ∨ x = .part .handoversCancelled ∨ ∃ n, n / 32 = k ∧ x = .cell n .replayDiscarded := by
  obtain ⟨-, -, -, -, -, -, hc⟩ := h.fields
  have hafter : ∀ j, j ≠ k → ∀ ms, (heldState k s).trunkAfter ms j = s.trunkAfter ms j := fun j hj ms =>
    State.trunkAfter_congr (by rw [trunk_heldState, if_neg hj]) (fun n => by rw [look_heldState, Option.isSome_map]) ms
  obtain ⟨-, htold⟩ := h.carried hfits law hroom hv
  obtain ⟨hsent, hkept⟩ := htold fun j => by
    by_cases hj : j = k
    · subst hj
      have hheld : (heldState j s).trunk j = { s.trunk j with state := .held, heldSince := some s.time.clock } := by
        rw [trunk_heldState, if_pos rfl]
      rw [State.RoomFor, State.trunkAfter_closed (.inl (by rw [hheld])), hheld]
      show (s.trunk j).signals.length ≤ 1024
      rw [hsig]
      exact Nat.zero_le _
    · rw [State.RoomFor, hafter j hj]
      exact hr j hj
  rw [h.entered]
  refine ⟨fun j hj => (hsent.trunks j).trans (hafter j hj _), fun c hn => ?_⟩
  have hv0 : v.counter c = (heldState k s).counter c := by
    by_cases hd : c = .part .goneDormant
    · subst hd
      have hno : (s.heldActs k).countP Act.isSleep = 0 := by
        simp only [State.heldActs, List.countP_append, countP_force, countP_cancel]
      have := h.done.dormant
      rw [hno, Advanced] at this
      simpa using this
    · refine hkept c fun hx => ?_
      cases hx with
      | forced => exact hn (.inl rfl)
      | completed => exact hn (.inr (.inl rfl))
      | cancelled => exact hn (.inr (.inr (.inl rfl)))
      | dormant => exact hd rfl
      | discarded n hp => exact hn (.inr (.inr (.inr ⟨n, hp, rfl⟩)))
  exact hv0.trans (hc c)

/-- Settles O35: the ends of the trunk's handovers are one chain of forced and cancelled handovers, over the trunk HELD. -/
theorem aCompleteDrainEntersHeld : Obligations.ACompleteDrainEntersHeld := by
  intro k s hfits law
  refine ⟨execDrainComplete_undrained, fun h1 h2 h3 hn => ⟨_, execDrainComplete_drained h1 h2 h3, ?_⟩⟩
  have hhw := hfits.handovers.1
  obtain ⟨he, hdone⟩ := enterHeld_eq (k := k.val) hhw hn hfits.stations.1 hfits.copies.1 law
  have hd : Drained k.val s _ := ⟨hdone, he, heldState_frame hn⟩
  obtain ⟨hbs, hbh, hbc, hbp, hbt, hbch, hcount⟩ := hd.fields
  have hframe := hdone.inner.frame
  have hcalm := hdone.inner.calm
  generalize hv : (s.heldActs k.val).foldl Act.run (heldState k.val s) = v at hd hframe hcalm
  have hent := hd.entered
  refine ⟨?_, ?_, fun n c hc hk => ?_, fun i h hh => ?_, fun i st n since hst hp hk => ?_, fun i h st since hh hst hp =>
    ⟨fun hk => ?_, fun hk hk' => ?_, fun hroom hk hk' => ?_⟩, fun i st hst hno => ?_, fun n c hc hk => ?_, ?_, fun hq => ?_,
    fun grants hg hroom hr => ?_, ?_⟩
  · obtain ⟨more, hm, hnil⟩ := hcalm.trunks k.val
    have hheld : (heldState k.val s).trunk k.val = { s.trunk k.val with state := .held, heldSince := some s.time.clock } := by
      rw [trunk_heldState, if_pos rfl]
    rw [hent]
    refine Eq.trans (b := v.trunk k.val) rfl ?_
    rw [hm, hnil (.inl (by rw [hheld])), List.append_nil, hheld]
  · rw [hent]
    refine Eq.trans (b := v.notices) rfl ?_
    rw [hframe, hd.base]
  · obtain ⟨a, ha, -⟩ := hcalm.cell (n := n) (by rw [look_heldState, hc, Option.map_some, if_pos hk])
    exact ⟨a, by rw [hent]; exact ha⟩
  · rw [hent] at hh
    have hh' : v.handovers.look i = some h := hh
    rw [hd.done.handovers] at hh'
    split at hh'
    · cases hh'
    · next hno =>
      rw [hbh] at hh'
      rw [heldActs_index hhw] at hno
      exact ⟨fun hk => hno ⟨h, hh', .inl hk⟩, fun hk => hno ⟨h, hh', .inr hk⟩⟩
  · rw [hent, look_pausedState] at hst
    obtain ⟨x, -, rfl⟩ := Option.map_eq_some_iff.mp hst
    split at hp
    · next hpause => rw [if_pos hpause]
    · next hpause =>
      exact absurd (by rw [Bool.and_eq_true, Station.onTrunk_iff, hp]; exact ⟨rfl, congrArg some hk⟩) hpause
  · exact hd.forced hhw hfits.stations.1 hh hst hk
  · exact hd.cancelled hhw hh hst hp hk hk'
  · exact hd.followed hfits law hroom hv.symm hh hst hk hk'
  · exact hd.others hhw hst hno
  · obtain ⟨m, w, hm⟩ := hcalm.loads (n := n) (c := c) (by rw [look_heldState, hc, Option.map_some, if_neg hk])
    exact ⟨m, w, by rw [hent]; exact hm⟩
  · exact hd.counted
  · rw [hent]
    refine Eq.trans ?_ hbp
    refine (hd.done.pools (fun a ha => ?_) fun n c hc hk => hq n c (by rw [← hbc]; exact hc) hk).1
    cases a with
    | sleep i => exact absurd ha heldActs_not_sleep
    | force i => rfl
    | cancel i => rfl
  · rw [hg, grantsOf_eq hhw law] at hr ⊢
    exact hd.told hfits law hroom hv.symm h3 hr
  · rw [hent]
    refine Eq.trans (b := { v with stations := (pausedState k.val v).stations }) rfl ?_
    rw [hframe, hd.base]
    rfl

end Sys2Proof.Machine
end

