-- ==== Sys2Proof/Proofs/Flat.lean ====
section
/-! PROOFS. What the records of a table hold, listed in the order of their numbers; tables compared number by number. -/

namespace Sys2Proof.Machine

variable {α β γ δ : Type}

/-- The lists that the records of a table give, one after another. -/
def Table.flat (t : Table α) (f : Nat → α → List δ) : List δ := t.entries.flatMap fun e => f e.1 e.2

/-- What the record of one number gives, nothing where there is none. -/
def Table.at (t : Table α) (f : Nat → α → List δ) (k : Nat) : List δ := (t.look k).elim [] (f k)

theorem Table.at_some {t : Table α} {k : Nat} {v : α} (h : t.look k = some v) (f : Nat → α → List δ) : t.at f k = f k v := by
  rw [Table.at, h]
  rfl

theorem Table.at_none {t : Table α} {k : Nat} (h : t.look k = none) (f : Nat → α → List δ) : t.at f k = [] := by
  rw [Table.at, h]
  rfl

/-- A rising list of entries, read number by number. -/
theorem flatMap_entries (f : Nat → α → List δ) {m a : Nat} {l : List (Nat × α)} (hl : risingFrom a l = true)
    (hm : ∀ x ∈ l, x.1 < a + m) :
    l.flatMap (fun e => f e.1 e.2) = (List.range' a m).flatMap fun k => (lookIn k l).elim [] (f k) := by
  induction m generalizing a l with
  | zero =>
    cases l with
    | nil => rfl
    | cons x rest =>
      have h1 := (risingFrom_pairwise hl).2 x (by simp)
      have h2 := hm x (by simp)
      omega
  | succ m ih =>
    rw [List.range'_succ, List.flatMap_cons]
    cases l with
    | nil => simp [lookIn]
    | cons x rest =>
      obtain ⟨i, w⟩ := x
      simp only [risingFrom, Bool.and_eq_true, decide_eq_true_eq] at hl
      obtain ⟨hai, hrest⟩ := hl
      by_cases hi : i = a
      · subst hi
        rw [List.flatMap_cons, ih hrest fun x hx => by have := hm x (List.mem_cons_of_mem _ hx); omega]
        congr 1
        · simp [lookIn]
        · refine List.flatMap_congr fun k hk => ?_
          have : i ≠ k := by
            have := (List.mem_range'_1.mp hk).1
            omega
          rw [lookIn, if_neg this]
      · have hnone : lookIn a ((i, w) :: rest) = none := by
          rw [lookIn, if_neg hi, lookIn_lt_none a (i + 1) rest hrest (by omega)]
        rw [hnone, Option.elim_none, List.nil_append]
        refine ih ?_ fun x hx => by have := hm x hx; omega
        simp only [risingFrom, Bool.and_eq_true, decide_eq_true_eq]
        exact ⟨by omega, hrest⟩

theorem Table.flat_eq {t : Table α} (ht : t.wf = true) (f : Nat → α → List δ) {N : Nat} (hN : ∀ x ∈ t.entries, x.1 < N) :
    t.flat f = (List.range N).flatMap (t.at f) := by
  rw [List.range_eq_range']
  exact flatMap_entries f (a := 0) ht (by simpa using hN)

theorem Table.exists_bound (t : Table α) : ∃ N, ∀ x ∈ t.entries, x.1 < N := by
  refine ⟨(t.entries.map (·.1)).sum + 1, fun x hx => ?_⟩
  have := List.single_le_sum (fun y _ => Nat.zero_le y) x.1 (List.mem_map_of_mem (f := (·.1)) hx)
  omega

theorem Table.exists_bound₂ (t : Table α) (u : Table β) : ∃ N, (∀ x ∈ t.entries, x.1 < N) ∧ ∀ x ∈ u.entries, x.1 < N := by
  obtain ⟨a, ha⟩ := t.exists_bound
  obtain ⟨b, hb⟩ := u.exists_bound
  exact ⟨a + b, fun x hx => by have := ha x hx; omega, fun x hx => by have := hb x hx; omega⟩

/-- Tables that give the same at every number give the same list. -/
theorem Table.flat_congr {t : Table α} {u : Table β} (ht : t.wf = true) (hu : u.wf = true) {f : Nat → α → List δ}
    {g : Nat → β → List δ} (h : ∀ k, t.at f k = u.at g k) : t.flat f = u.flat g := by
  obtain ⟨N, h1, h2⟩ := t.exists_bound₂ u
  rw [t.flat_eq ht f h1, u.flat_eq hu g h2]
  exact List.flatMap_congr fun k _ => h k

/-- A table whose every number gives what two others give there. -/
theorem Table.flat_perm {t : Table α} {w : Table γ} {u : Table β} (ht : t.wf = true) (hw : w.wf = true) (hu : u.wf = true)
    {f : Nat → α → List δ} {a : Nat → γ → List δ} {g : Nat → β → List δ} (h : ∀ k, t.at f k = w.at a k ++ u.at g k) :
    (t.flat f).Perm (w.flat a ++ u.flat g) := by
  obtain ⟨N, h1, h2⟩ := t.exists_bound₂ u
  obtain ⟨M, -, h3⟩ := t.exists_bound₂ w
  rw [t.flat_eq ht f (N := N + M) fun x hx => Nat.lt_add_right _ (h1 x hx),
    u.flat_eq hu g (N := N + M) fun x hx => Nat.lt_add_right _ (h2 x hx),
    w.flat_eq hw a (N := N + M) fun x hx => Nat.lt_of_lt_of_le (h3 x hx) (Nat.le_add_left ..)]
  rw [show t.at f = fun k => w.at a k ++ u.at g k from funext h]
  exact (List.flatMap_append_perm ..).symm

/-- A table that gives at one number so much more than another, and elsewhere the same. -/
theorem Table.flat_split {t : Table α} {u : Table β} (ht : t.wf = true) (hu : u.wf = true) {f : Nat → α → List δ}
    {g : Nat → β → List δ} (n : Nat) {q : List δ} (hn : t.at f n = q ++ u.at g n) (h : ∀ k, k ≠ n → t.at f k = u.at g k) :
    (t.flat f).Perm (q ++ u.flat g) := by
  have hone : (⟨[(n, q)]⟩ : Table (List δ)).flat (fun _ l => l) = q := by simp [Table.flat]
  have := Table.flat_perm (w := ⟨[(n, q)]⟩) (a := fun _ l => l) ht (by simp [Table.wf, risingFrom]) hu (f := f) (g := g) fun k => by
    by_cases hk : k = n
    · subst hk
      rw [hn, Table.at_some (v := q) (by simp [Table.look, lookIn])]
    · rw [h k hk, Table.at_none (t := ⟨[(n, q)]⟩) (by simp [Table.look, lookIn, Ne.symm hk]), List.nil_append]
  rwa [hone] at this

/-- The part of the records that `p` picks. -/
theorem Table.flatMap_filter (t : Table α) (p : Nat × α → Bool) (f : Nat → α → List δ) :
    (t.entries.filter p).flatMap (fun e => f e.1 e.2) = t.flat fun k v => if p (k, v) = true then f k v else [] := by
  rw [Table.flat]
  induction t.entries with
  | nil => rfl
  | cons x rest ih =>
    rw [List.filter_cons, List.flatMap_cons]
    split
    · next h => rw [List.flatMap_cons, ih]
    · next h => rw [ih, List.nil_append]

end Sys2Proof.Machine
end

