-- ==== Sys2Proof/Proofs/Tally.lean ====
section
/-! PROOFS. What leaves the queues of copies and stations is released and counted (R40, R47, R60, R130): a balance over any chain of ends. -/

namespace Sys2Proof.Machine

variable {p q : Nat → Prop} {i : Nat} {loose : Prop} {s t u v : State}

/-! ## Entries of the copies' queues -/

/-- The entries of the copies' queues, each with the cell of its copy. -/
def State.entriesQueued (s : State) : List (Nat × BufferRef) := s.copies.flat fun _ c => c.queue.map fun r => (c.cell, r)

/-- From `s` to `t` these entries have left the copies' queues, released and counted at their cells. -/
structure Emptied (s t : State) (gone : List (Nat × BufferRef)) : Prop where
  released  : ReleasedAll s t (gone.map (·.2))
  queues    : s.entriesQueued.Perm (gone ++ t.entriesQueued)
  discarded : ∀ n, Advanced s t (.cell n .replayDiscarded) (gone.countP fun x => x.1 == n)

theorem Emptied.trans {a b : List (Nat × BufferRef)} (h : Emptied s t a) (g : Emptied t u b) : Emptied s u (a ++ b) where
  released := by rw [List.map_append]; exact h.released.trans g.released
  queues := by rw [List.append_assoc]; exact h.queues.trans (g.queues.append_left a)
  discarded n := by rw [List.countP_append]; exact (h.discarded n).trans (g.discarded n)

/-- Where every copy keeps its cell and its queue, a new one having an empty queue, nothing has left. -/
theorem Emptied.of_same (hw : s.copies.wf = true) (hw' : t.copies.wf = true) (hp : t.pools = s.pools)
    (hc : ∀ n, t.counter (.cell n .replayDiscarded) = s.counter (.cell n .replayDiscarded))
    (h : ∀ j, s.copies.at (fun _ c => c.queue.map fun r => (c.cell, r)) j = t.copies.at (fun _ c => c.queue.map fun r => (c.cell, r)) j) :
    Emptied s t [] where
  released := .of_pools hp
  queues := by rw [List.nil_append, State.entriesQueued, Table.flat_congr hw hw' h]; exact .refl _
  discarded n := by rw [Advanced, hc]; simp

theorem Emptied.of_eq (hw : s.copies.wf = true) (hy : t.copies = s.copies) (hp : t.pools = s.pools)
    (hc : ∀ n, t.counter (.cell n .replayDiscarded) = s.counter (.cell n .replayDiscarded)) : Emptied s t [] :=
  .of_same hw (by rw [hy]; exact hw) hp hc fun j => by rw [hy]

theorem emptied_removeCopy (hw : s.copies.wf = true) {n : Nat} {c : Copy} (h : s.copies.look n = some c) :
    Emptied s (removeCopy n s) (c.queue.map fun r => (c.cell, r)) where
  released := by
    rw [List.map_map]
    have hf := releasedAll_flushCopy h
    have he : (c.queue.map fun r => (c.cell, r)).map (·.2) = c.queue := by simp
    intro q
    have := hf q
    rw [State.buffer, ← removeCopy_pools h] at this
    rw [← List.map_map, he]
    exact this
  queues := Table.flat_split hw ((inner_removeCopy n s).wf.2.1 hw) n
    (by rw [Table.at_some h, Table.at_none (by rw [removeCopy_copies h, if_pos rfl]), List.append_nil])
    fun k hk => by rw [Table.at, Table.at, removeCopy_copies h, if_neg hk]
  discarded m := by
    rw [Advanced, State.counter, removeCopy_counters h, ← State.counter]
    by_cases hm : c.cell = m
    · subst hm
      have := advanced_flushCopy h
      rw [Advanced] at this
      rw [this]
      simp [List.countP_map, Function.comp_def]
    · rw [countersKept_flushCopy h _ (by simp [Ne.symm hm])]
      rw [List.countP_map, List.countP_eq_zero.mpr (by simp [hm])]
      simp

/-- Small moves empty only the copies that they remove. -/
theorem Shift.emptied (h : Shift p q i loose s t) (hw : s.copies.wf = true) : ∃ gone, Emptied s t gone := by
  induction h with
  | refl s => exact ⟨[], .of_eq hw rfl rfl fun _ => rfl⟩
  | trans h1 _ ih1 ih2 =>
    obtain ⟨a, ha⟩ := ih1 hw
    obtain ⟨b, hb⟩ := ih2 (h1.inner.wf.2.1 hw)
    exact ⟨a ++ b, ha.trans hb⟩
  | weigh s cell => exact ⟨[], .of_eq hw (reweigh_copies ..) (reweigh_pools ..) fun n => by rw [State.counter, reweigh_counters]; rfl⟩
  | fewer s n c hc _ => exact ⟨[], .of_same hw (Table.wf_put _ _ _ hw) rfl (fun _ => rfl) (at_putMembers hc _)⟩
  | remove s n c hc _ => exact ⟨_, emptied_removeCopy hw hc⟩
  | more s n c hc _ => exact ⟨[], .of_same hw (Table.wf_put _ _ _ hw) rfl (fun _ => rfl) (at_putMembers hc _)⟩
  | create s n channel cell ch a hq hno hn hch ha =>
    have hf := createCopy_frame hn hch ha
    refine ⟨[], .of_same hw ((inner_createCopy ..).wf.2.1 hw) (by rw [hf]) (fun _ => by rw [hf]; rfl) fun j => ?_⟩
    by_cases hj : j = n
    · subst hj
      rw [Table.at_none (Table.lowestFree_spec _ _ _ hn).2.1, Table.at_some (by rw [createCopy_copies hn hch ha, if_pos rfl]),
        (newCopy_spec s channel cell ch a).2.2.1]
      rfl
    · rw [Table.at, Table.at, createCopy_copies hn hch ha, if_neg hj]
  | members s f => exact ⟨[], .of_eq hw rfl rfl fun _ => rfl⟩
  | credit s => exact ⟨[], .of_eq hw rfl rfl fun _ => rfl⟩
  | owe s cell => exact ⟨[], .of_eq hw (owePass_copies ..) (owePass_pools ..) fun _ => by rw [State.counter, owePass_counters]; rfl⟩
  | spill s c _ hc =>
    refine ⟨[], .of_eq hw rfl rfl fun n => ?_⟩
    rw [bump, counter_advance, if_neg]
    rintro rfl
    cases hc
  | post s cell addr body _ =>
    exact ⟨[], .of_eq hw (postSignal_copies ..) (postSignal_pools ..) fun n => countersKept_postSignal _ _ _ _ _ nofun⟩
where
  at_putMembers {s : State} {n : Nat} {c : Copy} (hc : s.copies.look n = some c) (m : Nat) (j : Nat) :
      s.copies.at (fun _ c => c.queue.map fun r => (c.cell, r)) j =
        (s.setCopies (s.copies.put n { c with members := m })).copies.at (fun _ c => c.queue.map fun r => (c.cell, r)) j := by
    rw [Table.at, Table.at, setCopies_copies, Table.look_put]
    split
    · next h => rw [h, hc]; rfl
    · rfl

/-! ## Queues and stays of stations -/

/-- The buffers of the stations' downlink queues. -/
def State.stationQueued (s : State) : List BufferRef := s.stations.flat fun _ st => st.queue.map (·.buffer)

/-- The DORMANT stations. -/
def State.dormants (s : State) : List Nat := s.stations.flat fun i st => if st.place = .dormant then [i] else []

/-- A station past the expiry age (R63). -/
def State.Aged (s : State) (st : Station) : Prop := s.settings.timers.expire * 1000 ≤ (s.time.clock - st.lastHeard).toNat

/-- What becomes of a station's record: its queue kept, or, where it goes DORMANT, empty. -/
structure Lasts (st now : Station) : Prop where
  heard : now.lastHeard = st.lastHeard
  queue : (now.queue = st.queue ∧ (now.place = .dormant ↔ st.place = .dormant))
    ∨ (st.place ≠ .dormant ∧ now.place = .dormant ∧ now.queue = [])

theorem Lasts.refl (st : Station) : Lasts st st := ⟨rfl, .inl ⟨rfl, Iff.rfl⟩⟩

theorem Lasts.trans {a b c : Station} (h : Lasts a b) (g : Lasts b c) : Lasts a c where
  heard := g.heard.trans h.heard
  queue := by
    rcases h.queue with ⟨q1, d1⟩ | ⟨n1, d1, q1⟩
    · rcases g.queue with ⟨q2, d2⟩ | ⟨n2, d2, q2⟩
      · exact .inl ⟨q2.trans q1, d2.trans d1⟩
      · exact .inr ⟨fun e => n2 (d1.mpr e), d2, q2⟩
    · rcases g.queue with ⟨q2, d2⟩ | ⟨n2, d2, q2⟩
      · exact .inr ⟨n1, d2.mpr d1, q2.trans q1⟩
      · exact absurd d1 n2

/-- From `s` to `t` ends have taken place: what left the queues is released and counted, each station that went DORMANT is counted and, if
aged, owed its expiry. -/
structure Tally (s t : State) : Prop where
  wf       : t.stations.wf = true ∧ t.copies.wf = true
  queues   : ∃ gone left, ReleasedAll s t (left ++ gone.map (·.2))
    ∧ s.entriesQueued.Perm (gone ++ t.entriesQueued) ∧ s.stationQueued.Perm (left ++ t.stationQueued)
    ∧ ∀ n, Advanced s t (.cell n .replayDiscarded) (gone.countP fun x => x.1 == n)
  dormant  : ∃ a, Advanced s t (.part .goneDormant) a ∧ t.dormants.length = s.dormants.length + a
  lasts    : ∀ i st, s.stations.look i = some st → ∃ now, t.stations.look i = some now ∧ Lasts st now
  free     : ∀ i, s.stations.look i = none → t.stations.look i = none
  expiries : ∀ i, i ∈ t.owed.expiries ↔ i ∈ s.owed.expiries ∨ ∃ st now, s.stations.look i = some st ∧ t.stations.look i = some now
    ∧ st.place ≠ .dormant ∧ now.place = .dormant ∧ s.Aged st
  same     : t.time = s.time ∧ t.settings = s.settings

theorem Tally.trans (h : Tally s t) (g : Tally t u) : Tally s u where
  wf := g.wf
  queues := by
    obtain ⟨g1, l1, r1, e1, q1, a1⟩ := h.queues
    obtain ⟨g2, l2, r2, e2, q2, a2⟩ := g.queues
    refine ⟨g1 ++ g2, l1 ++ l2, ?_, ?_, ?_, fun n => ?_⟩
    · refine (r1.trans r2).perm ?_
      rw [List.map_append, List.append_assoc, List.append_assoc]
      exact (List.perm_append_comm_assoc (g1.map (·.2)) l2 (g2.map (·.2))).append_left l1
    · rw [List.append_assoc]
      exact e1.trans (e2.append_left g1)
    · rw [List.append_assoc]
      exact q1.trans (q2.append_left l1)
    · rw [List.countP_append]
      exact (a1 n).trans (a2 n)
  dormant := by
    obtain ⟨a, h1, e1⟩ := h.dormant
    obtain ⟨b, h2, e2⟩ := g.dormant
    exact ⟨a + b, h1.trans h2, by omega⟩
  lasts i st hst := by
    obtain ⟨now, hn, h1⟩ := h.lasts i st hst
    obtain ⟨now', hn', h2⟩ := g.lasts i now hn
    exact ⟨now', hn', h1.trans h2⟩
  free i hi := g.free i (h.free i hi)
  expiries i := by
    have haged : ∀ st now, Lasts st now → (t.Aged now ↔ s.Aged st) := fun st now hl => by
      rw [State.Aged, State.Aged, h.same.1, h.same.2, hl.heard]
    rw [g.expiries, h.expiries, or_assoc]
    refine or_congr_right ?_
    constructor
    · rintro (⟨st, now, hs, ht, hp, hd, ha⟩ | ⟨now, fin, ht, hu, hp, hd, ha⟩)
      · obtain ⟨fin, hu, hl⟩ := g.lasts i now ht
        refine ⟨st, fin, hs, hu, hp, ?_, ha⟩
        rcases hl.queue with ⟨-, hd'⟩ | ⟨-, hd', -⟩
        · exact hd'.mpr hd
        · exact hd'
      · cases hs : s.stations.look i with
        | none => rw [h.free i hs] at ht; cases ht
        | some st =>
          obtain ⟨now', ht', hl⟩ := h.lasts i st hs
          obtain rfl := Option.some.inj (ht.symm.trans ht')
          refine ⟨st, fin, rfl, hu, fun e => ?_, hd, (haged st now hl).mp ha⟩
          rcases hl.queue with ⟨-, hd'⟩ | ⟨hn, -⟩
          · exact hp (hd'.mpr e)
          · exact hn e
    · rintro ⟨st, fin, hs, hu, hp, hd, ha⟩
      obtain ⟨now, ht, hl⟩ := h.lasts i st hs
      by_cases hnow : now.place = .dormant
      · exact .inl ⟨st, now, hs, ht, hp, hnow, ha⟩
      · exact .inr ⟨now, fin, ht, hu, hnow, hd, (haged st now hl).mpr ha⟩
  same := ⟨g.same.1.trans h.same.1, g.same.2.trans h.same.2⟩

/-! ## The ends, each with its tally -/

/-- Every station keeps its queue, its last-heard time, and whether it is DORMANT. -/
def StationsLast (s t : State) : Prop :=
  (∀ j st, s.stations.look j = some st → ∃ now, t.stations.look j = some now ∧ now.lastHeard = st.lastHeard ∧ now.queue = st.queue
    ∧ (now.place = .dormant ↔ st.place = .dormant)) ∧ ∀ j, s.stations.look j = none → t.stations.look j = none

theorem StationsLast.at (h : StationsLast s t) (j : Nat) :
    s.stations.at (fun _ st => st.queue.map (·.buffer)) j = t.stations.at (fun _ st => st.queue.map (·.buffer)) j
      ∧ s.stations.at (fun i st => if st.place = .dormant then [i] else []) j =
        t.stations.at (fun i st => if st.place = .dormant then [i] else []) j := by
  cases hj : s.stations.look j with
  | none => rw [Table.at_none hj, Table.at_none hj, Table.at_none (h.2 j hj), Table.at_none (h.2 j hj)]; exact ⟨rfl, rfl⟩
  | some st =>
    obtain ⟨now, hn, -, hq, hd⟩ := h.1 j st hj
    rw [Table.at_some hj, Table.at_some hj, Table.at_some hn, Table.at_some hn, hq]
    exact ⟨rfl, by simp only [hd]⟩

/-- Where stations last, the tally is that of the copies' queues. -/
theorem Tally.of_emptied {gone : List (Nat × BufferRef)} (hw : s.stations.wf = true) (hw' : t.stations.wf = true ∧ t.copies.wf = true)
    (he : Emptied s t gone) (hs : StationsLast s t) (hd : t.counter (.part .goneDormant) = s.counter (.part .goneDormant))
    (ho : t.owed.expiries = s.owed.expiries) (ht : t.time = s.time) (hset : t.settings = s.settings) : Tally s t where
  wf := hw'
  queues := ⟨gone, [], he.released, he.queues, by
    rw [List.nil_append, State.stationQueued, Table.flat_congr hw hw'.1 fun j => (hs.at j).1]; exact .refl _, he.discarded⟩
  dormant := ⟨0, by rw [Advanced, hd]; simp, by rw [State.dormants, ← Table.flat_congr hw hw'.1 fun j => (hs.at j).2]; rfl⟩
  lasts j st hj := by
    obtain ⟨now, hn, hh, hq, hd⟩ := hs.1 j st hj
    exact ⟨now, hn, hh, .inl ⟨hq, hd⟩⟩
  free := hs.2
  expiries i := by
    rw [ho]
    refine ⟨.inl, fun h => h.elim id ?_⟩
    rintro ⟨st, now, hst, hnow, hp, hd, -⟩
    obtain ⟨now', hn, -, -, hd'⟩ := hs.1 i st hst
    rw [← Option.some.inj (hnow.symm.trans hn)] at hd'
    exact absurd (hd'.mp hd) hp
  same := ⟨ht, hset⟩

theorem stationsLast_of_eq (h : t.stations = s.stations) : StationsLast s t :=
  ⟨fun j st hj => ⟨st, by rw [h, hj], rfl, rfl, Iff.rfl⟩, fun j hj => by rw [h, hj]⟩

theorem Tally.of_eq (hw : s.stations.wf = true) (hcw : s.copies.wf = true) (hs : t.stations = s.stations) (hy : t.copies = s.copies)
    (hp : t.pools = s.pools) (hc : ∀ n, t.counter (.cell n .replayDiscarded) = s.counter (.cell n .replayDiscarded))
    (hd : t.counter (.part .goneDormant) = s.counter (.part .goneDormant)) (ho : t.owed.expiries = s.owed.expiries)
    (ht : t.time = s.time) (hset : t.settings = s.settings) : Tally s t :=
  .of_emptied hw ⟨by rw [hs]; exact hw, by rw [hy]; exact hcw⟩ (.of_eq hcw hy hp hc) (stationsLast_of_eq hs) hd ho ht hset

theorem Tally.refl (hw : s.stations.wf = true) (hcw : s.copies.wf = true) : Tally s s :=
  .of_eq hw hcw rfl rfl rfl (fun _ => rfl) rfl rfl rfl rfl

theorem Shift.stationsLast (h : Shift p q i loose s t) : StationsLast s t := by
  refine ⟨fun j st hj => ?_, h.onlyRates.free⟩
  by_cases hij : j = i
  · subst hij
    obtain ⟨m, r, c, hn⟩ := h.station hj
    exact ⟨_, hn, rfl, rfl, Iff.rfl⟩
  · obtain ⟨r, hn, -⟩ := h.onlyRates.kept j st hij hj
    exact ⟨_, hn, rfl, rfl, Iff.rfl⟩

theorem Shift.expiries (h : Shift p q i loose s t) : t.owed.expiries = s.owed.expiries := by
  have hpass : ∀ (cell : Nat) (s : State), (owePass cell s).owed.expiries = s.owed.expiries := fun cell s => by
    unfold owePass
    split <;> rfl
  induction h with
  | refl s => rfl
  | trans _ _ ih1 ih2 => exact ih2.trans ih1
  | weigh s cell => rw [reweigh_owed]
  | fewer s n c _ _ => rfl
  | remove s n c hc _ => rw [removeCopy_eq hc, hpass, refreshRates_owed, refreshM_frame, flushCopy_frame hc]; rfl
  | more s n c _ _ => rfl
  | create s n channel cell ch a _ _ hn hch ha => rw [createCopy_frame hn hch ha]
  | members s f => rfl
  | credit s => rfl
  | owe s cell => exact hpass cell s
  | spill s c _ _ => rfl
  | post s cell addr body _ => rw [postSignal_owed]

theorem Shift.tally (h : Shift p q i loose s t) (hw : s.stations.wf = true) (hcw : s.copies.wf = true) : Tally s t := by
  obtain ⟨gone, hg⟩ := h.emptied hcw
  have hf := h.inner.frame
  refine .of_emptied hw ⟨h.inner.wf.1 hw, h.inner.wf.2.1 hcw⟩ hg h.stationsLast ?_ h.expiries (by rw [hf]) (by rw [hf])
  refine h.counters _ ?_
  rintro (⟨n, -, hn⟩ | ⟨-, hn⟩) <;> cases hn

/-- A station placed elsewhere, its queue kept. -/
theorem stationsLast_put {st now : Station} (hs : s.stations.look i = some st) (ht : t.stations = s.stations.put i now)
    (hq : now.queue = st.queue) (hl : now.lastHeard = st.lastHeard) (hd : now.place = .dormant ↔ st.place = .dormant) :
    StationsLast s t := by
  refine ⟨fun j x hj => ?_, fun j hj => ?_⟩
  · rw [ht, Table.look_put]
    split
    · next h =>
      rw [h, hs] at hj
      obtain rfl := Option.some.inj hj
      exact ⟨now, rfl, hl, hq, hd⟩
    · exact ⟨x, hj, rfl, rfl, Iff.rfl⟩
  · rw [ht, Table.look_put, if_neg, hj]
    rintro rfl
    rw [hs] at hj
    cases hj

end Sys2Proof.Machine
end

