-- ==== Sys2Proof/Proofs/Balances.lean ====
section
/-! PROOFS. Each end of a handover or of a stay has its tally, and so has a chain of them. -/

namespace Sys2Proof.Machine

variable {p q : Nat → Prop} {i : Nat} {loose : Prop} {s t u v : State}

theorem tally_bumpPart (hw : s.stations.wf = true) (hcw : s.copies.wf = true) {c : PartCounter} (hc : c ≠ .goneDormant) :
    Tally s (bumpPart c s) := by
  have h := countersKept_bumpPart c s
  exact .of_eq hw hcw rfl rfl rfl (fun n => h _ nofun) (h _ (by simpa using Ne.symm hc)) rfl rfl rfl

theorem shift_granted (h : Handover) (st : Station) (s : State) : Shift p q i True
    ((s.setHandovers (s.handovers.drop i)).setStations (s.stations.put i (arrived s.now h st))) (grantedState i h st s) :=
  (Shift.weigh _ h.oldCell).trans ((Shift.weigh _ h.newCell).trans (.post _ _ _ _ trivial))

theorem tally_forceHandover (hw : s.stations.wf = true) (hcw : s.copies.wf = true) {h : Handover} {st : Station} {since : Clock}
    (hh : s.handovers.look i = some h) (hst : s.stations.look i = some st) (hp : st.place = .moving h.oldCell since) :
    Tally s (forceHandover i s) := by
  obtain ⟨x, hx, he⟩ := shift_forceHandover hcw hh hst
  have h1 : Tally s ((s.setHandovers (s.handovers.drop i)).setStations (s.stations.put i (arrived s.now h st))) :=
    .of_emptied hw ⟨Table.wf_put _ _ _ hw, hcw⟩ (.of_eq hcw rfl rfl fun _ => rfl)
      (stationsLast_put hst rfl rfl rfl (by simp [arrived, hp])) rfl rfl rfl rfl
  have h2 := ((shift_granted h st s).trans hx).tally h1.wf.1 h1.wf.2
  rw [he]
  have h3 := tally_bumpPart (c := .handoversCompleted) h2.wf.1 h2.wf.2 nofun
  exact h1.trans (h2.trans (h3.trans (tally_bumpPart h3.wf.1 h3.wf.2 nofun)))

theorem tally_cancelToOld (hw : s.stations.wf = true) (hcw : s.copies.wf = true) {st : Station} {cell : Nat} {since : Clock}
    (hst : s.stations.look i = some st) (hp : st.place = .moving cell since) : Tally s (cancelToOld i s) := by
  have h1 : Tally s (returnedState i cell since st s) :=
    .of_emptied hw ⟨Table.wf_put _ _ _ hw, hcw⟩ (.of_eq hcw rfl rfl fun _ => rfl)
      (stationsLast_put hst rfl rfl rfl (by simp [hp])) rfl rfl rfl rfl
  have h2 := (Shift.post (p := fun _ => False) (q := fun _ => False) (i := i) (loose := True) (returnedState i cell since st s) cell
    st.addr (.attachGrant i) trivial).tally h1.wf.1 h1.wf.2
  rw [cancelToOld_eq hst hp]
  exact h1.trans (h2.trans (tally_bumpPart h2.wf.1 h2.wf.2 nofun))

theorem oweIfAged_expiries (st : Station) (s : State) (j : Nat) :
    j ∈ (oweIfAged i st s).owed.expiries ↔ j ∈ s.owed.expiries ∨ (j = i ∧ s.Aged st) := by
  have he : oweIfAged i st s = if msOfSeconds s.settings.timers.expire ≤ age s.now st.lastHeard then oweExpiry i s else s := rfl
  by_cases h : s.Aged st
  · rw [he, if_pos (by exact h)]
    simp [oweExpiry, h]
  · rw [he, if_neg (by exact h)]
    simp [h]

theorem tally_goDormant (hw : s.stations.wf = true) (hcw : s.copies.wf = true) {st : Station} {cell : Nat}
    (hst : s.stations.look i = some st) (hc : st.place.cell? = some cell) (hno : s.handovers.look i = none) :
    Tally s (goDormant i s) := by
  have hd := dormant_goDormant hw hcw hst hc hno
  have hplace : st.place ≠ .dormant := fun e => by rw [e] at hc; cases hc
  have hwt := hd.inner.wf.1 hw
  have hsh := shift_leftCell hcw i cell st
  obtain ⟨gone, hgone⟩ := hsh.emptied hcw
  have hexp := hsh.expiries
  have hin := hsh.inner.frame
  have hothers : ∀ j, j ≠ i → ∀ x, s.stations.look j = some x → ∃ now, (goDormant i s).stations.look j = some now
      ∧ now.lastHeard = x.lastHeard ∧ now.queue = x.queue ∧ now.place = x.place := fun j hj x hx => by
    obtain ⟨r, hr, -⟩ := hd.others.kept j x hj hx
    exact ⟨_, hr, rfl, rfl, rfl⟩
  have hframe : (goDormant i s).copies = (leftCell i cell st s).copies
      ∧ (goDormant i s).pools = (releaseAll (st.queue.map (·.buffer)) (leftCell i cell st s)).pools
      ∧ (∀ n, (goDormant i s).counter (.cell n .replayDiscarded) = (leftCell i cell st s).counter (.cell n .replayDiscarded))
      ∧ (∀ j, j ∈ (goDormant i s).owed.expiries ↔ j ∈ s.owed.expiries ∨ (j = i ∧ s.Aged st)) := by
    rw [goDormant_eq hst hc]
    have hrel := releaseAll_frame (st.queue.map (·.buffer)) (leftCell i cell st s)
    generalize leftCell i cell st s = x at *
    generalize releaseAll (st.queue.map (·.buffer)) x = y at *
    refine ⟨by rw [oweIfAged_frame, hrel]; rfl, by rw [oweIfAged_frame]; rfl, fun n => ?_, fun j => ?_⟩
    · rw [oweIfAged_frame]
      refine (countersKept_bumpPart .goneDormant y (.cell n .replayDiscarded) nofun).trans ?_
      rw [hrel]
      rfl
    rw [oweIfAged_expiries]
    have h1 : (bumpPart .goneDormant y).owed.expiries = s.owed.expiries := by rw [hrel]; exact hexp
    have h2 : (bumpPart .goneDormant y).Aged st ↔ s.Aged st := by rw [hrel, hin]; exact Iff.rfl
    rw [h1, h2]
  obtain ⟨hcopies, hpools, hcounts, howed⟩ := hframe
  refine ⟨⟨hwt, hd.inner.wf.2.1 hcw⟩, ⟨gone, st.queue.map (·.buffer), ?_, ?_, ?_, fun n => ?_⟩, ⟨1, hd.counted, ?_⟩, fun j x hx => ?_,
    fun j hj => hd.others.free j hj, fun j => ?_, ?_⟩
  · have h1 : ReleasedAll s (releaseAll (st.queue.map (·.buffer)) (leftCell i cell st s))
        (gone.map (·.2) ++ st.queue.map (·.buffer)) := hgone.released.trans (releasedAll_releaseAll _ _)
    have h2 : ReleasedAll s (goDormant i s) (gone.map (·.2) ++ st.queue.map (·.buffer)) := fun q => by
      have := h1 q
      rw [State.buffer, ← hpools] at this
      exact this
    exact h2.perm List.perm_append_comm
  · have : (goDormant i s).entriesQueued = (leftCell i cell st s).entriesQueued := by
      rw [State.entriesQueued, State.entriesQueued, hcopies]
    rw [this]
    exact hgone.queues
  · refine Table.flat_split hw hwt i ?_ fun j hj => ?_
    · rw [Table.at_some hst, Table.at_some hd.station]
      exact (List.append_nil _).symm
    · cases hx : s.stations.look j with
      | none => rw [Table.at_none hx, Table.at_none (hd.others.free j hx)]
      | some x =>
        obtain ⟨now, hn, -, hq, -⟩ := hothers j hj x hx
        rw [Table.at_some hx, Table.at_some hn, hq]
  · exact (hcounts n).trans (hgone.discarded n)
  · have := Table.flat_split (f := fun i st => if st.place = .dormant then [i] else [])
      (g := fun i (st : Station) => if st.place = .dormant then [i] else []) hwt hw i (q := [i]) ?_ fun j hj => ?_
    · rw [State.dormants, this.length_eq]
      simp [State.dormants, Nat.add_comm]
    · rw [Table.at_some hst, Table.at_some hd.station, if_neg hplace]
      rfl
    · cases hx : s.stations.look j with
      | none => rw [Table.at_none hx, Table.at_none (hd.others.free j hx)]
      | some x =>
        obtain ⟨now, hn, -, -, hq⟩ := hothers j hj x hx
        rw [Table.at_some hx, Table.at_some hn, hq]
  · by_cases hj : j = i
    · subst hj
      obtain rfl := Option.some.inj (hst.symm.trans hx)
      exact ⟨_, hd.station, rfl, .inr ⟨hplace, rfl, rfl⟩⟩
    · obtain ⟨now, hn, hl, hq, hp⟩ := hothers j hj x hx
      exact ⟨now, hn, hl, .inl ⟨hq, by rw [hp]⟩⟩
  · rw [howed]
    refine or_congr_right ⟨fun ⟨hj, ha⟩ => ?_, fun ⟨x, now, hx, hn, hp, hdn, ha⟩ => ?_⟩
    · subst hj
      exact ⟨st, _, hst, hd.station, hplace, rfl, ha⟩
    · by_cases hj : j = i
      · subst hj
        obtain rfl := Option.some.inj (hst.symm.trans hx)
        exact ⟨rfl, ha⟩
      · obtain ⟨now', hn', -, -, hp'⟩ := hothers j hj x hx
        rw [← Option.some.inj (hn.symm.trans hn')] at hp'
        exact absurd (hp'.symm.trans hdn) hp
  · rw [hd.inner.frame]
    exact ⟨rfl, rfl⟩

/-! ## Along a chain -/

variable {l m : List Act} {a : Act}

/-- An end that can take place still can when others have. -/
theorem Act.Can.later (hcan : a.Can p s) (hv : Done p s l v) (hnew : ∀ b ∈ l, b.index ≠ a.index) : a.Can p v := by
  have hh := hv.handovers a.index
  rw [if_neg fun ⟨b, hb, e⟩ => hnew b hb e] at hh
  cases a with
  | force i =>
    obtain ⟨h, st, since, hhs, hst, hp, hpc⟩ := hcan
    obtain ⟨r, hr, -⟩ := hv.others i st hnew hst
    exact ⟨h, _, since, hh.trans hhs, hr, hp, hpc⟩
  | cancel i =>
    obtain ⟨st, cell, since, hst, hp⟩ := hcan
    obtain ⟨r, hr, -⟩ := hv.others i st hnew hst
    exact ⟨_, cell, since, hr, hp⟩
  | sleep i =>
    obtain ⟨st, cell, since, hst, hp, hno, hpc⟩ := hcan
    obtain ⟨r, hr, -⟩ := hv.others i st hnew hst
    exact ⟨_, cell, since, hr, hp, hh.trans hno, hpc⟩

/-- What each end keeps is kept by the chain. -/
theorem chain_invariant {Q : State → Prop} (hs : s.stations.wf = true) (hcs : s.copies.wf = true)
    (hm : m.Pairwise fun a b => a.index ≠ b.index) (hcan : ∀ a ∈ m, a.Can p s) (h0 : Q s)
    (hstep : ∀ l v a, a ∈ m → Done p s l v → (∀ b ∈ l, b.index ≠ a.index) → a.Can p v → Q v → Q (a.run v)) :
    Q (m.foldl Act.run s) := by
  refine (foldl_invariant (P := fun l v => Done p s l v ∧ Q v) m ⟨done_nil p s, h0⟩ ?_).2
  rintro l a v hpre ⟨hv, hq⟩
  have ha : a ∈ m := hpre.subset (by simp)
  have hnew : ∀ b ∈ l, b.index ≠ a.index := fun b hb => (List.pairwise_append.mp (hm.sublist hpre.sublist)).2.2 b hb a (by simp)
  exact ⟨hv.step hnew (adds_run hs hcs hv hnew (hcan a ha)), hstep l v a ha hv hnew ((hcan a ha).later hv hnew) hq⟩

theorem Act.Can.tally (hw : s.stations.wf = true) (hcw : s.copies.wf = true) (hcan : a.Can p s) : Tally s (a.run s) := by
  cases a with
  | force i =>
    obtain ⟨h, st, since, hh, hst, hp, -⟩ := hcan
    exact tally_forceHandover hw hcw hh hst hp
  | cancel i =>
    obtain ⟨st, cell, since, hst, hp⟩ := hcan
    exact tally_cancelToOld hw hcw hst hp
  | sleep i =>
    obtain ⟨st, cell, since, hst, hp, hno, -⟩ := hcan
    exact tally_goDormant hw hcw hst (by rw [hp]; rfl) hno

theorem tally_chain (hs : s.stations.wf = true) (hcs : s.copies.wf = true) (hm : m.Pairwise fun a b => a.index ≠ b.index)
    (hcan : ∀ a ∈ m, a.Can p s) : Tally s (m.foldl Act.run s) :=
  chain_invariant hs hcs hm hcan (.refl hs hcs) fun _ _ _ _ _ _ hc ht => ht.trans (hc.tally ht.wf.1 ht.wf.2)

end Sys2Proof.Machine
end

