-- ==== Sys2Proof/Proofs/Sums.lean ====
section
/-! PROOFS. M and W of a cell remain the sums that they are (R142, R147); which copies are new (R130, R131). -/

namespace Sys2Proof.Machine

variable {p q : Nat → Prop} {i n : Nat} {loose : Prop} {s t u v : State} {a : Act} {m : List Act}

/-! ## M -/

/-- M of the cell is the sum of the ACTIVE loads there (R142). -/
def State.LoadLaw (s : State) (n : Nat) : Prop := ∀ a, s.account n = some a → a.m = s.activeLoad n

/-- The load that a copy puts on a cell. -/
def Copy.loadOn (n : Nat) (c : Copy) : List Nat := if c.cell = n ∧ c.state = .active then [c.load] else []

theorem State.activeLoad_eq (s : State) (n : Nat) : s.activeLoad n = (s.copies.flat fun _ => Copy.loadOn n).sum := by
  rw [State.activeLoad, Table.flat]
  induction s.copies.entries with
  | nil => rfl
  | cons x rest ih =>
    rw [List.map_cons, List.sum_cons, List.flatMap_cons, List.sum_append, ← ih, Copy.loadOn]
    split <;> simp

/-- Copies that load the cell alike. -/
theorem State.activeLoad_same (hw : s.copies.wf = true) (hw' : t.copies.wf = true)
    (h : ∀ j, s.copies.at (fun _ => Copy.loadOn n) j = t.copies.at (fun _ => Copy.loadOn n) j) : t.activeLoad n = s.activeLoad n := by
  rw [State.activeLoad_eq, State.activeLoad_eq, Table.flat_congr hw hw' h]

theorem State.activeLoad_of_eq (h : t.copies = s.copies) (n : Nat) : t.activeLoad n = s.activeLoad n := by
  rw [State.activeLoad, State.activeLoad, h]

theorem State.LoadLaw.congr (h : s.LoadLaw n) (ha : (t.account n).map (·.m) = (s.account n).map (·.m))
    (hl : t.activeLoad n = s.activeLoad n) : t.LoadLaw n := by
  intro b hb
  rw [hb, Option.map_some] at ha
  obtain ⟨c, hc, e⟩ := Option.map_eq_some_iff.mp ha.symm
  rw [← e, h c hc, hl]

theorem State.account_of_cells (h : t.cells = s.cells) (n : Nat) : t.account n = s.account n := by
  rw [State.account, State.account, h]

/-- M recomputed follows the copies; elsewhere they must load the cell as before. -/
theorem loadLaw_reload {cell : Nat} {x : State} (hc : x.cells = s.cells) (hl : n ≠ cell → x.activeLoad n = s.activeLoad n)
    (h : s.LoadLaw n) : (refreshRates cell (refreshM cell x)).LoadLaw n := by
  have hy : (refreshRates cell (refreshM cell x)).activeLoad n = x.activeLoad n := State.activeLoad_of_eq (by rw [refreshRates_copies]; rfl) n
  have ha : (refreshRates cell (refreshM cell x)).account n = (refreshM cell x).account n := State.account_of_cells (refreshRates_cells ..) n
  intro b hb
  rw [ha, State.account_refreshM] at hb
  obtain ⟨d, hd, rfl⟩ := Option.map_eq_some_iff.mp hb
  rw [hy]
  split
  · next e => rw [e]
  · next e =>
    rw [State.account_of_cells hc] at hd
    rw [h d hd, hl e]

theorem loadLaw_reweigh {cell : Nat} (h : s.LoadLaw n) : (reweigh cell s).LoadLaw n := by
  refine h.congr ?_ (State.activeLoad_of_eq (reweigh_copies ..) n)
  rw [State.account_of_cells (t := reweigh cell s) (refreshRates_cells ..), State.account_refreshW, Option.map_map]
  congr 1
  funext b
  by_cases e : n = cell <;> simp [e]

theorem State.LoadLaw.of_eq (h : s.LoadLaw n) (hc : t.cells = s.cells) (hy : t.copies = s.copies) : t.LoadLaw n :=
  h.congr (by rw [State.account_of_cells hc]) (State.activeLoad_of_eq hy n)

theorem loadOn_putMembers (hw : s.copies.wf = true) {k : Nat} {c : Copy} (hc : s.copies.look k = some c) (m : Nat) :
    (s.setCopies (s.copies.put k { c with members := m })).activeLoad n = s.activeLoad n := by
  refine State.activeLoad_same hw (Table.wf_put _ _ _ hw) fun j => ?_
  rw [Table.at, Table.at, setCopies_copies, Table.look_put]
  split
  · next e => rw [e, hc]; rfl
  · rfl

theorem Shift.loads (h : Shift p q i loose s t) (hw : s.copies.wf = true) (hs : s.LoadLaw n) : t.LoadLaw n := by
  induction h with
  | refl s => exact hs
  | trans h1 _ ih1 ih2 => exact ih2 (h1.inner.wf.2.1 hw) (ih1 hw hs)
  | weigh s cell => exact loadLaw_reweigh hs
  | fewer s k c hc _ => exact hs.congr rfl (loadOn_putMembers hw hc _)
  | remove s k c hc _ =>
    rw [removeCopy_eq hc]
    have hf := flushCopy_frame hc
    have hfw := (inner_flushCopy k s).wf.2.1 hw
    refine State.LoadLaw.of_eq (s := refreshRates c.cell (refreshM c.cell ((flushCopy k s).setCopies ((flushCopy k s).copies.drop k))))
      (loadLaw_reload (s := s) (by rw [setCopies_cells, hf]) (fun hn => ?_) hs) (owePass_cells ..) (owePass_copies ..)
    refine State.activeLoad_same hw (Table.wf_drop _ _ hfw) fun j => ?_
    rw [Table.at, Table.at, setCopies_copies, Table.look_drop, hf, Table.look_put]
    split
    · next e =>
      rw [e, hc]
      exact if_neg fun h => hn h.1.symm
    · rfl
  | more s k c hc _ => exact hs.congr rfl (loadOn_putMembers hw hc _)
  | create s k channel cell ch b _ _ hn hch ha =>
    rw [createCopy_eq hn hch ha]
    refine loadLaw_reload (s := s) rfl (fun hne => ?_) hs
    refine State.activeLoad_same hw (Table.wf_put _ _ _ hw) fun j => ?_
    rw [Table.at, Table.at, withCopy_frame, Table.look_put]
    split
    · next e =>
      rw [e, (Table.lowestFree_spec _ _ _ hn).2.1]
      obtain ⟨-, hcell, -⟩ := newCopy_spec s channel cell ch b
      exact (if_neg fun h => hne (h.1.symm.trans hcell)).symm
    · rfl
  | members s f => exact hs.of_eq rfl rfl
  | credit s => exact hs.of_eq rfl rfl
  | owe s cell => exact hs.of_eq (owePass_cells ..) (owePass_copies ..)
  | spill s c _ _ => exact hs.of_eq rfl rfl
  | post s cell addr body _ => exact hs.of_eq (postSignal_cells ..) (postSignal_copies ..)

/-! ## W -/

theorem State.WeightLaw.congr (h : s.WeightLaw n) (hs : s.stations.wf = true) (ht : t.stations.wf = true)
    (ha : (t.account n).map (·.w) = (s.account n).map (·.w))
    (hst : ∀ j, (t.stations.look j).map (Station.shareAt n) = (s.stations.look j).map (Station.shareAt n)) : t.WeightLaw n := by
  intro b hb
  rw [hb, Option.map_some] at ha
  obtain ⟨c, hc, e⟩ := Option.map_eq_some_iff.mp ha.symm
  rw [← e, h c hc, State.countedWeight_congr hs ht hst]

theorem shareAt_refreshRates (cell j : Nat) (s : State) : ((refreshRates cell s).stations.look j).map (Station.shareAt n) =
    (s.stations.look j).map (Station.shareAt n) := by
  rw [look_refreshRates, Option.map_map]
  congr 1
  funext st
  by_cases hc : st.place.cell? = some cell <;> simp [Station.shareAt, hc]

theorem weightLaw_refreshRates (cell : Nat) (hw : s.stations.wf = true) (h : s.WeightLaw n) : (refreshRates cell s).WeightLaw n :=
  h.congr hw ((inner_refreshRates cell s).wf.1 hw) (by rw [State.account_of_cells (refreshRates_cells ..)])
    fun j => shareAt_refreshRates cell j s

theorem weightLaw_reweigh {cell : Nat} (hw : s.stations.wf = true) (h : n ≠ cell → s.WeightLaw n) : (reweigh cell s).WeightLaw n := by
  by_cases e : n = cell
  · subst e
    exact (ratesLaw_reweigh hw n).weight
  · refine weightLaw_refreshRates cell (s := refreshW cell s) hw fun b hb => ?_
    rw [State.account_refreshW] at hb
    obtain ⟨d, hd, rfl⟩ := Option.map_eq_some_iff.mp hb
    rw [if_neg e]
    exact h e d hd

theorem weightLaw_reload (cell : Nat) {x : State} (hw : s.stations.wf = true) (hc : x.cells = s.cells) (hs : x.stations = s.stations)
    (h : s.WeightLaw n) : (refreshRates cell (refreshM cell x)).WeightLaw n := by
  have hx : (refreshM cell x).WeightLaw n := h.congr hw (by rw [← hs] at hw; exact hw) (by
    rw [State.account_refreshM, State.account_of_cells hc, Option.map_map]
    congr 1
    funext b
    by_cases e : n = cell <;> simp [e]) fun j => by rw [show (refreshM cell x).stations = x.stations from rfl, hs]
  exact weightLaw_refreshRates cell (by rw [← hs] at hw; exact hw) hx

theorem State.WeightLaw.of_eq (h : s.WeightLaw n) (hc : t.cells = s.cells) (hs : t.stations = s.stations) : t.WeightLaw n := by
  intro b hb
  rw [State.account_of_cells hc] at hb
  rw [h b hb, State.countedWeight, State.countedWeight, hs]

theorem State.WeightLaw.update (h : s.WeightLaw n) (hw : s.stations.wf = true) {f : Station → Station}
    (hf : ∀ st, (f st).place = st.place ∧ (f st).weight = st.weight) : (updateStation i f s).WeightLaw n :=
  h.congr hw (Table.wf_modify _ _ _ hw) rfl fun j => by
    rw [look_updateStation]
    split
    · next e =>
      rw [e, Option.map_map]
      congr 1
      funext st
      simp only [Function.comp_apply, Station.shareAt, hf]
    · rfl

theorem Shift.weights (h : Shift p q i loose s t) (hw : s.stations.wf = true) (hs : s.WeightLaw n) : t.WeightLaw n := by
  induction h with
  | refl s => exact hs
  | trans h1 _ ih1 ih2 => exact ih2 (h1.inner.wf.1 hw) (ih1 hw hs)
  | weigh s cell => exact weightLaw_reweigh hw fun _ => hs
  | fewer s k c hc _ => exact hs.of_eq rfl rfl
  | remove s k c hc _ =>
    rw [removeCopy_eq hc]
    exact (weightLaw_reload (s := s) c.cell hw (by rw [setCopies_cells, flushCopy_frame hc])
      (by rw [setCopies_stations, flushCopy_frame hc]) hs).of_eq (owePass_cells ..) (owePass_stations ..)
  | more s k c hc _ => exact hs.of_eq rfl rfl
  | create s k channel cell ch b _ _ hn hch ha =>
    rw [createCopy_eq hn hch ha]
    exact weightLaw_reload (s := s) cell hw rfl rfl hs
  | members s f => exact hs.update hw fun _ => ⟨rfl, rfl⟩
  | credit s => exact hs.update hw fun _ => ⟨rfl, rfl⟩
  | owe s cell => exact hs.of_eq (owePass_cells ..) (owePass_stations ..)
  | spill s c _ _ => exact hs.of_eq rfl rfl
  | post s cell addr body _ => exact hs.of_eq (postSignal_cells ..) (postSignal_stations ..)

/-! ## Along the ends -/

/-- A station's record put, its shares in the cell `n` as before. -/
theorem weightLaw_put {st now : Station} (hw : s.stations.wf = true) (hst : s.stations.look i = some st)
    (hn : now.shareAt n = st.shareAt n) (hc : t.cells = s.cells) (ht : t.stations = s.stations.put i now) (h : s.WeightLaw n) :
    t.WeightLaw n :=
  h.congr hw (by rw [ht]; exact Table.wf_put _ _ _ hw) (by rw [State.account_of_cells hc]) fun j => by
    rw [ht, Table.look_put]
    split
    · next e => rw [e, hst, Option.map_some, Option.map_some, hn]
    · rfl

theorem Act.Can.sums (hw : s.stations.wf = true) (hcw : s.copies.wf = true) (hcan : a.Can p s) :
    (s.LoadLaw n → (a.run s).LoadLaw n) ∧ (s.WeightLaw n → (a.run s).WeightLaw n) := by
  cases a with
  | force i =>
    obtain ⟨h, st, since, hh, hst, hp, -⟩ := hcan
    obtain ⟨x, hx, he⟩ := shift_forceHandover hcw hh hst
    obtain ⟨counters, hc⟩ := bumpPart_bumpPart_eq .handoversForced .handoversCompleted x
    have hrun : (Act.force i).run s = x.setCounters counters := he.trans hc
    rw [hrun]
    refine ⟨fun hl => ?_, fun hl => ?_⟩
    · exact (((shift_granted h st s).trans hx).loads (n := n) hcw (hl.of_eq rfl rfl)).of_eq rfl rfl
    · have hwu : ((s.setHandovers (s.handovers.drop i)).setStations (s.stations.put i (arrived s.now h st))).stations.wf = true :=
        Table.wf_put _ _ _ hw
      have h1 : (arrivedState i h st s).WeightLaw n :=
        weightLaw_reweigh ((inner_reweigh ..).wf.1 hwu) fun hn => weightLaw_reweigh hwu fun ho =>
          weightLaw_put (s := s) hw hst (by
            have e1 : ¬ h.newCell = n := Ne.symm hn
            have e2 : ¬ h.oldCell = n := Ne.symm ho
            simp [Station.shareAt, arrived, hp, Place.cell?, e1, e2]) rfl rfl hl
      have hwa := (inner_arrivedState i h st s).wf.1 hw
      have h2 : (grantedState i h st s).WeightLaw n := h1.of_eq (postSignal_cells ..) (postSignal_stations ..)
      exact (hx.weights (by rw [grantedState, postSignal_stations]; exact hwa) h2).of_eq rfl rfl
  | cancel i =>
    obtain ⟨st, cell, since, hst, hp⟩ := hcan
    have hrun := cancelToOld_eq hst hp
    have hc : (cancelToOld i s).cells = s.cells := by rw [hrun]; exact postSignal_cells ..
    have hy : (cancelToOld i s).copies = s.copies := by rw [hrun]; exact postSignal_copies ..
    have hs : (cancelToOld i s).stations = s.stations.put i { st with place := .associated cell since } := by
      rw [hrun]
      exact postSignal_stations ..
    exact ⟨fun hl => hl.of_eq hc hy, fun hl => weightLaw_put hw hst (by simp [Station.shareAt, hp, Place.cell?]) hc hs hl⟩
  | sleep i =>
    obtain ⟨st, cell, since, hst, hp, -⟩ := hcan
    have hcell : st.place.cell? = some cell := by rw [hp]; rfl
    have hf : (goDormant i s).cells = (leftCell i cell st s).cells ∧ (goDormant i s).copies = (leftCell i cell st s).copies
        ∧ (goDormant i s).stations = (leftCell i cell st s).stations := by
      obtain ⟨_, _, _, hrun⟩ := goDormant_frame hst hcell
      rw [hrun]
      exact ⟨rfl, rfl, rfl⟩
    refine ⟨fun hl => ?_, fun hl => ?_⟩
    · exact State.LoadLaw.of_eq ((shift_leftCell hcw i cell st).loads (n := n) hcw (hl.of_eq rfl rfl)) hf.1 hf.2.1
    · have hwu : (s.setStations (s.stations.put i (dormantFrom cell st))).stations.wf = true := Table.wf_put _ _ _ hw
      have hdrop := shift_dropMembers (s := s.setStations (s.stations.put i (dormantFrom cell st))) hcw cell (fun _ => False) i False
        (st.members.map (·.channel))
      rw [List.foldl_map] at hdrop
      refine State.WeightLaw.of_eq (s := leftCell i cell st s) (weightLaw_reweigh (hdrop.inner.wf.1 hwu) fun hn => ?_) hf.1 hf.2.2
      refine hdrop.weights hwu (weightLaw_put (s := s) hw hst ?_ rfl rfl hl)
      have e1 : ¬ cell = n := Ne.symm hn
      simp [Station.shareAt, hp, Place.cell?, dormantFrom, e1]

theorem sums_chain (hs : s.stations.wf = true) (hcs : s.copies.wf = true) (hm : m.Pairwise fun a b => a.index ≠ b.index)
    (hcan : ∀ a ∈ m, a.Can p s) :
    (s.LoadLaw n → (m.foldl Act.run s).LoadLaw n) ∧ (s.WeightLaw n → (m.foldl Act.run s).WeightLaw n) :=
  chain_invariant (Q := fun v => (s.LoadLaw n → v.LoadLaw n) ∧ (s.WeightLaw n → v.WeightLaw n)) hs hcs hm hcan ⟨id, id⟩
    fun _ v _ _ hv _ hc ⟨h1, h2⟩ => by
      obtain ⟨g1, g2⟩ := hc.sums (n := n) (hv.inner.wf.1 hs) (hv.inner.wf.2.1 hcs)
      exact ⟨g1 ∘ h1, g2 ∘ h2⟩

/-! ## New copies -/

/-- From `s` to `t` copies at the cells that `p` picks may have gone and copies at those that `q` picks may be new, with an empty queue; a
number is used again only after a copy there has gone. -/
structure Fresh (p q : Nat → Prop) (s t : State) : Prop where
  kept  : ∀ j c, s.copies.look j = some c → ¬ p c.cell → ∃ members, t.copies.look j = some { c with members := members }
  found : ∀ j c, t.copies.look j = some c → (∃ members, s.copies.look j = some { c with members := members })
    ∨ (c.queue = [] ∧ q c.cell ∧ ∀ d, s.copies.look j = some d → p d.cell)

theorem Fresh.of_eq (h : t.copies = s.copies) : Fresh p q s t :=
  ⟨fun j c hc _ => ⟨c.members, by rw [h, hc]⟩, fun j c hc => .inl ⟨c.members, by rw [← h, hc]⟩⟩

theorem Fresh.congr {s' t' : State} (h : Fresh p q s t) (hs : s.copies = s'.copies) (ht : t'.copies = t.copies) : Fresh p q s' t' :=
  ⟨by rw [← hs, ht]; exact h.kept, by rw [← hs, ht]; exact h.found⟩

theorem Fresh.trans (h : Fresh p q s t) (g : Fresh p q t u) : Fresh p q s u where
  kept j c hc hp := by
    obtain ⟨m, hm⟩ := h.kept j c hc hp
    obtain ⟨m', hm'⟩ := g.kept j _ hm hp
    exact ⟨m', hm'⟩
  found j c hc := by
    rcases g.found j c hc with ⟨m, hm⟩ | ⟨hq, hn, hd⟩
    · rcases h.found j _ hm with ⟨m', hm'⟩ | ⟨hq, hn, hd⟩
      · exact .inl ⟨m', hm'⟩
      · exact .inr ⟨hq, hn, hd⟩
    · refine .inr ⟨hq, hn, fun d hds => ?_⟩
      by_contra hp
      obtain ⟨m, hm⟩ := h.kept j d hds hp
      have := hd _ hm
      exact hp this

theorem Fresh.mono {p' q' : Nat → Prop} (h : Fresh p q s t) (hp : ∀ n, p n → p' n) (hq : ∀ n, q n → q' n) : Fresh p' q' s t :=
  ⟨fun j c hc hn => h.kept j c hc fun e => hn (hp _ e), fun j c hc => (h.found j c hc).imp_right fun ⟨h1, h2, h3⟩ =>
    ⟨h1, hq _ h2, fun d hd => hp _ (h3 d hd)⟩⟩

theorem Shift.fresh (h : Shift p q i loose s t) : Fresh p q s t := by
  have put : ∀ {s : State} {k : Nat} {c : Copy} (m : Nat), s.copies.look k = some c →
      Fresh p q s (s.setCopies (s.copies.put k { c with members := m })) := fun {s k c} m hc => by
    refine ⟨fun j d hd _ => ?_, fun j d hd => ?_⟩
    · rw [setCopies_copies, Table.look_put]
      split
      · next e =>
        rw [e, hc] at hd
        exact ⟨m, by rw [← Option.some.inj hd]⟩
      · exact ⟨d.members, hd⟩
    · rw [setCopies_copies, Table.look_put] at hd
      split at hd
      · next e => exact .inl ⟨c.members, by rw [e, hc, ← Option.some.inj hd]⟩
      · exact .inl ⟨d.members, hd⟩
  induction h with
  | refl s => exact .of_eq rfl
  | trans _ _ ih1 ih2 => exact ih1.trans ih2
  | weigh s cell => exact .of_eq (reweigh_copies ..)
  | fewer s n c hc _ => exact put _ hc
  | remove s k c hc hp =>
    refine ⟨fun j d hd hn => ?_, fun j d hd => ?_⟩
    · rw [removeCopy_copies hc, if_neg]
      · exact ⟨d.members, hd⟩
      · rintro rfl
        rw [hc] at hd
        exact hn (Option.some.inj hd ▸ hp)
    · rw [removeCopy_copies hc] at hd
      split at hd
      · cases hd
      · exact .inl ⟨d.members, hd⟩
  | more s n c hc _ => exact put _ hc
  | create s k channel cell ch b hq hno hn hch ha =>
    have hfree := (Table.lowestFree_spec _ _ _ hn).2.1
    refine ⟨fun j d hd _ => ?_, fun j d hd => ?_⟩
    · rw [createCopy_copies hn hch ha, if_neg]
      · exact ⟨d.members, hd⟩
      · rintro rfl
        rw [hfree] at hd
        cases hd
    · rw [createCopy_copies hn hch ha] at hd
      split at hd
      · next e =>
        obtain ⟨-, h2, h3, -⟩ := newCopy_spec s channel cell ch b
        rw [← Option.some.inj hd]
        exact .inr ⟨h3, by rw [h2]; exact hq, fun x hx => by rw [e, hfree] at hx; cases hx⟩
      · exact .inl ⟨d.members, hd⟩
  | members s f => exact .of_eq rfl
  | credit s => exact .of_eq rfl
  | owe s cell => exact .of_eq (owePass_copies ..)
  | spill s c _ _ => exact .of_eq rfl
  | post s cell addr body _ => exact .of_eq (postSignal_copies ..)

/-- The cells where an end makes copies: the new cell of a handover forced. -/
def Act.Lands (q : Nat → Prop) (s : State) : Act → Prop
  | .force i => ∀ h, s.handovers.look i = some h → q h.newCell
  | _ => True

theorem Act.Can.fresh (hcw : s.copies.wf = true) (hcan : a.Can p s) (hl : a.Lands q s) : Fresh p q s (a.run s) := by
  cases a with
  | force i =>
    obtain ⟨h, st, since, hh, hst, hp, hpc⟩ := hcan
    obtain ⟨x, hx, he⟩ := shift_forceHandover hcw hh hst
    obtain ⟨counters, hc⟩ := bumpPart_bumpPart_eq .handoversForced .handoversCompleted x
    have hrun : (Act.force i).run s = x.setCounters counters := he.trans hc
    have h1 : Shift (· = h.oldCell) (· = h.newCell) i True _ x := (shift_granted h st s).trans hx
    rw [hrun]
    exact (h1.fresh.mono (fun n e => by rw [e]; exact hpc) fun n e => by rw [e]; exact hl h hh).congr rfl rfl
  | cancel i =>
    obtain ⟨st, cell, since, hst, hp⟩ := hcan
    exact .of_eq (by rw [show (Act.cancel i).run s = cancelToOld i s from rfl, cancelToOld_eq hst hp]; exact postSignal_copies ..)
  | sleep i =>
    obtain ⟨st, cell, since, hst, hp, -, hpc⟩ := hcan
    have hrun : (Act.sleep i).run s = goDormant i s := rfl
    have h1 := (shift_leftCell hcw i cell st).fresh
    obtain ⟨_, _, _, hf⟩ := goDormant_frame hst (cell := cell) (by rw [hp]; rfl)
    rw [hrun, hf]
    exact (h1.mono (fun n e => by rw [e]; exact hpc) fun n e => e.elim).congr rfl rfl

theorem fresh_chain (hs : s.stations.wf = true) (hcs : s.copies.wf = true) (hm : m.Pairwise fun a b => a.index ≠ b.index)
    (hcan : ∀ a ∈ m, a.Can p s) (hl : ∀ a ∈ m, a.Lands q s) : Fresh p q s (m.foldl Act.run s) :=
  chain_invariant hs hcs hm hcan (.of_eq rfl) fun l v a ha hv hnew hc hf => by
    refine hf.trans (hc.fresh (hv.inner.wf.2.1 hcs) ?_)
    cases a with
    | force i =>
      intro h hh
      rw [hv.handovers, if_neg fun ⟨b, hb, e⟩ => hnew b hb e] at hh
      exact hl _ ha h hh
    | cancel i => trivial
    | sleep i => trivial

end Sys2Proof.Machine
end

