-- ==== Sys2Proof/Proofs/Members.lean ====
section
/-! PROOFS. Member counts (R125): a copy has members, and no more than stations counted at its cell name its channel, through any chain of
ends (R130, R131). -/

namespace Sys2Proof.Machine

variable {p q : Nat → Prop} {i n cell ch : Nat} {loose : Prop} {s t u v : State} {a : Act} {m : List Act} {pending : List Nat}

/-! ## The stations that name a channel at a cell -/

/-- The station is counted at the cell and names the channel. -/
def Station.names (cell ch : Nat) (st : Station) : Bool := st.place.cell? == some cell && st.members.any fun y => y.channel == ch

/-- The station's number, if it is counted at the cell and names the channel. -/
def namer (cell ch : Nat) (i : Nat) (st : Station) : List Nat := if st.names cell ch then [i] else []

/-- How many stations counted at the cell name the channel. -/
def State.namers (s : State) (cell ch : Nat) : Nat := (s.stations.flat (namer cell ch)).length

theorem State.namers_eq (s : State) (cell ch : Nat) : s.namers cell ch =
    (s.stations.entries.filter fun x => x.2.place.cell? == some cell && x.2.members.any fun y => y.channel == ch).length := by
  rw [State.namers, Table.flat]
  induction s.stations.entries with
  | nil => rfl
  | cons x rest ih =>
    rw [List.flatMap_cons, List.length_append, ih, List.filter_cons, namer, Station.names]
    split <;> simp [Nat.add_comm]

theorem Station.names_iff {st : Station} : st.names cell ch = true ↔ st.place.cell? = some cell ∧ ch ∈ st.members.map (·.channel) := by
  simp [Station.names]

/-- One station's record changed: the count of the others is the same. -/
theorem namers_change (hw : s.stations.wf = true) (hw' : t.stations.wf = true) {st now : Station} (hst : s.stations.look i = some st)
    (hnow : t.stations.look i = some now) (ho : OnlyRates i s t) (cell ch : Nat) :
    ∃ r, s.namers cell ch = (st.names cell ch).toNat + r ∧ t.namers cell ch = (now.names cell ch).toNat + r := by
  have hlen : ∀ x : Station, (namer cell ch i x).length = (x.names cell ch).toNat := fun x => by
    unfold namer
    cases x.names cell ch <;> rfl
  have hdrop : ∀ k, k ≠ i → (s.stations.drop i).look k = s.stations.look k := fun k hk => by rw [Table.look_drop, if_neg hk]
  have hi : (s.stations.drop i).look i = none := by rw [Table.look_drop, if_pos rfl]
  have hwd := Table.wf_drop s.stations i hw
  have key : ∀ {u : State} {x : Station}, u.stations.wf = true → u.stations.look i = some x →
      (∀ k, k ≠ i → u.stations.at (namer cell ch) k = s.stations.at (namer cell ch) k) →
      u.namers cell ch = (x.names cell ch).toNat + ((s.stations.drop i).flat (namer cell ch)).length := fun {u x} hu hx hk => by
    rw [State.namers, (Table.flat_split (g := namer cell ch) hu hwd i
      (by rw [Table.at_some hx, Table.at_none hi, List.append_nil]) fun k hki => by
        rw [hk k hki, Table.at, Table.at, hdrop k hki]).length_eq, List.length_append, hlen]
  refine ⟨_, key hw hst fun _ _ => rfl, key hw' hnow fun k hk => ?_⟩
  cases hk' : s.stations.look k with
  | none => rw [Table.at_none hk', Table.at_none (ho.free k hk')]
  | some x =>
    obtain ⟨r, hr, -⟩ := ho.kept k x hk hk'
    rw [Table.at_some hr, Table.at_some hk']
    rfl

/-- Where a station is counted, and its list. -/
def Station.seat (st : Station) : Option Nat × List Membership := (st.place.cell?, st.members)

/-- Every station is counted where it was, with the list it had. -/
def SameSeats (s t : State) : Prop := ∀ j, (t.stations.look j).map Station.seat = (s.stations.look j).map Station.seat

theorem OnlyRates.sameSeats (h : ∀ i, OnlyRates i s t) : SameSeats s t := fun j => by
  cases hj : s.stations.look j with
  | none => rw [(h j).free j hj]
  | some x =>
    obtain ⟨r, hr, -⟩ := (h (j + 1)).kept j x (by omega) hj
    rw [hr]
    rfl

theorem namers_of_seats (hw : s.stations.wf = true) (hw' : t.stations.wf = true) (h : SameSeats s t) (cell ch : Nat) :
    t.namers cell ch = s.namers cell ch := by
  rw [State.namers, State.namers, Table.flat_congr hw' hw fun k => ?_]
  have hk := h k
  cases hs : s.stations.look k with
  | none =>
    rw [hs, Option.map_none, Option.map_eq_none_iff] at hk
    rw [Table.at_none hs, Table.at_none hk]
  | some x =>
    rw [hs] at hk
    obtain ⟨y, hy, e⟩ := Option.map_eq_some_iff.mp (hk.trans rfl)
    obtain ⟨e1, e2⟩ := Prod.mk.inj e
    rw [Table.at_some hy, Table.at_some hs, namer, namer, Station.names, Station.names, e1, e2]

/-! ## The law of member counts, with members still to leave -/

/-- Copies are single; each has members, no more than the stations counted at its cell that name its channel, but for one more where a member
of a channel of `pending` has still to leave it; no station names a channel twice. -/
structure Membered (pending : List Nat) (cell : Nat) (s : State) : Prop where
  single : ∀ n m c d, s.copies.look n = some c → s.copies.look m = some d → c.channel = d.channel → c.cell = d.cell → n = m
  counts : ∀ n c, s.copies.look n = some c → 0 < c.members
    ∧ c.members ≤ s.namers c.cell c.channel + if c.cell = cell ∧ c.channel ∈ pending then 1 else 0
  nodup  : ∀ i st, s.stations.look i = some st → (st.members.map (·.channel)).Nodup

theorem Membered.any (h : Membered [] cell s) (cell' : Nat) : Membered [] cell' s :=
  ⟨h.single, fun n c hc => by simpa using h.counts n c hc, h.nodup⟩

theorem SameSeats.nodup (h : SameSeats s t) (hs : ∀ i st, s.stations.look i = some st → (st.members.map (·.channel)).Nodup) :
    ∀ i st, t.stations.look i = some st → (st.members.map (·.channel)).Nodup := fun j x hx => by
  have hj := h j
  rw [hx] at hj
  obtain ⟨y, hy, e⟩ := Option.map_eq_some_iff.mp hj.symm
  rw [← (Prod.mk.inj e).2]
  exact hs j y hy

theorem Membered.of_seats (h : Membered pending cell s) (hw : s.stations.wf = true) (hw' : t.stations.wf = true)
    (ho : SameSeats s t) (hc : t.copies = s.copies) : Membered pending cell t where
  single := by rw [hc]; exact h.single
  counts n c hn := by
    rw [hc] at hn
    rw [namers_of_seats hw hw' ho]
    exact h.counts n c hn
  nodup := ho.nodup h.nodup

theorem State.copyAt_none (hw : s.copies.wf = true) (h : s.copyAt ch cell = none) {c : Copy}
    (hc : s.copies.look n = some c) : ¬ (c.channel = ch ∧ c.cell = cell) := by
  have := List.find?_eq_none.mp h (n, c) ((Table.mem_entries hw).mpr hc)
  simpa using this

theorem onlyRates_dropMember (hw : s.copies.wf = true) (ch cell i : Nat) : OnlyRates i s (dropMember ch cell s) :=
  (shift_dropMember hw ch cell (fun _ => False) i False).onlyRates

theorem dropMember_absent (h : s.copyAt ch cell = none) : dropMember ch cell s = s := by
  simp [dropMember, h]

theorem dropMember_last {c : Copy} (h : s.copyAt ch cell = some (n, c)) (hm : c.members ≤ 1) :
    dropMember ch cell s = removeCopy n s := by
  simp [dropMember, h, hm]

theorem dropMember_more {c : Copy} (h : s.copyAt ch cell = some (n, c)) (hm : ¬ c.members ≤ 1) :
    dropMember ch cell s = s.setCopies (s.copies.put n { c with members := c.members - 1 }) := by
  simp [dropMember, h, hm]

/-- One member of a channel leaves its copy at the cell. -/
theorem Membered.drop (h : Membered (ch :: pending) cell s) (hw : s.stations.wf = true) (hcw : s.copies.wf = true)
    (hch : ch ∉ pending) : Membered pending cell (dropMember ch cell s) := by
  have ho := fun i => onlyRates_dropMember hcw ch cell i
  have hw' := (inner_dropMember ch cell s).wf.1 hw
  have hsame := namers_of_seats hw hw' (OnlyRates.sameSeats ho)
  have hnodup := (OnlyRates.sameSeats ho).nodup h.nodup
  have hother : ∀ j d, s.copies.look j = some d → ¬ (d.channel = ch ∧ d.cell = cell) → 0 < d.members
      ∧ d.members ≤ (dropMember ch cell s).namers d.cell d.channel + if d.cell = cell ∧ d.channel ∈ pending then 1 else 0 := by
    intro j d hd hne
    obtain ⟨h1, h2⟩ := h.counts j d hd
    refine ⟨h1, ?_⟩
    rw [hsame]
    refine h2.trans (Nat.add_le_add_left (le_of_eq (if_congr ?_ rfl rfl)) _)
    rw [List.mem_cons]
    exact and_congr_right fun hc => ⟨fun e => e.resolve_left fun e => hne ⟨e, hc⟩, .inr⟩
  cases hat : s.copyAt ch cell with
  | none =>
    have he := dropMember_absent hat
    refine ⟨by rw [he]; exact h.single, fun j d hd => ?_, hnodup⟩
    rw [he] at hd
    exact hother j d hd (State.copyAt_none hcw hat hd)
  | some e =>
    obtain ⟨k, c⟩ := e
    obtain ⟨hk, hcc, hcl⟩ := State.copyAt_spec hcw hat
    have hne : ∀ j d, j ≠ k → s.copies.look j = some d → ¬ (d.channel = ch ∧ d.cell = cell) := fun j d hj hd ⟨h1, h2⟩ =>
      hj (h.single j k d c hd hk (h1.trans hcc.symm) (h2.trans hcl.symm))
    by_cases hlast : c.members ≤ 1
    · have hl : ∀ j, (dropMember ch cell s).copies.look j = if j = k then none else s.copies.look j := fun j => by
        rw [dropMember_last hat hlast, removeCopy_copies hk]
      refine ⟨fun j j' d d' hd hd' => ?_, fun j d hd => ?_, hnodup⟩
      · rw [hl] at hd hd'
        split at hd
        · cases hd
        · split at hd'
          · cases hd'
          · exact h.single j j' d d' hd hd'
      · rw [hl] at hd
        split at hd
        · cases hd
        · next hj => exact hother j d hd (hne j d hj hd)
    · have hl : ∀ j, (dropMember ch cell s).copies.look j =
          if j = k then some { c with members := c.members - 1 } else s.copies.look j := fun j => by
        rw [dropMember_more hat hlast, setCopies_copies, Table.look_put]
      have hback : ∀ j d, (dropMember ch cell s).copies.look j = some d → ∃ x, s.copies.look j = some x ∧ x.channel = d.channel
          ∧ x.cell = d.cell := fun j d hd => by
        rw [hl] at hd
        split at hd
        · next hj =>
          rw [← Option.some.inj hd]
          exact ⟨c, by rw [hj, hk], rfl, rfl⟩
        · exact ⟨d, hd, rfl, rfl⟩
      refine ⟨fun j j' d d' hd hd' e1 e2 => ?_, fun j d hd => ?_, hnodup⟩
      · obtain ⟨x, hx, x1, x2⟩ := hback j d hd
        obtain ⟨x', hx', x1', x2'⟩ := hback j' d' hd'
        exact h.single j j' x x' hx hx' (x1.trans (e1.trans x1'.symm)) (x2.trans (e2.trans x2'.symm))
      · have hd0 := hd
        rw [hl] at hd
        split at hd
        · obtain ⟨h1, h2⟩ := h.counts k c hk
          rw [← Option.some.inj hd]
          show 0 < c.members - 1 ∧ c.members - 1 ≤ (dropMember ch cell s).namers c.cell c.channel
            + if c.cell = cell ∧ c.channel ∈ pending then 1 else 0
          rw [hsame]
          have hin : ¬ (c.cell = cell ∧ c.channel ∈ pending) := fun e => hch (hcc ▸ e.2)
          have hin' : c.cell = cell ∧ c.channel ∈ ch :: pending := ⟨hcl, by rw [hcc]; exact List.mem_cons_self ..⟩
          rw [if_pos hin'] at h2
          rw [if_neg hin]
          omega
        · next hj => exact hother j d hd (hne j d hj hd)

/-- Each channel of a list loses a member at the cell. -/
theorem Membered.drops (h : Membered pending cell s) (hw : s.stations.wf = true) (hcw : s.copies.wf = true) (hnd : pending.Nodup) :
    Membered [] cell (pending.foldl (fun s ch => dropMember ch cell s) s) := by
  induction pending generalizing s with
  | nil => exact h
  | cons ch rest ih =>
    obtain ⟨h1, h2⟩ := List.nodup_cons.mp hnd
    exact ih (h.drop hw hcw h1) ((inner_dropMember ..).wf.1 hw) ((inner_dropMember ..).wf.2.1 hcw) h2

/-- A station that leaves a cell: its members have still to leave the copies there. -/
theorem Membered.leave {st now : Station} (h : Membered [] cell s) (hw : s.stations.wf = true) (hw' : t.stations.wf = true)
    (hc : t.copies = s.copies) (ho : OnlyRates i s t) (hst : s.stations.look i = some st) (hcell : st.place.cell? = some cell)
    (hnow : t.stations.look i = some now) (hnil : now.members = []) : Membered (st.members.map (·.channel)) cell t where
  single := by rw [hc]; exact h.single
  counts n c hn := by
    rw [hc] at hn
    obtain ⟨h1, h2⟩ := h.counts n c hn
    refine ⟨h1, ?_⟩
    obtain ⟨r, e1, e2⟩ := namers_change hw hw' hst hnow ho c.cell c.channel
    have hno : now.names c.cell c.channel = false := by simp [Station.names, hnil]
    rw [hno] at e2
    by_cases hin : c.cell = cell ∧ c.channel ∈ st.members.map (·.channel)
    · have hb : (st.names c.cell c.channel).toNat ≤ 1 := by cases st.names c.cell c.channel <;> simp
      simp only [List.not_mem_nil, and_false, if_false] at h2
      rw [if_pos hin]
      simp only [Bool.toNat_false] at e2
      omega
    · have hb : st.names c.cell c.channel = false := by
        rw [Bool.eq_false_iff, Ne, Station.names_iff, hcell]
        exact fun ⟨e, hm⟩ => hin ⟨(Option.some.inj e).symm, hm⟩
      simp only [List.not_mem_nil, and_false, if_false] at h2
      rw [if_neg hin]
      rw [hb] at e1
      omega
  nodup j x hx := by
    by_cases hj : j = i
    · subst hj
      rw [hnow] at hx
      rw [← Option.some.inj hx, hnil]
      exact List.nodup_nil
    · cases hs : s.stations.look j with
      | none => rw [ho.free j hs] at hx; cases hx
      | some y =>
        obtain ⟨r, hr, -⟩ := ho.kept j y hj hs
        rw [hr] at hx
        rw [← Option.some.inj hx]
        exact h.nodup j y hs

/-- A station that has joined a copy: the count of the stations that name it there has grown with it. -/
theorem Membered.join {st now : Station} {x : Membership} (h : Membered [] cell s) (hw : s.stations.wf = true) (hw' : t.stations.wf = true)
    (ho : OnlyRates i s t) (hst : s.stations.look i = some st) (hcell : st.place.cell? = some cell) (hnew : x.channel ∉ st.members.map (·.channel))
    (hnow : t.stations.look i = some now) (hplace : now.place = st.place) (hmem : now.members = st.members ++ [x])
    {k : Nat} {c : Copy} (hk : ∀ n, t.copies.look n = if n = k then some c else s.copies.look n) (hch : c.channel = x.channel)
    (hcl : c.cell = cell) (hcount : (c.members = 1 ∧ ∀ j d, s.copies.look j = some d → ¬ (d.channel = x.channel ∧ d.cell = cell))
      ∨ ∃ d, s.copies.look k = some d ∧ d.channel = x.channel ∧ d.cell = cell ∧ c.members = d.members + 1) :
    Membered [] cell t := by
  have hgrow : ∀ c' ch', s.namers c' ch' + (if c' = cell ∧ ch' = x.channel then 1 else 0) ≤ t.namers c' ch' := fun c' ch' => by
    obtain ⟨r, e1, e2⟩ := namers_change hw hw' hst hnow ho c' ch'
    by_cases hin : c' = cell ∧ ch' = x.channel
    · obtain ⟨rfl, rfl⟩ := hin
      have h1 : st.names c' x.channel = false := by
        rw [Bool.eq_false_iff, Ne, Station.names_iff]
        exact fun e => hnew e.2
      have h2 : now.names c' x.channel = true := Station.names_iff.mpr ⟨by rw [hplace, hcell], by rw [hmem]; simp⟩
      rw [h1] at e1
      rw [h2] at e2
      simp only [Bool.toNat_false, Bool.toNat_true] at e1 e2
      rw [if_pos ⟨rfl, rfl⟩]
      omega
    · have h1 : (st.names c' ch').toNat ≤ (now.names c' ch').toNat := by
        cases hs : st.names c' ch'
        · simp
        · have := Station.names_iff.mp hs
          rw [Station.names_iff.mpr ⟨by rw [hplace, this.1], by rw [hmem]; simp only [List.map_append, List.mem_append]; exact .inl this.2⟩]
      rw [if_neg hin]
      omega
  have hclash : ∀ j d, j ≠ k → s.copies.look j = some d → ¬ (d.channel = x.channel ∧ d.cell = cell) := fun j d hj hd e => by
    rcases hcount with ⟨-, hno⟩ | ⟨y, hy, y1, y2, -⟩
    · exact hno j d hd e
    · exact hj (h.single j k d y hd hy (e.1.trans y1.symm) (e.2.trans y2.symm))
  refine ⟨fun n m d d' hd hd' e1 e2 => ?_, fun n d hd => ?_, fun j y hy => ?_⟩
  · rw [hk] at hd hd'
    split at hd
    · next hn =>
      split at hd'
      · next hm => exact hn.trans hm.symm
      · next hm =>
        rw [← Option.some.inj hd] at e1 e2
        exact absurd ⟨e1.symm.trans hch, e2.symm.trans hcl⟩ (hclash m d' hm hd')
    · next hn =>
      split at hd'
      · rw [← Option.some.inj hd'] at e1 e2
        exact absurd ⟨e1.trans hch, e2.trans hcl⟩ (hclash n d hn hd)
      · exact h.single n m d d' hd hd' e1 e2
  · have hg := hgrow d.cell d.channel
    simp only [List.not_mem_nil, and_false, if_false, Nat.add_zero]
    rw [hk] at hd
    split at hd
    · obtain rfl := Option.some.inj hd
      rw [if_pos ⟨hcl, hch⟩] at hg
      rcases hcount with ⟨h1, -⟩ | ⟨y, hy, y1, y2, h1⟩
      · omega
      · obtain ⟨g1, g2⟩ := h.counts k y hy
        simp only [List.not_mem_nil, and_false, if_false, Nat.add_zero] at g2
        rw [y1, y2, ← hch, ← hcl] at g2
        omega
    · obtain ⟨g1, g2⟩ := h.counts n d hd
      simp only [List.not_mem_nil, and_false, if_false, Nat.add_zero] at g2
      omega
  · by_cases hj : j = i
    · subst hj
      rw [hnow] at hy
      rw [← Option.some.inj hy, hmem, List.map_append, List.nodup_append]
      exact ⟨h.nodup j st hst, List.nodup_singleton _, fun z hz w hw e => hnew (by
        rw [List.map_singleton, List.mem_singleton] at hw
        rw [← hw, ← e]
        exact hz)⟩
    · cases hs : s.stations.look j with
      | none => rw [ho.free j hs] at hy; cases hy
      | some z =>
        obtain ⟨r, hr, -⟩ := ho.kept j z hj hs
        rw [hr] at hy
        rw [← Option.some.inj hy]
        exact h.nodup j z hs

/-! ## Carried lists -/

/-- A membership placed gives the station one more and its copy one more member; where it is lost, nothing but counters and messages moves. -/
theorem carryChannel_cases (hcw : s.copies.wf = true) (i cell : Nat) (addr : Addr) (ch : Nat) :
    (∃ x : Membership, x.channel = ch ∧ OnlyRates i s (carryChannel i cell addr s ch)
      ∧ (∀ st, s.stations.look i = some st → ∃ now, (carryChannel i cell addr s ch).stations.look i = some now ∧ now.place = st.place
        ∧ now.members = st.members ++ [x])
      ∧ ∃ k c, (∀ n, (carryChannel i cell addr s ch).copies.look n = if n = k then some c else s.copies.look n) ∧ c.channel = x.channel
        ∧ c.cell = cell ∧ ((c.members = 1 ∧ ∀ j d, s.copies.look j = some d → ¬ (d.channel = x.channel ∧ d.cell = cell))
          ∨ ∃ d, s.copies.look k = some d ∧ d.channel = x.channel ∧ d.cell = cell ∧ c.members = d.members + 1))
    ∨ ((carryChannel i cell addr s ch).stations = s.stations ∧ (carryChannel i cell addr s ch).copies = s.copies) := by
  rcases placeMembership_cases hcw i ch cell with ⟨u, status, he, hu⟩ | ⟨he, -⟩
  · have hrun : carryChannel i cell addr s ch = updateStation i (fun st => { st with members := st.members ++ [⟨ch, status⟩] }) u := by
      simp [carryChannel, he]
    have hrates : ∀ j, OnlyRates j s u := fun j => by
      rcases hu with ⟨n, c, -, -, -, -, rfl⟩ | ⟨n, c, a, hno, hn, hch, ha, -, rfl⟩
      · exact .of_eq j rfl
      · exact (Shift.create (p := fun _ => False) (q := (· = cell)) (loose := False) s n ch cell c a rfl hno hn hch ha).onlyRates
    refine .inl ⟨⟨ch, status⟩, rfl, ?_, fun st hst => ?_, ?_⟩
    · rw [hrun]
      exact (hrates i).trans (onlyRates_updateStation ..)
    · obtain ⟨r, hr, -⟩ := (hrates (i + 1)).kept i st (by omega) hst
      exact ⟨{ st with members := st.members ++ [⟨ch, status⟩], rate := r }, by rw [hrun, look_updateStation, if_pos rfl, hr]; rfl, rfl, rfl⟩
    · rw [hrun]
      rcases hu with ⟨n, c, hc, h1, h2, -, rfl⟩ | ⟨n, c, a, hno, hn, hch, ha, -, rfl⟩
      · exact ⟨n, { c with members := c.members + 1 }, fun j => Table.look_put .., h1, h2, .inr ⟨c, hc, h1, h2, rfl⟩⟩
      · obtain ⟨h1, h2, -, h4⟩ := newCopy_spec s ch cell c a
        exact ⟨n, newCopy s ch cell c a, fun j => createCopy_copies hn hch ha j, h1, h2, .inl ⟨h4, fun j d hd => State.copyAt_none hcw hno hd⟩⟩
  · have hsame : (placeMembership i ch cell s).2 = none ∧ (placeMembership i ch cell s).1.stations = s.stations
        ∧ (placeMembership i ch cell s).1.copies = s.copies := by
      rcases he with he | he <;> rw [he] <;> exact ⟨rfl, rfl, rfl⟩
    obtain ⟨h1, h2, h3⟩ := hsame
    have hrun : carryChannel i cell addr s ch = bumpPart .membershipsLost (postNoRoom cell addr ch (placeMembership i ch cell s).1) := by
      simp [carryChannel, h1]
    have hpost : ∀ v : State, (postNoRoom cell addr ch v).stations = v.stations ∧ (postNoRoom cell addr ch v).copies = v.copies := fun v => by
      unfold postNoRoom
      split
      · exact ⟨postSignal_stations .., postSignal_copies ..⟩
      · exact ⟨rfl, rfl⟩
    obtain ⟨p2, p3⟩ := hpost (placeMembership i ch cell s).1
    rw [h2] at p2
    rw [h3] at p3
    generalize postNoRoom cell addr ch (placeMembership i ch cell s).1 = v at hrun p2 p3
    obtain ⟨counters, hc⟩ := bumpPart_eq .membershipsLost v
    rw [hrun, hc]
    exact .inr ⟨p2, p3⟩

theorem Membered.carry {st : Station} (h : Membered [] cell s) (hw : s.stations.wf = true) (hcw : s.copies.wf = true) (addr : Addr)
    (hst : s.stations.look i = some st) (hcell : st.place.cell? = some cell) (hnew : ch ∉ st.members.map (·.channel)) :
    Membered [] cell (carryChannel i cell addr s ch) ∧ ∃ now, (carryChannel i cell addr s ch).stations.look i = some now
      ∧ now.place = st.place ∧ ∀ c ∈ now.members.map (·.channel), c ∈ st.members.map (·.channel) ∨ c = ch := by
  have hw' := (inner_carryChannel i cell addr s ch).wf.1 hw
  rcases carryChannel_cases hcw i cell addr ch with ⟨x, rfl, ho, hs, k, c, hk, h1, h2, h3⟩ | ⟨hs, hc⟩
  · obtain ⟨now, hnow, hp, hm⟩ := hs st hst
    refine ⟨h.join hw hw' ho hst hcell hnew hnow hp hm hk h1 h2 h3, now, hnow, hp, fun c hc => ?_⟩
    rw [hm, List.map_append, List.mem_append] at hc
    exact hc.imp_right fun hc => by simpa using hc
  · exact ⟨h.of_seats hw hw' (OnlyRates.sameSeats fun j => .of_eq j hs) hc, st, by rw [hs, hst], rfl, fun c hc => .inl hc⟩

theorem Membered.carries {channels : List Nat} {st : Station} (h : Membered [] cell s) (hw : s.stations.wf = true)
    (hcw : s.copies.wf = true) (addr : Addr) (hst : s.stations.look i = some st) (hcell : st.place.cell? = some cell)
    (hnd : channels.Nodup) (hnew : ∀ ch ∈ channels, ch ∉ st.members.map (·.channel)) :
    Membered [] cell (channels.foldl (carryChannel i cell addr) s) := by
  induction channels generalizing s st with
  | nil => exact h
  | cons ch rest ih =>
    obtain ⟨h1, h2⟩ := List.nodup_cons.mp hnd
    obtain ⟨g, now, hnow, hp, hm⟩ := h.carry hw hcw addr hst hcell (hnew ch (List.mem_cons_self ..))
    have hin := inner_carryChannel i cell addr s ch
    exact ih g (hin.wf.1 hw) (hin.wf.2.1 hcw) hnow (by rw [hp, hcell]) h2 fun c hc hmem => (hm c hmem).elim
      (hnew c (List.mem_cons_of_mem _ hc)) fun e => h1 (e ▸ hc)

/-! ## Along the ends -/

/-- The station of a handover forced, placed at its new cell with its list cleared. -/
theorem leave_forced {h : Handover} {st : Station} (hst : s.stations.look i = some st) :
    ∃ x, (grantedState i h st s).stations.look i = some x ∧ x.members = st.members ∧ x.addr = st.addr
      ∧ x.place = .associated h.newCell s.time.clock
      ∧ OnlyRates i s ((grantedState i h st s).setStations ((grantedState i h st s).stations.put i { x with members := [] })) := by
  obtain ⟨r, hr⟩ := look_arrivedState (i := i) h st s
  have hg : (grantedState i h st s).stations = (arrivedState i h st s).stations := postSignal_stations ..
  refine ⟨{ arrived s.now h st with rate := r }, by rw [hg]; exact hr, rfl, rfl, rfl, ?_⟩
  exact ((onlyRates_arrivedState h hst).trans (.of_eq i hg)).trans (onlyRates_putStation i _ rfl (by rw [hg, hr]; rfl))

theorem Act.Can.membered (hw : s.stations.wf = true) (hcw : s.copies.wf = true) (hcan : a.Can p s) (h : Membered [] n s) :
    Membered [] n (a.run s) := by
  cases a with
  | force i =>
    obtain ⟨ho, st, since, hh, hst, hp, -⟩ := hcan
    obtain ⟨x, hx, hxm, -, hxp, hrates⟩ := leave_forced (h := ho) hst
    have hrun : (Act.force i).run s = bumpPart .handoversForced (bumpPart .handoversCompleted
      (fillCredit i (carryMemberships i ho.oldCell ho.newCell (grantedState i ho st s)))) := forceHandover_eq hh hst
    have hgc : (grantedState i ho st s).copies = s.copies := by rw [grantedState, postSignal_copies, arrivedState_frame]
    have hgw : (grantedState i ho st s).stations.wf = true := by
      rw [grantedState, postSignal_stations]
      exact (inner_arrivedState i ho st s).wf.1 hw
    have hlw : ((grantedState i ho st s).setStations ((grantedState i ho st s).stations.put i { x with members := [] })).stations.wf = true :=
      Table.wf_put _ _ _ hgw
    have hlook : ((grantedState i ho st s).setStations ((grantedState i ho st s).stations.put i { x with members := [] })).stations.look i
        = some { x with members := [] } := by rw [setStations_stations, Table.look_put, if_pos rfl]
    have hlc : ((grantedState i ho st s).setStations ((grantedState i ho st s).stations.put i { x with members := [] })).copies = s.copies := by
      rw [setStations_copies, hgc]
    have hleft := (h.any ho.oldCell).leave hw hlw hlc hrates hst (by rw [hp]; rfl) hlook rfl
    rw [← hxm] at hleft
    have hndx : (x.members.map (·.channel)).Nodup := by rw [hxm]; exact h.nodup i st hst
    have hdrop := hleft.drops hlw (by rw [setStations_copies, hgc]; exact hcw) hndx
    have hsh := shift_dropMembers (s := (grantedState i ho st s).setStations ((grantedState i ho st s).stations.put i
      { x with members := [] })) (by rw [setStations_copies, hgc]; exact hcw) ho.oldCell (fun _ => False) (i + 1) False
      (x.members.map (·.channel))
    have hlow := shift_leftOld (by rw [hgc]; exact hcw) hx ho.oldCell (fun _ => False) False
    have hlo : Membered [] ho.newCell (leftOld i ho.oldCell x (grantedState i ho st s)) :=
      (hdrop.any ho.newCell).of_seats (hsh.inner.wf.1 hlw) (hlow.inner.wf.1 hgw)
        (OnlyRates.sameSeats fun j => .of_eq j (owePass_stations ..)) (owePass_copies ..)
    obtain ⟨r, hr, -⟩ := (hsh.trans (.owe _ ho.oldCell)).onlyRates.kept i _ (by omega) hlook
    have hcarried := hlo.carries (i := i) (channels := x.members.map (·.channel)) (hlow.inner.wf.1 hgw)
      (hlow.inner.wf.2.1 (by rw [hgc]; exact hcw)) x.addr hr (by rw [hxp]; rfl) hndx (by simp)
    rw [← carryMemberships_eq hx] at hcarried
    rw [hrun]
    have hcw' := (inner_carryMemberships i ho.oldCell ho.newCell _).wf.1 hgw
    generalize carryMemberships i ho.oldCell ho.newCell (grantedState i ho st s) = y at hcarried hcw'
    obtain ⟨counters, hc⟩ := bumpPart_bumpPart_eq .handoversForced .handoversCompleted (fillCredit i y)
    rw [hc]
    refine (hcarried.any n).of_seats hcw' ((inner_fillCredit i y).wf.1 hcw') (fun j => ?_) rfl
    show ((fillCredit i y).stations.look j).map _ = _
    rw [fillCredit, look_updateStation]
    split
    · next e => rw [e, Option.map_map]; rfl
    · rfl
  | cancel i =>
    obtain ⟨st, cell, since, hst, hp⟩ := hcan
    have hrun : (Act.cancel i).run s = bumpPart .handoversCancelled (postSignal cell st.addr (.attachGrant i)
      (returnedState i cell since st s)) := cancelToOld_eq hst hp
    have hl := fun j => look_returnedState (s := s) (i := i) (st := st) cell since j
    have hwr : (returnedState i cell since st s).stations.wf = true := Table.wf_put _ _ _ hw
    have hps := postSignal_stations cell st.addr (.attachGrant i) (returnedState i cell since st s)
    have hpc := postSignal_copies cell st.addr (.attachGrant i) (returnedState i cell since st s)
    rw [hrun]
    generalize postSignal cell st.addr (.attachGrant i) (returnedState i cell since st s) = y at hps hpc
    obtain ⟨counters, hc⟩ := bumpPart_eq .handoversCancelled y
    rw [hc]
    refine h.of_seats hw (t := y.setCounters counters) (by rw [← hps] at hwr; exact hwr) (fun j => ?_) hpc
    show (y.stations.look j).map _ = _
    rw [hps, hl]
    split
    · next e => rw [e, hst]; simp [Station.seat, hp, Place.cell?]
    · rfl
  | sleep i =>
    obtain ⟨st, cell, since, hst, hp, hno, -⟩ := hcan
    have hcell : st.place.cell? = some cell := by rw [hp]; rfl
    have hu : (s.setStations (s.stations.put i (dormantFrom cell st))).stations.wf = true := Table.wf_put _ _ _ hw
    have hlook : (s.setStations (s.stations.put i (dormantFrom cell st))).stations.look i = some (dormantFrom cell st) := by
      rw [setStations_stations, Table.look_put, if_pos rfl]
    have hleft := (h.any cell).leave hw hu rfl (onlyRates_putStation i _ rfl (by rw [hst]; rfl)) hst hcell hlook rfl
    have hdrop := hleft.drops hu hcw (h.nodup i st hst)
    have hdw := (shift_dropMembers (s := s.setStations (s.stations.put i (dormantFrom cell st))) hcw cell (fun _ => False) i False
      (st.members.map (·.channel))).inner.wf.1 hu
    obtain ⟨_, _, _, hrun⟩ := goDormant_frame hst hcell
    have hl : leftCell i cell st s = reweigh cell ((st.members.map (·.channel)).foldl (fun s ch => dropMember ch cell s)
        (s.setStations (s.stations.put i (dormantFrom cell st)))) := by
      rw [List.foldl_map]
      rfl
    rw [show (Act.sleep i).run s = goDormant i s from rfl, hrun, hl]
    generalize (st.members.map (·.channel)).foldl (fun s ch => dropMember ch cell s)
        (s.setStations (s.stations.put i (dormantFrom cell st))) = y at hdrop hdw
    have hwy := (inner_reweigh cell y).wf.1 hdw
    have hry : ∀ j, OnlyRates j y (reweigh cell y) := fun j =>
      (Shift.weigh (p := fun _ => False) (q := fun _ => False) (loose := False) y cell).onlyRates
    have hcy := reweigh_copies cell y
    generalize reweigh cell y = z at hwy hry hcy
    have hz : SameSeats y z := OnlyRates.sameSeats hry
    exact (hdrop.any n).of_seats hdw hwy hz hcy

theorem membered_chain (hs : s.stations.wf = true) (hcs : s.copies.wf = true) (hm : m.Pairwise fun a b => a.index ≠ b.index)
    (hcan : ∀ a ∈ m, a.Can p s) (h : Membered [] n s) : Membered [] n (m.foldl Act.run s) :=
  chain_invariant hs hcs hm hcan h fun _ _ _ _ hv _ hc hq => hc.membered (hv.inner.wf.1 hs) (hv.inner.wf.2.1 hcs) hq

end Sys2Proof.Machine
end

