-- ==== Sys2Proof/Proofs/Fates.lean ====
section
/-! PROOFS. Cells that go DOWN one after another (R12): what has become of each station and of each handover, said over the state before. -/

namespace Sys2Proof.Machine

variable {s t u v w : State} {D : List Nat} {n : Nat}

/-! ## Changes beside the ends -/

/-- From `s` to `t` only notices, latches, flags of cells and fields that no end reads have changed. -/
structure Aside (s t : State) : Prop where
  stations  : t.stations = s.stations
  handovers : t.handovers = s.handovers
  copies    : t.copies = s.copies
  pools     : t.pools = s.pools
  trunks    : t.trunks = s.trunks
  owed      : t.owed = s.owed
  time      : t.time = s.time
  settings  : t.settings = s.settings
  channels  : t.channels = s.channels
  accounts  : ∀ n, t.account n = s.account n
  counters  : CountersKept s t (· = .part .noticesLost)

theorem Aside.refl (s : State) : Aside s s :=
  ⟨rfl, rfl, rfl, rfl, rfl, rfl, rfl, rfl, rfl, fun _ => rfl, fun _ _ => rfl⟩

theorem Aside.trans (h : Aside s t) (g : Aside t u) : Aside s u :=
  ⟨g.stations.trans h.stations, g.handovers.trans h.handovers, g.copies.trans h.copies, g.pools.trans h.pools,
    g.trunks.trans h.trunks, g.owed.trans h.owed, g.time.trans h.time, g.settings.trans h.settings, g.channels.trans h.channels,
    fun n => (g.accounts n).trans (h.accounts n), h.counters.trans g.counters⟩

theorem aside_pushNotice (b : NoticeBody) (s : State) : Aside s (pushNotice b s) := by
  have hc := countersKept_pushNotice b s
  have hf := pushNotice_frame b s
  exact ⟨by rw [hf], by rw [hf], by rw [hf], by rw [hf], by rw [hf], by rw [hf], by rw [hf], by rw [hf], by rw [hf],
    fun n => by rw [hf]; rfl, hc⟩

theorem aside_updateCell (n : Nat) {f : Cell → Cell} (hf : ∀ c, (f c).account = c.account) (s : State) : Aside s (updateCell n f s) := by
  refine ⟨rfl, rfl, rfl, rfl, rfl, rfl, rfl, rfl, rfl, fun j => ?_, fun _ _ => rfl⟩
  rw [State.account, State.account, look_updateCell]
  split
  · next h =>
    rw [h, Option.map_map]
    congr 1
    funext c
    exact hf c
  · rfl

theorem aside_markedDown (n : Nat) (s : State) : Aside s (markedDown n s) :=
  aside_updateCell n (f := fun c => { c with state := .down, missed := 3 }) (fun _ => rfl) s

theorem Aside.tally (h : Aside s t) (hw : s.stations.wf = true) (hcw : s.copies.wf = true) : Tally s t :=
  .of_eq hw hcw h.stations h.copies h.pools (fun _ => h.counters _ nofun) (h.counters _ nofun) (by rw [h.owed]) h.time h.settings

theorem Aside.sameEnds (h : Aside s t) : SameEnds s t :=
  ⟨h.stations, h.handovers, h.counters _ nofun, h.counters _ nofun, h.counters _ nofun, h.counters _ nofun⟩

theorem Aside.loads (h : Aside s t) (hl : s.LoadLaw n) : t.LoadLaw n :=
  hl.congr (by rw [h.accounts]) (State.activeLoad_of_eq h.copies n)

theorem Aside.weights (h : Aside s t) (hl : s.WeightLaw n) : t.WeightLaw n := by
  intro a ha
  rw [h.accounts] at ha
  rw [hl a ha, State.countedWeight, State.countedWeight, h.stations]

theorem Aside.rates (h : Aside s t) (hw : s.stations.wf = true) (hl : s.RatesLaw n) : t.RatesLaw n :=
  hl.congr hw (by rw [h.stations]; exact hw) (h.accounts n) fun i => by rw [h.stations]

theorem Aside.configured (h : Aside s t) (n : Nat) : (t.cells.look n).isSome = (s.cells.look n).isSome := by
  rw [← State.account_isSome, ← State.account_isSome, h.accounts]

theorem Aside.moving (h : Aside s t) (law : s.MovingLaw) : t.MovingLaw := by
  intro i
  rw [h.handovers, h.stations]
  exact law i

/-! ## What has become of each station -/

/-- Cells of `D` have gone DOWN between `s` and `v`: the fate of each station and of each handover. -/
structure Fated (s : State) (D : List Nat) (v : State) : Prop where
  time      : v.time = s.time
  asleep    : ∀ i st n since, s.stations.look i = some st → st.place = .associated n since → n ∈ D →
    v.stations.look i = some (dormantFrom n st)
  forced    : ∀ i h st, s.handovers.look i = some h → s.stations.look i = some st → h.oldCell ∈ D → h.newCell ∉ D →
    ∃ members rate credit, v.stations.look i = some { st with
      place := .associated h.newCell s.time.clock, prev := some h.oldCell, paused := false, members := members, rate := rate
      credit := credit }
  cancelled : ∀ i h st since, s.handovers.look i = some h → s.stations.look i = some st → st.place = .moving h.oldCell since →
    h.oldCell ∉ D → h.newCell ∈ D → ∃ rate, v.stations.look i = some { st with place := .associated h.oldCell since, rate := rate }
  both      : ∀ i h st, s.handovers.look i = some h → s.stations.look i = some st → h.oldCell ∈ D → h.newCell ∈ D →
    v.stations.look i = some (dormantFrom (max h.oldCell h.newCell) st)
  others    : ∀ i st, s.stations.look i = some st → (∀ n, st.place.cell? = some n → n ∉ D) →
    (∀ h, s.handovers.look i = some h → h.newCell ∉ D) →
    ∃ rate, v.stations.look i = some { st with rate := rate } ∧ (st.place = .dormant → rate = st.rate)
  free      : ∀ i, s.stations.look i = none → v.stations.look i = none
  handovers : ∀ i, ((∃ h, s.handovers.look i = some h ∧ (h.oldCell ∈ D ∨ h.newCell ∈ D)) → v.handovers.look i = none)
    ∧ ((∀ h, s.handovers.look i = some h → h.oldCell ∉ D ∧ h.newCell ∉ D) → v.handovers.look i = s.handovers.look i)

theorem fated_nil (s : State) : Fated s [] s where
  time := rfl
  asleep _ _ _ _ _ _ h := by cases h
  forced _ _ _ _ _ h := by cases h
  cancelled _ _ _ _ _ _ _ _ h := by cases h
  both _ _ _ _ _ h := by cases h
  others _ st h _ _ := ⟨st.rate, h, fun _ => rfl⟩
  free _ h := h
  handovers i := ⟨fun ⟨_, _, h⟩ => by simp at h, fun _ => rfl⟩

theorem Fated.aside (h : Fated s D v) (ha : Aside v t) : Fated s D t := by
  obtain ⟨h0, h1, h2, h3, h4, h5, h6, h7⟩ := h
  rw [← ha.time] at h0
  rw [← ha.stations] at h1 h2 h3 h4 h5 h6
  rw [← ha.handovers] at h7
  exact ⟨h0, h1, h2, h3, h4, h5, h6, h7⟩

/-- A handover that still stands is one of before, of two cells not lost; its station is as before but for its rate. -/
theorem Fated.standing (h : Fated s D v) (law : s.MovingLaw) {i : Nat} {ho : Handover} (hv : v.handovers.look i = some ho) :
    s.handovers.look i = some ho ∧ ho.oldCell ∉ D ∧ ho.newCell ∉ D ∧ ∃ st since rate, s.stations.look i = some st
      ∧ st.place = .moving ho.oldCell since ∧ v.stations.look i = some { st with rate := rate } := by
  have hno : ¬ ∃ g, s.handovers.look i = some g ∧ (g.oldCell ∈ D ∨ g.newCell ∈ D) := fun hx => by
    rw [(h.handovers i).1 hx] at hv
    cases hv
  have hs : s.handovers.look i = some ho := by
    rw [← hv, (h.handovers i).2 fun g hg => ⟨fun e => hno ⟨g, hg, .inl e⟩, fun e => hno ⟨g, hg, .inr e⟩⟩]
  have h1 : ho.oldCell ∉ D := fun e => hno ⟨ho, hs, .inl e⟩
  have h2 : ho.newCell ∉ D := fun e => hno ⟨ho, hs, .inr e⟩
  obtain ⟨st, since, hst, hp, -⟩ := law i ho hs
  obtain ⟨r, hr, -⟩ := h.others i st hst (fun n hn => by
    rw [hp] at hn
    rw [← Option.some.inj hn]
    exact h1) fun g hg => by rw [← Option.some.inj (hs.symm.trans hg)]; exact h2
  exact ⟨hs, h1, h2, st, since, r, hst, hp, hr⟩

theorem Fated.moving (h : Fated s D v) (law : s.MovingLaw) : v.MovingLaw := by
  intro i ho hv
  obtain ⟨hs, -, -, st, since, r, hst, hp, hr⟩ := h.standing law hv
  obtain ⟨-, -, -, -, hne⟩ := law i ho hs
  exact ⟨_, since, hr, hp, hne⟩

/-- A handover of two cells not lost still stands. -/
theorem Fated.still (h : Fated s D v) {i : Nat} {ho : Handover} (hs : s.handovers.look i = some ho) (h1 : ho.oldCell ∉ D)
    (h2 : ho.newCell ∉ D) : v.handovers.look i = some ho := by
  rw [(h.handovers i).2 fun g hg => by rw [← Option.some.inj (hs.symm.trans hg)]; exact ⟨h1, h2⟩, hs]

/-- Where no handover stood, none stands. -/
theorem Fated.no_record (h : Fated s D v) {i : Nat} (hs : s.handovers.look i = none) : v.handovers.look i = none := by
  rw [(h.handovers i).2 fun g hg => (by rw [hs] at hg; cases hg), hs]

/-! ## One cell more -/

/-- The ends that a cell makes are of the stations that it serves. -/
theorem downActs_index (hw : v.stations.wf = true) (hhw : v.handovers.wf = true) {i : Nat} :
    (∃ a ∈ v.downActs n, a.index = i) ↔ (∃ h, v.handovers.look i = some h ∧ (h.oldCell = n ∨ h.newCell = n))
      ∨ ∃ st since, v.stations.look i = some st ∧ st.place = .associated n since := by
  rw [← mem_sleepersAt hw]
  constructor
  · rintro ⟨a, ha, rfl⟩
    rcases List.mem_append.mp ha with ha | ha
    · rcases List.mem_append.mp ha with ha | ha <;> obtain ⟨j, hj, rfl⟩ := List.mem_map.mp ha
      · exact .inl (((mem_forcedAt hhw).mp hj).imp fun _ h => ⟨h.1, .inl h.2⟩)
      · exact .inl (((mem_cancelledAt hhw).mp hj).imp fun _ h => ⟨h.1, .inr h.2⟩)
    · obtain ⟨j, hj, rfl⟩ := List.mem_map.mp ha
      exact .inr hj
  · rintro (⟨h, hh, hc | hc⟩ | hi)
    · exact ⟨.force i, List.mem_append_left _ (List.mem_append_left _ (List.mem_map_of_mem ((mem_forcedAt hhw).mpr ⟨h, hh, hc⟩))), rfl⟩
    · exact ⟨.cancel i, List.mem_append_left _ (List.mem_append_right _ (List.mem_map_of_mem ((mem_cancelledAt hhw).mpr ⟨h, hh, hc⟩))), rfl⟩
    · exact ⟨.sleep i, List.mem_append_right _ (List.mem_map_of_mem hi), rfl⟩

/-- A cell has gone DOWN from `v` to `w`: the chain of its ends, over a state that differs from `v` by flags alone. -/
structure CellLost (n : Nat) (v u w : State) : Prop where
  flags : Aside v u
  done  : Done (· = n) u (v.downActs n) w
  chain : w = (v.downActs n).foldl Act.run u
  forms : v.stations.wf = true ∧ v.handovers.wf = true ∧ v.copies.wf = true
  law   : v.MovingLaw

/-- A station that the cell does not serve keeps its record but for its rate. -/
theorem CellLost.unserved (h : CellLost n v u w) {i : Nat} {st : Station} (hst : v.stations.look i = some st)
    (hh : ∀ g, v.handovers.look i = some g → g.oldCell ≠ n ∧ g.newCell ≠ n) (hp : ∀ since, st.place ≠ .associated n since) :
    w.handovers.look i = v.handovers.look i
      ∧ ∃ rate, w.stations.look i = some { st with rate := rate } ∧ (st.place = .dormant → rate = st.rate) := by
  have hno : ¬ ∃ a ∈ v.downActs n, a.index = i := by
    rw [downActs_index h.forms.1 h.forms.2.1]
    rintro (⟨g, hg, hc | hc⟩ | ⟨x, since, hx, hp'⟩)
    · exact (hh g hg).1 hc
    · exact (hh g hg).2 hc
    · rw [← Option.some.inj (hst.symm.trans hx)] at hp'
      exact hp since hp'
  refine ⟨?_, h.done.others i st (fun a ha e => hno ⟨a, ha, e⟩) (by rw [h.flags.stations, hst])⟩
  rw [h.done.handovers, if_neg hno, h.flags.handovers]

/-- A station ASSOCIATED at the cell goes DORMANT. -/
theorem CellLost.sleeps (h : CellLost n v u w) {i : Nat} {st : Station} {since : Clock} (hst : v.stations.look i = some st)
    (hp : st.place = .associated n since) : w.stations.look i = some (dormantFrom n st) := by
  obtain ⟨now, hnow, hm⟩ := h.done.ended (.sleep i) (List.mem_append_right _ (List.mem_map_of_mem
    ((mem_sleepersAt h.forms.1).mpr ⟨st, since, hst, hp⟩))) st (by rw [h.flags.stations]; exact hst)
  rw [← hm n (by rw [hp]; rfl)]
  exact hnow

theorem CellLost.forces (h : CellLost n v u w) {i : Nat} {ho : Handover} {st : Station} (hh : v.handovers.look i = some ho)
    (hst : v.stations.look i = some st) (hn : ho.oldCell = n) : w.handovers.look i = none ∧ ∃ members rate credit,
      w.stations.look i = some { st with
        place := .associated ho.newCell v.time.clock, prev := some ho.oldCell, paused := false, members := members, rate := rate
        credit := credit } := by
  have ha : Act.force i ∈ v.downActs n := List.mem_append_left _ (List.mem_append_left _ (List.mem_map_of_mem
    ((mem_forcedAt h.forms.2.1).mpr ⟨ho, hh, hn⟩)))
  obtain ⟨now, hnow, hm⟩ := h.done.ended _ ha st (by rw [h.flags.stations]; exact hst)
  obtain ⟨m, r, c, rfl⟩ := hm ho (by rw [h.flags.handovers, hh])
  rw [h.flags.time] at hnow
  exact ⟨by rw [h.done.handovers, if_pos ⟨_, ha, rfl⟩], m, r, c, hnow⟩

theorem CellLost.cancels (h : CellLost n v u w) {i : Nat} {ho : Handover} {st : Station} {since : Clock}
    (hh : v.handovers.look i = some ho) (hst : v.stations.look i = some st) (hp : st.place = .moving ho.oldCell since)
    (hn : ho.newCell = n) : w.handovers.look i = none
      ∧ ∃ rate, w.stations.look i = some { st with place := .associated ho.oldCell since, rate := rate } := by
  have ha : Act.cancel i ∈ v.downActs n := List.mem_append_left _ (List.mem_append_right _ (List.mem_map_of_mem
    ((mem_cancelledAt h.forms.2.1).mpr ⟨ho, hh, hn⟩)))
  obtain ⟨now, hnow, hm⟩ := h.done.ended _ ha st (by rw [h.flags.stations]; exact hst)
  obtain ⟨r, rfl⟩ := hm _ _ hp
  exact ⟨by rw [h.done.handovers, if_pos ⟨_, ha, rfl⟩], r, hnow⟩

theorem Fated.step (h : Fated s D v) (law : s.MovingLaw) (hc : CellLost n v u w) (hn : ∀ d ∈ D, d < n) : Fated s (D ++ [n]) w := by
  have hnD : n ∉ D := fun e => lt_irrefl n (hn n e)
  have hmem : ∀ {m}, m ∈ D ++ [n] ↔ m ∈ D ∨ m = n := by simp
  have gone : ∀ {i ho}, s.handovers.look i = some ho → (ho.oldCell ∈ D ∨ ho.newCell ∈ D) → v.handovers.look i = none :=
    fun {i ho} hh hd => (h.handovers i).1 ⟨ho, hh, hd⟩
  have noRecord : ∀ {i} {P : Handover → Prop}, v.handovers.look i = none → ∀ g, v.handovers.look i = some g → P g :=
    fun hv g hg => by rw [hv] at hg; cases hg
  refine ⟨?_, fun i st m since hst hp hm => ?_, fun i ho st hh hst h1 h2 => ?_, fun i ho st since hh hst hp h1 h2 => ?_,
    fun i ho st hh hst h1 h2 => ?_, fun i st hst hp hh => ?_, fun i hi => ?_, fun i => ⟨?_, fun hh => ?_⟩⟩
  · rw [hc.done.inner.frame]
    exact hc.flags.time.trans h.time
  · have hnone : s.handovers.look i = none := by
      by_contra hne
      obtain ⟨g, hg⟩ := Option.ne_none_iff_exists'.mp hne
      exact law.not_associated hg hst hp
    rcases hmem.mp hm with hm | rfl
    · obtain ⟨-, r, hr, hd⟩ := hc.unserved (h.asleep i st m since hst hp hm) (noRecord (h.no_record hnone)) (by simp [dormantFrom])
      rw [hr, hd rfl]
    · obtain ⟨r, hr, -⟩ := h.others i st hst (fun k hk => by
        rw [hp] at hk
        rw [← Option.some.inj hk]
        exact hnD) fun g hg => by rw [hnone] at hg; cases hg
      have hx := hc.sleeps (since := since) hr hp
      exact hx
  · have h2' : ho.newCell ∉ D ∧ ho.newCell ≠ n := by simpa [hmem] using h2
    rcases hmem.mp h1 with h1 | h1
    · obtain ⟨m, r, c, hx⟩ := h.forced i ho st hh hst h1 h2'.1
      obtain ⟨-, r', hr, -⟩ := hc.unserved hx (noRecord (gone hh (.inl h1))) (by simp [h2'.2])
      exact ⟨m, r', c, hr⟩
    · have hv := h.still hh (by rw [h1]; exact hnD) h2'.1
      obtain ⟨-, -, -, x, since, r, hx, -, hr⟩ := h.standing law hv
      obtain rfl := Option.some.inj (hst.symm.trans hx)
      obtain ⟨-, m, r', c, hw⟩ := hc.forces hv hr h1
      rw [h.time] at hw
      exact ⟨m, r', c, hw⟩
  · have h1' : ho.oldCell ∉ D ∧ ho.oldCell ≠ n := by simpa [hmem] using h1
    rcases hmem.mp h2 with h2 | h2
    · obtain ⟨r, hx⟩ := h.cancelled i ho st since hh hst hp h1'.1 h2
      obtain ⟨-, r', hr, -⟩ := hc.unserved hx (noRecord (gone hh (.inr h2))) (by simp [h1'.2])
      exact ⟨r', hr⟩
    · have hv := h.still hh h1'.1 (by rw [h2]; exact hnD)
      obtain ⟨-, -, -, x, t, r, hx, -, hr⟩ := h.standing law hv
      obtain rfl := Option.some.inj (hst.symm.trans hx)
      obtain ⟨-, r', hw⟩ := hc.cancels hv hr hp h2
      exact ⟨r', hw⟩
  · obtain ⟨x, since, hx, hp, hne⟩ := law i ho hh
    obtain rfl := Option.some.inj (hst.symm.trans hx)
    rcases hmem.mp h1 with h1 | h1 <;> rcases hmem.mp h2 with h2 | h2
    · obtain ⟨-, r, hr, hd⟩ := hc.unserved (h.both i ho st hh hst h1 h2) (noRecord (gone hh (.inl h1))) (by simp [dormantFrom])
      rw [hr, hd rfl]
    · obtain ⟨m, r, c, hv⟩ := h.forced i ho st hh hst h1 (by rw [h2]; exact hnD)
      rw [hc.sleeps (since := s.time.clock) hv (by rw [h2]), h2, max_eq_right (hn _ h1).le]
      rfl
    · obtain ⟨r, hv⟩ := h.cancelled i ho st since hh hst hp (by rw [h1]; exact hnD) h2
      rw [hc.sleeps (since := since) hv (by rw [h1]), h1, max_eq_left (hn _ h2).le]
      rfl
    · exact absurd (h1.trans h2.symm) hne
  · obtain ⟨r, hr, hd⟩ := h.others i st hst (fun m hm e => hp m hm (hmem.mpr (.inl e))) fun g hg e => hh g hg (hmem.mpr (.inl e))
    have hfree : ∀ g, v.handovers.look i = some g → g.oldCell ≠ n ∧ g.newCell ≠ n := fun g hg => by
      obtain ⟨hs, -, -, x, since, -, hx, hxp, -⟩ := h.standing law hg
      obtain rfl := Option.some.inj (hst.symm.trans hx)
      exact ⟨fun e => hp _ (by rw [hxp]; rfl) (hmem.mpr (.inr e)), fun e => hh g hs (hmem.mpr (.inr e))⟩
    obtain ⟨-, r', hr', hd'⟩ := hc.unserved hr hfree fun since hp' => hp n (by rw [show st.place = _ from hp']; rfl) (hmem.mpr (.inr rfl))
    exact ⟨r', hr', fun e => (hd' e).trans (hd e)⟩
  · exact hc.done.free i (by rw [hc.flags.stations]; exact h.free i hi)
  · rintro ⟨ho, hh, hd⟩
    rw [hc.done.handovers]
    split
    · rfl
    · next hno =>
      rw [downActs_index hc.forms.1 hc.forms.2.1] at hno
      rw [hc.flags.handovers]
      by_contra hne
      obtain ⟨g, hg⟩ := Option.ne_none_iff_exists'.mp hne
      obtain ⟨hs, h1, h2, -⟩ := h.standing law hg
      obtain rfl := Option.some.inj (hh.symm.trans hs)
      rcases hd with hd | hd
      · exact hno (.inl ⟨ho, hg, .inl ((hmem.mp hd).resolve_left h1)⟩)
      · exact hno (.inl ⟨ho, hg, .inr ((hmem.mp hd).resolve_left h2)⟩)
  · have hD : ∀ g, s.handovers.look i = some g → g.oldCell ∉ D ∧ g.newCell ∉ D := fun g hg =>
      ⟨fun e => (hh g hg).1 (hmem.mpr (.inl e)), fun e => (hh g hg).2 (hmem.mpr (.inl e))⟩
    rw [hc.done.handovers]
    split
    · next hx =>
      rcases (downActs_index hc.forms.1 hc.forms.2.1).mp hx with ⟨g, hg, he⟩ | ⟨x, since, hx, hp⟩
      · obtain ⟨hs, -⟩ := h.standing law hg
        rcases he with e | e
        · exact absurd (hmem.mpr (.inr e)) (hh g hs).1
        · exact absurd (hmem.mpr (.inr e)) (hh g hs).2
      · cases hs : s.handovers.look i with
        | none => rfl
        | some g =>
          have hv := h.still hs (hD g hs).1 (hD g hs).2
          exact absurd hp (hc.law.not_associated hv hx)
    · rw [hc.flags.handovers, (h.handovers i).2 hD]

end Sys2Proof.Machine
end

