-- ==== Sys2Proof/Proofs/Losses.lean ====
section
/-! PROOFS. Cells that go DOWN one after another (R12): the handovers counted, the copies, the tally, M and W, the rates. -/

namespace Sys2Proof.Machine

variable {s t u v w : State} {D : List Nat} {n k : Nat}

/-! ## Handovers counted -/

/-- The handovers that the loss of the cells of `D`, in ascending order, ends as forced: those from a cell of `D`, but for those whose new
cell has gone DOWN earlier. -/
def lostForced (D : List Nat) (h : Handover) : Bool := decide (h.oldCell ∈ D) && !decide (h.newCell ∈ D ∧ h.newCell < h.oldCell)

/-- Those that it ends as cancelled. -/
def lostCancelled (D : List Nat) (h : Handover) : Bool := decide (h.newCell ∈ D) && !decide (h.oldCell ∈ D ∧ h.oldCell < h.newCell)

theorem length_filter_or {α : Type} (l : List α) {p q r : α → Bool} (h : ∀ x, p x = (q x || r x)) (hd : ∀ x, ¬ (q x = true ∧ r x = true)) :
    (l.filter p).length = (l.filter q).length + (l.filter r).length := by
  induction l with
  | nil => rfl
  | cons x rest ih =>
    have hx := hd x
    simp only [List.filter_cons, h x]
    cases hq : q x <;> cases hr : r x <;> simp_all <;> omega

theorem lostForced_step (hn : ∀ d ∈ D, d < n) (h : Handover) :
    lostForced (D ++ [n]) h = (lostForced D h || (h.oldCell == n && decide (h.newCell ∉ D)))
      ∧ ¬ (lostForced D h = true ∧ (h.oldCell == n && decide (h.newCell ∉ D)) = true) := by
  have hnD : n ∉ D := fun e => lt_irrefl n (hn n e)
  constructor
  · rw [Bool.eq_iff_iff]
    simp only [lostForced, Bool.and_eq_true, Bool.or_eq_true, decide_eq_true_eq, Bool.not_eq_true', decide_eq_false_iff_not,
      List.mem_append, List.mem_singleton, beq_iff_eq]
    by_cases ho : h.oldCell ∈ D
    · have h1 := hn _ ho
      have h2 : h.oldCell ≠ n := by omega
      simp only [ho, h2, true_and, false_and, or_false]
      refine not_congr ⟨fun ⟨e, hl⟩ => ⟨e.resolve_right (by omega), hl⟩, fun ⟨e, hl⟩ => ⟨.inl e, hl⟩⟩
    · by_cases hon : h.oldCell = n
      · simp only [hon, or_true, true_and]
        rw [show (n ∈ D ↔ False) from iff_false_intro hnD]
        simp only [false_and, false_or]
        exact not_congr ⟨fun ⟨e, hl⟩ => e.resolve_right (by omega), fun e => ⟨.inl e, hn _ e⟩⟩
      · simp [ho, hon]
  · simp only [lostForced, Bool.and_eq_true, decide_eq_true_eq, beq_iff_eq]
    rintro ⟨⟨h1, -⟩, h2, -⟩
    exact hnD (h2 ▸ h1)

theorem lostCancelled_step (hn : ∀ d ∈ D, d < n) (h : Handover) :
    lostCancelled (D ++ [n]) h = (lostCancelled D h || (h.newCell == n && decide (h.oldCell ∉ D)))
      ∧ ¬ (lostCancelled D h = true ∧ (h.newCell == n && decide (h.oldCell ∉ D)) = true) :=
  lostForced_step hn ⟨h.newCell, h.oldCell, h.start⟩

/-- The handovers that the cell forces and cancels are those of before that have not ended. -/
theorem Fated.ending (h : Fated s D v) (law : s.MovingLaw) (hw : s.handovers.wf = true) (hw' : v.handovers.wf = true) (hn : n ∉ D) :
    v.forcedAt n = (s.handovers.keysWhere fun _ h => h.oldCell == n && decide (h.newCell ∉ D))
      ∧ v.cancelledAt n = s.handovers.keysWhere fun _ h => h.newCell == n && decide (h.oldCell ∉ D) := by
  constructor
  · refine Table.keysWhere_congr hw' hw fun j => ⟨fun ⟨g, hg, e⟩ => ?_, fun ⟨g, hg, e⟩ => ?_⟩
    · obtain ⟨hs, -, h2, -⟩ := h.standing law hg
      exact ⟨g, hs, by simpa [h2] using e⟩
    · simp only [Bool.and_eq_true, beq_iff_eq, decide_eq_true_eq] at e
      exact ⟨g, h.still hg (by rw [e.1]; exact hn) e.2, by simpa using e.1⟩
  · refine Table.keysWhere_congr hw' hw fun j => ⟨fun ⟨g, hg, e⟩ => ?_, fun ⟨g, hg, e⟩ => ?_⟩
    · obtain ⟨hs, h1, -, -⟩ := h.standing law hg
      exact ⟨g, hs, by simpa [h1] using e⟩
    · simp only [Bool.and_eq_true, beq_iff_eq, decide_eq_true_eq] at e
      exact ⟨g, h.still hg e.2 (by rw [e.1]; exact hn), by simpa using e.1⟩

theorem HandoversCounted.step (hc : HandoversCounted s v (lostForced D) (lostCancelled D)) (hf : Fated s D v) (law : s.MovingLaw)
    (hw : s.handovers.wf = true) (hl : CellLost n v u w) (hn : ∀ d ∈ D, d < n) :
    HandoversCounted s w (lostForced (D ++ [n])) (lostCancelled (D ++ [n])) := by
  have hnD : n ∉ D := fun e => lt_irrefl n (hn n e)
  obtain ⟨h1, h2⟩ := hf.ending law hw hl.forms.2.1 hnD
  obtain ⟨c1, c2, -⟩ := countP_downActs v n
  have e1 : (v.forcedAt n).length + (s.handovers.entries.filter fun x => lostForced D x.2).length =
      (s.handovers.entries.filter fun x => lostForced (D ++ [n]) x.2).length := by
    have := length_filter_or s.handovers.entries (p := fun x => lostForced (D ++ [n]) x.2)
      (fun x => (lostForced_step hn x.2).1) fun x => (lostForced_step hn x.2).2
    rw [h1, Table.length_keysWhere, this, Nat.add_comm]
  have e2 : (v.cancelledAt n).length + (s.handovers.entries.filter fun x => lostCancelled D x.2).length =
      (s.handovers.entries.filter fun x => lostCancelled (D ++ [n]) x.2).length := by
    have := length_filter_or s.handovers.entries (p := fun x => lostCancelled (D ++ [n]) x.2)
      (fun x => (lostCancelled_step hn x.2).1) fun x => (lostCancelled_step hn x.2).2
    rw [h2, Table.length_keysWhere, this, Nat.add_comm]
  have hsame := hl.flags.sameEnds
  refine ⟨?_, ?_, ?_⟩
  · rw [← e1, Nat.add_comm, ← c1]
    exact hc.asForced.trans (hl.done.forced.same hsame.forced rfl)
  · rw [← e1, Nat.add_comm, ← c1]
    exact hc.completed.trans (hl.done.completed.same hsame.completed rfl)
  · rw [← e2, Nat.add_comm, ← c2]
    exact hc.toOld.trans (hl.done.cancelled.same hsame.cancelled rfl)

/-! ## Copies -/

/-- The copies at the other cells have kept all but their member counts; a copy that is new has an empty queue, and where it has the number of
one before, that one was at a cell of `D` and it is not. -/
structure FreshSince (s : State) (D : List Nat) (v : State) : Prop where
  kept  : ∀ j c, s.copies.look j = some c → c.cell ∉ D → ∃ members, v.copies.look j = some { c with members := members }
  found : ∀ j c, v.copies.look j = some c → (∃ members, s.copies.look j = some { c with members := members })
    ∨ (c.queue = [] ∧ ∀ d, s.copies.look j = some d → d.cell ∈ D ∧ d.cell ≠ c.cell)

theorem FreshSince.step (h : FreshSince s D v) (hf : Fresh (· = n) (· ∉ D ++ [n]) v w) : FreshSince s (D ++ [n]) w where
  kept j c hc hn := by
    rw [List.mem_append, List.mem_singleton, not_or] at hn
    obtain ⟨m, hm⟩ := h.kept j c hc hn.1
    obtain ⟨m', hm'⟩ := hf.kept j _ hm hn.2
    exact ⟨m', hm'⟩
  found j c hc := by
    rcases hf.found j c hc with ⟨m, hm⟩ | ⟨hq, hcn, hd⟩
    · rcases h.found j _ hm with ⟨m', hm'⟩ | ⟨hq, hd⟩
      · exact .inl ⟨m', hm'⟩
      · exact .inr ⟨hq, fun d hds => ⟨List.mem_append_left _ (hd d hds).1, (hd d hds).2⟩⟩
    · refine .inr ⟨hq, fun d hds => ?_⟩
      have hdn : d.cell ∈ D ++ [n] := by
        by_cases hdD : d.cell ∈ D
        · exact List.mem_append_left _ hdD
        · obtain ⟨m, hm⟩ := h.kept j d hds hdD
          have hdn := hd _ hm
          exact List.mem_append_right _ (List.mem_singleton.mpr hdn)
      exact ⟨hdn, fun e => hcn (e ▸ hdn)⟩

/-! ## All that is so wherever cells have gone DOWN -/

/-- The cells of `D` have gone DOWN between `s` and `v`. -/
structure Downed (s : State) (D : List Nat) (v : State) : Prop where
  fated      : Fated s D v
  tally      : Tally s v
  form       : v.handovers.wf = true
  counted    : HandoversCounted s v (lostForced D) (lostCancelled D)
  fresh      : FreshSince s D v
  sums       : ∀ n, (s.LoadLaw n → v.LoadLaw n) ∧ (s.WeightLaw n → v.WeightLaw n)
  membered   : Membered [] 0 s → Membered [] 0 v
  rates      : ∀ i h, s.handovers.look i = some h → h.oldCell ∈ D → h.newCell ∉ D → v.RatesLaw h.newCell
  channels   : v.channels = s.channels
  configured : ∀ n, (v.cells.look n).isSome = (s.cells.look n).isSome

theorem downed_nil (hw : s.stations.wf = true) (hcw : s.copies.wf = true) (hhw : s.handovers.wf = true) : Downed s [] s where
  fated := fated_nil s
  tally := .refl hw hcw
  form := hhw
  counted := by
    have h1 : (s.handovers.entries.filter fun x => lostForced [] x.2) = [] := by simp [lostForced]
    have h2 : (s.handovers.entries.filter fun x => lostCancelled [] x.2) = [] := by simp [lostCancelled]
    exact ⟨by rw [h1]; exact .refl .., by rw [h1]; exact .refl .., by rw [h2]; exact .refl ..⟩
  fresh := ⟨fun j c hc _ => ⟨c.members, hc⟩, fun j c hc => .inl ⟨c.members, hc⟩⟩
  sums _ := ⟨id, id⟩
  membered := id
  rates _ _ _ h := by cases h
  channels := rfl
  configured _ := rfl

theorem Membered.aside {p : List Nat} {c : Nat} (h : Membered p c s) (ha : Aside s t) (hw : s.stations.wf = true) : Membered p c t :=
  h.of_seats hw (by rw [ha.stations]; exact hw) (fun j => by rw [ha.stations]) ha.copies

theorem Downed.aside (h : Downed s D v) (ha : Aside v t) : Downed s D t where
  fated := h.fated.aside ha
  tally := h.tally.trans (ha.tally h.tally.wf.1 h.tally.wf.2)
  form := by rw [ha.handovers]; exact h.form
  counted := by
    have hs := ha.sameEnds
    exact ⟨h.counted.asForced.same rfl hs.forced, h.counted.completed.same rfl hs.completed, h.counted.toOld.same rfl hs.cancelled⟩
  fresh := ⟨by rw [ha.copies]; exact h.fresh.kept, by rw [ha.copies]; exact h.fresh.found⟩
  sums n := ⟨fun hl => ha.loads ((h.sums n).1 hl), fun hl => ha.weights ((h.sums n).2 hl)⟩
  membered hm := (h.membered hm).aside ha h.tally.wf.1
  rates i ho hh h1 h2 := ha.rates h.tally.wf.1 (h.rates i ho hh h1 h2)
  channels := ha.channels.trans h.channels
  configured n := (ha.configured n).trans (h.configured n)

theorem CellLost.spec (h : CellLost n v u w) : (v.downActs n).Pairwise (fun a b => a.index ≠ b.index)
    ∧ (∀ a ∈ v.downActs n, a.Can (· = n) u) ∧ u.stations.wf = true ∧ u.copies.wf = true := by
  obtain ⟨h1, h2⟩ := downActs_spec (cell := n) h.forms.1 h.forms.2.1 h.law
  refine ⟨h1, fun a ha => ?_, by rw [h.flags.stations]; exact h.forms.1, by rw [h.flags.copies]; exact h.forms.2.2⟩
  have := h2 a ha
  cases a <;> simpa only [Act.Can, h.flags.handovers, h.flags.stations] using this

/-- One cell more. -/
theorem Downed.step (h : Downed s D v) (law : s.MovingLaw) (hw : s.handovers.wf = true) (hl : CellLost n v u w) (hn : ∀ d ∈ D, d < n) :
    Downed s (D ++ [n]) w := by
  have hnD : n ∉ D := fun e => lt_irrefl n (hn n e)
  have hf := h.fated.step law hl hn
  obtain ⟨hpair, hcan, huw, hucw⟩ := hl.spec
  have ha := h.aside hl.flags
  have htally := tally_chain huw hucw hpair hcan
  have hsums := fun n => sums_chain (n := n) huw hucw hpair hcan
  have hfresh := fresh_chain (q := (· ∉ D ++ [n])) huw hucw hpair hcan fun a ham => by
    cases a with
    | force i =>
      intro g hg
      rw [hl.flags.handovers] at hg
      obtain ⟨hs, h1, h2, -⟩ := h.fated.standing law hg
      obtain ⟨-, -, -, -, hne⟩ := law i g hs
      obtain ⟨g', hg', hgn⟩ : ∃ g', v.handovers.look i = some g' ∧ g'.oldCell = n := by
        rcases List.mem_append.mp ham with hm | hm
        · rcases List.mem_append.mp hm with hm | hm <;> obtain ⟨j, hj, e⟩ := List.mem_map.mp hm <;> cases e
          exact (mem_forcedAt h.form).mp hj
        · obtain ⟨j, hj, e⟩ := List.mem_map.mp hm
          cases e
      rw [Option.some.inj (hg'.symm.trans hg)] at hgn
      rw [List.mem_append, List.mem_singleton, not_or]
      exact ⟨h2, fun e => hne (hgn.trans e.symm)⟩
    | cancel i => trivial
    | sleep i => trivial
  have hmem := fun hm => membered_chain (n := 0) huw hucw hpair hcan (ha.membered hm)
  rw [← hl.chain] at htally hsums hfresh hmem
  refine ⟨hf, ha.tally.trans htally, hl.done.inner.wf.2.2.1 (by rw [hl.flags.handovers]; exact h.form),
    h.counted.step h.fated law hw hl hn, h.fresh.step (hfresh.congr hl.flags.copies rfl), fun m => ?_, hmem,
    fun i ho hh h1 h2 => ?_, ?_, fun m => ?_⟩
  · exact ⟨fun hx => (hsums m).1 ((ha.sums m).1 hx), fun hx => (hsums m).2 ((ha.sums m).2 hx)⟩
  · rw [List.mem_append, List.mem_singleton] at h1 h2
    rw [not_or] at h2
    rcases h1 with h1 | h1
    · exact hl.done.rates huw _ (ha.rates i ho hh h1 h2.1)
    · have hv := h.fated.still hh (by rw [h1]; exact hnD) h2.1
      refine (hl.done.laws huw i ho (List.mem_append_left _ (List.mem_append_left _ (List.mem_map_of_mem
        ((mem_forcedAt h.form).mpr ⟨ho, hv, h1⟩)))) (by rw [hl.flags.handovers, hv])).2
  · rw [hl.done.inner.frame]
    exact ha.channels
  · rw [hl.done.inner.calm.configured]
    exact ha.configured m

end Sys2Proof.Machine
end

