-- ==== Sys2Proof/Proofs/Grants.lean ====
section
/-! PROOFS. Cells that go DOWN one after another where there is room: the memberships carried, the grants on the other trunks (R12, R76, R77,
R131). -/

namespace Sys2Proof.Machine

variable {s t u v w : State} {D : List Nat} {n k : Nat}

/-! ## Memberships carried -/

/-- Every handover forced from the cells of `D` to a cell not lost has carried its memberships. -/
structure Landed (s : State) (D : List Nat) (v : State) : Prop where
  size     : v.copies.size ≤ s.copies.size + 2 * (s.handovers.entries.filter fun x => lostForced D x.2).length
  followed : ∀ i h st, s.handovers.look i = some h → s.stations.look i = some st → h.oldCell ∈ D → h.newCell ∉ D →
    ∃ now, v.stations.look i = some now ∧ now.members.map (·.channel) = st.members.map (·.channel)
      ∧ ∀ x ∈ now.members, v.Follows h.newCell x

theorem landed_nil (s : State) : Landed s [] s := ⟨by simp, fun _ _ _ _ _ h => by cases h⟩

theorem Landed.aside (h : Landed s D v) (ha : Aside v t) : Landed s D t := by
  obtain ⟨h1, h2⟩ := h
  have hf : ∀ {cell x}, v.Follows cell x → t.Follows cell x := fun {cell x} hx => by
    rw [State.Follows, ha.copies]
    exact hx
  rw [← ha.copies] at h1
  rw [← ha.stations] at h2
  exact ⟨h1, fun i ho st hh hst ho1 ho2 => by
    obtain ⟨now, hnow, hm, hx⟩ := h2 i ho st hh hst ho1 ho2
    exact ⟨now, hnow, hm, fun x hxm => hf (hx x hxm)⟩⟩

/-- What the ends of the next cell carry can be carried. -/
theorem Downed.carries (h : Downed s D v) (hfits : s.stations.holds Station.Fits) (law : s.HandoverLaw)
    (hroom : s.CarryRoom) (hl : CellLost n v u w) (a : Act) : a.Carries u := by
  cases a with
  | force i =>
    intro ho st hh hst
    rw [hl.flags.handovers] at hh
    rw [hl.flags.stations] at hst
    obtain ⟨hs, -, -, x, since, r, hx, -, hr⟩ := h.fated.standing law.moving hh
    obtain rfl := Option.some.inj (hr.symm.trans hst)
    obtain ⟨g1, g2, g3⟩ := hroom.carries hfits law (.force i) ho x hs hx
    exact ⟨by rw [hl.flags.configured, h.configured]; exact g1, g2, by rw [hl.flags.channels, h.channels]; exact g3⟩
  | cancel i => trivial
  | sleep i => trivial

theorem Downed.carrySize (h : Downed s D v) (hhw : s.handovers.wf = true) (law : s.HandoverLaw) (hroom : s.CarryRoom) (hland : Landed s D v)
    (hl : CellLost n v u w) (hn : ∀ d ∈ D, d < n) :
    u.copies.size + 2 * (v.downActs n).countP Act.isForce
      ≤ s.copies.size + 2 * (s.handovers.entries.filter fun x => lostForced (D ++ [n]) x.2).length
      ∧ s.copies.size + 2 * (s.handovers.entries.filter fun x => lostForced (D ++ [n]) x.2).length ≤ 2048 := by
  have hnD : n ∉ D := fun e => lt_irrefl n (hn n e)
  obtain ⟨h1, -⟩ := h.fated.ending law.moving hhw hl.forms.2.1 hnD
  have h2 := length_filter_or s.handovers.entries (p := fun x => lostForced (D ++ [n]) x.2) (fun x => (lostForced_step hn x.2).1)
    fun x => (lostForced_step hn x.2).2
  have h3 := hland.size
  have h4 := hroom.copies
  have h5 : (s.handovers.entries.filter fun x => lostForced (D ++ [n]) x.2).length ≤ s.handovers.size := List.length_filter_le ..
  rw [(countP_downActs v n).1, h1, Table.length_keysWhere, hl.flags.copies]
  omega

theorem Landed.step (hland : Landed s D v) (h : Downed s D v) (hfits : s.stations.holds Station.Fits)
    (hhw : s.handovers.wf = true) (law : s.HandoverLaw) (hroom : s.CarryRoom)
    (hl : CellLost n v u w) (hn : ∀ d ∈ D, d < n) : Landed s (D ++ [n]) w := by
  have hnD : n ∉ D := fun e => lt_irrefl n (hn n e)
  obtain ⟨hpair, hcan, huw, hucw⟩ := hl.spec
  obtain ⟨hsz1, hsz2⟩ := h.carrySize hhw law hroom hland hl hn
  obtain ⟨hb, -⟩ := carried_foldl (m := v.downActs n) (ms := []) huw hucw (done_nil (· = n) u) (brought_nil ..) hpair hcan
    (fun a _ => h.carries hfits law hroom hl a) (by rw [List.nil_append]; omega)
  rw [← hl.chain, List.nil_append] at hb
  refine ⟨hb.size.trans hsz1, fun i ho st hh hst h1 h2 => ?_⟩
  rw [List.mem_append, List.mem_singleton] at h1 h2
  rw [not_or] at h2
  rcases h1 with h1 | h1
  · obtain ⟨now, hnow, hm, hf⟩ := hland.followed i ho st hh hst h1 h2.1
    obtain ⟨m, r, c, hx⟩ := h.fated.forced i ho st hh hst h1 h2.1
    have hplace : now.place = .associated ho.newCell s.time.clock := by rw [Option.some.inj (hnow.symm.trans hx)]
    obtain ⟨-, r', hr', -⟩ := hl.unserved hnow (fun g hg => by
      rw [(h.fated.handovers i).1 ⟨ho, hh, .inl h1⟩] at hg
      cases hg) fun since e => h2.2 (by rw [hplace] at e; exact (Place.associated.inj e).1)
    refine ⟨_, hr', hm, fun x hxm => ?_⟩
    obtain ⟨j, d, hd, hdc, hdl, hds⟩ := hf x hxm
    obtain ⟨m', hm'⟩ := hl.done.copies j d (by rw [hl.flags.copies, hd]) (by rw [hdl]; exact h2.2)
    exact ⟨j, _, hm', hdc, hdl, hds⟩
  · have hv := h.fated.still hh (by rw [h1]; exact hnD) h2.1
    obtain ⟨-, -, -, x, since, r, hx, -, hr⟩ := h.fated.standing law.moving hv
    obtain rfl := Option.some.inj (hst.symm.trans hx)
    exact hb.followed i ho { st with rate := r } (List.mem_append_left _ (List.mem_append_left _ (List.mem_map_of_mem
      ((mem_forcedAt h.form).mpr ⟨ho, hv, h1⟩)))) (by rw [hl.flags.handovers, hv]) (by rw [hl.flags.stations, hr]) h2.2

/-! ## Grants -/

/-- The grants that a cell going DOWN makes, where no other has gone DOWN before it. -/
def State.grantsAt (s : State) (n : Nat) : List Signal := s.grantsOf (fun h => h.oldCell == n) (fun h => h.newCell == n)

theorem flatMap_told_downActs (hhw : s.handovers.wf = true) (law : s.HandoverLaw) (n : Nat) :
    (s.downActs n).flatMap (Act.told s) = s.grantsAt n := by
  have hsleep : ((s.sleepersAt n).map Act.sleep).flatMap (Act.told s) = [] := by
    simp [List.flatMap_map, Act.told]
  rw [State.grantsAt, grantsOf_eq hhw law, State.downActs, List.flatMap_append, hsleep, List.append_nil]
  rfl

/-- The grant of a handover over, at a cell. -/
def State.grantFor (s : State) (i cell : Nat) : List Signal := (s.stations.look i).toList.map fun st => ⟨cell, st.addr, .attachGrant i⟩

theorem filter_filterMap_grant (E : List (Nat × Handover)) (f : Handover → Bool) (cell : Handover → Nat) (p : Signal → Bool) :
    ((E.filter fun x => f x.2).filterMap fun x => (s.stations.look x.1).map fun st => (⟨cell x.2, st.addr, .attachGrant x.1⟩ : Signal)).filter p =
      E.flatMap fun x => if f x.2 = true then (s.grantFor x.1 (cell x.2)).filter p else [] := by
  induction E with
  | nil => rfl
  | cons x rest ih =>
    rw [List.flatMap_cons, List.filter_cons, ← ih]
    split
    · cases hst : s.stations.look x.1 with
      | none => simp [State.grantFor, hst]
      | some st =>
        simp only [State.grantFor, hst, List.filterMap_cons, Option.map_some, Option.toList_some, List.map_cons, List.map_nil]
        rw [← List.filter_append]
        rfl
    · rw [List.nil_append]

/-- The grants that `p` keeps, read number by number. -/
theorem filter_grantsOf (s : State) (f c : Handover → Bool) (p : Signal → Bool) : (s.grantsOf f c).filter p =
    s.handovers.flat (fun i h => if f h = true then (s.grantFor i h.newCell).filter p else [])
      ++ s.handovers.flat fun i h => if c h = true then (s.grantFor i h.oldCell).filter p else [] := by
  rw [State.grantsOf, List.filter_append, filter_filterMap_grant _ _ (·.newCell), filter_filterMap_grant _ _ (·.oldCell)]
  rfl

/-- The grants that a cell makes after others have gone DOWN are those that it would have made before, but for grants at cells gone DOWN. -/
theorem Fated.grantsAt (h : Fated s D v) (law : s.MovingLaw) (hw : s.handovers.wf = true) (hw' : v.handovers.wf = true) (hn : n ∉ D)
    {p : Signal → Bool} (hp : ∀ m : Signal, m.cell ∈ D → p m = false) : (v.grantsAt n).filter p = (s.grantsAt n).filter p := by
  have hgone : ∀ (u : State) i c, c ∈ D → (u.grantFor i c).filter p = [] := fun u i c hc => by
    rw [List.filter_eq_nil_iff]
    intro m hm
    obtain ⟨st, -, rfl⟩ := List.mem_map.mp hm
    simp [hp ⟨c, st.addr, .attachGrant i⟩ hc]
  have hkeep : ∀ i ho, v.handovers.look i = some ho → ∀ c, v.grantFor i c = s.grantFor i c := fun i ho hh c => by
    obtain ⟨-, -, -, st, since, r, hst, -, hr⟩ := h.standing law hh
    simp [State.grantFor, hst, hr]
  rw [State.grantsAt, State.grantsAt, filter_grantsOf, filter_grantsOf]
  congr 1
  · refine Table.flat_congr hw' hw fun i => ?_
    cases hv : v.handovers.look i with
    | some ho =>
      obtain ⟨hs, -⟩ := h.standing law hv
      rw [Table.at_some hv, Table.at_some hs, hkeep i ho hv]
    | none =>
      rw [Table.at_none hv]
      cases hs : s.handovers.look i with
      | none => rw [Table.at_none hs]
      | some ho =>
        rw [Table.at_some hs]
        split
        · next e =>
          rw [beq_iff_eq] at e
          refine (hgone s i ho.newCell ?_).symm
          by_contra hnew
          rw [h.still hs (by rw [e]; exact hn) hnew] at hv
          cases hv
        · rfl
  · refine Table.flat_congr hw' hw fun i => ?_
    cases hv : v.handovers.look i with
    | some ho =>
      obtain ⟨hs, -⟩ := h.standing law hv
      rw [Table.at_some hv, Table.at_some hs, hkeep i ho hv]
    | none =>
      rw [Table.at_none hv]
      cases hs : s.handovers.look i with
      | none => rw [Table.at_none hs]
      | some ho =>
        rw [Table.at_some hs]
        split
        · next e =>
          rw [beq_iff_eq] at e
          refine (hgone s i ho.oldCell ?_).symm
          by_contra hold
          rw [h.still hs hold (by rw [e]; exact hn)] at hv
          cases hv
        · rfl

/-- The cells of `D` have made their grants, and lost nothing on the way. -/
structure Granted (s : State) (D : List Nat) (v : State) : Prop where
  sent : Sent s (D.flatMap s.grantsAt) v
  kept : CountersKept s v fun c => EndCounter (· ∈ D) c ∨ c = .part .noticesLost

theorem granted_nil (s : State) : Granted s [] s := ⟨sent_nil s, fun _ _ => rfl⟩

theorem Granted.aside (h : Granted s D v) (ha : Aside v t) : Granted s D t where
  sent := ⟨fun j => by rw [← h.sent.trunks, State.trunk, State.trunk, ha.trunks], fun n => (ha.configured n).trans (h.sent.cells n)⟩
  kept := h.kept.trans (ha.counters.mono fun _ e => .inr e)

/-- Messages made after others, on a trunk: both lists have joined, where those that count for it are the same. -/
theorem State.trunkAfter_trunkAfter {ms ms' ms'' : List Signal} {j : Nat} (ht : u.trunk j = s.trunkAfter ms j)
    (hc : ∀ n, (u.cells.look n).isSome = (s.cells.look n).isSome)
    (hf : (s.trunk j).state = .active ∨ (s.trunk j).state = .draining →
      ms'.filter (fun m => m.cell / 32 == j && (s.cells.look m.cell).isSome) = ms''.filter fun m => m.cell / 32 == j && (s.cells.look m.cell).isSome) :
    u.trunkAfter ms' j = s.trunkAfter (ms ++ ms'') j := by
  have hst : (u.trunk j).state = (s.trunk j).state := by
    rw [ht, State.trunkAfter]
    split <;> rfl
  rw [State.trunkAfter, State.trunkAfter, hst]
  split
  · next h =>
    rw [ht, State.trunkAfter, if_pos h]
    simp only [hc, hf h, List.filter_append, List.append_assoc]
  · next h => rw [ht, State.trunkAfter, if_neg h]

theorem Granted.step (hg : Granted s D v) (hland : Landed s D v) (h : Downed s D v)
    (hfits : s.stations.holds Station.Fits) (hhw : s.handovers.wf = true) (law : s.HandoverLaw)
    (hroom : s.CarryRoom) (hl : CellLost n v u w) (hv : v.HandoverLaw) (hn : ∀ d ∈ D, d < n)
    (hclosed : ∀ d ∈ D, (s.trunk (d / 32)).state = .held ∨ (s.trunk (d / 32)).state = .linkDown)
    (hr : ∀ j, s.RoomFor ((D ++ [n]).flatMap s.grantsAt) j) : Granted s (D ++ [n]) w := by
  have hnD : n ∉ D := fun e => lt_irrefl n (hn n e)
  obtain ⟨hpair, hcan, huw, hucw⟩ := hl.spec
  obtain ⟨hsz1, hsz2⟩ := h.carrySize hhw law hroom hland hl hn
  have hg' := hg.aside hl.flags
  have htold : (v.downActs n).flatMap (Act.told u) = v.grantsAt n := by
    rw [Act.told_congr hl.flags.handovers hl.flags.stations, flatMap_told_downActs h.form hv]
  have hafter : ∀ j, u.trunkAfter (v.grantsAt n) j = s.trunkAfter ((D ++ [n]).flatMap s.grantsAt) j := fun j => by
    rw [List.flatMap_append, List.flatMap_singleton]
    refine State.trunkAfter_trunkAfter (hg'.sent.trunks j) hg'.sent.cells fun hopen =>
      h.fated.grantsAt law.moving hhw h.form hnD fun m hm => ?_
    have : m.cell / 32 ≠ j := by
      rintro rfl
      rcases hclosed _ hm with e | e <;> rw [e] at hopen <;> simp at hopen
    simp [this]
  obtain ⟨-, ht⟩ := carried_foldl (m := v.downActs n) (ms := []) huw hucw (done_nil (· = n) u) (brought_nil ..) hpair hcan
    (fun a _ => h.carries hfits law hroom hl a) (by rw [List.nil_append]; omega)
  have hw := ht (told_nil ..) fun j => by
    rw [List.nil_append, htold, State.RoomFor, hafter]
    exact hr j
  rw [← hl.chain, List.nil_append, htold] at hw
  refine ⟨⟨fun j => (hw.sent.trunks j).trans (hafter j), fun m => (hw.sent.cells m).trans (hg'.sent.cells m)⟩, ?_⟩
  refine (hg'.kept.mono fun c hc => hc.imp_left fun hc => ?_).trans (hw.kept.mono fun c hc => .inl ?_)
  · cases hc with
    | discarded m hm => exact .discarded m (List.mem_append_left _ hm)
    | _ => constructor
  · cases hc with
    | discarded m hm => exact .discarded m (by rw [hm]; simp)
    | _ => constructor

end Sys2Proof.Machine
end

