-- ==== Sys2Proof/Proofs/LinkLoss.lean ====
section
/-! PROOFS. A trunk's link lost (R12): the trunk itself, then its cells one after another. -/

namespace Sys2Proof.Machine

variable {s t u v w x : State} {D done : List Nat} {k n : Nat}

/-! ## The trunk -/

/-- The trunk LINK DOWN, its hold cancelled, its messages, its frame and its cells' POLLs gone (R12, steps 1 and 2). -/
def linkDropped (k : Nat) (s : State) : State := dropLink k (cancelHoldByLoss k s)

/-- The record of a trunk whose link is lost. -/
def Trunk.dropped (t : Trunk) : Trunk :=
  { t with state := .linkDown, holdTag := none, heldSince := none, run := 0, signals := [], frame := none }

theorem cancelHoldByLoss_cases (k : Nat) (s : State) :
    (((s.trunk k).state = .draining ∨ (s.trunk k).state = .held)
      ∧ cancelHoldByLoss k s = pushNotice (.holdCancelled k (s.trunk k).holdTag .linkLoss) s)
    ∨ (¬ ((s.trunk k).state = .draining ∨ (s.trunk k).state = .held) ∧ cancelHoldByLoss k s = s) := by
  by_cases h : (s.trunk k).state = .draining ∨ (s.trunk k).state = .held
  · exact .inl ⟨h, if_pos h⟩
  · exact .inr ⟨h, if_neg h⟩

theorem aside_cancelHoldByLoss (k : Nat) (s : State) : Aside s (cancelHoldByLoss k s) := by
  rcases cancelHoldByLoss_cases k s with ⟨-, h⟩ | ⟨-, h⟩ <;> rw [h]
  · exact aside_pushNotice ..
  · exact .refl s

theorem releaseFrame_frame (f : Option LinkFrame) (s : State) :
    releaseFrame f s = s.setPools (releaseFrame f s).pools := by
  unfold releaseFrame
  split
  · exact releaseRef_frame ..
  · rfl

theorem releasedAll_releaseFrame (f : Option LinkFrame) (s : State) :
    ReleasedAll s (releaseFrame f s) (f.bind LinkFrame.buffer?).toList := by
  unfold releaseFrame
  split
  · next r h =>
    rw [h]
    exact releasedAll_releaseRef r s
  · next h =>
    rw [h]
    exact .refl s

/-- What the loss of the link does before any cell goes DOWN. -/
structure LinkDropped (k : Nat) (s x : State) : Prop where
  frame    : x = { s with
    notices := x.notices, latches := x.latches, counters := x.counters, cells := x.cells, trunks := x.trunks, pools := x.pools }
  counters : CountersKept s x (· = .part .noticesLost)
  latch    : ∀ l, l ≠ .noticeOverflow → x.latchSet l = s.latchSet l
  notices  : s.notices.length < Config.notices → x.notices = s.notices
    ++ (if (s.trunk k).state = .draining ∨ (s.trunk k).state = .held then
        [⟨s.time.clock, .holdCancelled k (s.trunk k).holdTag .linkLoss⟩] else [])
  trunk    : ∀ j, x.trunk j = if j = k then (s.trunk k).dropped else s.trunk j
  cells    : ∀ n, x.cells.look n = (s.cells.look n).map fun c => if n / 32 = k then { c with queued := .none } else c
  form     : s.cells.wf = true → x.cells.wf = true
  released : ReleasedAll s x ((s.trunk k).frame.bind LinkFrame.buffer?).toList

/-- The trunk LINK DOWN, its messages and its cells' POLLs discarded, its frame's buffer released (R12, step 2). -/
theorem dropLink_eq (k : Nat) (s : State) : ∃ pools, ReleasedAll s (s.setPools pools) ((s.trunk k).frame.bind LinkFrame.buffer?).toList
    ∧ dropLink k s = { s with
        trunks := (s.setTrunk k (s.trunk k).dropped).trunks, pools := pools
        cells := s.cells.mapAll fun n c => if n / 32 = k then { c with queued := .none } else c } := by
  have hrel := releasedAll_releaseFrame (s.trunk k).frame (s.setTrunk k (s.trunk k).dropped)
  have hdrop : dropLink k s = updateCellsOf k (fun c => { c with queued := .none })
      (releaseFrame (s.trunk k).frame (s.setTrunk k (s.trunk k).dropped)) := rfl
  rw [releaseFrame_frame] at hrel hdrop
  generalize (releaseFrame (s.trunk k).frame (s.setTrunk k (s.trunk k).dropped)).pools = pools at hrel hdrop
  exact ⟨pools, hrel, hdrop⟩

theorem cancelHoldByLoss_frame (k : Nat) (s : State) : cancelHoldByLoss k s = { s with
    notices := (cancelHoldByLoss k s).notices, latches := (cancelHoldByLoss k s).latches
    counters := (cancelHoldByLoss k s).counters } := by
  rcases cancelHoldByLoss_cases k s with ⟨-, h⟩ | ⟨-, h⟩ <;> rw [h]
  exact pushNotice_frame ..

theorem latchSet_cancelHoldByLoss {k : Nat} {l : Latch} (hl : l ≠ .noticeOverflow) :
    (cancelHoldByLoss k s).latchSet l = s.latchSet l := by
  rcases cancelHoldByLoss_cases k s with ⟨-, h⟩ | ⟨-, h⟩ <;> rw [h]
  exact latchSet_pushNotice hl

theorem cancelHoldByLoss_notices {k : Nat} (hn : s.notices.length < Config.notices) : (cancelHoldByLoss k s).notices = s.notices
    ++ (if (s.trunk k).state = .draining ∨ (s.trunk k).state = .held then
        [⟨s.time.clock, .holdCancelled k (s.trunk k).holdTag .linkLoss⟩] else []) := by
  rcases cancelHoldByLoss_cases k s with ⟨hs, h⟩ | ⟨hs, h⟩
  · rw [h, pushNotice_room hn, if_pos hs]
    exact setNotices_notices ..
  · rw [h, if_neg hs, List.append_nil]

theorem linkDropped_spec (k : Nat) (s : State) : LinkDropped k s (linkDropped k s) := by
  have hkept := (aside_cancelHoldByLoss k s).counters
  have hlatch := fun l => latchSet_cancelHoldByLoss (s := s) (k := k) (l := l)
  have hnotices := cancelHoldByLoss_notices (s := s) (k := k)
  have hframe := cancelHoldByLoss_frame k s
  obtain ⟨pools, hrel, hdrop⟩ := dropLink_eq k (cancelHoldByLoss k s)
  rw [← linkDropped] at hdrop
  generalize linkDropped k s = x at hdrop ⊢
  generalize cancelHoldByLoss k s = c at hkept hlatch hnotices hframe hrel hdrop
  subst hdrop
  obtain ⟨ns, ls, cs, rfl⟩ : ∃ ns ls cs, c = { s with notices := ns, latches := ls, counters := cs } := ⟨_, _, _, hframe⟩
  exact
    { frame := rfl
      counters := hkept
      latch := hlatch
      notices := hnotices
      trunk := fun j => trunk_setTrunk s k j _
      cells := fun n => Table.look_mapAll ..
      form := Table.wf_mapAll _ _
      released := hrel }

/-! ## Its cells (R12, step 3) -/

/-- The cell is configured and not DOWN. -/
def State.up (x : State) (n : Nat) : Bool := (x.cells.look n).any fun c => decide (c.state ≠ .down)

/-- The record of a cell whose trunk's link is lost. -/
def Cell.lost (c : Cell) : Cell :=
  { c with
    state := .down, missed := if c.state = .down then c.missed else 3, awaited := if c.state = .down then false else c.awaited }

theorem State.up_iff : x.up n = true ↔ ∃ c, x.cells.look n = some c ∧ c.state ≠ .down := by
  simp [State.up, Option.any_eq_true]

theorem loseCell_down {c : Cell} (hc : v.cells.look n = some c) (h : c.state = .down) :
    loseCell v n = updateCell n (fun c => { c with awaited := false }) v := by
  simp [loseCell, hc, h]

theorem loseCell_up {c : Cell} (hc : v.cells.look n = some c) (h : c.state ≠ .down) : loseCell v n = cellDown n .linkLoss v := by
  simp [loseCell, hc, h]

/-- The cells of `done` have been lost between `x` and `v`: records, notices, latches, closed trunks. -/
structure CellsLost (x : State) (done : List Nat) (v : State) : Prop where
  lost    : ∀ n ∈ done, ∀ c, x.cells.look n = some c → ∃ m w, v.cells.look n =
    some { c.lost with account := { c.account with m := m, w := w } }
  kept    : ∀ n, n ∉ done → ∀ c, x.cells.look n = some c → ∃ m w, v.cells.look n =
    some { c with account := { c.account with m := m, w := w } }
  notices : x.notices.length + (done.filter x.up).length ≤ Config.notices →
    v.notices = x.notices ++ (done.filter x.up).map fun n => ⟨x.time.clock, .cellDown n .linkLoss⟩
  latch   : ∀ l, l ≠ .noticeOverflow → v.latchSet l = x.latchSet l
  closed  : ∀ k, (x.trunk k).state = .held ∨ (x.trunk k).state = .linkDown → v.trunk k = x.trunk k
  frame   : v = { x with
    notices := v.notices, latches := v.latches, counters := v.counters, cells := v.cells, trunks := v.trunks
    pools := v.pools, stations := v.stations, handovers := v.handovers, copies := v.copies, created := v.created
    owed := v.owed, draws := v.draws }

theorem cellsLost_nil (x : State) : CellsLost x [] x where
  lost _ h := by cases h
  kept _ _ c hc := ⟨c.account.m, c.account.w, hc⟩
  notices _ := (List.append_nil _).symm
  latch _ _ := rfl
  closed _ _ := rfl
  frame := rfl

theorem CellsLost.step (h : CellsLost x done v) {c : Cell} (hc : x.cells.look n = some c) (hn : n ∉ done) :
    CellsLost x (done ++ [n]) (loseCell v n) := by
  obtain ⟨m, w, hv⟩ := h.kept n hn c hc
  by_cases hdown : c.state = .down
  · have hup : x.up n = false := by simp [State.up, hc, hdown]
    rw [loseCell_down hv hdown]
    refine ⟨fun j hj d hd => ?_, fun j hj d hd => ?_, ?_, h.latch, h.closed, ?_⟩
    · rw [look_updateCell]
      split
      · next e =>
        subst e
        obtain rfl := Option.some.inj (hc.symm.trans hd)
        exact ⟨m, w, by rw [hv, Option.map_some, Cell.lost]; simp [hdown]⟩
      · next e =>
        refine h.lost j ?_ d hd
        simpa [e] using hj
    · have hj' : j ∉ done ∧ j ≠ n := by simpa using hj
      rw [look_updateCell, if_neg hj'.2]
      exact h.kept j hj'.1 d hd
    · rw [List.filter_append, List.filter_cons_of_neg (by simp [hup]), List.filter_nil, List.append_nil]
      exact h.notices
    · exact congrArg (State.setCells · _) h.frame
  · have hup : x.up n = true := State.up_iff.mpr ⟨c, hc, hdown⟩
    have hd := downFrame_cellDown v n .linkLoss
    rw [loseCell_up hv hdown]
    refine ⟨fun j hj d hx => ?_, fun j hj d hx => ?_, fun hr => ?_, fun l hl => (hd.latch l hl).trans (h.latch l hl), fun k hk => ?_, ?_⟩
    · by_cases e : j = n
      · subst e
        obtain rfl := Option.some.inj (hc.symm.trans hx)
        obtain ⟨m, w, ha⟩ := hd.own _ hv
        exact ⟨m, w, by rw [ha, Cell.lost]; simp [hdown]⟩
      · obtain ⟨m, w, ha⟩ := h.lost j (by simpa [e] using hj) d hx
        obtain ⟨m, w, ht⟩ := hd.cells j _ e ha
        exact ⟨m, w, ht⟩
    · have hj' : j ∉ done ∧ j ≠ n := by simpa using hj
      obtain ⟨m, w, ha⟩ := h.kept j hj'.1 d hx
      obtain ⟨m, w, ht⟩ := hd.cells j _ hj'.2 ha
      exact ⟨m, w, ht⟩
    · rw [List.filter_append, List.filter_cons_of_pos hup, List.filter_nil] at hr ⊢
      rw [List.length_append, List.length_singleton] at hr
      have hvn := h.notices (by omega)
      rw [hd.notice (by rw [hvn, List.length_append, List.length_map]; omega), hvn, List.map_append, List.append_assoc]
      have ht : v.time = x.time := by rw [h.frame]
      rw [ht]
      rfl
    · rw [hd.closed k (by rw [h.closed k hk]; exact hk), h.closed k hk]
    · rw [hd.frame, h.frame]

/-- All cells of a trunk lost. -/
theorem cellsLost_foldl {l : List Nat} (hl : l.Pairwise (· < ·)) (hc : ∀ n ∈ l, (x.cells.look n).isSome = true) :
    CellsLost x l (l.foldl loseCell x) := by
  refine foldl_invariant l (cellsLost_nil x) fun done n v hpre h => ?_
  obtain ⟨c, hc⟩ := Option.isSome_iff_exists.mp (hc n (hpre.subset (by simp)))
  refine h.step hc fun hn => ?_
  exact lt_irrefl n ((List.pairwise_append.mp (hl.sublist hpre.sublist)).2.2 n hn n (by simp))

end Sys2Proof.Machine
end

