-- ==== Sys2Proof/Proofs/CellsGone.lean ====
section
/-! PROOFS. The cells of a lost trunk go DOWN one after another (R12): what they served, told over the state before. -/

namespace Sys2Proof.Machine

variable {s t u v w x : State} {D l : List Nat} {k n : Nat}

theorem loseCell_lost {c : Cell} (h : Downed x D v) (law : x.MovingLaw)
    (hc : v.cells.look n = some c) (hup : c.state ≠ .down) : ∃ u w, CellLost n v u w ∧ Aside w (loseCell v n) := by
  have hlaw := h.fated.moving law
  obtain ⟨hd, hdone⟩ := cellDown_chain (cell := n) h.tally.wf.1 h.form h.tally.wf.2 hlaw .linkLoss
  rw [loseCell_up hc hup, hd]
  exact ⟨_, _, ⟨aside_markedDown n v, hdone, rfl, ⟨h.tally.wf.1, h.form, h.tally.wf.2⟩, hlaw⟩, aside_pushNotice ..⟩

/-- Cells lost one after another, by the cells that go DOWN. -/
theorem lost_induction {Q : List Nat → State → Prop} (hl : l.Pairwise (· < ·)) (hc : ∀ n ∈ l, (x.cells.look n).isSome = true)
    (hw : x.stations.wf = true) (hhw : x.handovers.wf = true) (hcw : x.copies.wf = true) (law : x.MovingLaw) (h0 : Q [] x)
    (haside : ∀ D v t, Q D v → Aside v t → Q D t)
    (hstep : ∀ D n v u w, D ++ [n] <+: l.filter x.up → (∀ d ∈ D, d < n) → Downed x D v → Q D v → CellLost n v u w → Q (D ++ [n]) w) :
    Downed x (l.filter x.up) (l.foldl loseCell x) ∧ Q (l.filter x.up) (l.foldl loseCell x) := by
  have hall := foldl_invariant (f := loseCell) l (s := x)
    (P := fun done v => CellsLost x done v ∧ Downed x (done.filter x.up) v ∧ Q (done.filter x.up) v)
    ⟨cellsLost_nil x, downed_nil hw hcw hhw, h0⟩ fun done n v hpre ⟨hv, hd, hq⟩ => by
      obtain ⟨c, hcn⟩ := Option.isSome_iff_exists.mp (hc n (hpre.subset (by simp)))
      have hlt : ∀ d ∈ done, d < n := fun d hd => (List.pairwise_append.mp (hl.sublist hpre.sublist)).2.2 d hd n (by simp)
      have hn : n ∉ done := fun e => lt_irrefl n (hlt n e)
      obtain ⟨m, w, hvn⟩ := hv.kept n hn c hcn
      refine ⟨hv.step hcn hn, ?_⟩
      by_cases hdown : c.state = .down
      · have hup : ¬ x.up n = true := by simp [State.up, hcn, hdown]
        rw [List.filter_append, List.filter_cons_of_neg hup, List.filter_nil, List.append_nil, loseCell_down hvn hdown]
        have ha : Aside v (updateCell n (fun c => { c with awaited := false }) v) := 
          aside_updateCell n (f := fun c => { c with awaited := false }) (fun _ => rfl) v
        exact ⟨hd.aside ha, haside _ _ _ hq ha⟩
      · have hup : x.up n = true := State.up_iff.mpr ⟨c, hcn, hdown⟩
        have hDlt : ∀ d ∈ done.filter x.up, d < n := fun d hd => hlt d (List.mem_of_mem_filter hd)
        have hpre' := hpre.filter x.up
        obtain ⟨u, w, hlost, ha⟩ := loseCell_lost hd law hvn hdown
        rw [List.filter_append, List.filter_cons_of_pos hup, List.filter_nil] at hpre' ⊢
        exact ⟨(hd.step law hhw hlost hDlt).aside ha, haside _ _ _ (hstep _ _ _ _ _ hpre' hDlt hd hq hlost) ha⟩
  exact hall.2

theorem downed_lost (hl : l.Pairwise (· < ·)) (hc : ∀ n ∈ l, (x.cells.look n).isSome = true)
    (hw : x.stations.wf = true) (hhw : x.handovers.wf = true) (hcw : x.copies.wf = true) (law : x.MovingLaw) :
    Downed x (l.filter x.up) (l.foldl loseCell x) :=
  (lost_induction (Q := fun _ _ => True) hl hc hw hhw hcw law trivial (fun _ _ _ _ _ => trivial)
    fun _ _ _ _ _ _ _ _ _ _ => trivial).1

theorem landed_lost (hl : l.Pairwise (· < ·)) (hc : ∀ n ∈ l, (x.cells.look n).isSome = true)
    (hw : x.stations.wf = true) (hhw : x.handovers.wf = true) (hcw : x.copies.wf = true) (law : x.HandoverLaw)
    (hfits : x.stations.holds Station.Fits) (hroom : x.CarryRoom) : Landed x (l.filter x.up) (l.foldl loseCell x) :=
  (lost_induction (Q := Landed x) hl hc hw hhw hcw law.moving (landed_nil x) (fun _ _ _ h ha => h.aside ha)
    fun _ _ _ _ _ _ hn hd h hlost => h.step hd hfits hhw law hroom hlost hn).2

/-- A station found after cells have gone DOWN is DORMANT, ASSOCIATED at a cell not lost, or MOVING by a handover that still stands. -/
theorem Fated.place (h : Fated s D v) (law : s.HandoverLaw) {i : Nat} {now : Station} (hnow : v.stations.look i = some now) :
    now.place = .dormant ∨ (∃ m since, now.place = .associated m since ∧ m ∉ D)
      ∨ ∃ ho since, v.handovers.look i = some ho ∧ now.place = .moving ho.oldCell since ∧ ho.oldCell ∉ D := by
  cases hst : s.stations.look i with
  | none =>
    rw [h.free i hst] at hnow
    cases hnow
  | some st =>
    cases hh : s.handovers.look i with
    | some ho =>
      obtain ⟨x, since, hx, hp, -⟩ := law.moving i ho hh
      obtain rfl := Option.some.inj (hst.symm.trans hx)
      by_cases h1 : ho.oldCell ∈ D <;> by_cases h2 : ho.newCell ∈ D
      · rw [h.both i ho st hh hst h1 h2] at hnow
        exact .inl (by rw [← Option.some.inj hnow]; rfl)
      · obtain ⟨m, r, c, hr⟩ := h.forced i ho st hh hst h1 h2
        exact .inr (.inl ⟨_, _, by rw [← Option.some.inj (hr.symm.trans hnow)], h2⟩)
      · obtain ⟨r, hr⟩ := h.cancelled i ho st since hh hst hp h1 h2
        exact .inr (.inl ⟨_, _, by rw [← Option.some.inj (hr.symm.trans hnow)], h1⟩)
      · have hv := h.still hh h1 h2
        obtain ⟨-, -, -, x, since, r, hx, hp, hr⟩ := h.standing law.moving hv
        exact .inr (.inr ⟨ho, since, hv, by rw [← Option.some.inj (hr.symm.trans hnow)]; exact hp, h1⟩)
    | none =>
      have kept : (∀ m, st.place.cell? = some m → m ∉ D) → ∃ rate, v.stations.look i = some { st with rate := rate } := fun hD =>
        (h.others i st hst hD fun g hg => by rw [hh] at hg; cases hg).imp fun _ hr => hr.1
      cases hp : st.place with
      | dormant =>
        obtain ⟨r, hr⟩ := kept (by simp [hp, Place.cell?])
        exact .inl (by rw [← Option.some.inj (hr.symm.trans hnow)]; exact hp)
      | associated m since =>
        by_cases hm : m ∈ D
        · rw [h.asleep i st m since hst hp hm] at hnow
          exact .inl (by rw [← Option.some.inj hnow]; rfl)
        · obtain ⟨r, hr⟩ := kept (by simp [hp, Place.cell?, hm])
          exact .inr (.inl ⟨m, since, by rw [← Option.some.inj (hr.symm.trans hnow)]; exact hp, hm⟩)
      | moving m since =>
        have := law.record i st hst (by rw [hp]; rfl)
        rw [hh] at this
        cases this

/-- Where a station is MOVING exactly while a handover names it, that is so after cells have gone DOWN (R53, R69). -/
theorem Fated.law (h : Fated s D v) (law : s.HandoverLaw) : v.HandoverLaw := by
  refine ⟨h.moving law.moving, fun i now hnow hmoving => ?_⟩
  rcases h.place law hnow with hp | ⟨m, since, hp, -⟩ | ⟨ho, since, hh, -⟩
  · rw [hp] at hmoving
    cases hmoving
  · rw [hp] at hmoving
    cases hmoving
  · rw [hh]
    rfl

/-- No station is counted at a cell lost. -/
theorem Fated.uncounted (h : Fated s D v) (law : s.HandoverLaw) {i m : Nat} {now : Station} (hnow : v.stations.look i = some now)
    (hm : now.place.cell? = some m) : m ∉ D := by
  rcases h.place law hnow with hp | ⟨m', since, hp, hD⟩ | ⟨ho, since, -, hp, hD⟩
  · rw [hp] at hm
    cases hm
  · rw [hp] at hm
    exact Option.some.inj hm ▸ hD
  · rw [hp] at hm
    exact Option.some.inj hm ▸ hD

theorem granted_lost (hl : l.Pairwise (· < ·)) (hc : ∀ n ∈ l, (x.cells.look n).isSome = true)
    (hw : x.stations.wf = true) (hhw : x.handovers.wf = true) (hcw : x.copies.wf = true) (law : x.HandoverLaw)
    (hfits : x.stations.holds Station.Fits) (hroom : x.CarryRoom)
    (hclosed : ∀ n ∈ l, (x.trunk (n / 32)).state = .held ∨ (x.trunk (n / 32)).state = .linkDown)
    (hr : ∀ j, x.RoomFor ((l.filter x.up).flatMap x.grantsAt) j) : Granted x (l.filter x.up) (l.foldl loseCell x) := by
  refine (lost_induction (Q := fun D v => Landed x D v ∧ Granted x D v) hl hc hw hhw hcw law.moving ⟨landed_nil x, granted_nil x⟩
    (fun _ _ _ h ha => ⟨h.1.aside ha, h.2.aside ha⟩) fun D n v u w hpre hn hd ⟨hland, hg⟩ hlost =>
    ⟨hland.step hd hfits hhw law hroom hlost hn, hg.step hland hd hfits hhw law hroom hlost (hd.fated.law law) hn
      (fun d hdD => hclosed d (List.mem_of_mem_filter (hpre.subset (List.mem_append_left _ hdD)))) fun j => ?_⟩).2.2
  obtain ⟨rest, hrest⟩ := hpre
  have := hr j
  rw [← hrest, List.flatMap_append] at this
  exact this.of_append

end Sys2Proof.Machine
end

