-- ==== Sys2Proof/Proofs/Aftermath.lean ====
section
/-! PROOFS. What cells gone DOWN leave, counted and listed: stations DORMANT, queues released, copies gone, M and W (R12, R60, R125). -/

namespace Sys2Proof.Machine

variable {s e : State} {D : List Nat} {n : Nat}

/-! ## Stations gone DORMANT -/

theorem mem_wentDormant (hw : s.stations.wf = true) {i : Nat} {st : Station} : (i, st) ∈ s.wentDormant e ↔
    s.stations.look i = some st ∧ st.place ≠ .dormant ∧ ∃ now, e.stations.look i = some now ∧ now.place = .dormant := by
  rw [State.wentDormant, List.mem_filter, Table.mem_entries hw]
  simp [Option.any_eq_true]

/-- What a station that goes DORMANT gives, number by number. -/
theorem wentDormant_flatMap {δ : Type} (s e : State) (f : Nat → Station → List δ) :
    (s.wentDormant e).flatMap (fun x => f x.1 x.2) = s.stations.flat fun i st =>
      if st.place ≠ .dormant ∧ ∃ now, e.stations.look i = some now ∧ now.place = .dormant then f i st else [] := by
  rw [State.wentDormant, Table.flatMap_filter]
  congr 1
  funext i st
  exact if_congr (by simp [Option.any_eq_true]) rfl rfl

theorem Tally.wentDormant (h : Tally s e) (hw : s.stations.wf = true) :
    Advanced s e (.part .goneDormant) (s.wentDormant e).length := by
  obtain ⟨a, ha, hlen⟩ := h.dormant
  have hperm : e.dormants.Perm ((s.wentDormant e).flatMap (fun x => [x.1]) ++ s.dormants) := by
    rw [wentDormant_flatMap s e fun i _ => [i]]
    refine Table.flat_perm h.wf.1 hw hw fun k => ?_
    cases hs : s.stations.look k with
    | none => rw [Table.at_none hs, Table.at_none hs, Table.at_none (h.free k hs)]; rfl
    | some st =>
      obtain ⟨now, hnow, hl⟩ := h.lasts k st hs
      rw [Table.at_some hs, Table.at_some hs, Table.at_some hnow]
      rcases hl.queue with ⟨-, hd⟩ | ⟨h1, h2, -⟩
      · by_cases hdorm : st.place = .dormant
        · simp [hdorm, hd.mpr hdorm]
        · simp [hdorm, hnow, mt hd.mp hdorm]
      · simp [h1, h2, hnow]
  have := hperm.length_eq
  rw [List.length_append, hlen, List.length_flatMap] at this
  simp only [List.length_singleton, List.map_const', List.sum_replicate, smul_eq_mul, mul_one] at this
  rwa [show (s.wentDormant e).length = a by omega]

theorem Tally.aged (h : Tally s e) (hw : s.stations.wf = true) (i : Nat) : i ∈ e.owed.expiries ↔
    i ∈ s.owed.expiries ∨ ∃ st, (i, st) ∈ s.wentDormant e ∧ s.settings.timers.expire * 1000 ≤ (s.time.clock - st.lastHeard).toNat := by
  rw [h.expiries]
  refine or_congr_right ⟨?_, ?_⟩
  · rintro ⟨st, now, hs, he, hp, hd, ha⟩
    exact ⟨st, (mem_wentDormant hw).mpr ⟨hs, hp, now, he, hd⟩, ha⟩
  · rintro ⟨st, hm, ha⟩
    obtain ⟨hs, hp, now, he, hd⟩ := (mem_wentDormant hw).mp hm
    exact ⟨st, now, hs, he, hp, hd, ha⟩

/-- The queues of the stations that have gone DORMANT are what has left the stations' queues. -/
theorem Tally.stationsLeft (h : Tally s e) (hw : s.stations.wf = true) :
    s.stationQueued.Perm ((s.wentDormant e).flatMap (fun x => x.2.queue.map (·.buffer)) ++ e.stationQueued) := by
  rw [wentDormant_flatMap s e fun _ st => st.queue.map (·.buffer)]
  refine Table.flat_perm hw hw h.wf.1 fun k => ?_
  cases hs : s.stations.look k with
  | none => rw [Table.at_none hs, Table.at_none hs, Table.at_none (h.free k hs)]; rfl
  | some st =>
    obtain ⟨now, hnow, hl⟩ := h.lasts k st hs
    rw [Table.at_some hs, Table.at_some hs, Table.at_some hnow]
    rcases hl.queue with ⟨hq, hd⟩ | ⟨h1, h2, hq⟩
    · rw [if_neg (by simp [hnow, hd]), hq, List.nil_append]
    · rw [if_pos ⟨h1, now, hnow, h2⟩, hq, List.map_nil, List.append_nil]

/-! ## Copies gone -/

theorem goneCopies_flatMap {δ : Type} (s e : State) (f : Nat → Copy → List δ) :
    (s.goneCopies e).flatMap (fun x => f x.1 x.2) = s.copies.flat fun j c =>
      if ∀ d, e.copies.look j = some d → ¬ (d.channel = c.channel ∧ d.cell = c.cell) then f j c else [] := by
  rw [State.goneCopies, Table.flatMap_filter]
  congr 1
  funext j c
  refine if_congr ?_ rfl rfl
  cases e.copies.look j with
  | none => simp
  | some d => simpa using imp_iff_not_or.symm

/-- The queues of the copies that are gone are what has left the copies' queues. -/
theorem FreshSince.copiesLeft (h : FreshSince s D e) (hw : s.copies.wf = true) (hw' : e.copies.wf = true) :
    s.entriesQueued.Perm ((s.goneCopies e).flatMap (fun x => x.2.queue.map fun r => (x.2.cell, r)) ++ e.entriesQueued) := by
  rw [goneCopies_flatMap s e fun _ c => c.queue.map fun r => (c.cell, r)]
  refine Table.flat_perm hw hw hw' fun k => ?_
  cases he : e.copies.look k with
  | none =>
    rw [Table.at_none he, List.append_nil]
    cases hs : s.copies.look k with
    | none => rw [Table.at_none hs, Table.at_none hs]
    | some c => rw [Table.at_some hs, Table.at_some hs, if_pos (by simp [he])]
  | some d =>
    rw [Table.at_some he]
    rcases h.found k d he with ⟨m, hs⟩ | ⟨hq, hd⟩
    · rw [Table.at_some hs, Table.at_some hs, if_neg (by simp [he])]
      rfl
    · rw [hq, List.map_nil, List.append_nil]
      cases hs : s.copies.look k with
      | none => rw [Table.at_none hs, Table.at_none hs]
      | some c =>
        rw [Table.at_some hs, Table.at_some hs, if_pos]
        rintro x hx ⟨-, hc⟩
        obtain rfl := Option.some.inj (he.symm.trans hx)
        exact (hd c hs).2 hc.symm

/-- Entries tagged by their cells, counted at one. -/
theorem countP_flatMap_tagged (l : List (Nat × Copy)) (n : Nat) :
    (l.flatMap fun x => x.2.queue.map fun r => (x.2.cell, r)).countP (fun y => y.1 == n) =
      ((l.filter fun x => x.2.cell == n).map fun x => x.2.queue.length).sum := by
  induction l with
  | nil => rfl
  | cons x rest ih =>
    rw [List.flatMap_cons, List.countP_append, ih, List.countP_map, List.filter_cons]
    by_cases hx : x.2.cell = n
    · rw [if_pos (by simp [hx]), List.map_cons, List.sum_cons]
      congr 1
      exact List.countP_eq_length.mpr (by simp [hx])
    · rw [if_neg (by simp [hx]), List.countP_eq_zero.mpr (by simp [hx]), Nat.zero_add]

/-- Everything released and counted, told by the stations gone DORMANT and the copies gone. -/
theorem Downed.released (h : Downed s D e) (hw : s.stations.wf = true) (hcw : s.copies.wf = true) :
    (∀ n, Advanced s e (.cell n .replayDiscarded)
      (((s.goneCopies e).filter fun x => x.2.cell == n).map fun x => x.2.queue.length).sum)
    ∧ ReleasedAll s e ((s.wentDormant e).flatMap (fun x => x.2.queue.map (·.buffer)) ++ (s.goneCopies e).flatMap (fun x => x.2.queue)) := by
  obtain ⟨gone, left, hr, he, hq, ha⟩ := h.tally.queues
  have hleft : left.Perm ((s.wentDormant e).flatMap fun x => x.2.queue.map (·.buffer)) :=
    (List.perm_append_right_iff _).mp (hq.symm.trans (h.tally.stationsLeft hw))
  have hgone : gone.Perm ((s.goneCopies e).flatMap fun x => x.2.queue.map fun r => (x.2.cell, r)) :=
    (List.perm_append_right_iff _).mp (he.symm.trans (h.fresh.copiesLeft hcw h.tally.wf.2))
  have hmap : ((s.goneCopies e).flatMap fun x => x.2.queue.map fun r => (x.2.cell, r)).map (·.2) =
      (s.goneCopies e).flatMap fun x => x.2.queue := by
    rw [List.map_flatMap]
    exact List.flatMap_congr fun x _ => by rw [List.map_map]; exact List.map_id _
  refine ⟨fun n => ?_, hr.perm (hleft.append (hmap ▸ hgone.map _))⟩
  rw [← countP_flatMap_tagged, ← hgone.countP_eq]
  exact ha n

/-! ## Copies and loads of the cells lost -/

/-- Where member counts are those of R125, the law with no member still to leave. -/
theorem State.MembersLaw.membered (h : s.MembersLaw) (hfits : s.Fits) : Membered [] 0 s where
  single := hfits.single
  counts n c hc := by
    obtain ⟨h1, h2⟩ := h n c hc
    rw [State.namers_eq]
    exact ⟨h1, by rw [h2]; exact Nat.le_add_right ..⟩
  nodup i st hst := by
    obtain ⟨-, -, h3⟩ := hfits.stations.holds i st hst
    exact h3

/-- Where no station is counted at a cell, it has no copies. -/
theorem Membered.no_copies (h : Membered [] 0 s) (hw : s.stations.wf = true)
    (hn : ∀ i st, s.stations.look i = some st → st.place.cell? ≠ some n) {j : Nat} {c : Copy} (hc : s.copies.look j = some c) :
    c.cell ≠ n := by
  rintro rfl
  obtain ⟨h1, h2⟩ := h.counts j c hc
  have h0 : s.namers c.cell c.channel = 0 := by
    rw [State.namers_eq, List.length_eq_zero_iff, List.filter_eq_nil_iff]
    rintro ⟨i, st⟩ hx
    simp [hn i st ((Table.mem_entries hw).mp hx)]
  simp [h0] at h2
  omega

theorem State.countedWeight_eq_zero (hw : s.stations.wf = true)
    (hn : ∀ i st, s.stations.look i = some st → st.place.cell? ≠ some n) : s.countedWeight n = 0 := by
  refine List.sum_eq_zero fun x hx => ?_
  obtain ⟨⟨i, st⟩, he, rfl⟩ := List.mem_map.mp hx
  exact if_neg (by rw [Station.countedAt_iff]; exact hn i st ((Table.mem_entries hw).mp he))

/-- The cells lost have no copies, and M and W of each is 0 where they were what R142 and R147 say. -/
theorem Downed.unloaded (h : Downed s D e) (law : s.HandoverLaw) (hm : Membered [] 0 s) :
    (∀ j c, e.copies.look j = some c → c.cell ∉ D)
    ∧ ∀ n ∈ D, ∀ a b, s.account n = some a → a.m = s.activeLoad n → a.w = s.countedWeight n → e.account n = some b →
      b.m = 0 ∧ b.w = 0 := by
  have hempty : ∀ n ∈ D, ∀ i st, e.stations.look i = some st → st.place.cell? ≠ some n := fun n hn i st hst hp =>
    h.fated.uncounted law hst hp hn
  have hcopies : ∀ j c, e.copies.look j = some c → c.cell ∉ D := fun j c hc hD =>
    (h.membered hm).no_copies h.tally.wf.1 (hempty c.cell hD) hc rfl
  refine ⟨hcopies, fun n hn a b ha hma hwa hb => ⟨?_, ?_⟩⟩
  · rw [(h.sums n).1 (fun a' ha' => by rw [← Option.some.inj (ha.symm.trans ha')]; exact hma) b hb]
    exact State.activeLoad_eq_zero h.tally.wf.2 fun j c hc hcn => absurd (hcn ▸ hn) (hcopies j c hc)
  · rw [(h.sums n).2 (fun a' ha' => by rw [← Option.some.inj (ha.symm.trans ha')]; exact hwa) b hb]
    exact State.countedWeight_eq_zero h.tally.wf.1 (hempty n hn)

end Sys2Proof.Machine
end

