-- ==== Sys2Proof/Proofs/Links.lean ====
section
/-! PROOFS. The loss and the restore of a trunk's link (R12, R13). -/

namespace Sys2Proof.Machine

variable {s t u v w x e : State} {l D : List Nat} {k : Fin 8} {n : Nat}

/-! ## Latches and last notices -/

theorem raiseLatch_frame (o : Latch) (s : State) : raiseLatch o s = { s with
    notices := (raiseLatch o s).notices, latches := (raiseLatch o s).latches, counters := (raiseLatch o s).counters } := by
  rcases raiseLatch_cases o s with ⟨-, h⟩ | ⟨-, h⟩ <;> rw [h]
  exact pushNotice_frame ..

theorem aside_raiseLatch (o : Latch) (s : State) : Aside s (raiseLatch o s) := by
  rcases raiseLatch_cases o s with ⟨-, h⟩ | ⟨-, h⟩ <;> rw [h]
  · exact .refl s
  · have : Aside s (setLatch o s) := ⟨rfl, rfl, rfl, rfl, rfl, rfl, rfl, rfl, rfl, fun _ => rfl, fun _ _ => rfl⟩
    exact this.trans (aside_pushNotice ..)

theorem latchSet_raiseLatch {o : Latch} (ho : o ≠ .noticeOverflow) : (raiseLatch o s).latchSet o = true := by
  rcases raiseLatch_cases o s with ⟨h, e⟩ | ⟨-, e⟩ <;> rw [e]
  · exact h
  · rw [latchSet_pushNotice ho, latchSet_setLatch]
    simp

/-- A notice that leaves room stands last. -/
theorem pushNotice_last {b : NoticeBody} (h : (pushNotice b s).notices.length < Config.notices) :
    (pushNotice b s).notices.getLast? = some ⟨s.time.clock, b⟩ := by
  rcases pushNotice_cases b s with ⟨-, e⟩ | ⟨hn, -, e⟩ | ⟨hn, -, e⟩ <;> rw [e] at h ⊢
  · exact List.getLast?_concat
  · obtain ⟨counters, hc⟩ := bumpPart_eq .noticesLost s
    rw [hc] at h
    exact absurd h (Nat.not_lt.mpr hn)
  · obtain ⟨counters, hc⟩ := bumpPart_bumpPart_eq .noticesLost .noticesLost s
    rw [hc] at h
    exact absurd h (Nat.not_lt.mpr hn)

/-! ## The trunk's link lost (R12) -/

/-- The stages of the loss of a trunk's link: the trunk, its cells, the latch and the last notice. -/
structure LinkLost (k : Fin 8) (s x : State) (l : List Nat) (v e : State) : Prop where
  dropped : LinkDropped k.val s x
  rising  : l.Pairwise (· < ·)
  cells   : ∀ n, n ∈ l ↔ n / 32 = k.val ∧ (x.cells.look n).isSome = true
  folded  : v = l.foldl loseCell x
  after   : e = pushNotice (.trunkLinkDown k.val) (raiseLatch (.trunkLinkLost k) v)

theorem linkLost_loseTrunk (k : Fin 8) (hw : s.cells.wf = true) :
    ∃ x l v, LinkLost k s x l v (loseTrunk k s) := by
  have hd := linkDropped_spec k.val s
  exact ⟨_, _, _, hd, Table.keysWhere_pairwise (hd.form hw) _, fun n => State.mem_cellsOf (hd.form hw), rfl, rfl⟩

theorem LinkLost.lost (h : LinkLost k s x l v e) : CellsLost x l v := by
  rw [h.folded]
  exact cellsLost_foldl h.rising fun n hn => ((h.cells n).mp hn).2

theorem LinkLost.aside (h : LinkLost k s x l v e) : Aside v e := by
  rw [h.after]
  exact (aside_raiseLatch ..).trans (aside_pushNotice ..)

theorem LinkLost.afterFrame (h : LinkLost k s x l v e) : e = { v with
    notices := e.notices, latches := e.latches, counters := e.counters } := by
  have h1 := pushNotice_frame (.trunkLinkDown k.val) (raiseLatch (.trunkLinkLost k) v)
  rw [← h.after, raiseLatch_frame] at h1
  exact h1

theorem LinkLost.closed (h : LinkLost k s x l v e) : (x.trunk k.val).state = .linkDown := by
  rw [h.dropped.trunk, if_pos rfl]
  rfl

theorem LinkLost.trunk (h : LinkLost k s x l v e) : e.trunk k.val = (s.trunk k.val).dropped := by
  rw [State.trunk, h.aside.trunks, ← State.trunk, h.lost.closed k.val (.inr h.closed), h.dropped.trunk, if_pos rfl]

theorem LinkLost.frame (h : LinkLost k s x l v e) : e = { s with
    notices := e.notices, latches := e.latches, counters := e.counters, cells := e.cells, trunks := e.trunks
    pools := e.pools, stations := e.stations, handovers := e.handovers, copies := e.copies
    created := e.created, owed := e.owed, draws := e.draws } := by
  rw [h.afterFrame, h.lost.frame, h.dropped.frame]

theorem LinkLost.cell (h : LinkLost k s x l v e) {c : Cell} (hc : s.cells.look n = some c) (hn : n / 32 = k.val) :
    ∃ m w, e.cells.look n = some { c.lost with queued := .none, account := { c.account with m := m, w := w } } := by
  have hx := h.dropped.cells n
  rw [hc, Option.map_some, if_pos hn] at hx
  obtain ⟨m, w, hv⟩ := h.lost.lost n ((h.cells n).mpr ⟨hn, by rw [hx]; rfl⟩) _ hx
  exact ⟨m, w, by rw [h.afterFrame]; exact hv⟩

theorem LinkLost.offTrunk (h : LinkLost k s x l v e) {c : Cell} (hc : s.cells.look n = some c) (hn : n / 32 ≠ k.val) :
    ∃ m w, e.cells.look n = some { c with account := { c.account with m := m, w := w } } := by
  have hx := h.dropped.cells n
  rw [hc, Option.map_some, if_neg hn] at hx
  obtain ⟨m, w, hv⟩ := h.lost.kept n (fun hl => hn ((h.cells n).mp hl).1) _ hx
  exact ⟨m, w, by rw [h.afterFrame]; exact hv⟩

theorem LinkLost.latch (h : LinkLost k s x l v e) : e.latchSet (.trunkLinkLost k) = true := by
  rw [h.after, latchSet_pushNotice (by simp)]
  exact latchSet_raiseLatch (by simp)

theorem LinkLost.time (h : LinkLost k s x l v e) : x.time = s.time ∧ v.time = s.time
    ∧ (raiseLatch (.trunkLinkLost k) v).time = s.time := by
  have hx : x.time = s.time := by rw [h.dropped.frame]
  have hv : v.time = s.time := by rw [h.lost.frame, hx]
  exact ⟨hx, hv, (aside_raiseLatch _ v).time.trans hv⟩

theorem LinkLost.last (h : LinkLost k s x l v e) (hn : e.notices.length < Config.notices) :
    e.notices.getLast? = some ⟨s.time.clock, .trunkLinkDown k.val⟩ := by
  rw [h.after] at hn ⊢
  rw [pushNotice_last hn, h.time.2.2]

/-- The cells that go DOWN with the link. -/
theorem LinkLost.mem_up (h : LinkLost k s x l v e) : n ∈ l.filter x.up ↔
    n / 32 = k.val ∧ ∃ c, s.cells.look n = some c ∧ c.state ≠ .down := by
  rw [List.mem_filter, h.cells, State.up_iff, h.dropped.cells]
  cases s.cells.look n with
  | none => simp
  | some c =>
    simp only [Option.map_some, Option.isSome_some, and_true, Option.some.injEq, exists_eq_left']
    refine and_congr_right fun hn => ?_
    rw [if_pos hn]

theorem LinkLost.eq_up (h : LinkLost k s x l v e) {lost : List Nat} (hl : lost.Pairwise (· < ·))
    (hm : ∀ n, n ∈ lost ↔ n / 32 = k.val ∧ ∃ c, s.cells.look n = some c ∧ c.state ≠ .down) : lost = l.filter x.up :=
  rising_ext hl (h.rising.filter _) fun n => (hm n).trans h.mem_up.symm

/-- The notices, in their order, where there is room for them. -/
theorem LinkLost.notices (h : LinkLost k s x l v e)
    (hn : s.notices.length + (l.filter x.up).length + 3 ≤ Config.notices) : e.notices = s.notices
      ++ (if (s.trunk k.val).state = .draining ∨ (s.trunk k.val).state = .held then
          [⟨s.time.clock, .holdCancelled k.val (s.trunk k.val).holdTag .linkLoss⟩] else [])
      ++ (l.filter x.up).map (fun n => ⟨s.time.clock, .cellDown n .linkLoss⟩)
      ++ (if s.latchSet (.trunkLinkLost k) = true then [] else [⟨s.time.clock, .conditionRaised (.trunkLinkLost k)⟩])
      ++ [⟨s.time.clock, .trunkLinkDown k.val⟩] := by
  obtain ⟨hxt, hvt, hrt⟩ := h.time
  have hlatch : v.latchSet (.trunkLinkLost k) = s.latchSet (.trunkLinkLost k) :=
    (h.lost.latch _ (by simp)).trans (h.dropped.latch _ (by simp))
  have hx := h.dropped.notices (by omega)
  have hxlen : x.notices.length ≤ s.notices.length + 1 := by
    rw [hx, List.length_append]
    split <;> simp
  have hv := h.lost.notices (by omega)
  have hvlen : v.notices.length = x.notices.length + (l.filter x.up).length := by rw [hv, List.length_append, List.length_map]
  have hr : (raiseLatch (.trunkLinkLost k) v).notices = v.notices
      ++ (if s.latchSet (.trunkLinkLost k) = true then [] else [⟨s.time.clock, .conditionRaised (.trunkLinkLost k)⟩]) := by
    rcases raiseLatch_cases (.trunkLinkLost k) v with ⟨hs, e⟩ | ⟨hs, e⟩ <;> rw [hlatch] at hs <;> rw [e, hs]
    · exact (List.append_nil _).symm
    · rw [pushNotice_room (by show v.notices.length < _; omega), ← hvt]
      rfl
  have hrlen : (raiseLatch (.trunkLinkLost k) v).notices.length ≤ v.notices.length + 1 := by
    rw [hr, List.length_append]
    split <;> simp
  rw [h.after, pushNotice_room (by omega), setNotices_notices, hrt, hr, hv, hx, hxt]

/-! ## What the cells lost served, told over the state before (R10, R12) -/

theorem LinkDropped.fields {k : Nat} (h : LinkDropped k s x) : x.stations = s.stations ∧ x.handovers = s.handovers
    ∧ x.copies = s.copies ∧ x.time = s.time ∧ x.settings = s.settings ∧ x.channels = s.channels ∧ x.owed = s.owed := by
  rw [h.frame]
  exact ⟨rfl, rfl, rfl, rfl, rfl, rfl, rfl⟩

theorem LinkDropped.configured {k : Nat} (h : LinkDropped k s x) (n : Nat) :
    (x.cells.look n).isSome = (s.cells.look n).isSome := by
  rw [h.cells, Option.isSome_map]

theorem LinkDropped.account {k : Nat} (h : LinkDropped k s x) (n : Nat) : x.account n = s.account n := by
  rw [State.account, State.account, h.cells, Option.map_map]
  refine congrArg (fun f => Option.map f (s.cells.look n)) (funext fun c => ?_)
  show (if n / 32 = k then { c with queued := PollQueued.none } else c).account = c.account
  split <;> rfl

theorem Advanced.rebase {k : Nat} {c : Counter} {a : Nat} (h : Advanced x e c a) (hx : LinkDropped k s x)
    (hc : c ≠ .part .noticesLost) : Advanced s e c a := h.same (hx.counters c hc) rfl

theorem Fated.rebase {k : Nat} (h : Fated x D e) (hx : LinkDropped k s x) : Fated s D e := by
  obtain ⟨hs, hh, -, ht, -⟩ := hx.fields
  obtain ⟨h0, h1, h2, h3, h4, h5, h6, h7⟩ := h
  rw [hs] at h1 h2 h3 h4 h5 h6
  rw [hh] at h2 h3 h4 h5 h7
  rw [ht] at h0 h2
  exact ⟨h0, h1, h2, h3, h4, h5, h6, h7⟩

theorem LinkDropped.moving {k : Nat} (h : LinkDropped k s x) (law : s.MovingLaw) : x.MovingLaw := by
  obtain ⟨hs, hh, -⟩ := h.fields
  rw [State.MovingLaw, hs, hh]
  exact law

theorem LinkDropped.law {k : Nat} (h : LinkDropped k s x) (law : s.HandoverLaw) : x.HandoverLaw := by
  obtain ⟨hs, hh, -⟩ := h.fields
  exact ⟨h.moving law.moving, by rw [hs, hh]; exact law.record⟩

theorem LinkDropped.carryRoom {k : Nat} (h : LinkDropped k s x) (hroom : s.CarryRoom) : x.CarryRoom := by
  obtain ⟨hs, hh, hc, -, -, hch, -⟩ := h.fields
  obtain ⟨h1, h2, h3⟩ := hroom
  exact ⟨by rw [hc, hh]; exact h1, by rw [hs, hch]; exact h2, by simp only [hh, h.configured]; exact h3⟩

theorem LinkDropped.grantsAt {k : Nat} (h : LinkDropped k s x) : x.grantsAt = s.grantsAt := by
  obtain ⟨hs, hh, -⟩ := h.fields
  funext n
  rw [State.grantsAt, State.grantsAt, State.grantsOf, State.grantsOf, hs, hh]

/-- The tables that the loss of the trunk itself leaves alone are in form. -/
theorem LinkDropped.forms {k : Nat} (h : LinkDropped k s x) (hf : s.Fits) :
    x.stations.wf = true ∧ x.handovers.wf = true ∧ x.copies.wf = true ∧ x.stations.holds Station.Fits := by
  obtain ⟨hs, hh, hc, -⟩ := h.fields
  rw [hs, hh, hc]
  exact ⟨hf.stations.form, hf.handovers.1, hf.copies.form, hf.stations.holds⟩

theorem LinkLost.downed (h : LinkLost k s x l v e) (hf : s.Fits) (law : s.MovingLaw) : Downed x (l.filter x.up) e := by
  obtain ⟨hw, hhw, hcw, -⟩ := h.dropped.forms hf
  have hd := downed_lost h.rising (fun n hn => ((h.cells n).mp hn).2) hw hhw hcw (h.dropped.moving law)
  rw [← h.folded] at hd
  exact hd.aside h.aside

theorem LinkLost.fated (h : LinkLost k s x l v e) (hf : s.Fits) (law : s.MovingLaw) : Fated s (l.filter x.up) e :=
  (h.downed hf law).fated.rebase h.dropped

theorem LinkLost.counted (h : LinkLost k s x l v e) (hf : s.Fits) (law : s.MovingLaw) :
    HandoversCounted s e (lostForced (l.filter x.up)) (lostCancelled (l.filter x.up)) := by
  obtain ⟨h1, h2, h3⟩ := (h.downed hf law).counted
  rw [h.dropped.fields.2.1] at h1 h2 h3
  exact ⟨h1.rebase h.dropped nofun, h2.rebase h.dropped nofun, h3.rebase h.dropped nofun⟩

theorem LinkDropped.wentDormant {k : Nat} (h : LinkDropped k s x) (e : State) : x.wentDormant e = s.wentDormant e := by
  rw [State.wentDormant, State.wentDormant, h.fields.1]

theorem LinkDropped.goneCopies {k : Nat} (h : LinkDropped k s x) (e : State) : x.goneCopies e = s.goneCopies e := by
  rw [State.goneCopies, State.goneCopies, h.fields.2.2.1]

theorem LinkLost.dormant (h : LinkLost k s x l v e) (hf : s.Fits) (law : s.MovingLaw) :
    Advanced s e (.part .goneDormant) (s.wentDormant e).length := by
  have hw := (h.downed hf law).tally.wentDormant (h.dropped.forms hf).1
  rw [h.dropped.wentDormant] at hw
  exact hw.rebase h.dropped nofun

/-- The lost frame's buffer is released with all that the cells lost had queued. -/
theorem LinkLost.released (h : LinkLost k s x l v e) (hf : s.Fits) (law : s.MovingLaw) :
    (∀ n, Advanced s e (.cell n .replayDiscarded)
      (((s.goneCopies e).filter fun x => x.2.cell == n).map fun x => x.2.queue.length).sum)
    ∧ ReleasedAll s e (((s.trunk k.val).frame.bind LinkFrame.buffer?).toList
      ++ (s.wentDormant e).flatMap (fun x => x.2.queue.map (·.buffer)) ++ (s.goneCopies e).flatMap (fun x => x.2.queue)) := by
  obtain ⟨hw, -, hcw, -⟩ := h.dropped.forms hf
  obtain ⟨h1, h2⟩ := (h.downed hf law).released hw hcw
  rw [h.dropped.wentDormant, h.dropped.goneCopies] at h2
  rw [h.dropped.goneCopies] at h1
  rw [List.append_assoc]
  exact ⟨fun n => (h1 n).rebase h.dropped nofun, h.dropped.released.trans h2⟩

theorem LinkLost.expiries (h : LinkLost k s x l v e) (hf : s.Fits) (law : s.MovingLaw) (i : Nat) : i ∈ e.owed.expiries ↔
    i ∈ s.owed.expiries ∨ ∃ st, (i, st) ∈ s.wentDormant e
      ∧ s.settings.timers.expire * 1000 ≤ (s.time.clock - st.lastHeard).toNat := by
  obtain ⟨-, -, -, ht, hset, -, ho⟩ := h.dropped.fields
  rw [(h.downed hf law).tally.aged (h.dropped.forms hf).1, h.dropped.wentDormant, ht, hset, ho]

/-- A station that no cell lost serves. -/
theorem LinkLost.others (h : LinkLost k s x l v e) (hf : s.Fits) (law : s.HandoverLaw) {i : Nat} {st : Station}
    (hst : s.stations.look i = some st) (hp : ∀ n, st.place.cell? = some n → n ∉ l.filter x.up)
    (hh : ∀ h, s.handovers.look i = some h → h.newCell ∉ l.filter x.up) :
    e.handovers.look i = s.handovers.look i ∧ ∃ rate, e.stations.look i = some { st with rate := rate } := by
  have hfate := h.fated hf law.moving
  refine ⟨(hfate.handovers i).2 fun ho hho => ⟨?_, hh ho hho⟩, (hfate.others i st hst hp hh).imp fun _ hr => hr.1⟩
  obtain ⟨y, since, hy, hyp, -⟩ := law.moving i ho hho
  obtain rfl := Option.some.inj (hst.symm.trans hy)
  exact hp _ (by rw [hyp]; rfl)

theorem LinkLost.copies (h : LinkLost k s x l v e) (hf : s.Fits) (law : s.MovingLaw) {c : Copy}
    (hc : s.copies.look n = some c) (hn : c.cell ∉ l.filter x.up) :
    ∃ members, e.copies.look n = some { c with members := members } :=
  (h.downed hf law).fresh.kept n c (by rw [h.dropped.fields.2.2.1, hc]) hn

/-- Where member counts are those of R125, no copy is left at a cell lost, and its M and W are 0. -/
theorem LinkLost.unloaded (h : LinkLost k s x l v e) (hf : s.Fits) (law : s.HandoverLaw) (hm : s.MembersLaw) :
    (∀ n c, e.copies.look n = some c → c.cell ∉ l.filter x.up)
    ∧ ∀ n a, n ∈ l.filter x.up → s.account n = some a → a.m = s.activeLoad n → a.w = s.countedWeight n →
      e.account n = some { a with m := 0, w := 0 } := by
  obtain ⟨hs, -, hc, -⟩ := h.dropped.fields
  have hmx : Membered [] 0 x := (hm.membered hf).of_seats hf.stations.form (h.dropped.forms hf).1 (fun j => by rw [hs]) hc
  obtain ⟨h1, h2⟩ := (h.downed hf law.moving).unloaded (h.dropped.law law) hmx
  refine ⟨h1, fun n a hn ha hma hwa => ?_⟩
  obtain ⟨c, hcn, rfl⟩ := State.account_eq_some ha
  obtain ⟨m, w, he⟩ := h.cell hcn (h.mem_up.mp hn).1
  have hb : e.account n = some { c.account with m := m, w := w } := by rw [State.account, he]; rfl
  have hsum : x.activeLoad n = s.activeLoad n := State.activeLoad_of_eq hc n
  have hwt : x.countedWeight n = s.countedWeight n := by rw [State.countedWeight, State.countedWeight, hs]
  obtain ⟨rfl, rfl⟩ := h2 n hn _ _ ((h.dropped.account n).trans ha) (hma.trans hsum.symm) (hwa.trans hwt.symm) hb
  exact hb

theorem LinkLost.rates (h : LinkLost k s x l v e) (hf : s.Fits) (law : s.MovingLaw) {i : Nat} {ho : Handover}
    (hh : s.handovers.look i = some ho) (h1 : ho.oldCell ∈ l.filter x.up) (h2 : ho.newCell / 32 ≠ k.val) :
    e.RatesLaw ho.newCell :=
  (h.downed hf law).rates i ho (by rw [h.dropped.fields.2.1, hh]) h1 fun hn => h2 (h.mem_up.mp hn).1

/-! ## Where there is room for what the cells lost make -/

theorem LinkLost.followed (h : LinkLost k s x l v e) (hf : s.Fits) (law : s.HandoverLaw) (hroom : s.CarryRoom) {i : Nat} {ho : Handover}
    {st : Station} (hh : s.handovers.look i = some ho) (hst : s.stations.look i = some st) (h1 : ho.oldCell ∈ l.filter x.up)
    (h2 : ho.newCell / 32 ≠ k.val) : ∃ now, e.stations.look i = some now ∧ FollowedTo e st.members now.members ho.newCell := by
  obtain ⟨hw, hhw, hcw, hholds⟩ := h.dropped.forms hf
  obtain ⟨hs, hho, -⟩ := h.dropped.fields
  have hland := landed_lost h.rising (fun n hn => ((h.cells n).mp hn).2) hw hhw hcw (h.dropped.law law) hholds
    (h.dropped.carryRoom hroom)
  rw [← h.folded] at hland
  obtain ⟨now, hnow, hm, hfol⟩ := (hland.aside h.aside).followed i ho st (by rw [hho, hh]) (by rw [hs, hst]) h1
    fun hn => h2 (h.mem_up.mp hn).1
  exact ⟨now, hnow, followedTo_of_follows hm hfol⟩

/-- The grants stand on the other trunks, cell by cell, and no counter has moved but those of the ends. -/
theorem LinkLost.granted (h : LinkLost k s x l v e) (hf : s.Fits) (law : s.HandoverLaw) (hroom : s.CarryRoom)
    (hr : ∀ j, j ≠ k.val → s.RoomFor ((l.filter x.up).flatMap s.grantsAt) j) :
    (∀ j, j ≠ k.val → e.trunk j = s.trunkAfter ((l.filter x.up).flatMap s.grantsAt) j)
    ∧ CountersKept s e fun c => EndCounter (· ∈ l.filter x.up) c ∨ c = .part .noticesLost := by
  obtain ⟨hw, hhw, hcw, hholds⟩ := h.dropped.forms hf
  have hafter : ∀ ms j, j ≠ k.val → x.trunkAfter ms j = s.trunkAfter ms j := fun ms j hj =>
    State.trunkAfter_congr (by rw [h.dropped.trunk, if_neg hj]) h.dropped.configured ms
  have hroomx : ∀ j, x.RoomFor ((l.filter x.up).flatMap x.grantsAt) j := fun j => by
    rw [h.dropped.grantsAt, State.RoomFor]
    by_cases hj : j = k.val
    · rw [hj, State.trunkAfter_closed (.inr h.closed), h.dropped.trunk, if_pos rfl]
      exact Nat.zero_le _
    · rw [hafter _ j hj]
      exact hr j hj
  have hg := granted_lost h.rising (fun n hn => ((h.cells n).mp hn).2) hw hhw hcw (h.dropped.law law) hholds
    (h.dropped.carryRoom hroom) (fun n hn => by rw [((h.cells n).mp hn).1]; exact .inr h.closed) hroomx
  rw [← h.folded] at hg
  obtain ⟨hsent, hkept⟩ := hg.aside h.aside
  rw [h.dropped.grantsAt] at hsent
  exact ⟨fun j hj => (hsent.trunks j).trans (hafter _ j hj), (h.dropped.counters.mono fun _ hc => .inr hc).trans hkept⟩

/-! ## The link restored (R13) -/

/-- The state with the trunk ACTIVE again and its notice queued. -/
def linkUp (j : Nat) (s : State) : State :=
  (s.setTrunk j { s.trunk j with state := .active }).setNotices (s.notices ++ [⟨s.time.clock, .trunkLinkUp j⟩])

theorem restoreTrunk_eq (j : Nat) (hn : s.notices.length < Config.notices) : restoreTrunk j s =
    if s.time.service = .service then updateCellsOf j (pollNow .onTime s.now) (linkUp j s) else linkUp j s := by
  unfold restoreTrunk
  rw [pushNotice_room (by exact hn)]
  rfl

theorem look_restoreTrunk (j n : Nat) (hn : s.notices.length < Config.notices) : (restoreTrunk j s).cells.look n =
    (s.cells.look n).map fun c => if s.time.service = .service ∧ n / 32 = j then
      { c with due := some s.time.clock, queued := .onTime } else c := by
  rw [restoreTrunk_eq j hn]
  by_cases h : s.time.service = .service
  · rw [if_pos h]
    exact (Table.look_mapAll ..).trans (congrArg (fun f => Option.map f (s.cells.look n)) (funext fun c =>
      if_congr (by rw [trunkOf_eq, and_iff_right h]) rfl rfl))
  · rw [if_neg h]
    have hid : (fun c : Cell => if s.time.service = .service ∧ n / 32 = j then
        { c with due := some s.time.clock, queued := .onTime } else c) = id := funext fun c => if_neg fun e => h e.1
    exact ((congrArg (fun f => Option.map f (s.cells.look n)) hid).trans (congrFun Option.map_id _)).symm

theorem restoreTrunk_frame (j : Nat) (hn : s.notices.length < Config.notices) : restoreTrunk j s = { linkUp j s with
    cells := (restoreTrunk j s).cells } := by
  rw [restoreTrunk_eq j hn]
  split <;> rfl

theorem linkRestored (k : Fin 8) (s : State) : ((s.trunk k.val).state ≠ .linkDown → exec (.trunkLinkRestored k) s = .next s)
    ∧ ((s.trunk k.val).state = .linkDown → exec (.trunkLinkRestored k) s = .next (closeEvent (restoreTrunk k.val s))) :=
  ⟨fun h => congrArg Host.Outcome.next (if_neg h), fun h => congrArg Host.Outcome.next (if_pos h)⟩

theorem linkLost_exec (k : Fin 8) (s : State) : ((s.trunk k.val).state = .linkDown → exec (.trunkLinkLost k) s = .next s)
    ∧ ((s.trunk k.val).state ≠ .linkDown → exec (.trunkLinkLost k) s = .next (closeEvent (loseTrunk k s))) :=
  ⟨fun h => congrArg Host.Outcome.next (if_pos h), fun h => congrArg Host.Outcome.next (if_neg h)⟩

/-- Where no handover stands, or stations MOVE exactly while one names them, each names a MOVING station. -/
theorem State.MovingLaw.of_or (h : s.handovers.entries = [] ∨ s.HandoverLaw) : s.MovingLaw := by
  rcases h with h | h
  · intro i ho hh
    rw [Table.look, h] at hh
    cases hh
  · exact h.moving

/-- Settles O34: the loss by the chain of ends that its cells make one after another, the restore by its fields. -/
theorem trunkLinkLossAndRestore : Obligations.TrunkLinkLossAndRestore := by
  refine ⟨fun k s hf => ⟨(linkLost_exec k s).1, fun hup => ?lost⟩, fun k s => ⟨(linkRestored k s).1, fun hdown hn => ?restored⟩⟩
  case lost =>
    obtain ⟨x, l, v, h⟩ := linkLost_loseTrunk (s := s) k hf.cells.form
    refine ⟨loseTrunk k s, (linkLost_exec k s).2 hup, h.trunk, fun n c hc hn => ?_, h.latch, h.last,
      fun law i st n since hst hp hn hc => ?_, fun law i ho st since hh hst hp => ⟨fun h1 hc1 h2 => ?_, fun h2 hc2 h1 => ?_,
      fun h1 h2 hc1 hc2 => ?_⟩, fun lost hl hmem => ?_, h.frame⟩
    · obtain ⟨m, w, he⟩ := h.cell hc hn
      exact ⟨_, he⟩
    · exact (h.fated hf (.of_or law)).asleep i st n since hst hp (h.mem_up.mpr ⟨hn, hc⟩)
    · have hfate := h.fated hf law.moving
      have hold := h.mem_up.mpr ⟨h1, hc1⟩
      exact ⟨(hfate.handovers i).1 ⟨ho, hh, .inl hold⟩, hfate.forced i ho st hh hst hold fun hn => h2 (h.mem_up.mp hn).1⟩
    · have hfate := h.fated hf law.moving
      have hnew := h.mem_up.mpr ⟨h2, hc2⟩
      exact ⟨(hfate.handovers i).1 ⟨ho, hh, .inr hnew⟩,
        hfate.cancelled i ho st since hh hst hp (fun hn => h1 (h.mem_up.mp hn).1) hnew⟩
    · have hfate := h.fated hf law.moving
      have hold := h.mem_up.mpr ⟨h1, hc1⟩
      exact ⟨(hfate.handovers i).1 ⟨ho, hh, .inl hold⟩, hfate.both i ho st hh hst hold (h.mem_up.mpr ⟨h2, hc2⟩)⟩
    · obtain rfl := h.eq_up hl hmem
      refine ⟨h.notices, fun law => ?_⟩
      obtain ⟨hdiscarded, hreleased⟩ := h.released hf law.moving
      refine ⟨h.counted hf law.moving, h.dormant hf law.moving, hdiscarded, hreleased, h.expiries hf law.moving,
        fun i st => h.others hf law, fun n c => h.offTrunk, fun n c => h.copies hf law.moving, h.unloaded hf law,
        fun i ho => h.rates hf law.moving, fun hroom => ⟨fun i ho st => h.followed hf law hroom, ?_⟩⟩
      rintro grants rfl hr
      obtain ⟨ht, hk⟩ := h.granted hf law hroom hr
      refine ⟨ht, hk.mono fun c hc => ?_⟩
      rcases hc with hc | rfl
      · cases hc <;> simp
      · simp
  case restored =>
    have hframe := restoreTrunk_frame (s := s) k.val hn
    refine ⟨restoreTrunk k.val s, (linkRestored k s).2 hdown, fun j => ?_, by rw [hframe]; rfl, fun n c hc => ?_, fun n hc => ?_, ?_⟩
    · rw [hframe]
      exact trunk_setTrunk s k.val j _
    · rw [look_restoreTrunk k.val n hn, hc]
      rfl
    · rw [look_restoreTrunk k.val n hn, hc]
      rfl
    · rw [hframe]
      rfl

end Sys2Proof.Machine
end

section
/-! PROOFS. Messages and backbone frames that fail a check (R25 to R27, R42, R50), and the ends of frames (R30, R40, R50). -/

namespace Sys2Proof.Machine

variable {s e : State} {m : MessageHead} {c : Instr}

/-! ## The form of a message (R20, R26) -/

theorem headerFits_iff {n : Nat} : headerFits m n = true ↔
    m.frameLength = 10 + m.bodyLength.toNat ∧ m.slot.toNat < 32 ∧ m.bodyLength.toNat = n := by
  simp [headerFits, and_assoc]

theorem phoneFits_iff {n : Nat} : phoneFits m n = true ↔ headerFits m n = true ∧ NamesPhone m := by
  simp [phoneFits, namesNoStation_eq_false, NamesPhone]

theorem isSome_claimKindOf_iff {code : Byte} : (claimKindOf code).isSome = true ↔ code = 1 ∨ code = 2 ∨ code = 3 := by
  unfold claimKindOf
  split_ifs with h1 h2 h3 <;> simp_all

theorem bodyLength_eq_of_toNat {n : Nat} (hn : n < 2 ^ 16) (h : m.bodyLength.toNat = n) : m.bodyLength = BitVec.ofNat 16 n :=
  BitVec.eq_of_toNat_eq (by rw [h, BitVec.toNat_ofNat, Nat.mod_eq_of_lt hn])

/-- What R26 asks of a message, read from the check `fits` that its command makes; `anyCell` says that a DOWN cell may send it (R27). -/
structure Formed (c : Instr) (m : MessageHead) (fits anyCell : Bool) : Prop where
  frame : fits = true → m.frameLength = 10 + m.bodyLength.toNat
  slot  : fits = true → m.slot.toNat < 32
  form  : fits = true → ¬ BadForm c
  phone : fits = true → anyCell = false → NamesPhone m
  poll  : anyCell = true → ∃ mark count heard, c = .pollReply m mark count heard

/-- A kind that names a phone is formed as its check says where the check covers the kind's own form. -/
theorem Formed.of_phone {n : Nat} {fits : Bool} (hfits : fits = true → phoneFits m n = true)
    (hform : fits = true → m.bodyLength.toNat = n → ¬ BadForm c) : Formed c m fits false where
  frame h := (headerFits_iff.mp (phoneFits_iff.mp (hfits h)).1).1
  slot h := (headerFits_iff.mp (phoneFits_iff.mp (hfits h)).1).2.1
  form h := hform h (headerFits_iff.mp (phoneFits_iff.mp (hfits h)).1).2.2
  phone h _ := (phoneFits_iff.mp (hfits h)).2
  poll h := nomatch h

theorem formed_claim (m : MessageHead) (code : Byte) (n : TicketNumber) (token : Token) :
    Formed (.ticketClaim m code n token) m (claimFits m code n) false := by
  have hfits : claimFits m code n = true → phoneFits m 11 = true ∧ (code = 1 ∨ code = 2 ∨ code = 3) ∧ n ≠ 0 := by
    simp only [claimFits, Bool.and_eq_true, decide_eq_true_eq, isSome_claimKindOf_iff, and_assoc]
    exact id
  refine .of_phone (n := 11) (fun h => (hfits h).1) fun h hb => ?_
  obtain ⟨-, hcode, hn⟩ := hfits h
  rintro (hbody | ⟨h1, h2, h3⟩ | hzero)
  · exact hbody (bodyLength_eq_of_toNat (by decide) hb)
  · rcases hcode with hcode | hcode | hcode <;> contradiction
  · exact hn hzero

theorem formed_channel {channel : Byte} (hc : BadForm c ↔ m.bodyLength ≠ 1 ∨ 63 < channel.toNat) :
    Formed c m (channelFits m channel) false := by
  have hfits : channelFits m channel = true → phoneFits m 1 = true ∧ channel.toNat < 64 := by
    simp [channelFits]
  refine .of_phone (n := 1) (fun h => (hfits h).1) fun h hb => ?_
  rw [hc]
  rintro (hbody | hbig)
  · exact hbody (bodyLength_eq_of_toNat (by decide) hb)
  · have := (hfits h).2
    omega

theorem formed_dataUp (m : MessageHead) (payload : List Byte) :
    Formed (.stationDataUp m payload) m (dataUpFits m payload) false := by
  have hfits : dataUpFits m payload = true → phoneFits m payload.length = true ∧ 1 ≤ payload.length := by
    simp [dataUpFits]
  refine .of_phone (n := payload.length) (fun h => (hfits h).1) fun h hb => ?_
  rintro (hbody | rfl)
  · exact hbody hb
  · exact absurd (hfits h).2 (by decide)

theorem formed_pollReply (m : MessageHead) (mark count : Byte) (heard : List Addr) :
    Formed (.pollReply m mark count heard) m (pollReplyFits m mark count heard) true := by
  have hfits : pollReplyFits m mark count heard = true →
      headerFits m (2 + 6 * count.toNat) = true ∧ mark.toNat ≤ 1 ∧ count.toNat ≤ 64 ∧ heard.length = count.toNat := by
    simp [pollReplyFits, and_assoc]
  refine ⟨fun h => (headerFits_iff.mp (hfits h).1).1, fun h => (headerFits_iff.mp (hfits h).1).2.1, fun h => ?_, nofun,
    fun _ => ⟨mark, count, heard, rfl⟩⟩
  obtain ⟨hhead, hmark, hcount, -⟩ := hfits h
  have hbody := (headerFits_iff.mp hhead).2.2
  rintro (hb | hb | hb) <;> omega

/-- Every message is judged by R25 over a check of its form, and then taken or discarded. -/
theorem exec_message (h : messageOf c = some m) : ∃ fits anyCell owner, Formed c m fits anyCell
    ∧ ∀ s, exec c s = .next (takeMessage (s.fate m fits anyCell) owner s) := by
  cases c with
  | attachRequest | depart =>
    obtain rfl := Option.some.inj h
    exact ⟨_, _, _, .of_phone (n := 0) id fun _ hb hbad => hbad (bodyLength_eq_of_toNat (by decide) hb), fun _ => rfl⟩
  | releaseDone =>
    obtain rfl := Option.some.inj h
    exact ⟨_, _, _, .of_phone (n := 1) id fun _ hb hbad => hbad (bodyLength_eq_of_toNat (by decide) hb), fun _ => rfl⟩
  | pollReply =>
    obtain rfl := Option.some.inj h
    exact ⟨_, _, _, formed_pollReply .., fun _ => rfl⟩
  | ticketClaim =>
    obtain rfl := Option.some.inj h
    exact ⟨_, _, _, formed_claim .., fun _ => rfl⟩
  | join | leave =>
    obtain rfl := Option.some.inj h
    exact ⟨_, _, _, formed_channel Iff.rfl, fun _ => rfl⟩
  | stationDataUp =>
    obtain rfl := Option.some.inj h
    exact ⟨_, _, _, formed_dataUp .., fun _ => rfl⟩
  | _ => cases h

/-! ## The checks of R25, in their order -/

section
variable {k : Fin 8} {len : Option (BitVec 16)} {fits anyCell : Bool}

theorem frameFate_linkDown (h : (s.trunk k.val).state = .linkDown) : s.frameFate k len fits = .absent := by
  simp [State.frameFate, h]

theorem frameFate_held (h : (s.trunk k.val).state = .held) :
    s.frameFate k len fits = .discarded (.trunk k.val .discardedWhileHeld) := by
  simp [State.frameFate, h]

/-- On a trunk that takes messages the service state, the length and the form are checked in turn. -/
theorem frameFate_up (h : (s.trunk k.val).state = .active ∨ (s.trunk k.val).state = .draining) : s.frameFate k len fits =
    if s.time.service = .config then .discarded (.trunk k.val .ingressRejected)
    else if 2048 < len.elim 0 (·.toNat) then .discarded (.part .oversize)
    else if fits = false then .discarded (.trunk k.val .ingressRejected)
    else .taken := by
  have hlen : (len.map (·.toNat)).getD 0 = len.elim 0 (·.toNat) := by cases len <;> rfl
  rcases h with h | h <;> simp [State.frameFate, h, hlen]

/-- A frame that is no message is rejected in CONFIG and in SERVICE alike, but for an oversize one in SERVICE. -/
theorem frameFate_unfit (h : (s.trunk k.val).state = .active ∨ (s.trunk k.val).state = .draining) :
    s.frameFate k len false = .discarded (if s.time.service = .service ∧ 2048 < len.elim 0 (·.toNat) then .part .oversize
      else .trunk k.val .ingressRejected) := by
  rw [frameFate_up h]
  cases s.time.service
  · rfl
  · by_cases hl : 2048 < len.elim 0 (·.toNat) <;> simp [hl]

/-- A message that fails one of the first four checks meets the fate of its frame. -/
theorem fate_of_frameFate {f : Fate} (h : s.frameFate m.trunk (some m.bodyLength) fits = f) (hf : f ≠ .taken) :
    s.fate m fits anyCell = f := by
  unfold State.fate
  rw [h]
  cases f with
  | taken => exact absurd rfl hf
  | _ => rfl

/-- In SERVICE, a message that is not oversize is rejected where its form or its cell does not fit. -/
theorem fate_rejected (ht : (s.trunk m.trunk.val).state = .active ∨ (s.trunk m.trunk.val).state = .draining)
    (hs : s.time.service = .service) (hl : m.bodyLength.toNat ≤ 2048) (h : fits = true → s.mayTake (cellOf m) anyCell = false) :
    s.fate m fits anyCell = .discarded (.trunk m.trunk.val .ingressRejected) := by
  have hlen : ¬ 2048 < m.bodyLength.toNat := by omega
  have hf := frameFate_up (len := some m.bodyLength) (fits := fits) ht
  cases fits with
  | false => exact fate_of_frameFate (by simpa [hs, hlen] using hf) nofun
  | true =>
    have hf : s.frameFate m.trunk (some m.bodyLength) true = .taken := by simpa [hs, hlen] using hf
    simp [State.fate, hf, h rfl]

end

/-- R26, R27: a message that one of these clauses names does not fit its form, or comes from a cell that may not send it. -/
theorem Formed.mayTake_eq_false {fits anyCell : Bool} (hf : Formed c m fits anyCell)
    (h : m.frameLength ≠ 10 + m.bodyLength.toNat ∨ 31 < m.slot.toNat ∨ s.cells.look (cellOf m) = none
      ∨ ((m.addr = 0 ∨ isGroup m.addr = true ∨ ∃ k, s.cells.look (cellOf m) = some k ∧ k.state = .down)
        ∧ ∀ mark count heard, c ≠ .pollReply m mark count heard)
      ∨ BadForm c) (hfits : fits = true) : s.mayTake (cellOf m) anyCell = false := by
  rcases h with h | h | h | ⟨h, hpoll⟩ | h
  · exact absurd (hf.frame hfits) h
  · have := hf.slot hfits
    omega
  · simp [State.mayTake, h]
  · have hany : anyCell = false := by
      refine Bool.eq_false_iff.mpr fun ht => ?_
      obtain ⟨mark, count, heard, hc⟩ := hf.poll ht
      exact hpoll mark count heard hc
    obtain ⟨hzero, hgroup⟩ := hf.phone hfits hany
    rcases h with h | h | ⟨k, hk, hd⟩
    · exact absurd h hzero
    · rw [hgroup] at h
      cases h
    · simp [State.mayTake, hk, hd, hany]
  · exact absurd h (hf.form hfits)

theorem onlyCounts_takeMessage {f : Fate} {d : Counter} (owner : State → State) (h : f = .discarded d) :
    OnlyCounts s (takeMessage f owner s) d := by
  subst h
  exact onlyCounts_bump d s

/-! ## Frames at the backbone port (R42, R50) -/

/-- The bytes that a frame of this type carries between its first 14 and its payload: a replay frame's stream tag (R42, R43). -/
def State.tagBytes (s : State) (type : BitVec 16) : Nat := if s.isReplayType type then 2 else 0

theorem tagBytes_replay {type : BitVec 16} (h : type = s.settings.replayType ∧ type ≠ 0) : s.tagBytes type = 2 :=
  if_pos (by simpa [State.isReplayType, ← h.1] using h.2)

theorem tagBytes_other {type : BitVec 16} (h : type ≠ s.settings.replayType ∨ type = 0) : s.tagBytes type = 0 := by
  have : s.isReplayType type = false := by
    rcases h with h | rfl
    · simp [State.isReplayType, h]
    · simpa [State.isReplayType] using fun h : 0 = s.settings.replayType => h.symm
  simp [State.tagBytes, this]

section
variable {dest : Addr} {type : BitVec 16} {rest : List Byte}

theorem takeBackboneFrame_down (h : s.backbone.up = false) : takeBackboneFrame dest type rest s = s := by
  simp [takeBackboneFrame, h]

theorem takeBackboneFrame_config (hu : s.backbone.up = true) (hs : s.time.service = .config) :
    takeBackboneFrame dest type rest s = bumpPart .backboneRejected s := by
  simp [takeBackboneFrame, hu, hs]

/-- A frame without a byte of payload is malformed. -/
theorem takeBackboneFrame_malformed (hu : s.backbone.up = true) (hs : s.time.service = .service)
    (h : rest.length ≤ s.tagBytes type) : takeBackboneFrame dest type rest s = bumpPart .backboneMalformed s := by
  unfold State.tagBytes at h
  cases hr : s.isReplayType type with
  | false =>
    obtain rfl := List.eq_nil_of_length_eq_zero (by simpa [hr] using h)
    simp [takeBackboneFrame, hu, hs, hr]
  | true =>
    match rest with
    | [] | [_] | [_, _] => simp [takeBackboneFrame, hu, hs, hr]
    | _ :: _ :: _ :: _ => simp [hr] at h

theorem takeBackboneFrame_oversize (hu : s.backbone.up = true) (hs : s.time.service = .service)
    (h : 2048 + s.tagBytes type < rest.length) : takeBackboneFrame dest type rest s = bumpPart .oversize s := by
  unfold State.tagBytes at h
  cases hr : s.isReplayType type with
  | false =>
    match rest with
    | [] => simp at h
    | byte :: more =>
      have hlen : 2048 < more.length + 1 := by simpa [hr] using h
      simp [takeBackboneFrame, hu, hs, hr, hlen]
  | true =>
    match rest with
    | [] | [_] | [_, _] => simp [hr] at h
    | hi :: lo :: byte :: more =>
      have hlen : 2048 < more.length + 1 := by simpa [hr] using h
      simp [takeBackboneFrame, hu, hs, hr, hlen]

end

/-- Both commands that carry a frame sort it by its type over the bytes after its first 14 (log 38). -/
theorem exec_backboneFrame {type : BitVec 16} {n : Nat} (h : IsBackboneFrame c type n) :
    ∃ dest rest, rest.length = n ∧ ∀ s, exec c s = .next (takeBackboneFrame dest type rest s) := by
  rcases h with ⟨dest, _, payload, rfl, rfl⟩ | ⟨dest, _, tag, payload, rfl, rfl⟩
  · exact ⟨dest, payload, rfl, fun _ => rfl⟩
  · exact ⟨dest, word16Bytes tag ++ payload, by rw [List.length_append]; rfl, fun _ => rfl⟩

/-- A backbone frame, whole or malformed, does not arrive while the link is lost, and is rejected in CONFIG. -/
theorem exec_backbone_early (h : c = .malformedBackboneFrame ∨ ∃ type n, IsBackboneFrame c type n) (s : State) :
    (s.backbone.up = false → exec c s = .next s)
    ∧ (s.backbone.up = true → s.time.service = .config → exec c s = .next (bumpPart .backboneRejected s)) := by
  rcases h with rfl | ⟨type, n, h⟩
  · exact ⟨fun hu => by simp [exec, execMalformedBackboneFrame, hu], fun hu hs => by simp [exec, execMalformedBackboneFrame, hu, hs]⟩
  · obtain ⟨dest, rest, -, he⟩ := exec_backboneFrame h
    exact ⟨fun hu => by rw [he, takeBackboneFrame_down hu], fun hu hs => by rw [he, takeBackboneFrame_config hu hs]⟩

theorem exec_malformedBackboneFrame (hu : s.backbone.up = true) (hs : s.time.service = .service) :
    exec .malformedBackboneFrame s = .next (bumpPart .backboneMalformed s) := by
  simp [exec, execMalformedBackboneFrame, hu, hs]

/-- In SERVICE a frame with no payload or with more than 2,048 bytes of it only counts. -/
theorem exec_backboneFrame_discarded {type : BitVec 16} {n : Nat} (h : IsBackboneFrame c type n) (hu : s.backbone.up = true)
    (hs : s.time.service = .service) :
    (n ≤ s.tagBytes type → ∃ t, exec c s = .next t ∧ OnlyCounts s t (.part .backboneMalformed))
    ∧ (2048 + s.tagBytes type < n → ∃ t, exec c s = .next t ∧ OnlyCounts s t (.part .oversize)) := by
  obtain ⟨dest, rest, rfl, he⟩ := exec_backboneFrame h
  exact ⟨fun hn => ⟨_, (he s).trans (congrArg _ (takeBackboneFrame_malformed hu hs hn)), onlyCounts_bump _ s⟩,
    fun hn => ⟨_, (he s).trans (congrArg _ (takeBackboneFrame_oversize hu hs hn)), onlyCounts_bump _ s⟩⟩

/-- Settles O28: messages by the fate that R25's checks give them in turn, backbone frames by their type and length. -/
theorem discardedFramesOnlyCount : Obligations.DiscardedFramesOnlyCount := by
  refine ⟨⟨fun c m s hm => ?message, fun k len s => ⟨_, rfl, ?noMessage⟩⟩, fun s => ⟨fun c hc => ?early, fun hu hs =>
    ⟨⟨_, exec_malformedBackboneFrame hu hs, onlyCounts_bump _ s⟩,
      fun c type n hc => ⟨fun ht => ?replay, fun ht => ?other⟩⟩⟩⟩
  case message =>
    obtain ⟨fits, anyCell, owner, hf, he⟩ := exec_message hm
    refine ⟨_, he s, fun h => ?_, fun h => ?_, fun h => ⟨fun hs => ?_, fun hs => ⟨fun hl => ?_, fun hl hbad => ?_⟩⟩⟩
    · rw [fate_of_frameFate (frameFate_linkDown h) nofun]
      rfl
    · exact onlyCounts_takeMessage _ (fate_of_frameFate (frameFate_held h) nofun)
    · exact onlyCounts_takeMessage _ (fate_of_frameFate ((frameFate_up h).trans (if_pos hs)) nofun)
    · exact onlyCounts_takeMessage _ (fate_of_frameFate (by simp [frameFate_up h, hs, hl]) nofun)
    · exact onlyCounts_takeMessage _ (fate_rejected h hs hl (hf.mayTake_eq_false hbad))
  case noMessage =>
    cases h : (s.trunk k.val).state with
    | linkDown =>
      rw [frameFate_linkDown h]
      rfl
    | held => exact onlyCounts_takeMessage _ (frameFate_held h)
    | active => exact onlyCounts_takeMessage _ (frameFate_unfit (.inl h))
    | draining => exact onlyCounts_takeMessage _ (frameFate_unfit (.inr h))
  case early =>
    have hframe : c = .malformedBackboneFrame ∨ ∃ type n, IsBackboneFrame c type n := by
      rcases hc with h | ⟨d, o, y, g, p, h⟩ | ⟨d, o, y, p, h⟩
      · exact .inl h
      · exact .inr ⟨y, _, .inr ⟨d, o, g, p, h, rfl⟩⟩
      · exact .inr ⟨y, _, .inl ⟨d, o, p, h, rfl⟩⟩
    obtain ⟨hdown, hconfig⟩ := exec_backbone_early hframe s
    exact ⟨hdown, fun hu hs => ⟨_, hconfig hu hs, onlyCounts_bump _ s⟩⟩
  case replay =>
    obtain ⟨hshort, hlong⟩ := exec_backboneFrame_discarded hc hu hs
    rw [tagBytes_replay ht] at hshort hlong
    exact ⟨fun h => hshort (by omega), fun h => hlong (by omega)⟩
  case other =>
    obtain ⟨hshort, hlong⟩ := exec_backboneFrame_discarded hc hu hs
    rw [tagBytes_other ht] at hshort hlong
    exact ⟨fun h => hshort (by omega), fun h => hlong (by omega)⟩

/-! ## The ends of frames (R30, R40, R50) -/

/-- Only the pools say whether a reference is released. -/
theorem Released.of_pools {u v : State} {r : Option BufferRef} (h : Released u v r) (hu : u.pools = s.pools) (hv : v.pools = e.pools) :
    Released s e r := by
  have hs : ∀ q, u.buffer q = s.buffer q := fun q => by rw [State.buffer, hu, State.buffer]
  have he : ∀ q, v.buffer q = e.buffer q := fun q => by rw [State.buffer, hv, State.buffer]
  exact ⟨fun q hq => by rw [← he, ← hs]; exact h.one q hq, fun q hq => by rw [← he, ← hs]; exact h.rest q hq⟩

/-- A list of at most one reference is released as that reference is. -/
theorem Released.of_all {r : Option BufferRef} (h : ReleasedAll s e r.toList) : Released s e r where
  one q hq := by simpa [hq] using h q
  rest q hq := by simpa [hq] using h q

theorem released_endFrame (k : Nat) (s : State) : Released s (endFrame k s) ((s.trunk k).frame.bind LinkFrame.buffer?) :=
  have h := releasedAll_releaseFrame (s.trunk k).frame (s.setTrunk k { s.trunk k with frame := none })
  (Released.of_all h).of_pools rfl rfl

theorem trunk_endFrame (k j : Nat) (s : State) :
    (endFrame k s).trunk j = if j = k then { s.trunk k with frame := none } else s.trunk j := by
  rw [endFrame, releaseFrame_frame]
  exact trunk_setTrunk ..

theorem endFrame_frame (k : Nat) (s : State) :
    endFrame k s = { s with trunks := (endFrame k s).trunks, pools := (endFrame k s).pools } := by
  rw [endFrame, releaseFrame_frame]
  rfl

theorem exec_trunkFrameEnd (k : Fin 8) (s : State) : ((s.trunk k.val).frame = none → exec (.trunkFrameEnd k) s = .next s)
    ∧ ((s.trunk k.val).frame ≠ none → exec (.trunkFrameEnd k) s = .next (closeEvent (endFrame k.val s))) :=
  ⟨fun h => congrArg Host.Outcome.next (if_pos (by simp [h])), fun h => congrArg Host.Outcome.next (if_neg (by simpa using h))⟩

/-- The backbone link changes and a reference is released: the two touch different fields. -/
theorem releaseRef_setBackbone (r : BufferRef) (b : Backbone) (s : State) : Released s (releaseRef r (s.setBackbone b)) (some r)
    ∧ releaseRef r (s.setBackbone b) = { s with backbone := b, pools := (releaseRef r (s.setBackbone b)).pools } :=
  ⟨(released_releaseRef r (s.setBackbone b)).of_pools rfl rfl, releaseRef_frame r (s.setBackbone b)⟩

theorem exec_backboneFrameEnd (s : State) : (s.backbone.frame = none → exec .backboneFrameEnd s = .next s)
    ∧ ∀ x, s.backbone.frame = some x → exec .backboneFrameEnd s =
      .next (closeEvent (releaseRef x.buffer (s.setBackbone { s.backbone with frame := none }))) :=
  ⟨fun h => by simp [exec, execBackboneFrameEnd, h], fun x h => by simp [exec, execBackboneFrameEnd, h]⟩

/-- The loss of the backbone link loses its frame, and touches no other buffer (R50). -/
theorem exec_backboneLinkLost (s : State) : ∃ t, exec .backboneLinkLost s = .next t
    ∧ Released s t (s.backbone.frame.map (·.buffer))
    ∧ t = { s with backbone := { s.backbone with up := false, frame := none }, pools := t.pools } := by
  refine ⟨_, rfl, ?_⟩
  cases s.backbone.frame with
  | none => exact ⟨⟨nofun, fun _ _ => rfl⟩, rfl⟩
  | some x => exact releaseRef_setBackbone ..

/-- Settles O36: each end of a frame clears its link and releases one reference. -/
theorem frameEndsReleaseTheirReference : Obligations.FrameEndsReleaseTheirReference := by
  refine ⟨fun k s => ⟨(exec_trunkFrameEnd k s).1, fun f hf => ?trunk⟩, fun s => ⟨(exec_backboneFrameEnd s).1, fun x hx => ?backbone,
    exec_backboneLinkLost s, rfl⟩⟩
  case trunk =>
    have hrel := released_endFrame k.val s
    rw [hf, Option.bind_some] at hrel
    refine ⟨_, (exec_trunkFrameEnd k s).2 (by simp [hf]), fun j => trunk_endFrame .., ?_, endFrame_frame ..⟩
    cases f <;> exact hrel
  case backbone =>
    obtain ⟨hrel, hframe⟩ := releaseRef_setBackbone x.buffer { s.backbone with frame := none } s
    exact ⟨_, (exec_backboneFrameEnd s).2 x hx, hrel, hframe⟩

end Sys2Proof.Machine
end

section
/-! PROOFS. Buffers granted by length (R39, R41), and the frame that a STATION DATA UP adds to the backbone egress queue (R48, R49). -/

namespace Sys2Proof.Machine

variable {s : State} {m : MessageHead} {addr : Addr} {payload : List Byte}

/-! ## A full table, the buffer of a length (R39) -/

theorem Table.size_le_of_below {α : Type} {t : Table α} {n : Nat} (hw : t.wf = true) (hb : t.below n) : t.size ≤ n := by
  have hnodup : (t.entries.map (·.1)).Nodup := (List.pairwise_map.mpr (Table.entries_pairwise hw)).imp Nat.ne_of_lt
  have hsub : t.entries.map (·.1) ⊆ List.range n := fun k hk => by
    obtain ⟨⟨k, x⟩, hx, rfl⟩ := List.mem_map.mp hk
    exact List.mem_range.mpr (hb k x ((Table.mem_entries hw).mp hx))
  simpa [Table.size] using (hnodup.subperm hsub).length_le

/-- A pool with no free buffer has all of them in use. -/
theorem Table.Fits.size_eq {α : Type} {t : Table α} {n : Nat} {p : α → Prop} (h : t.Fits n p) (hn : t.lowestFree n = none) :
    t.size = n :=
  (Table.size_le_of_below h.form h.below).antisymm (Nat.not_lt.mp fun hlt => by
    simpa [hn] using Table.lowestFree_isSome hlt)

/-- R39: the short pool for a short frame, then the long pool. -/
theorem grant_eq (n : Nat) (s : State) : s.grant n =
    ((if n ≤ 256 then s.pools.short.lowestFree 8192 else none).map (BufferRef.mk .short)).or
      ((s.pools.long.lowestFree 4096).map (BufferRef.mk .long)) := by
  unfold State.grant
  by_cases hn : n ≤ 256
  · cases s.pools.short.lowestFree 8192 <;> simp [hn]
  · simp [hn]

theorem grant_eq_none_iff {n : Nat} : s.grant n = none ↔
    (n ≤ 256 → s.pools.short.lowestFree 8192 = none) ∧ s.pools.long.lowestFree 4096 = none := by
  rw [grant_eq]
  by_cases hn : n ≤ 256 <;> simp [hn]

/-- A short frame takes a long buffer only where the short pool has none. -/
theorem short_full_of_grant_long {n k : Nat} (h : s.grant n = some ⟨.long, k⟩) (hn : n ≤ 256) :
    s.pools.short.lowestFree 8192 = none := by
  rw [grant_eq, if_pos hn] at h
  cases hs : s.pools.short.lowestFree 8192 with
  | none => rfl
  | some j => simp [hs] at h

/-! ## A frame dropped for want of a buffer (R39, R41) -/

theorem dropForWant_eq (n : Nat) (s : State) : dropForWant n s =
    raiseLatch (if n ≤ 256 then .shortPoolExhausted else .longPoolExhausted)
      (bumpPart (if n ≤ 256 then .shortPoolDrops else .longPoolDrops) s) := by
  unfold dropForWant
  split_ifs <;> rfl

theorem dropForWant_frame (n : Nat) (s : State) : dropForWant n s = { s with
    notices := (dropForWant n s).notices, latches := (dropForWant n s).latches, counters := (dropForWant n s).counters } := by
  rw [dropForWant_eq, raiseLatch_frame]
  rfl

theorem latchSet_dropForWant (n : Nat) (s : State) :
    (dropForWant n s).latchSet (if n ≤ 256 then .shortPoolExhausted else .longPoolExhausted) = true := by
  rw [dropForWant_eq]
  exact latchSet_raiseLatch (by split_ifs <;> simp)

theorem advanced_dropForWant (n : Nat) (s : State) :
    Advanced s (dropForWant n s) (.part (if n ≤ 256 then .shortPoolDrops else .longPoolDrops)) 1 := by
  rw [dropForWant_eq]
  exact (advanced_advance ..).trans ((aside_raiseLatch ..).counters.advanced (by split_ifs <;> simp))

theorem countersKept_dropForWant (n : Nat) (s : State) : CountersKept s (dropForWant n s) (∃ p, · = .part p) := by
  rw [dropForWant_eq]
  exact ((countersKept_bumpPart _ s).mono fun _ h => ⟨_, h⟩).trans ((aside_raiseLatch ..).counters.mono fun _ h => ⟨_, h⟩)

/-- Settles O42: the pools that R39 tries in turn, and what a frame that finds none leaves. -/
theorem buffersAreGrantedByLength : Obligations.BuffersAreGrantedByLength := by
  intro n s hf
  have hshort : s.pools.short.lowestFree 8192 = none → s.pools.short.size = 8192 := hf.short.size_eq
  have hlong : s.pools.long.lowestFree 4096 = none → s.pools.long.size = 4096 := hf.long.size_eq
  have hnone : s.grant n = none → s.pools.long.size = 4096 ∧ (n ≤ 256 → s.pools.short.size = 8192) := fun h => by
    obtain ⟨hs, hl⟩ := grant_eq_none_iff.mp h
    exact ⟨hlong hl, fun hn => hshort (hs hn)⟩
  refine ⟨fun r hr => ?granted, hnone, fun hroom => ?room, latchSet_dropForWant n s, advanced_dropForWant n s,
    dropForWant_frame n s⟩
  case granted =>
    obtain ⟨hfree, hs, hl⟩ := grant_spec n s r hr
    obtain ⟨pool, number⟩ := r
    refine ⟨hfree, ?_⟩
    cases pool with
    | short => exact hs rfl
    | long => exact ⟨hl rfl, fun hn => hshort (short_full_of_grant_long hr hn)⟩
  case room =>
    refine Option.ne_none_iff_exists'.mp fun h => ?_
    obtain ⟨hl, hs⟩ := hnone h
    rcases hroom with hroom | ⟨hn, hroom⟩
    · omega
    · have := hs hn
      omega

/-! ## STATION DATA UP (R48, R49) -/

/-- A message that all five checks accept, and whose form fits, is taken (R25). -/
theorem State.Accepts.fate_eq_taken (h : s.Accepts m) (anyCell : Bool) : s.fate m true anyCell = .taken := by
  obtain ⟨htrunk, hservice, hlen, -, -, c, hc, hup⟩ := h
  have hlen : ¬ 2048 < m.bodyLength.toNat := Nat.not_lt.mpr hlen
  have hframe : s.frameFate m.trunk (some m.bodyLength) true = .taken := by
    rw [frameFate_up htrunk]
    simp [hservice, hlen]
  simp [State.fate, hframe, State.mayTake, hc, hup]

theorem dataUpFits_of_accepts (h : s.Accepts m) (hbody : m.bodyLength.toNat = payload.length) (hphone : NamesPhone m)
    (hp : payload ≠ []) : dataUpFits m payload = true := by
  obtain ⟨-, -, -, hslot, hframe, -⟩ := h
  have hform : phoneFits m payload.length = true := phoneFits_iff.mpr ⟨headerFits_iff.mpr ⟨hframe, hslot, hbody⟩, hphone⟩
  simp [dataUpFits, hform, Nat.one_le_iff_ne_zero, hp]

theorem exec_stationDataUp (h : s.Accepts m) (hbody : m.bodyLength.toNat = payload.length) (hphone : NamesPhone m)
    (hp : payload ≠ []) : exec (.stationDataUp m payload) s = .next (closeEvent (takeDataUp (cellOf m) m.addr payload s)) := by
  show Host.Outcome.next (takeMessage (s.fate m (dataUpFits m payload) false) _ s) = _
  rw [dataUpFits_of_accepts h hbody hphone hp, h.fate_eq_taken]
  rfl

theorem uplinker_eq_none {cell : Nat}
    (h : ∀ i st, s.stationWith addr = some (i, st) → st.place.associatedAt cell = false) : s.uplinker cell addr = none := by
  unfold State.uplinker
  cases hs : s.stationWith addr with
  | none => rfl
  | some x => simp [h x.1 x.2 hs]

theorem uplinker_eq_some {cell i : Nat} {st : Station} (h : s.stationWith addr = some (i, st))
    (hp : st.place.associatedAt cell = true) : s.uplinker cell addr = some i := by
  simp [State.uplinker, h, hp]

theorem takeDataUp_malformed (cell : Nat) (h : payload.length < 9) :
    takeDataUp cell addr payload s = bumpPart .upstreamMalformed s := if_pos h

theorem takeDataUp_refused {cell : Nat} (hl : 9 ≤ payload.length) (h : s.uplinker cell addr = none) :
    takeDataUp cell addr payload s = bumpPart .upstreamRefused s := by
  simp [takeDataUp, Nat.not_lt.mpr hl, h]

/-- The state in which an accepted upstream frame is offered to the queue: its station is heard, the frame counted at its cell (R48). -/
def heardUp (cell i : Nat) (s : State) : State := bump (.cell cell .framesUp) (hear i s)

theorem look_heardUp {cell i : Nat} {st : Station} (h : s.stations.look i = some st) (j : Nat) : (heardUp cell i s).stations.look j =
    if j = i then some { st with lastHeard := s.time.clock } else s.stations.look j := by
  show (updateStation i _ s).stations.look j = _
  rw [look_updateStation, h]
  rfl

theorem advanced_heardUp (cell i : Nat) (s : State) : Advanced s (heardUp cell i s) (.cell cell .framesUp) 1 :=
  advanced_advance _ 1 (hear i s)

theorem countersKept_heardUp (cell i : Nat) (s : State) : CountersKept s (heardUp cell i s) (· = .cell cell .framesUp) :=
  countersKept_advance _ 1 (hear i s)

theorem takeDataUp_accepted {cell i : Nat} (hl : 9 ≤ payload.length) (h : s.uplinker cell addr = some i) :
    takeDataUp cell addr payload s = offerUpstream addr payload (heardUp cell i s) := by
  simp [takeDataUp, heardUp, Nat.not_lt.mpr hl, h]

theorem offerUpstream_full (h : 512 ≤ s.backbone.queue.length) : offerUpstream addr payload s = bumpPart .egressDrops s := if_pos h

theorem offerUpstream_want (h : s.backbone.queue.length < 512) (hg : s.grant payload.length = none) :
    offerUpstream addr payload s = dropForWant payload.length s := by
  simp [offerUpstream, Nat.not_le.mpr h, hg]

theorem offerUpstream_granted {r : BufferRef} (h : s.backbone.queue.length < 512) (hg : s.grant payload.length = some r) :
    offerUpstream addr payload s = (putBuffer r ⟨.upstream, payload, 1⟩ s).setBackbone
      { s.backbone with queue := s.backbone.queue ++ [⟨r, payload.length, addr⟩] } := by
  simp only [offerUpstream, if_neg (Nat.not_le.mpr h), hg]
  rfl

/-- A frame is dropped at a full queue, dropped for want of a buffer, or queued; only the part's own counters move. -/
theorem offerUpstream_spec (addr : Addr) (payload : List Byte) (s : State) :
    CountersKept s (offerUpstream addr payload s) (∃ p, · = .part p)
      ∧ offerUpstream addr payload s = { s with
          notices := (offerUpstream addr payload s).notices, latches := (offerUpstream addr payload s).latches
          counters := (offerUpstream addr payload s).counters, pools := (offerUpstream addr payload s).pools
          backbone := (offerUpstream addr payload s).backbone } := by
  rcases Nat.lt_or_ge s.backbone.queue.length 512 with h | h
  · cases hg : s.grant payload.length with
    | none =>
      rw [offerUpstream_want h hg]
      refine ⟨countersKept_dropForWant _ _, ?_⟩
      rw [dropForWant_frame]
    | some r =>
      rw [offerUpstream_granted h hg]
      exact ⟨countersKept_of_eq rfl _, rfl⟩
  · rw [offerUpstream_full h]
    exact ⟨(countersKept_bumpPart _ s).mono fun _ h => ⟨_, h⟩, rfl⟩

/-- Settles O43: the four ends of an accepted STATION DATA UP. -/
theorem stationDataUpJoinsTheEgressQueue : Obligations.StationDataUpJoinsTheEgressQueue := by
  intro m payload s hf hacc hbody hphone hp
  have hexec := exec_stationDataUp hacc hbody hphone hp
  refine ⟨fun hl => ?malformed, fun hl => ⟨fun hno => ?refused, fun i st hst hplace => ?accepted⟩⟩
  case malformed =>
    rw [takeDataUp_malformed _ hl] at hexec
    exact ⟨_, hexec, onlyCounts_bump _ s⟩
  case refused =>
    rw [takeDataUp_refused hl (uplinker_eq_none hno)] at hexec
    exact ⟨_, hexec, onlyCounts_bump _ s⟩
  case accepted =>
    rw [takeDataUp_accepted hl (uplinker_eq_some hst hplace)] at hexec
    obtain ⟨hkept, hframe⟩ := offerUpstream_spec m.addr payload (heardUp (cellOf m) i s)
    refine ⟨_, hexec, fun j => ?_, ?_, fun hfull => ?_, fun r hroom hg => ?_, fun hroom hg => ?_, ?_⟩
    · rw [hframe]
      exact look_heardUp (cell := cellOf m) (State.stationWith_spec hf.stations.form hst).2 j
    · exact (advanced_heardUp (cellOf m) i s).trans (hkept.advanced (by simp))
    · rw [offerUpstream_full (s := heardUp (cellOf m) i s) hfull]
      exact ⟨((countersKept_heardUp (cellOf m) i s).advanced (by simp)).trans (advanced_advance ..), rfl, rfl⟩
    · rw [offerUpstream_granted (s := heardUp (cellOf m) i s) hroom hg]
      exact ⟨rfl, fun q => buffer_putBuffer r q _ _⟩
    · rw [offerUpstream_want (s := heardUp (cellOf m) i s) hroom hg, dropForWant_frame]
      exact ⟨rfl, rfl⟩
    · rw [hframe]
      rfl

end Sys2Proof.Machine
end

section
/-! PROOFS. Frames from the venue network: to a station's queue (R42, R44, R45), and to the ACTIVE copies of a channel and tier (R43,
R133). -/

namespace Sys2Proof.Machine

variable {s v w : State} {dest : Addr} {payload : List Byte}

/-! ## The sorting of a frame (R42) -/

theorem takeBackboneFrame_other {type : BitVec 16} (hu : s.backbone.up = true) (hs : s.time.service = .service)
    (ht : type ≠ s.settings.replayType ∨ type = 0) (hp : payload ≠ []) (hl : payload.length ≤ 2048) :
    takeBackboneFrame dest type payload s = closeEvent (takeDownlink dest payload s) := by
  have hr : s.isReplayType type = false := by
    have hbytes := tagBytes_other ht
    by_contra h
    simp [State.tagBytes, h] at hbytes
  obtain ⟨byte, more, rfl⟩ := List.exists_cons_of_ne_nil hp
  simp [takeBackboneFrame, hu, hs, hr, Nat.not_lt.mpr (show more.length + 1 ≤ 2048 from hl)]

/-- The two bytes of a stream tag give it back (section 0.5). -/
theorem append_word16Bytes (tag : BitVec 16) : ∃ hi lo, word16Bytes tag = [hi, lo] ∧ hi ++ lo = tag :=
  ⟨_, _, rfl, (BitVec.extractLsb'_append_extractLsb'_eq_extractLsb' rfl).trans BitVec.extractLsb'_eq_self⟩

theorem takeBackboneFrame_replay (tag : BitVec 16) (hu : s.backbone.up = true) (hs : s.time.service = .service)
    (ht : s.settings.replayType ≠ 0) (hp : payload ≠ []) (hl : payload.length ≤ 2048) :
    takeBackboneFrame dest s.settings.replayType (word16Bytes tag ++ payload) s = closeEvent (takeReplay tag payload s) := by
  have hr : s.isReplayType s.settings.replayType = true := by simpa [State.isReplayType] using ht
  obtain ⟨byte, more, rfl⟩ := List.exists_cons_of_ne_nil hp
  obtain ⟨hi, lo, hbytes, htag⟩ := append_word16Bytes tag
  rw [hbytes, ← htag]
  simp [takeBackboneFrame, hu, hs, hr, Nat.not_lt.mpr (show more.length + 1 ≤ 2048 from hl)]

/-! ## A station's frame (R44, R45) -/

theorem takeDownlink_group (h : isGroup dest = true) : takeDownlink dest payload s = bumpPart .groupDropped s := if_pos h

theorem takeDownlink_noStation (hg : isGroup dest = false)
    (h : ∀ i st, s.stationWith dest = some (i, st) → st.place = .dormant) :
    takeDownlink dest payload s = bumpPart .noStation s := by
  cases hs : s.stationWith dest with
  | none => simp [takeDownlink, hg, hs]
  | some x => simp [takeDownlink, hg, hs, h x.1 x.2 hs, Place.cell?]

theorem takeDownlink_full {i cell : Nat} {st : Station} (hg : isGroup dest = false) (hs : s.stationWith dest = some (i, st))
    (hc : st.place.cell? = some cell) (hq : 16 ≤ st.queue.length) :
    takeDownlink dest payload s = bump (.cell cell .downlinkDropped) s := by
  simp [takeDownlink, hg, hs, hc, hq]

theorem takeDownlink_granted {i cell : Nat} {st : Station} {r : BufferRef} (hg : isGroup dest = false)
    (hs : s.stationWith dest = some (i, st)) (hc : st.place.cell? = some cell) (hq : st.queue.length < 16)
    (hr : s.grant payload.length = some r) : takeDownlink dest payload s =
      (putBuffer r ⟨.downlink, payload, 1⟩ s).setStations
        (s.stations.put i { st with queue := st.queue ++ [⟨r, payload.length⟩] }) := by
  simp only [takeDownlink, hg, hs, hc, hr, Bool.false_eq_true, if_false, if_neg (Nat.not_le.mpr hq)]
  rfl

/-- Settles O44: the ways that R42, R44 and R45 name, each from what it finds. -/
theorem downlinkFramesJoinTheirStationsQueue : Obligations.DownlinkFramesJoinTheirStationsQueue := by
  intro dest source type payload s hf hu hs ht hp
  refine ⟨fun hl => ?oversize, fun hl => ?_⟩
  case oversize =>
    refine (exec_backboneFrame_discarded (.inl ⟨dest, source, payload, rfl, rfl⟩) hu hs).2 ?_
    rwa [tagBytes_other ht]
  have hexec : exec (.stationDownlinkFrame dest source type payload) s = .next (closeEvent (takeDownlink dest payload s)) :=
    congrArg Host.Outcome.next (takeBackboneFrame_other hu hs ht hp hl)
  refine ⟨fun hg => ?group, fun hg hno => ?noStation, fun i st cell hg hst hc => ⟨fun hq => ?full, fun r hq hr => ?granted⟩⟩
  case group =>
    rw [takeDownlink_group hg] at hexec
    exact ⟨_, hexec, onlyCounts_bump _ s⟩
  case noStation =>
    rw [takeDownlink_noStation hg hno] at hexec
    exact ⟨_, hexec, onlyCounts_bump _ s⟩
  case full =>
    rw [takeDownlink_full hg hst hc hq] at hexec
    exact ⟨_, hexec, onlyCounts_bump _ s⟩
  case granted =>
    rw [takeDownlink_granted hg hst hc hq hr] at hexec
    exact ⟨_, hexec, fun j => Table.look_put .., fun q => buffer_putBuffer r q _ s, rfl⟩

/-! ## The channel and tier of a stream tag (R43) -/

theorem lookupTag_spec {tag : BitVec 16} {k : Nat} {tier : TierName} (hw : s.channels.wf = true)
    (h : s.lookupTag tag = some (k, tier)) : ∃ ch, s.channels.look k = some ch ∧ ch.tagged tag = some tier := by
  obtain ⟨⟨j, ch⟩, hmem, htag⟩ := List.exists_of_findSome?_eq_some h
  obtain ⟨t, ht, heq⟩ := Option.map_eq_some_iff.mp htag
  obtain ⟨rfl, rfl⟩ := Prod.mk.inj heq
  exact ⟨ch, (Table.mem_entries hw).mp hmem, ht⟩

theorem lookupTag_eq_none_iff {tag : BitVec 16} (hw : s.channels.wf = true) :
    s.lookupTag tag = none ↔ ∀ k ch, s.channels.look k = some ch → ch.tagged tag = none := by
  simp only [State.lookupTag, List.findSome?_eq_none_iff, Option.map_eq_none_iff, Prod.forall, Table.mem_entries hw]

/-- A tag of one channel alone is found there. -/
theorem lookupTag_eq_some {tag : BitVec 16} {k : Nat} {ch : Channel} {tier : TierName} (hw : s.channels.wf = true)
    (hch : s.channels.look k = some ch) (htag : ch.tagged tag = some tier)
    (honly : ∀ j other, j ≠ k → s.channels.look j = some other → other.tagged tag = none) : s.lookupTag tag = some (k, tier) := by
  cases h : s.lookupTag tag with
  | none => simp [(lookupTag_eq_none_iff hw).mp h k ch hch] at htag
  | some x =>
    obtain ⟨other, hlook, hother⟩ := lookupTag_spec hw (k := x.1) (tier := x.2) h
    have hk : x.1 = k := by
      by_contra hne
      simp [honly _ _ hne hlook] at hother
    rw [hk, hch] at hlook
    obtain rfl := Option.some.inj hlook
    rw [htag] at hother
    exact congrArg some (Prod.ext hk (Option.some.inj hother).symm)

/-! ## The copies that take a frame (R133) -/

/-- A copy that has taken a frame: at 8 entries its oldest has gone first. -/
def Copy.joined (r : BufferRef) (c : Copy) : Copy :=
  { c with queue := (if c.queue.length < 8 then c.queue else c.queue.drop 1) ++ [r] }

/-- The buffers of the oldest entries that these copies lose to a frame. -/
def oldestLost (l : List (Nat × Copy)) : List BufferRef :=
  (l.filter fun x => decide (8 ≤ x.2.queue.length)).flatMap fun x => x.2.queue.take 1

/-- How many of these copies lose an entry at a cell. -/
def lostAt (n : Nat) (l : List (Nat × Copy)) : Nat :=
  (l.filter fun x => x.2.cell == n && decide (8 ≤ x.2.queue.length)).length

theorem oldestLost_append (l m : List (Nat × Copy)) : oldestLost (l ++ m) = oldestLost l ++ oldestLost m := by
  simp [oldestLost]

theorem lostAt_append (n : Nat) (l m : List (Nat × Copy)) : lostAt n (l ++ m) = lostAt n l + lostAt n m := by
  simp [lostAt]

theorem oldestLost_singleton (n : Nat) (c : Copy) : oldestLost [(n, c)] = if 8 ≤ c.queue.length then c.queue.take 1 else [] := by
  by_cases h : 8 ≤ c.queue.length <;> simp [oldestLost, h]

theorem lostAt_singleton (k n : Nat) (c : Copy) :
    lostAt k [(n, c)] = if c.cell = k ∧ 8 ≤ c.queue.length then 1 else 0 := by
  by_cases h : c.cell = k ∧ 8 ≤ c.queue.length <;> simp [lostAt, h]

/-- From `s` to `v` the copies of a list have taken a frame one after another. -/
structure Joined (r : BufferRef) (s : State) (l : List (Nat × Copy)) (v : State) : Prop where
  copies   : ∀ n c, s.copies.look n = some c → v.copies.look n = some (if n ∈ l.map (·.1) then c.joined r else c)
  released : ReleasedAll s v (oldestLost l)
  counted  : ∀ n, Advanced s v (.cell n .replayDiscarded) (lostAt n l)
  kept     : CountersKept s v (∃ n, · = .cell n .replayDiscarded)
  frame    : v = { s with counters := v.counters, pools := v.pools, copies := v.copies }

theorem joined_nil (r : BufferRef) (s : State) : Joined r s [] s :=
  ⟨fun _ _ h => by simpa using h, .refl s, fun n => .refl s _, .refl s _, rfl⟩

theorem Joined.trans {r : BufferRef} {l m : List (Nat × Copy)} (h : Joined r s l v) (g : Joined r v m w)
    (hd : (l.map (·.1)).Disjoint (m.map (·.1))) : Joined r s (l ++ m) w where
  copies n c hc := by
    rw [g.copies n _ (h.copies n c hc), List.map_append]
    by_cases hl : n ∈ l.map (·.1)
    · rw [if_pos hl, if_neg (hd hl), if_pos (List.mem_append_left _ hl)]
    · rw [if_neg hl]
      simp only [List.mem_append, hl, false_or]
  released := oldestLost_append l m ▸ h.released.trans g.released
  counted n := lostAt_append n l m ▸ (h.counted n).trans (g.counted n)
  kept := h.kept.trans g.kept
  frame := by
    rw [g.frame, h.frame]

section
variable {r : BufferRef} {n : Nat} {c : Copy}

theorem joinCopyQueue_room (h : s.copies.look n = some c) (hq : c.queue.length < 8) :
    joinCopyQueue r s n = s.setCopies (s.copies.put n (c.joined r)) := by
  simp [joinCopyQueue, h, hq, Copy.joined]

theorem joinCopyQueue_full (h : s.copies.look n = some c) (hq : 8 ≤ c.queue.length) : joinCopyQueue r s n =
    bump (.cell c.cell .replayDiscarded) (releaseAll (c.queue.take 1) (s.setCopies (s.copies.put n (c.joined r)))) := by
  simp [joinCopyQueue, h, Nat.not_lt.mpr hq, Copy.joined]

theorem look_putJoined (h : s.copies.look n = some c) {j : Nat} {d : Copy} (hd : s.copies.look j = some d) :
    (s.copies.put n (c.joined r)).look j = some (if j ∈ [(n, c)].map (·.1) then d.joined r else d) := by
  rw [Table.look_put]
  by_cases hj : j = n
  · subst hj
    obtain rfl := Option.some.inj (h.symm.trans hd)
    simp
  · simp [hj, hd]

/-- One copy takes a frame. -/
theorem joined_joinCopyQueue (r : BufferRef) (h : s.copies.look n = some c) : Joined r s [(n, c)] (joinCopyQueue r s n) := by
  rcases Nat.lt_or_ge c.queue.length 8 with hq | hq
  · have hlost : oldestLost [(n, c)] = [] := by rw [oldestLost_singleton, if_neg (Nat.not_le.mpr hq)]
    have hcount : ∀ k, lostAt k [(n, c)] = 0 := fun k => by rw [lostAt_singleton, if_neg fun hk => Nat.not_le.mpr hq hk.2]
    rw [joinCopyQueue_room h hq]
    exact ⟨fun j d => look_putJoined h, hlost ▸ .of_pools rfl, fun k => hcount k ▸ .refl s _, countersKept_of_eq rfl _, rfl⟩
  · have hlost : oldestLost [(n, c)] = c.queue.take 1 := by rw [oldestLost_singleton, if_pos hq]
    have hframe := releaseAll_frame (c.queue.take 1) (s.setCopies (s.copies.put n (c.joined r)))
    have hmoved := advanced_advance (.cell c.cell .replayDiscarded) 1 s
    have hkept := countersKept_advance (.cell c.cell .replayDiscarded) 1 s
    rw [joinCopyQueue_full h hq]
    refine ⟨fun j d hd => ?_, ?_, fun k => ?_, ?_, by rw [hframe]; rfl⟩
    · rw [hframe]
      exact look_putJoined h hd
    · rw [hlost]
      exact releasedAll_releaseAll (c.queue.take 1) (s.setCopies _)
    · rw [hframe, lostAt_singleton]
      by_cases hk : c.cell = k
      · rw [if_pos ⟨hk, hq⟩, ← hk]
        exact hmoved
      · rw [if_neg fun h => hk h.1]
        exact hkept.advanced (by simp [Ne.symm hk])
    · rw [hframe]
      exact hkept.mono fun _ h => ⟨_, h⟩

end

/-- Copies of different numbers take a frame one after another. -/
theorem joined_foldl (r : BufferRef) {l : List (Nat × Copy)} (hl : (l.map (·.1)).Nodup)
    (hs : ∀ x ∈ l, s.copies.look x.1 = some x.2) : Joined r s l ((l.map (·.1)).foldl (joinCopyQueue r) s) := by
  induction l generalizing s with
  | nil => exact joined_nil r s
  | cons x rest ih =>
    obtain ⟨hx, hrest⟩ := List.nodup_cons.mp hl
    have hfirst := joined_joinCopyQueue r (hs x List.mem_cons_self)
    refine hfirst.trans (ih hrest fun y hy => ?_) (List.disjoint_singleton.mpr hx).symm
    rw [hfirst.copies y.1 y.2 (hs y (List.mem_cons_of_mem _ hy)), if_neg]
    rintro h
    exact hx (List.mem_singleton.mp h ▸ List.mem_map_of_mem hy)

/-! ## A replay frame (R43, R133) -/

/-- The ACTIVE copies of a channel at a tier, with their records. -/
def State.takerEntries (s : State) (k : Nat) (tier : TierName) : List (Nat × Copy) :=
  s.copies.entries.filter fun x => x.2.channel == k && x.2.state == .active && x.2.tier == tier

theorem takers_eq (s : State) (k : Nat) (tier : TierName) : s.takers k tier = (s.takerEntries k tier).map (·.1) := rfl

theorem mem_takerEntries (hw : s.copies.wf = true) {k n : Nat} {tier : TierName} {c : Copy} :
    (n, c) ∈ s.takerEntries k tier ↔ s.copies.look n = some c ∧ c.channel = k ∧ c.state = .active ∧ c.tier = tier := by
  simp [State.takerEntries, Table.mem_entries hw, and_assoc]

theorem mem_takers (hw : s.copies.wf = true) {k n : Nat} {tier : TierName} {c : Copy} (hc : s.copies.look n = some c) :
    n ∈ (s.takerEntries k tier).map (·.1) ↔ c.channel = k ∧ c.state = .active ∧ c.tier = tier := by
  rw [← takers_eq, State.takers, Table.mem_keysWhere hw]
  simp [hc, and_assoc]

/-- The state in which a replay frame is fanned out: counted at its channel, its buffer taken with one reference a copy. -/
def replayStored (k : Nat) (r : BufferRef) (payload : List Byte) (refs : Nat) (s : State) : State :=
  putBuffer r ⟨.replay, payload, refs⟩ (bump (.channel k .framesIn) s)

section
variable {tag : BitVec 16} {k : Nat} {tier : TierName} {r : BufferRef}

theorem takeReplay_unmatched (h : s.lookupTag tag = none) : takeReplay tag payload s = bumpPart .replayUnmatched s := by
  simp [takeReplay, h]

theorem takeReplay_noAudience (h : s.lookupTag tag = some (k, tier)) (hr : s.grant payload.length = some r)
    (hno : s.takerEntries k tier = []) :
    takeReplay tag payload s = bump (.channel k .noAudience) (bump (.channel k .framesIn) s) := by
  have hr' : (bump (.channel k .framesIn) s).grant payload.length = some r := hr
  have ht : (bump (.channel k .framesIn) s).takers k tier = [] := by rw [takers_eq]; exact congrArg _ hno
  simp [takeReplay, h, hr', ht]

theorem takeReplay_fanned (h : s.lookupTag tag = some (k, tier)) (hr : s.grant payload.length = some r)
    (hsome : s.takerEntries k tier ≠ []) : takeReplay tag payload s = ((s.takerEntries k tier).map (·.1)).foldl (joinCopyQueue r)
      (replayStored k r payload (s.takerEntries k tier).length s) := by
  have hr' : (bump (.channel k .framesIn) s).grant payload.length = some r := hr
  have ht : (bump (.channel k .framesIn) s).takers k tier = (s.takerEntries k tier).map (·.1) := rfl
  simp [takeReplay, h, hr', ht, hsome, replayStored]

end

theorem joined_replay (hw : s.copies.wf = true) (k : Nat) (tier : TierName) (r : BufferRef) (payload : List Byte) :
    Joined r (replayStored k r payload (s.takerEntries k tier).length s) (s.takerEntries k tier)
      (((s.takerEntries k tier).map (·.1)).foldl (joinCopyQueue r) (replayStored k r payload (s.takerEntries k tier).length s)) := by
  refine joined_foldl r ?_ fun x hx => ((mem_takerEntries hw).mp hx).1
  show (s.takers k tier).Nodup
  exact (Table.keysWhere_pairwise hw _).imp Nat.ne_of_lt

/-- Settles O45: the tag's channel, then its takers one after another. -/
theorem replayFramesFanOutToTheirTiersCopies : Obligations.ReplayFramesFanOutToTheirTiersCopies := by
  intro dest source tag payload s hf hu hs ht hp hl
  have hexec : exec (.replayFrame dest source s.settings.replayType tag payload) s = .next (closeEvent (takeReplay tag payload s)) :=
    congrArg Host.Outcome.next (takeBackboneFrame_replay tag hu hs ht hp hl)
  have hw := hf.copies.form
  refine ⟨fun hno => ?unmatched, fun k ch tier r hch htag honly hr => ⟨fun hno => ?noAudience, fun hsome => ?fanned⟩⟩
  case unmatched =>
    rw [takeReplay_unmatched ((lookupTag_eq_none_iff hf.channels.form).mpr hno)] at hexec
    exact ⟨_, hexec, onlyCounts_bump _ s⟩
  all_goals have hfound := lookupTag_eq_some hf.channels.form hch htag honly
  case noAudience =>
    have hnone : s.takerEntries k tier = [] := List.eq_nil_iff_forall_not_mem.mpr fun ⟨n, c⟩ hx => by
      obtain ⟨hc, hk, ha, htier⟩ := (mem_takerEntries hw).mp hx
      exact hno n c hc hk ha htier
    rw [takeReplay_noAudience hfound hr hnone] at hexec
    refine ⟨_, hexec, ?_, ?_, rfl⟩
    · exact (advanced_advance _ 1 s).trans ((countersKept_advance _ 1 _).advanced (by simp))
    · have h0 := (countersKept_advance (.channel k .framesIn) 1 s).advanced (c := .channel k .noAudience) (by simp)
      exact h0.trans (advanced_advance ..)
  case fanned =>
    obtain ⟨n, c, hc, hk, ha, htier⟩ := hsome
    have hne : s.takerEntries k tier ≠ [] := List.ne_nil_of_mem ((mem_takerEntries hw).mpr ⟨hc, hk, ha, htier⟩)
    rw [takeReplay_fanned hfound hr hne] at hexec
    have hj := joined_replay hw k tier r payload
    have hstored : CountersKept s (replayStored k r payload (s.takerEntries k tier).length s) (· = .channel k .framesIn) :=
      countersKept_advance _ 1 s
    refine ⟨_, hexec, ?_, fun n c hc => ?_, ?_, ?_, ?_⟩
    · exact (advanced_advance (.channel k .framesIn) 1 s).trans (hj.kept.advanced (by simp))
    · rw [hj.copies n c hc]
      simp only [mem_takers hw hc]
      rfl
    · rintro takers rfl
      refine ⟨_, fun q => buffer_putBuffer r q _ _, hj.released, fun n => ?_⟩
      have := (hstored.advanced (c := .cell n .replayDiscarded) (by simp)).trans (hj.counted n)
      rwa [Nat.zero_add] at this
    · exact (hstored.mono fun _ h => .inl h).trans (hj.kept.mono fun _ h => .inr h)
    · rw [hj.frame]
      rfl

end Sys2Proof.Machine
end

section
/-! PROOFS. What leaves every station in its place: interior work, tickets, claims, memberships and forwarding change no station's place and
no handover record (R52, R53, R69). -/

namespace Sys2Proof.Machine

variable {s t u : State}

/-! ## Places and handover records kept -/

/-- From `s` to `t` no station has changed its place, and no handover record has changed. -/
structure Placed (s t : State) : Prop where
  handovers : t.handovers = s.handovers
  places    : ∀ i, (t.stations.look i).map (·.place) = (s.stations.look i).map (·.place)
  wf        : s.stations.wf = true → t.stations.wf = true

theorem Placed.of_eq (hh : t.handovers = s.handovers) (hs : t.stations = s.stations) : Placed s t :=
  ⟨hh, fun _ => by rw [hs], fun hw => by rw [hs]; exact hw⟩

theorem Placed.refl (s : State) : Placed s s := .of_eq rfl rfl

theorem Placed.trans (h : Placed s t) (g : Placed t u) : Placed s u :=
  ⟨g.handovers.trans h.handovers, fun i => (g.places i).trans (h.places i), g.wf ∘ h.wf⟩

/-- Placed work over a state with the same stations and handover records. -/
theorem Placed.after (h : Placed t u) (hh : t.handovers = s.handovers) (hs : t.stations = s.stations) : Placed s u :=
  (Placed.of_eq hh hs).trans h

theorem Placed.foldl {α : Type} {f : State → α → State} (hf : ∀ s a, Placed s (f s a)) (l : List α) (s : State) :
    Placed s (l.foldl f s) := by
  induction l generalizing s with
  | nil => exact .refl s
  | cons a rest ih => exact (hf s a).trans (ih _)

theorem placed_mapStations (f : Nat → Station → Station) (s : State)
    (hf : ∀ i st, (f i st).place = st.place := by intros; rfl) : Placed s (s.setStations (s.stations.mapAll f)) where
  handovers := rfl
  places i := by
    rw [setStations_stations, Table.look_mapAll]
    cases s.stations.look i <;> simp [hf]
  wf := Table.wf_mapAll _ _

theorem placed_updateStation (i : Nat) (f : Station → Station) (s : State)
    (hf : ∀ st, (f st).place = st.place := by intros; rfl) : Placed s (updateStation i f s) where
  handovers := rfl
  places j := by
    rw [look_updateStation]
    split
    · next h => rw [h]; cases s.stations.look i <;> simp [hf]
    · rfl
  wf := Table.wf_modify _ _ _

theorem placed_putStation {i : Nat} {st : Station} (now : Station) (hst : s.stations.look i = some st)
    (hp : now.place = st.place := by rfl) : Placed s (s.setStations (s.stations.put i now)) where
  handovers := rfl
  places j := by
    rw [setStations_stations, Table.look_put]
    split
    · next h => rw [h, hst]; simp [hp]
    · rfl
  wf := Table.wf_put _ _ _

/-! ## Named operations -/

theorem placed_advance (c : Counter) (n : Nat) (s : State) : Placed s (advance c n s) := .of_eq rfl rfl
theorem placed_bump (c : Counter) (s : State) : Placed s (bump c s) := .of_eq rfl rfl
theorem placed_bumpPart (c : PartCounter) (s : State) : Placed s (bumpPart c s) := .of_eq rfl rfl
theorem placed_pushNotice (b : NoticeBody) (s : State) : Placed s (pushNotice b s) := by
  rw [pushNotice_frame]; exact .of_eq rfl rfl
theorem placed_raiseLatch (l : Latch) (s : State) : Placed s (raiseLatch l s) := by
  rw [raiseLatch_frame]; exact .of_eq rfl rfl
theorem placed_placeReply (kind : ReplyKind) (tag : Byte) (status : Status) (body : ReplyBody) (s : State) :
    Placed s (placeReply kind tag status body s) := by
  rw [placeReply_frame]; exact .of_eq rfl rfl
theorem placed_postSignal (cell : Nat) (addr : Addr) (body : SignalBody) (s : State) : Placed s (postSignal cell addr body s) :=
  .of_eq (postSignal_handovers ..) (postSignal_stations ..)
theorem placed_releaseAll (rs : List BufferRef) (s : State) : Placed s (releaseAll rs s) := by
  rw [releaseAll_frame]; exact .of_eq rfl rfl
theorem placed_releaseRef (r : BufferRef) (s : State) : Placed s (releaseRef r s) := by
  rw [releaseRef_frame]; exact .of_eq rfl rfl
theorem placed_dropForWant (n : Nat) (s : State) : Placed s (dropForWant n s) := by
  rw [dropForWant_frame]; exact .of_eq rfl rfl
theorem placed_owePass (cell : Nat) (s : State) : Placed s (owePass cell s) := .of_eq (owePass_handovers ..) (owePass_stations ..)
theorem placed_putCopy (n : Nat) (c : Copy) (s : State) : Placed s (s.setCopies (s.copies.put n c)) := .of_eq rfl rfl
theorem placed_hear (i : Nat) (s : State) : Placed s (hear i s) := placed_updateStation ..
theorem placed_updateTicket (n : TicketNumber) (f : Ticket → Ticket) (s : State) : Placed s (updateTicket n f s) := .of_eq rfl rfl

/-! ## Accounts and copies -/

theorem placed_refreshM (cell : Nat) (s : State) : Placed s (refreshM cell s) := .of_eq rfl rfl

theorem placed_refreshRates (cell : Nat) (s : State) : Placed s (refreshRates cell s) := by
  unfold refreshRates
  split
  · exact .refl s
  · exact placed_mapStations _ s (fun _ st => by split <;> rfl)

theorem placed_reweigh (cell : Nat) (s : State) : Placed s (reweigh cell s) := (placed_refreshRates ..).after rfl rfl
theorem placed_reload (cell : Nat) (s : State) : Placed s (refreshRates cell (refreshM cell s)) :=
  (placed_refreshM ..).trans (placed_refreshRates ..)
theorem placed_fillCredit (i : Nat) (s : State) : Placed s (fillCredit i s) := placed_updateStation ..
theorem placed_trimCredits (s : State) : Placed s (trimCredits s) := placed_mapStations ..

theorem placed_writeCopy (n : Nat) (c : Copy) (s : State) : Placed s (writeCopy n c s) :=
  (placed_mapStations _ _ (fun _ st => by split <;> rfl)).after rfl rfl

theorem placed_flushCopy (n : Nat) (s : State) : Placed s (flushCopy n s) := by
  unfold flushCopy
  split
  · exact .refl s
  · exact ((placed_releaseAll ..).trans (placed_advance ..)).after rfl rfl

theorem placed_applyDecision (n : Nat) (d : Option TierName) (s : State) : Placed s (applyDecision n d s) := by
  unfold applyDecision
  split
  · exact .refl s
  · split
    · exact (placed_flushCopy n s).trans ((placed_writeCopy ..).trans (placed_refreshM ..))
    · exact .refl s

theorem placed_tryAdmission (s : State) (n : Nat) : Placed s (tryAdmission s n) := by
  unfold tryAdmission
  split
  · exact .refl s
  · split
    · exact .refl s
    · split
      · exact placed_applyDecision ..
      · exact .refl s

theorem placed_tryRaise (s : State) (n : Nat) : Placed s (tryRaise s n) := by
  unfold tryRaise
  split
  · exact .refl s
  · split
    · split
      · exact placed_applyDecision ..
      · exact .refl s
    · exact .refl s

theorem placed_readmit (cell : Nat) (s : State) : Placed s (readmit cell s) := by
  unfold readmit
  split
  · exact .refl s
  · exact (Placed.foldl placed_tryAdmission ..).trans ((Placed.foldl placed_tryRaise ..).trans (placed_refreshRates ..))

theorem placed_settleAccounts (s : State) : Placed s (settleAccounts s) :=
  ((Placed.foldl (fun s cell => placed_readmit cell s) ..).trans (placed_trimCredits _)).after rfl rfl

theorem placed_shed (cell fuel : Nat) (s : State) : Placed s (shed cell fuel s) := by
  induction fuel generalizing s with
  | zero => exact .refl s
  | succ fuel ih =>
    unfold shed
    split
    · split
      · exact .refl s
      · split
        · exact .refl s
        · split
          · exact .refl s
          · exact (placed_applyDecision ..).trans (ih _)
    · exact .refl s

theorem placed_pressCopy (s : State) (n : Nat) : Placed s (pressCopy s n) := by
  unfold pressCopy
  split
  · exact .refl s
  · split
    · split
      · exact (placed_flushCopy n s).trans (placed_putCopy ..)
      · exact placed_putCopy ..
    · exact .refl s

theorem placed_press (cell : Nat) (s : State) : Placed s (press cell s) := by
  unfold press
  split
  · exact .refl s
  · have h := (Placed.foldl placed_pressCopy (s.copiesAt cell fun c => c.state == .active) s).trans (placed_refreshM cell _)
    dsimp only
    split
    · exact h
    · split
      · exact h.trans ((placed_readmit ..).trans (placed_refreshRates ..))
      · exact h

/-! ## Memberships -/

theorem placed_removeCopy (n : Nat) (s : State) : Placed s (removeCopy n s) := by
  cases hc : s.copies.look n with
  | none => rw [removeCopy, hc]; exact .refl s
  | some c =>
    rw [removeCopy_eq hc]
    exact (placed_flushCopy n s).trans (((placed_reload ..).trans (placed_owePass ..)).after rfl rfl)

theorem placed_dropMember (channel cell : Nat) (s : State) : Placed s (dropMember channel cell s) := by
  unfold dropMember
  split
  · exact .refl s
  · split
    · exact placed_removeCopy ..
    · exact placed_putCopy ..

theorem placed_dropMembers (cell : Nat) (ms : List Membership) (s : State) :
    Placed s (ms.foldl (fun s m => dropMember m.channel cell s) s) :=
  Placed.foldl (fun s m => placed_dropMember m.channel cell s) ms s

theorem placed_removeMembership (i channel : Nat) (s : State) : Placed s (removeMembership i channel s) := by
  unfold removeMembership
  split
  · exact .refl s
  · next st hst =>
    split
    · exact .refl s
    · split
      · exact (placed_putStation _ hst).trans (placed_dropMember ..)
      · exact .refl s

theorem placed_endMembership (i channel : Nat) (s : State) : Placed s (endMembership i channel s) := by
  unfold endMembership
  split
  · exact .refl s
  · split
    · exact .refl s
    · exact (placed_removeMembership i channel s).trans ((placed_postSignal ..).trans (placed_bumpPart ..))

theorem placed_createCopy (channel cell : Nat) (s : State) : Placed s (createCopy channel cell s).1 := by
  unfold createCopy
  split
  · exact placed_bumpPart ..
  · split
    · exact (placed_reload ..).after rfl rfl
    · exact .refl s

theorem placed_placeMembership (i channel cell : Nat) (s : State) : Placed s (placeMembership i channel cell s).1 := by
  have h : Placed s (match s.copyAt channel cell with
      | some (n, c) => (s.setCopies (s.copies.put n { c with members := c.members + 1 }), some c.status)
      | none => createCopy channel cell s).1 := by
    split
    · exact placed_putCopy ..
    · exact placed_createCopy ..
  unfold placeMembership
  dsimp only
  split
  · exact h
  · exact h.trans (placed_updateStation ..)

theorem placed_carryChannel (i newCell : Nat) (addr : Addr) (s : State) (channel : Nat) :
    Placed s (carryChannel i newCell addr s channel) := by
  have hroom : ∀ x, Placed x (postNoRoom newCell addr channel x) := fun x => by
    unfold postNoRoom
    split
    · exact placed_postSignal ..
    · exact .refl x
  unfold carryChannel
  dsimp only
  split
  · exact placed_placeMembership ..
  · exact (placed_placeMembership ..).trans ((hroom _).trans (placed_bumpPart ..))

theorem placed_carryMemberships (i oldCell newCell : Nat) (s : State) : Placed s (carryMemberships i oldCell newCell s) := by
  unfold carryMemberships
  split
  · exact .refl s
  · next st hst =>
    exact (placed_putStation _ hst).trans ((Placed.foldl (fun s ch => placed_dropMember ch oldCell s) ..).trans
      ((placed_owePass ..).trans (Placed.foldl (placed_carryChannel i newCell _) ..)))

theorem placed_takeJoin (cell : Nat) (addr : Addr) (channel : Nat) (s : State) : Placed s (takeJoin cell addr channel s) := by
  refine Placed.trans (t := (judgeJoin cell addr channel s).1) ?_ (placed_postSignal ..)
  unfold judgeJoin
  split
  · exact .refl s
  · split
    · exact .refl s
    · exact placed_placeMembership ..

theorem placed_takeLeave (cell : Nat) (addr : Addr) (channel : Nat) (s : State) : Placed s (takeLeave cell addr channel s) := by
  refine Placed.trans (t := removeByLeave cell addr channel s) ?_ (placed_postSignal ..)
  unfold removeByLeave
  split
  · exact .refl s
  · split
    · exact placed_removeMembership ..
    · exact .refl s

theorem placed_closeOpen (k : Nat) (ch : Channel) (s : State) : Placed s (closeOpen k ch s) :=
  (Placed.foldl (f := endCopy k) (fun s cell => Placed.foldl (fun s i => placed_endMembership i k s) (s.membersAt k cell) s) ..).after rfl rfl

/-! ## Tickets and claims -/

theorem placed_recheck (i : Nat) (s : State) (channel : Nat) : Placed s (recheck i s channel) := by
  unfold recheck
  split
  · split
    · exact .refl s
    · exact placed_endMembership ..
  · exact .refl s

theorem placed_cascade (i : Nat) (before : StationClass) (s : State) : Placed s (cascade i before s) := by
  unfold cascade
  split
  · exact .refl s
  · split
    · exact .refl s
    · split
      · exact .refl s
      · exact (placed_reweigh ..).trans (Placed.foldl (placed_recheck i) ..)

theorem placed_stripStation (i : Nat) (s : State) : Placed s (stripStation i s) := placed_updateStation ..

theorem placed_bind (n : TicketNumber) (i : Nat) (s : State) : Placed s (bind n i s) := by
  have earlier : ∀ m x, Placed x (unbindEarlier n m x) := fun m x => by
    unfold unbindEarlier
    split
    · exact .refl x
    · split
      · exact .refl x
      · exact placed_updateTicket ..
  have holder : ∀ k x, Placed x (unbindHolder i k x) := fun k x => by
    unfold unbindHolder
    split
    · split
      · exact .refl x
      · exact placed_stripStation ..
    · exact .refl x
  unfold bind
  split
  · exact (earlier _ s).trans ((holder _ _).trans ((placed_updateTicket ..).trans (placed_updateStation ..)))
  · exact .refl s

theorem placed_giveVerdict (c : Claim) (v : Verdict) (s : State) : Placed s (giveVerdict c v s) :=
  (placed_postSignal ..).trans (placed_bumpPart ..)

theorem placed_refuseToken (c : Claim) (t : Ticket) (s : State) : Placed s (refuseToken c t s) := by
  unfold refuseToken
  dsimp only
  split
  · exact (placed_updateTicket ..).trans ((placed_giveVerdict ..).trans (placed_pushNotice ..))
  · exact (placed_updateTicket ..).trans (placed_giveVerdict ..)

theorem placed_judgeEntry (c : Claim) (t : Ticket) (s : State) : Placed s (judgeEntry c t s) := by
  have entry : Placed s (if t.admissions < s.settings.policy.maxEntries then
      giveVerdict c .admitted (updateTicket c.number
        (fun t => { t with state := .inside, admissions := t.admissions + 1, lastGate := some c.cell }) s)
      else refuseClaim c .reentryLimit s) := by
    split
    · exact (placed_updateTicket ..).trans (placed_giveVerdict ..)
    · exact placed_giveVerdict ..
  unfold judgeEntry
  split
  · exact entry
  · exact entry
  · exact (placed_giveVerdict ..).trans (placed_pushNotice ..)
  · exact (placed_giveVerdict ..).trans (placed_pushNotice ..)
  · exact placed_giveVerdict ..

theorem placed_seatClaim (c : Claim) (i : Nat) (s : State) : Placed s (seatClaim c i s) :=
  (placed_bind ..).trans ((placed_giveVerdict ..).trans (placed_cascade ..))

theorem placed_judgeSeat (c : Claim) (i : Nat) (t : Ticket) (s : State) : Placed s (judgeSeat c i t s) := by
  have outside : Placed s (match s.settings.policy.mode with
      | .strict => refuseClaim c .notInside s
      | .lenient =>
        if t.admissions < s.settings.policy.maxEntries then
          seatClaim c i (updateTicket c.number (fun t => { t with admissions := t.admissions + 1 }) s)
        else refuseClaim c .reentryLimit s) := by
    split
    · exact placed_giveVerdict ..
    · split
      · exact (placed_updateTicket ..).trans (placed_seatClaim ..)
      · exact placed_giveVerdict ..
  unfold judgeSeat
  split
  · exact placed_giveVerdict ..
  · split
    · exact placed_giveVerdict ..
    · split
      · exact placed_seatClaim ..
      · split
        · exact placed_giveVerdict ..
        · split
          · split
            · exact placed_seatClaim ..
            · exact (placed_giveVerdict ..).trans (placed_pushNotice ..)
          · exact placed_seatClaim ..
      · exact outside
      · exact outside
      · exact placed_giveVerdict ..

theorem placed_judgeExit (c : Claim) (t : Ticket) (s : State) : Placed s (judgeExit c t s) := by
  unfold judgeExit
  split
  · exact (placed_updateTicket ..).trans (placed_giveVerdict ..)
  · exact ((placed_stripStation ..).trans ((placed_updateTicket ..).trans (placed_updateTicket ..))).trans
      ((placed_giveVerdict ..).trans (placed_cascade ..))
  · exact placed_giveVerdict ..
  · exact placed_giveVerdict ..
  · exact placed_giveVerdict ..

theorem placed_judgeTicket (c : Claim) (i : Nat) (t : Ticket) (s : State) : Placed s (judgeTicket c i t s) := by
  unfold judgeTicket
  split
  · exact placed_giveVerdict ..
  · split
    · exact placed_giveVerdict ..
    · split
      · exact placed_refuseToken ..
      · split
        · exact placed_judgeEntry ..
        · exact placed_judgeSeat ..
        · exact placed_judgeExit ..

theorem placed_judgeFrom {absent : State → State} (ha : ∀ s, Placed s (absent s)) (c : Claim) (s : State) :
    Placed s (judgeFrom absent c s) := by
  unfold judgeFrom
  split
  · exact placed_giveVerdict ..
  · split
    · exact placed_giveVerdict ..
    · split
      · exact ha s
      · exact placed_judgeTicket ..

theorem placed_judgeParked (c : Claim) (s : State) : Placed s (judgeParked c s) := placed_judgeFrom .refl c s

theorem placed_judgeArrival (c : Claim) (s : State) : Placed s (judgeArrival c s) := by
  have hrefer : ∀ x, Placed x (refer c x) := fun x => by
    unfold refer
    split
    · exact (placed_giveVerdict ..).trans (placed_bumpPart ..)
    · split
      · exact (placed_giveVerdict ..).trans (placed_bumpPart ..)
      · exact (placed_pushNotice ..).after rfl rfl
  unfold judgeArrival
  split
  · exact placed_giveVerdict ..
  · exact placed_judgeFrom hrefer c s

theorem placed_takeClaim (cell : Nat) (addr : Addr) (kind : Byte) (n : TicketNumber) (token : Token) (s : State) :
    Placed s (takeClaim cell addr kind n token s) := by
  unfold takeClaim
  split
  · exact .refl s
  · exact placed_judgeArrival ..

theorem placed_unpark (id : BitVec 16) (s : State) : Placed s (unpark id s) := .of_eq rfl rfl

theorem placed_expireReferral (p : Parked) (s : State) : Placed s (expireReferral p s) :=
  (placed_unpark ..).trans ((placed_giveVerdict ..).trans (placed_bumpPart ..))

theorem placed_loadRecord (n : TicketNumber) (t : Ticket) (s : State) : Placed s (loadRecord n t s) := by
  have store : Placed s (storeRecord n t s) := by
    unfold storeRecord
    split <;> exact .of_eq rfl rfl
  have resolve : ∀ x, Placed x (resolveReferral n x) := fun x => by
    unfold resolveReferral
    split
    · exact .refl x
    · exact (placed_unpark ..).trans ((placed_judgeParked ..).trans (placed_bumpPart ..))
  unfold loadRecord
  split
  · exact store.trans (resolve _)
  · exact store

theorem placed_loadAll (fs : List TicketFields) (s : State) (n : LoadCounts) : Placed s (loadAll fs s n).1 := by
  induction fs generalizing s n with
  | nil => exact .refl s
  | cons f rest ih =>
    unfold loadAll
    split
    · exact ih s n
    · exact (placed_loadRecord ..).trans (ih _ _)

theorem placed_voidOne (n : TicketNumber) (t : Ticket) (s : State) : Placed s (voidOne n t s) := by
  unfold voidOne
  refine Placed.trans ?_ (placed_bumpPart ..)
  split
  · exact (placed_stripStation ..).trans ((placed_updateTicket ..).trans (placed_cascade ..))
  · exact placed_updateTicket ..

theorem placed_purgeTicket (s : State) (e : Nat × Ticket) : Placed s (purgeTicket s e) := by
  unfold purgeTicket
  dsimp only
  split
  · exact ((placed_stripStation ..).trans (placed_cascade ..)).after rfl rfl
  · exact .of_eq rfl rfl

theorem placed_endPurge (p : Purge) (s : State) : Placed s (endPurge p s) := by
  unfold endPurge
  split
  · exact (placed_pushNotice ..).after rfl rfl
  · exact .refl s

theorem placed_takePurgeBatch (p : Purge) (s : State) : Placed s (takePurgeBatch p s) :=
  ((Placed.foldl placed_purgeTicket ..).trans (placed_endPurge ..)).after rfl rfl

theorem placed_startPurge (tag : Byte) (s : State) : Placed s (startPurge tag s) :=
  (Placed.foldl (f := deferParked) (fun s p => (placed_unpark p.id s).trans ((placed_giveVerdict ..).trans (placed_bumpPart ..))) _ s).trans
    (.of_eq rfl rfl)

/-! ## Forwarding, sending, the cells' answers -/

theorem placed_takeDataUp (cell : Nat) (addr : Addr) (payload : List Byte) (s : State) : Placed s (takeDataUp cell addr payload s) := by
  have offer : ∀ x, Placed x (offerUpstream addr payload x) := fun x => by
    rw [(offerUpstream_spec ..).2]
    exact .of_eq rfl rfl
  unfold takeDataUp
  split
  · exact placed_bumpPart ..
  · split
    · exact placed_bumpPart ..
    · exact (placed_hear ..).trans ((placed_bump ..).trans (offer _))

theorem placed_joinCopyQueue (r : BufferRef) (s : State) (n : Nat) : Placed s (joinCopyQueue r s n) := by
  unfold joinCopyQueue
  split
  · exact .refl s
  · split
    · exact placed_putCopy ..
    · exact (placed_putCopy ..).trans ((placed_releaseAll ..).trans (placed_bump ..))

theorem placed_takeReplay (tag : BitVec 16) (payload : List Byte) (s : State) : Placed s (takeReplay tag payload s) := by
  unfold takeReplay
  split
  · exact placed_bumpPart ..
  · dsimp only
    split
    · exact (placed_bump ..).trans (placed_dropForWant ..)
    · split
      · exact (placed_bump ..).trans (placed_bump ..)
      · exact (Placed.foldl (placed_joinCopyQueue _) ..).after rfl rfl

theorem placed_takeDownlink (dest : Addr) (payload : List Byte) (hw : s.stations.wf = true) :
    Placed s (takeDownlink dest payload s) := by
  unfold takeDownlink
  split
  · exact placed_bumpPart ..
  · split
    · exact placed_bumpPart ..
    · next i st hst =>
      split
      · exact placed_bumpPart ..
      · split
        · exact placed_bump ..
        · split
          · exact placed_dropForWant ..
          · next r _ =>
            exact Placed.after (placed_putStation (s := putBuffer r ⟨.downlink, payload, 1⟩ s) _ (State.stationWith_spec hw hst).2) rfl rfl

theorem placed_serveBackbone (s : State) : Placed s (serveBackbone s) := by
  unfold serveBackbone
  split
  · exact .refl s
  · split
    · exact .of_eq rfl rfl
    · exact .refl s

theorem placed_startFrame (t : Nat) (f : LinkFrame) (b : Bool) (s : State) : Placed s (startFrame t f b s) := .of_eq rfl rfl
theorem placed_sendSignal (t : Nat) (m : Signal) (s : State) : Placed s (sendSignal t m s) := .of_eq rfl rfl

theorem placed_attemptRecovery (n : Nat) (s : State) : Placed s (attemptRecovery n s) := by
  unfold attemptRecovery
  split
  · exact .refl s
  · split
    · dsimp only
      split
      · exact (placed_reload ..).after rfl rfl
      · exact .refl s
    · exact .refl s

theorem placed_pace (n : Nat) (s : State) : Placed s (pace n s) := by
  unfold pace
  split
  · exact .refl s
  · split
    · exact .refl s
    · dsimp only
      split
      · exact placed_putCopy ..
      · split
        · exact (placed_putCopy ..).trans (placed_attemptRecovery ..)
        · exact placed_putCopy ..

theorem placed_sendReplay (t n : Nat) (s : State) : Placed s (sendReplay t n s) := by
  unfold sendReplay
  split
  · exact .refl s
  · split
    · exact .refl s
    · exact (placed_pace ..).after rfl rfl

theorem placed_sendStation (t i : Nat) (s : State) : Placed s (sendStation t i s) := by
  unfold sendStation
  split
  · exact .refl s
  · next st hst =>
    split
    · exact .trans (placed_putStation _ hst) (.of_eq rfl rfl)
    · exact .refl s

theorem placed_releaseFrame (f : Option LinkFrame) (s : State) : Placed s (releaseFrame f s) := by
  unfold releaseFrame
  split
  · exact placed_releaseRef ..
  · exact .refl s

theorem placed_endFrame (t : Nat) (s : State) : Placed s (endFrame t s) := (placed_releaseFrame ..).after rfl rfl

theorem placed_takePollReply (cell : Nat) (mark : Byte) (heard : List Addr) (s : State) :
    Placed s (takePollReply cell mark heard s) := by
  have answer : Placed s (answerPoll cell s) := by
    unfold answerPoll
    split
    · exact .refl s
    · dsimp only
      split
      · exact (placed_pushNotice ..).after rfl rfl
      · exact .of_eq rfl rfl
  have hearing : ∀ x a, Placed x (hearAddress cell x a) := fun x a => by
    unfold hearAddress
    split
    · exact .refl x
    · split
      · split
        · exact placed_hear ..
        · exact .refl x
      · exact .refl x
  unfold takePollReply
  dsimp only
  split
  · exact (answer.trans (Placed.foldl hearing ..)).trans ((placed_bump ..).trans (placed_press ..))
  · exact answer.trans (Placed.foldl hearing ..)

/-! ## Holds, links, airtime, weights -/

theorem placed_updateCellsOf (t : Nat) (f : Cell → Cell) (s : State) : Placed s (updateCellsOf t f s) := .of_eq rfl rfl

theorem placed_startDrain (t : Nat) (tag : Byte) (s : State) : Placed s (startDrain t tag s) :=
  ((Placed.foldl (fun s n => placed_applyDecision n none s) ..).trans
    (Placed.foldl (fun s cell => placed_reload cell s) ..)).after rfl rfl

theorem placed_readmitTrunk (t : Nat) (s : State) : Placed s (readmitTrunk t s) :=
  Placed.foldl (fun s cell => placed_readmit cell s) ..

theorem placed_cancelDrain (t : Nat) (s : State) : Placed s (cancelDrain t s) :=
  ((placed_pushNotice ..).trans (placed_readmitTrunk ..)).after rfl rfl

theorem placed_releaseHeld (t : Nat) (s : State) : Placed s (releaseHeld t s) :=
  ((placed_mapStations _ _ (fun _ st => by split <;> rfl)).trans (placed_readmitTrunk ..)).after rfl rfl

theorem placed_cancelHoldByLoss (t : Nat) (s : State) : Placed s (cancelHoldByLoss t s) := by
  unfold cancelHoldByLoss
  dsimp only
  split
  · exact placed_pushNotice ..
  · exact .refl s

theorem placed_dropLink (t : Nat) (s : State) : Placed s (dropLink t s) :=
  ((placed_releaseFrame ..).trans (placed_updateCellsOf ..)).after rfl rfl

theorem placed_restoreTrunk (t : Nat) (s : State) : Placed s (restoreTrunk t s) := by
  unfold restoreTrunk
  dsimp only
  split
  · exact ((placed_pushNotice ..).trans (placed_updateCellsOf ..)).after rfl rfl
  · exact (placed_pushNotice ..).after rfl rfl

theorem placed_applyAirtime (cell : Nat) (m : AirtimeMask) (v : AirtimeValues) (a : Account) (s : State) :
    Placed s (applyAirtime cell m v a s) := by
  have hreload : ∀ x, Placed x (reload cell x) := fun x => by
    unfold reload
    split
    · exact .refl x
    · exact .of_eq rfl rfl
  have ite : ∀ (p : Prop) [Decidable p] (f : State → State) (x : State), (∀ y, Placed y (f y)) → Placed s x →
      Placed s (if p then f x else x) := fun p _ f x hf hx => by
    split
    · exact hx.trans (hf x)
    · exact hx
  refine ite _ (refreshRates cell) _ (placed_refreshRates cell) (ite _ (readmit cell) _ (placed_readmit cell)
    (Placed.trans ?_ (placed_shed ..)))
  exact ite _ (reload cell) _ hreload (.of_eq rfl rfl)

theorem placed_applyWeights (w : ClassWeights) (s : State) : Placed s (applyWeights w s) :=
  ((placed_mapStations ..).trans (Placed.foldl (fun s cell => placed_reweigh cell s) ..)).after rfl rfl

theorem placed_passTime (s : State) : Placed s (passTime s) := by
  have joins : ∀ due x, Placed x (queueDue due x) := fun due x => by
    obtain ⟨l, _, _, h⟩ := queueDue_joins due x
    rw [h]
    exact .of_eq rfl rfl
  have moments : ∀ n x, Placed x (passMoments n x) := fun n x => (placed_mapStations ..).after rfl rfl
  have cut : ∀ n x, Placed x (refine n x) := fun n x => (placed_mapStations ..).after rfl rfl
  have coarse : ∀ x, Placed x (coarsen x) := fun x => (placed_mapStations ..).after rfl rfl
  rcases passTime_cases s with ⟨lack, rate, _, h⟩ | ⟨_, h⟩ <;> rw [h]
  · exact (cut _ _).trans ((moments _ _).trans (joins _ _))
  · have clock : ∀ x v, Placed x (x.setTime v) := fun x v => .of_eq rfl rfl
    have purge : ∀ x v, Placed x (x.setPurge v) := fun x v => .of_eq rfl rfl
    refine Placed.trans ?_ (joins _ _)
    rw [passTick_eq]
    exact (moments _ _).trans ((clock _ _).trans ((coarse _).trans (purge _ _)))

end Sys2Proof.Machine
end

section
/-! PROOFS. A station is MOVING exactly while a handover record names it (R53, R69): the operations that move a station or a record keep the
law, each by what it does at its one station; so does every event that is made of them. -/

namespace Sys2Proof.Machine

variable {s t u : State} {i : Nat}

/-! ## The law and the one station that an operation moves -/

/-- The law of handovers over a station table in canonical form. -/
structure State.Tied (s : State) : Prop where
  wf  : s.stations.wf = true
  law : s.HandoverLaw

/-- Nothing outside a station's place and the handover records bears on the law. -/
theorem Placed.tied (h : Placed s t) (hs : s.Tied) : t.Tied where
  wf := h.wf hs.wf
  law :=
    { moving := fun i x hx => by
        rw [h.handovers] at hx
        obtain ⟨st, since, hst, hp, hne⟩ := hs.law.moving i x hx
        obtain ⟨now, hnow, hplace⟩ := Option.map_eq_some_iff.mp ((h.places i).trans (by rw [hst]; rfl))
        exact ⟨now, since, hnow, hplace.trans hp, hne⟩
      record := fun i now hnow hm => by
        obtain ⟨st, hst, hplace⟩ := Option.map_eq_some_iff.mp ((h.places i).symm.trans (by rw [hnow]; rfl))
        rw [h.handovers]
        exact hs.law.record i st hst (by rw [hplace]; exact hm) }

theorem State.Tied.of_eq (hs : s.Tied) (hh : t.handovers = s.handovers) (ht : t.stations = s.stations) : t.Tied :=
  (Placed.of_eq hh ht).tied hs

/-- A change at one station keeps the law where it leaves that station neither a handover record nor the state MOVING. -/
theorem State.Tied.settle (hs : s.Tied) (i : Nat) (hw : t.stations.wf = true)
    (hplaces : ∀ j, j ≠ i → (t.stations.look j).map (·.place) = (s.stations.look j).map (·.place))
    (hrecords : ∀ j, j ≠ i → t.handovers.look j = s.handovers.look j) (hno : t.handovers.look i = none)
    (hrest : ∀ st, t.stations.look i = some st → st.place.isMoving = false) : t.Tied where
  wf := hw
  law :=
    { moving := fun j x hx => by
        have hj : j ≠ i := by rintro rfl; rw [hno] at hx; cases hx
        rw [hrecords j hj] at hx
        obtain ⟨st, since, hst, hp, hne⟩ := hs.law.moving j x hx
        obtain ⟨now, hnow, hplace⟩ := Option.map_eq_some_iff.mp ((hplaces j hj).trans (by rw [hst]; rfl))
        exact ⟨now, since, hnow, hplace.trans hp, hne⟩
      record := fun j now hnow hm => by
        have hj : j ≠ i := by rintro rfl; rw [hrest now hnow] at hm; cases hm
        obtain ⟨st, hst, hplace⟩ := Option.map_eq_some_iff.mp ((hplaces j hj).symm.trans (by rw [hnow]; rfl))
        rw [hrecords j hj]
        exact hs.law.record j st hst (by rw [hplace]; exact hm) }

/-- A station that is not MOVING has no handover record. -/
theorem State.Tied.no_record (hs : s.Tied) (h : ∀ st, s.stations.look i = some st → st.place.isMoving = false) :
    s.handovers.look i = none := by
  refine Option.eq_none_iff_forall_ne_some.mpr fun x hx => ?_
  obtain ⟨st, since, hst, hp, -⟩ := hs.law.moving i x hx
  have := h st hst
  rw [hp] at this
  cases this

/-- A station at rest is written over any record that is not MOVING. -/
theorem State.Tied.put (hs : s.Tied) (hno : s.handovers.look i = none) {now : Station} (hrest : now.place.isMoving = false) :
    (s.setStations (s.stations.put i now)).Tied :=
  hs.settle i (Table.wf_put _ _ _ hs.wf) (fun j hj => by rw [setStations_stations, Table.look_put, if_neg hj]) (fun _ _ => rfl) hno
    fun st hst => by
      rw [setStations_stations, Table.look_put, if_pos rfl] at hst
      rw [← Option.some.inj hst]
      exact hrest

/-- The handover record goes as the station comes to rest. -/
theorem State.Tied.drop_put (hs : s.Tied) {now : Station} (hrest : now.place.isMoving = false) :
    ((s.setHandovers (s.handovers.drop i)).setStations (s.stations.put i now)).Tied :=
  hs.settle i (Table.wf_put _ _ _ hs.wf) (fun j hj => by rw [setStations_stations, Table.look_put, if_neg hj])
    (fun j hj => by rw [setStations_handovers, setHandovers_handovers, Table.look_drop, if_neg hj])
    (by rw [setStations_handovers, setHandovers_handovers, Table.look_drop, if_pos rfl])
    fun st hst => by
      rw [setStations_stations, Table.look_put, if_pos rfl] at hst
      rw [← Option.some.inj hst]
      exact hrest

theorem tied_foldl {α : Type} {f : State → α → State} (hf : ∀ s a, s.Tied → (f s a).Tied) (l : List α) (hs : s.Tied) :
    (l.foldl f s).Tied := by
  induction l generalizing s with
  | nil => exact hs
  | cons a rest ih => exact ih (hf s a hs)

/-! ## Dormancy and release (R60, R65) -/

theorem placed_goDormant {st : Station} {cell : Nat} (hst : s.stations.look i = some st) (hc : st.place.cell? = some cell) :
    Placed (s.setStations (s.stations.put i (dormantFrom cell st))) (goDormant i s) := by
  rw [goDormant_eq hst hc]
  have left : Placed (s.setStations (s.stations.put i (dormantFrom cell st))) (leftCell i cell st s) :=
    (placed_dropMembers ..).trans (placed_reweigh ..)
  have aged : ∀ x, Placed x (oweIfAged i st x) := fun x => by rw [oweIfAged_frame]; exact .of_eq rfl rfl
  exact left.trans ((placed_releaseAll ..).trans ((placed_bumpPart ..).trans (aged _)))

theorem goDormant_of_none (h : ∀ st, s.stations.look i = some st → st.place.cell? = none) : goDormant i s = s := by
  unfold goDormant
  cases hst : s.stations.look i with
  | none => rfl
  | some st => simp only [h st hst]

theorem goDormant_handovers (i : Nat) (s : State) : (goDormant i s).handovers = s.handovers := by
  cases hst : s.stations.look i with
  | none => rw [goDormant_of_none (by simp [hst])]
  | some st =>
    cases hc : st.place.cell? with
    | none => rw [goDormant_of_none fun x hx => by rw [hst] at hx; rw [← Option.some.inj hx]; exact hc]
    | some cell => exact (placed_goDormant hst hc).handovers

theorem tied_goDormant (hs : s.Tied) (hno : s.handovers.look i = none) : (goDormant i s).Tied := by
  by_cases h : ∀ st, s.stations.look i = some st → st.place.cell? = none
  · rw [goDormant_of_none h]
    exact hs
  · push Not at h
    obtain ⟨st, hst, hc⟩ := h
    obtain ⟨cell, hc⟩ := Option.ne_none_iff_exists'.mp hc
    exact (placed_goDormant hst hc).tied (hs.put hno rfl)

theorem tied_cancelToDormant (hs : s.Tied) (i : Nat) : (cancelToDormant i s).Tied := by
  refine (placed_bumpPart ..).tied ?_
  by_cases h : ∀ st, s.stations.look i = some st → st.place.cell? = none
  · rw [goDormant_of_none (s := s.setHandovers (s.handovers.drop i)) h]
    refine hs.settle i hs.wf (fun _ _ => rfl) (fun j hj => by rw [setHandovers_handovers, Table.look_drop, if_neg hj])
      (by rw [setHandovers_handovers, Table.look_drop, if_pos rfl]) fun st hst => ?_
    have := h st hst
    cases hp : st.place <;> simp_all [Place.cell?, Place.isMoving]
  · push Not at h
    obtain ⟨st, hst, hc⟩ := h
    obtain ⟨cell, hc⟩ := Option.ne_none_iff_exists'.mp hc
    exact (placed_goDormant (s := s.setHandovers (s.handovers.drop i)) hst hc).tied (hs.drop_put rfl)

/-- The record and its handover record FREE, the ticket INSIDE (R65, steps 1 and 3). -/
def freedRecord (i : Nat) (st : Station) (s : State) : State :=
  ticketToInside st.ticket ((s.setStations (s.stations.drop i)).setHandovers (s.handovers.drop i))

/-- A station that is counted at no cell leaves nothing but its queue. -/
theorem freeStation_uncounted {st : Station} (hst : s.stations.look i = some st) (hc : st.place.cell? = none) :
    freeStation i s = releaseAll (st.queue.map (·.buffer)) (freedRecord i st s) := by
  simp only [freeStation, hst, hc]
  rfl

theorem freeStation_counted {st : Station} {cell : Nat} (hst : s.stations.look i = some st) (hc : st.place.cell? = some cell) :
    freeStation i s = releaseAll (st.queue.map (·.buffer))
      (reweigh cell (st.members.foldl (fun s m => dropMember m.channel cell s) (freedRecord i st s))) := by
  simp only [freeStation, hst, hc]
  rfl

theorem placed_freeStation {st : Station} (hst : s.stations.look i = some st) :
    Placed ((s.setStations (s.stations.drop i)).setHandovers (s.handovers.drop i)) (freeStation i s) := by
  have ticket : Placed ((s.setStations (s.stations.drop i)).setHandovers (s.handovers.drop i)) (freedRecord i st s) := by
    unfold freedRecord
    cases st.ticket <;> exact .of_eq rfl rfl
  cases hc : st.place.cell? with
  | none =>
    rw [freeStation_uncounted hst hc]
    exact ticket.trans (placed_releaseAll ..)
  | some cell =>
    rw [freeStation_counted hst hc]
    exact ticket.trans ((placed_dropMembers ..).trans ((placed_reweigh ..).trans (placed_releaseAll ..)))

theorem tied_freeStation (hs : s.Tied) (i : Nat) : (freeStation i s).Tied := by
  cases hst : s.stations.look i with
  | none => rw [freeStation, hst]; exact hs
  | some st =>
    refine (placed_freeStation hst).tied (hs.settle i (Table.wf_drop _ _ hs.wf) (fun j hj => ?_) (fun j hj => ?_) ?_ fun now h => ?_)
    · rw [setHandovers_stations, setStations_stations, Table.look_drop, if_neg hj]
    · rw [setHandovers_handovers, Table.look_drop, if_neg hj]
    · rw [setHandovers_handovers, Table.look_drop, if_pos rfl]
    · rw [setHandovers_stations, setStations_stations, Table.look_drop, if_pos rfl] at h
      cases h

theorem tied_expireStation (i : Nat) (s : State) (hs : s.Tied) : (expireStation i s).Tied := by
  unfold expireStation
  split
  · exact hs
  · split
    · exact (placed_bumpPart ..).tied (tied_freeStation hs i)
    · exact hs

/-! ## Attach and handover (R56 to R58, R71 to R81) -/

theorem tied_attachNew (hs : s.Tied) (hno : s.handovers.look i = none) (cell : Nat) (addr : Addr) : (attachNew i cell addr s).Tied :=
  ((placed_reweigh ..).trans ((placed_fillCredit ..).trans (placed_postSignal ..))).tied (hs.put hno rfl)

theorem State.reclaimable_spec (hw : s.stations.wf = true) (h : s.reclaimable = some i) :
    ∃ st, s.stations.look i = some st ∧ st.place = .dormant := by
  obtain ⟨⟨j, st⟩, hbest, rfl⟩ := Option.map_eq_some_iff.mp h
  obtain ⟨hmem, hp⟩ := List.mem_filter.mp (bestBy_mem hbest)
  exact ⟨st, (Table.mem_entries hw).mp hmem, beq_iff_eq.mp hp⟩

theorem tied_attachUnknown (hs : s.Tied) (cell : Nat) (addr : Addr) : (attachUnknown cell addr s).Tied := by
  unfold attachUnknown
  split
  · next i hi =>
    refine tied_attachNew hs (hs.no_record fun st hst => ?_) cell addr
    rw [(Table.lowestFree_spec _ _ _ hi).2.1] at hst
    cases hst
  · split
    · next i hi =>
      obtain ⟨st, hst, -⟩ := State.reclaimable_spec hs.wf hi
      refine tied_attachNew ((placed_bumpPart .reclaimed _).tied (tied_freeStation hs i)) ?_ cell addr
      show (freeStation i s).handovers.look i = none
      rw [(placed_freeStation hst).handovers, setHandovers_handovers, Table.look_drop, if_pos rfl]
    · exact ((placed_postSignal ..).trans ((placed_bumpPart ..).trans (placed_raiseLatch ..))).tied hs

theorem tied_completeHandover (hs : s.Tied) (i oldCell newCell : Nat) : (completeHandover i oldCell newCell s).Tied := by
  unfold completeHandover
  split
  · exact hs
  · exact ((placed_reweigh ..).trans ((placed_reweigh ..).trans ((placed_postSignal ..).trans ((placed_carryMemberships ..).trans
      (placed_fillCredit ..))))).tied (hs.drop_put rfl)

theorem tied_endHandover (hs : s.Tied) (i : Nat) : (endHandover i s).Tied := by
  unfold endHandover
  split
  · exact hs
  · exact (placed_bumpPart ..).tied (tied_completeHandover hs ..)

theorem tied_forceHandover (i : Nat) (s : State) (hs : s.Tied) : (forceHandover i s).Tied := by
  unfold forceHandover
  split
  · exact hs
  · exact (placed_bumpPart ..).tied (tied_endHandover hs i)

theorem tied_cancelToOld (i : Nat) (s : State) (hs : s.Tied) : (cancelToOld i s).Tied := by
  unfold cancelToOld
  split
  · exact hs
  · split
    · exact ((placed_postSignal ..).trans (placed_bumpPart ..)).tied (hs.drop_put rfl)
    · exact hs

/-- A handover record that is written for a station MOVING from its old cell keeps the law (R71, R81). -/
theorem State.Tied.record (hs : s.Tied) {h : Handover} {st : Station} {since : Clock} (hw : t.stations.wf = true)
    (hplaces : ∀ j, j ≠ i → (t.stations.look j).map (·.place) = (s.stations.look j).map (·.place))
    (hrecords : t.handovers = s.handovers.put i h) (hst : t.stations.look i = some st) (hp : st.place = .moving h.oldCell since)
    (hne : h.oldCell ≠ h.newCell) : t.Tied where
  wf := hw
  law :=
    { moving := fun j x hx => by
        rw [hrecords, Table.look_put] at hx
        split at hx
        · next hj =>
          obtain rfl := Option.some.inj hx
          exact ⟨st, since, hj ▸ hst, hp, hne⟩
        · next hj =>
          obtain ⟨old, since, hold, hp, hne⟩ := hs.law.moving j x hx
          obtain ⟨now, hnow, hplace⟩ := Option.map_eq_some_iff.mp ((hplaces j hj).trans (by rw [hold]; rfl))
          exact ⟨now, since, hnow, hplace.trans hp, hne⟩
      record := fun j now hnow hm => by
        rw [hrecords, Table.look_put]
        split
        · rfl
        · next hj =>
          obtain ⟨old, hold, hplace⟩ := Option.map_eq_some_iff.mp ((hplaces j hj).symm.trans (by rw [hnow]; rfl))
          exact hs.law.record j old hold (by rw [hplace]; exact hm) }

theorem tied_startHandover (hs : s.Tied) {st : Station} {oldCell newCell : Nat} (hst : s.stations.look i = some st)
    (hne : oldCell ≠ newCell) (addr : Addr) (since : Clock) : (startHandover i oldCell newCell addr since s).Tied := by
  unfold startHandover
  dsimp only
  split
  · exact ((placed_bumpPart ..).trans (placed_bumpPart ..)).tied (tied_completeHandover ((placed_hear ..).tied hs) ..)
  · split
    · exact ((placed_postSignal ..).trans (placed_bumpPart ..)).tied hs
    · refine ((placed_hear ..).trans (placed_postSignal ..)).tied ?_
      refine hs.record (h := ⟨oldCell, newCell, s.now⟩) (Table.wf_modify _ _ _ hs.wf) (fun j hj => ?_) rfl
        (by rw [look_updateStation, if_pos rfl]; exact congrArg (Option.map _) hst) rfl hne
      rw [look_updateStation, if_neg hj]
      rfl

theorem tied_requestWhileMoving (hs : s.Tied) (i cell : Nat) (addr : Addr) : (requestWhileMoving i cell addr s).Tied := by
  unfold requestWhileMoving
  split
  · exact hs
  · next h hh =>
    split
    · exact hs
    · split
      · exact ((placed_hear ..).trans (placed_postSignal ..)).tied (tied_cancelToOld i s hs)
      · next hnew hold =>
        obtain ⟨st, since, hst, hp, -⟩ := hs.law.moving i h hh
        refine ((placed_hear ..).trans (placed_postSignal ..)).tied ?_
        exact hs.record (h := { h with newCell := cell }) hs.wf (fun _ _ => rfl) rfl hst hp (Ne.symm hold)

theorem tied_takeAttach (hs : s.Tied) (cell : Nat) (addr : Addr) : (takeAttach cell addr s).Tied := by
  unfold takeAttach
  split
  · exact tied_attachUnknown hs cell addr
  · next i st hfound =>
    have hst := (State.stationWith_spec hs.wf hfound).2
    split
    · next hp =>
      have hno := hs.no_record (i := i) fun x hx => by rw [hst] at hx; rw [← Option.some.inj hx, hp]; rfl
      exact ((placed_reweigh ..).trans ((placed_fillCredit ..).trans (placed_postSignal ..))).tied (hs.put hno rfl)
    · split
      · exact ((placed_hear ..).trans (placed_postSignal ..)).tied hs
      · next hne => exact tied_startHandover hs hst hne addr _
    · exact tied_requestWhileMoving hs ..

theorem tied_takeRelease (hs : s.Tied) (cell : Nat) (addr : Addr) (n : Byte) : (takeRelease cell addr n s).Tied := by
  have counted : (advance (.cell cell .framesLost) n.toNat s).Tied := (placed_advance ..).tied hs
  unfold takeRelease
  dsimp only
  split
  · exact tied_endHandover counted _
  · exact (placed_bumpPart ..).tied counted

theorem tied_takeDepart (hs : s.Tied) (cell : Nat) (addr : Addr) : (takeDepart cell addr s).Tied := by
  have ignored : (bumpPart .departuresIgnored s).Tied := (placed_bumpPart ..).tied hs
  unfold takeDepart
  split
  · exact ignored
  · next i st hfound =>
    have hst := (State.stationWith_spec hs.wf hfound).2
    split
    · next hp =>
      split
      · exact tied_goDormant hs (hs.no_record fun x hx => by rw [hst] at hx; rw [← Option.some.inj hx, hp]; rfl)
      · exact ignored
    · unfold departWhileMoving
      split
      · exact ignored
      · split
        · exact tied_endHandover hs _
        · split
          · exact tied_cancelToDormant hs _
          · exact ignored
    · exact ignored

theorem tied_evict (hs : s.Tied) (i : Nat) (st : Station) : (evict i st s).Tied := by
  refine (placed_bumpPart ..).tied (tied_freeStation ?_ i)
  split
  · unfold refuseEvicted
    split
    · exact hs
    · exact (placed_postSignal ..).tied hs
  · exact hs

/-! ## Cells that go DOWN, trunks that enter HELD (R10, R12, R16) -/

theorem tied_foldl_goDormant (hs : s.Tied) {l : List Nat} (hno : ∀ i ∈ l, s.handovers.look i = none) :
    (l.foldl (fun s i => goDormant i s) s).Tied := by
  induction l generalizing s with
  | nil => exact hs
  | cons i rest ih =>
    refine ih (tied_goDormant hs (hno i (List.mem_cons_self ..))) fun j hj => ?_
    rw [goDormant_handovers]
    exact hno j (List.mem_cons_of_mem _ hj)

/-- Stations ASSOCIATED somewhere have no handover record. -/
theorem State.Tied.no_record_of_associated (hs : s.Tied) {cell : Nat}
    (hi : i ∈ s.stations.keysWhere fun _ st => st.place.associatedAt cell) : s.handovers.look i = none := by
  obtain ⟨st, hst, hp⟩ := (Table.mem_keysWhere hs.wf).mp hi
  obtain ⟨since, hp⟩ := Place.associatedAt_iff.mp hp
  exact hs.no_record fun x hx => by rw [hst] at hx; rw [← Option.some.inj hx, hp]; rfl

theorem tied_cellDown (hs : s.Tied) (cell : Nat) (cause : DownCause) : (cellDown cell cause s).Tied := by
  have ended : ∀ l m : List Nat, (m.foldl (fun s i => cancelToOld i s)
      (l.foldl (fun s i => forceHandover i s) (markedDown cell s))).Tied := fun l m =>
    tied_foldl (fun s i => tied_cancelToOld i s) _ (tied_foldl (fun s i => tied_forceHandover i s) _ (hs.of_eq rfl rfl))
  exact (placed_pushNotice ..).tied
    (tied_foldl_goDormant (ended _ _) fun i hi => (ended _ _).no_record_of_associated hi)

theorem tied_enterHeld (hs : s.Tied) (t : Nat) : (enterHeld t s).Tied := by
  have marked : ∀ v f, (updateCellsOf t f (pushNotice (.trunkHeld t (s.trunk t).holdTag) (s.setTrunk t v))).Tied := fun v f =>
    ((placed_pushNotice ..).trans (placed_updateCellsOf ..)).tied (hs.of_eq rfl rfl)
  refine (placed_mapStations _ _ fun _ st => by split <;> rfl).tied ?_
  exact tied_foldl (fun s i => tied_cancelToOld i s) _ (tied_foldl (fun s i => tied_forceHandover i s) _ (marked _ _))

theorem tied_loseCell (s : State) (cell : Nat) (hs : s.Tied) : (loseCell s cell).Tied := by
  unfold loseCell
  split
  · exact hs
  · split
    · exact hs.of_eq rfl rfl
    · exact tied_cellDown hs cell _

theorem tied_loseTrunk (hs : s.Tied) (t : Fin 8) : (loseTrunk t s).Tied :=
  ((placed_raiseLatch ..).trans (placed_pushNotice ..)).tied
    (tied_foldl tied_loseCell _ (((placed_cancelHoldByLoss ..).trans (placed_dropLink ..)).tied hs))

theorem tied_removeConfigured (hs : s.Tied) (cell : Nat) (c : Cell) : (removeConfigured cell c s).Tied := by
  have down : (if c.state = .down then s else cellDown cell .removed s).Tied := by
    split
    · exact hs
    · exact tied_cellDown hs cell _
  exact down.of_eq rfl rfl

/-! ## Sending and the close (R7, R30, R63, log 9) -/

theorem tied_settlePoll (hs : s.Tied) (cell : Nat) : (settlePoll cell s).Tied := by
  have counted : (bump (.cell cell .pollsMissed) s).Tied := (placed_bump ..).tied hs
  unfold settlePoll
  split
  · exact hs
  · split
    · exact hs
    · dsimp only
      split
      · exact counted.of_eq rfl rfl
      · split
        · exact tied_cellDown counted cell _
        · exact counted

theorem tied_sendPoll (hs : s.Tied) (t cell : Nat) : (sendPoll t cell s).Tied := by
  rw [sendPoll_eq]
  exact (tied_settlePoll ((placed_startFrame t (.poll cell) false s).tied hs) cell).of_eq rfl rfl

theorem tied_send (hs : s.Tied) (t : Nat) (c : Choice) : (send t c s).Tied := by
  cases c with
  | poll cell => exact tied_sendPoll hs t cell
  | signal m => exact (placed_sendSignal ..).tied hs
  | replay n => exact (placed_sendReplay ..).tied hs
  | station i => exact (placed_sendStation ..).tied hs

theorem tied_serveLinks (fuel : Nat) (hs : s.Tied) : (serveLinks fuel s).Tied := by
  induction fuel generalizing s with
  | zero => exact hs
  | succ fuel ih =>
    unfold serveLinks
    split
    · exact hs
    · exact ih ((placed_settleAccounts _).tied (tied_send hs ..))

theorem tied_checkDrain (s : State) (t : Nat) (hs : s.Tied) : (checkDrain s t).Tied := by
  unfold checkDrain
  split
  · exact (placed_settleAccounts _).tied (tied_enterHeld hs t)
  · exact hs

theorem tied_closeEvent (hs : s.Tied) : (closeEvent s).Tied := by
  have served : ∀ x : State, x.Tied → (runExpiries x).Tied := fun x hx =>
    tied_foldl (fun s i => tied_expireStation i s) _ (hx.of_eq rfl rfl)
  exact served _ ((placed_serveBackbone _).tied
    (tied_serveLinks _ (tied_foldl tied_checkDrain _ ((placed_settleAccounts s).tied hs))))

theorem tied_takeOrder (kind : OrderKind) (h : OrderHead) {rule : State → Answer} (hs : s.Tied) (hr : (rule s).state.Tied) :
    (takeOrder kind h rule s).Tied := by
  unfold takeOrder
  split
  · exact hs
  · refine (placed_placeReply ..).tied ?_
    split
    · exact hr
    · exact hs

theorem tied_takeActing (kind : OrderKind) (h : OrderHead) {rule : State → Answer} (hs : s.Tied) (hr : (rule s).state.Tied) :
    (takeActing kind h rule s).Tied := by
  unfold takeActing
  split
  · exact hs
  · have answered : (if h.bodyFits then rule s else refuse .badArgument s).state.Tied := by
      split
      · exact hr
      · exact hs
    generalize (if h.bodyFits then rule s else refuse .badArgument s) = a at answered ⊢
    have replied := (placed_placeReply (.order kind) h.tag a.status a.body a.state).tied answered
    dsimp only
    split
    · exact tied_closeEvent replied
    · exact replied

theorem tied_takeMessage (f : Fate) {owner : State → State} (hs : s.Tied) (ho : (owner s).Tied) : (takeMessage f owner s).Tied := by
  unfold takeMessage
  split
  · exact hs
  · exact (placed_bump ..).tied hs
  · exact tied_closeEvent ho

end Sys2Proof.Machine
end

section
/-! PROOFS. Every command and the passage of time keep the law of handovers (R53, R69). -/

namespace Sys2Proof.Machine

variable {s t : State}

/-! ## Rules of orders -/

theorem tied_ruleReferral (hs : s.Tied) (id : BitVec 16) (r : Ruling) : (ruleRuleReferral id r s).state.Tied := by
  have reject : (ruleReject id s).state.Tied := by
    unfold ruleReject
    split
    · exact hs
    · split
      · exact ((placed_unpark ..).trans (placed_giveVerdict ..)).tied hs
      · exact (placed_bumpPart ..).tied hs
  have park : ∀ p n x, (acceptParked p n x s).state.Tied := fun p n x => by
    unfold acceptParked
    dsimp only
    split
    · exact (placed_judgeParked ..).tied (hs.of_eq rfl rfl)
    · exact ((placed_unpark ..).trans ((placed_giveVerdict ..).trans (placed_bumpPart ..))).tied hs
  have accept : ∀ n x, (ruleAccept id n x s).state.Tied := fun n x => by
    unfold ruleAccept
    split
    · split
      · exact hs
      · split
        · exact hs
        · exact park ..
    · split
      · exact hs
      · exact ((placed_loadRecord ..).trans (placed_bumpPart ..)).tied hs
  unfold ruleRuleReferral
  split
  · exact hs
  · exact reject
  · exact hs
  · split
    · exact hs
    · exact accept ..

theorem tied_ruleVoidTicket (hs : s.Tied) (n : TicketNumber) : (ruleVoidTicket n s).state.Tied := by
  unfold ruleVoidTicket
  split
  · exact hs
  · split
    · exact hs
    · split
      · exact hs
      · split
        · exact hs
        · exact (placed_voidOne ..).tied hs

theorem tied_ruleUnlockTicket (hs : s.Tied) (n : TicketNumber) : (ruleUnlockTicket n s).state.Tied := by
  unfold ruleUnlockTicket
  split
  · exact hs
  · split
    · exact hs
    · split
      · exact hs
      · split
        · exact hs
        · exact hs.of_eq rfl rfl

theorem tied_ruleQueryTicket (hs : s.Tied) (n : TicketNumber) : (ruleQueryTicket n s).state.Tied := by
  unfold ruleQueryTicket
  split
  · exact hs
  · split
    · exact hs
    · split <;> exact hs

theorem tied_ruleConfigureCell (hs : s.Tied) (cell : Nat) (kind : Option CellKind) : (ruleConfigureCell cell kind s).state.Tied := by
  unfold ruleConfigureCell
  split
  · exact hs
  · split
    · exact hs
    · split
      · exact hs.of_eq rfl rfl
      · split
        · exact hs
        · exact hs.of_eq rfl rfl

theorem tied_ruleHoldTrunk (hs : s.Tied) (k : Nat) (tag : Byte) : (ruleHoldTrunk k tag s).state.Tied := by
  unfold ruleHoldTrunk
  split
  · exact hs
  · split
    · exact hs
    · split
      · exact (placed_startDrain ..).tied hs
      · exact hs
      · exact hs
      · exact hs

theorem tied_ruleReleaseTrunk (hs : s.Tied) (k : Nat) : (ruleReleaseTrunk k s).state.Tied := by
  unfold ruleReleaseTrunk
  split
  · exact hs
  · split
    · exact hs
    · split
      · exact hs
      · exact hs
      · exact (placed_cancelDrain ..).tied hs
      · exact (placed_releaseHeld ..).tied hs

theorem tied_ruleSetCellAirtime (hs : s.Tied) (cell : Nat) (m : AirtimeMask) (v : AirtimeValues) :
    (ruleSetCellAirtime cell m v s).state.Tied := by
  unfold ruleSetCellAirtime
  split
  · exact hs
  · split
    · exact hs
    · exact (placed_applyAirtime ..).tied hs

theorem tied_ruleLoadTickets (hs : s.Tied) (n : Nat) (records : List TicketFields) : (ruleLoadTickets n records s).state.Tied := by
  unfold ruleLoadTickets
  split
  · exact hs
  · split
    · exact hs
    · exact (placed_loadAll ..).tied hs

theorem tied_ruleDefineChannel (hs : s.Tied) (k : Nat) (e : ClassFlags) (r : RecoveryField) (f : TierFields)
    (rd : Option TierFields) : (ruleDefineChannel k e r f rd s).state.Tied := by
  unfold ruleDefineChannel
  split
  · exact hs
  · split
    · exact hs
    · split <;> exact hs.of_eq rfl rfl

theorem tied_ruleOpenChannel (hs : s.Tied) (k : Nat) : (ruleOpenChannel k s).state.Tied := by
  unfold ruleOpenChannel
  split
  · exact hs
  · split
    · exact hs
    · split
      · exact hs
      · split <;> exact hs.of_eq rfl rfl

theorem tied_ruleCloseChannel (hs : s.Tied) (k : Nat) : (ruleCloseChannel k s).state.Tied := by
  unfold ruleCloseChannel
  split
  · exact hs
  · split
    · exact hs
    · split
      · exact (placed_closeOpen ..).tied hs
      · exact hs

theorem tied_ruleRemoveCell (hs : s.Tied) (cell : Nat) : (ruleRemoveCell cell s).state.Tied := by
  unfold ruleRemoveCell
  split
  · exact hs
  · split
    · exact hs
    · exact tied_removeConfigured hs ..

theorem tied_ruleEvictStation (hs : s.Tied) (sel : StationSelector) : (ruleEvictStation sel s).state.Tied := by
  unfold ruleEvictStation
  split
  · exact hs
  · exact hs
  · exact tied_evict hs ..

theorem tied_ruleSetEntryPolicy (hs : s.Tied) (n : Nat) (mode : Option SeatMode) : (ruleSetEntryPolicy n mode s).state.Tied := by
  unfold ruleSetEntryPolicy
  split
  · exact hs
  · split <;> exact hs.of_eq rfl rfl

/-! ## Timed events, backbone frames, resets -/

theorem tied_next {o : Outcome} (h : o = .next t) (ht : t.Tied) : (stateAfter s o).Tied := by
  rw [h]
  exact ht

theorem tied_handoverTimerExpiry (i : Nat) (s : State) (hs : s.Tied) : (stateAfter s (execHandoverTimerExpiry i s)).Tied := by
  refine tied_next rfl ?_
  split
  · exact hs
  · split
    · exact tied_closeEvent (tied_forceHandover i s hs)
    · exact hs

theorem tied_referralTimerExpiry (id : BitVec 16) (s : State) (hs : s.Tied) :
    (stateAfter s (execReferralTimerExpiry id s)).Tied := by
  refine tied_next rfl ?_
  split
  · exact hs
  · split
    · exact tied_closeEvent ((placed_expireReferral ..).tied hs)
    · exact hs

theorem tied_stationAgedDormant (i : Nat) (s : State) (hs : s.Tied) : (stateAfter s (execStationAgedDormant i s)).Tied := by
  refine tied_next rfl ?_
  split
  · exact hs
  · next st hst =>
    split
    · next hold =>
      refine tied_closeEvent (tied_goDormant hs (hs.no_record fun x hx => ?_))
      rw [hst] at hx
      rw [← Option.some.inj hx]
      cases hp : st.place <;> simp_all [State.agedDormant, Place.isAssociated, Place.isMoving]
    · exact hs

theorem tied_stationExpired (i : Nat) (s : State) (hs : s.Tied) : (stateAfter s (execStationExpired i s)).Tied := by
  refine tied_next rfl ?_
  split
  · exact hs
  · split
    · exact tied_closeEvent (tied_expireStation i s hs)
    · exact hs

theorem tied_followTimers (hs : s.Tied) (before : Timers) : (followTimers before s).Tied := by
  have ite : ∀ (p : Prop) [Decidable p] (f : State → State) (x : State), (∀ y, y.Tied → (f y).Tied) → x.Tied →
      (if p then f x else x).Tied := fun p _ f x hf hx => by
    split
    · exact hf x hx
    · exact hx
  exact ite _ ageFree _ (fun y hy => tied_foldl (fun s i => tied_stationExpired i s) _ hy)
    (ite _ ageDormant _ (fun y hy => tied_foldl (fun s i => tied_stationAgedDormant i s) _ hy)
      (ite _ expireReferrals _ (fun y hy => tied_foldl (fun s p => tied_referralTimerExpiry (Parked.id p) s) _ hy)
        (ite _ expireHandovers _ (fun y hy => tied_foldl (fun s i => tied_handoverTimerExpiry i s) _ hy) hs)))

theorem tied_takeBackboneFrame (hs : s.Tied) (dest : Addr) (frameType : BitVec 16) (rest : List Byte) :
    (takeBackboneFrame dest frameType rest s).Tied := by
  have count : ∀ c, (bumpPart c s).Tied := fun c => (placed_bumpPart c s).tied hs
  unfold takeBackboneFrame
  split
  · exact hs
  · split
    · exact count _
    · split
      · split
        · exact count _
        · exact tied_closeEvent ((placed_takeReplay ..).tied hs)
      · exact count _
      · exact count _
      · split
        · exact count _
        · exact tied_closeEvent ((placed_takeDownlink _ _ hs.wf).tied hs)

/-- After a reset there is no station and no handover record. -/
theorem State.tied_of_reset (hh : s.handovers = Table.empty) (hst : s.stations = Table.empty) : s.Tied where
  wf := by rw [hst]; rfl
  law := ⟨fun i x hx => (by rw [hh] at hx; cases hx), fun i st h => (by rw [hst] at h; cases h)⟩

theorem tied_takeReset (hs : s.Tied) (h : OrderHead) (bad : Bool) {reset : State → State}
    (hh : (reset s).handovers = Table.empty) (hst : (reset s).stations = Table.empty) : (takeReset h bad reset s).Tied := by
  unfold takeReset
  split
  · exact hs
  · split
    · exact (placed_placeReply ..).tied hs
    · exact State.tied_of_reset hh hst

theorem tied_purgeOrder (hs : s.Tied) (h : OrderHead) :
    (endEmptyPurge s (takeActing .purgeTickets h (rulePurgeTickets h.tag) s)).Tied := by
  have started : (takeActing .purgeTickets h (rulePurgeTickets h.tag) s).Tied := by
    refine tied_takeActing _ _ hs ?_
    unfold rulePurgeTickets
    split
    · exact hs
    · exact (placed_startPurge ..).tied hs
  unfold endEmptyPurge
  split
  · split
    · exact tied_closeEvent ((placed_endPurge ..).tied started)
    · exact started
  · exact started

/-! ## Every command -/

theorem tied_exec (c : Instr) (hs : s.Tied) : (stateAfter s (exec c s)).Tied := by
  have ite : ∀ (p : Prop) [Decidable p] (x y : State), x.Tied → y.Tied → (if p then x else y).Tied := fun p _ x y hx hy => by
    split
    · exact hx
    · exact hy
  cases c with
  | powerOnReset locks => exact tied_next rfl (State.tied_of_reset rfl rfl)
  | resetFull h bad locks => exact tied_next rfl (tied_takeReset hs h _ rfl rfl)
  | resetKeepTickets h locks => exact tied_next rfl (tied_takeReset hs h _ rfl rfl)
  | trunkLinkLost k => exact tied_next rfl (ite _ _ _ hs (tied_closeEvent (tied_loseTrunk hs k)))
  | trunkLinkRestored k => exact tied_next rfl (ite _ _ _ (tied_closeEvent ((placed_restoreTrunk ..).tied hs)) hs)
  | backboneLinkLost =>
    refine tied_next rfl ?_
    split
    · exact hs.of_eq rfl rfl
    · exact (placed_releaseRef ..).tied (hs.of_eq rfl rfl)
  | backboneLinkRestored => exact tied_next rfl (tied_closeEvent (hs.of_eq rfl rfl))
  | attachRequest m => exact tied_next rfl (tied_takeMessage _ hs (tied_takeAttach hs ..))
  | releaseDone m n => exact tied_next rfl (tied_takeMessage _ hs (tied_takeRelease hs ..))
  | depart m => exact tied_next rfl (tied_takeMessage _ hs (tied_takeDepart hs ..))
  | pollReply m mark n heard => exact tied_next rfl (tied_takeMessage _ hs ((placed_takePollReply ..).tied hs))
  | ticketClaim m kind n token => exact tied_next rfl (tied_takeMessage _ hs ((placed_takeClaim ..).tied hs))
  | join m channel => exact tied_next rfl (tied_takeMessage _ hs ((placed_takeJoin ..).tied hs))
  | leave m channel => exact tied_next rfl (tied_takeMessage _ hs ((placed_takeLeave ..).tied hs))
  | stationDataUp m payload => exact tied_next rfl (tied_takeMessage _ hs ((placed_takeDataUp ..).tied hs))
  | malformedMessage k n => exact tied_next rfl (tied_takeMessage _ (owner := id) hs hs)
  | replayFrame d o y g p => exact tied_next rfl (tied_takeBackboneFrame hs ..)
  | stationDownlinkFrame d o y p => exact tied_next rfl (tied_takeBackboneFrame hs ..)
  | malformedBackboneFrame => exact tied_next rfl (ite _ _ _ hs (ite _ _ _ ((placed_bumpPart ..).tied hs) ((placed_bumpPart ..).tied hs)))
  | trunkFrameEnd k => exact tied_next rfl (ite _ _ _ hs (tied_closeEvent ((placed_endFrame ..).tied hs)))
  | backboneFrameEnd =>
    refine tied_next rfl ?_
    split
    · exact hs
    · exact tied_closeEvent ((placed_releaseRef ..).tied (hs.of_eq rfl rfl))
  | pollDue cell =>
    refine tied_next rfl ?_
    split
    · exact hs
    · exact ite _ _ _ (tied_closeEvent (hs.of_eq rfl rfl)) hs
  | pollOverdue cell =>
    refine tied_next rfl ?_
    split
    · exact hs
    · exact ite _ _ _ (tied_closeEvent (hs.of_eq rfl rfl)) hs
  | copyDue n =>
    refine tied_next rfl ?_
    split
    · exact hs
    · exact ite _ _ _ (tied_closeEvent hs) hs
  | stationCreditReady i =>
    refine tied_next rfl ?_
    split
    · exact hs
    · exact ite _ _ _ (tied_closeEvent hs) hs
  | drainComplete k => exact tied_next rfl (ite _ _ _ (tied_closeEvent (tied_enterHeld hs _)) hs)
  | handoverTimerExpiry i => exact tied_handoverTimerExpiry i s hs
  | referralTimerExpiry id => exact tied_referralTimerExpiry id s hs
  | stationAgedDormant i => exact tied_stationAgedDormant i s hs
  | stationExpired i => exact tied_stationExpired i s hs
  | purgeBatch =>
    refine tied_next rfl ?_
    split
    · exact hs
    · exact ite _ _ _ hs (tied_closeEvent ((placed_takePurgeBatch ..).tied hs))
  | configureCell h cell kind => exact tied_next rfl (tied_takeActing _ _ hs (tied_ruleConfigureCell hs ..))
  | removeCell h cell => exact tied_next rfl (tied_takeActing _ _ hs (tied_ruleRemoveCell hs cell))
  | queryCell h cell => exact tied_next rfl (tied_takeOrder _ _ hs (by unfold ruleQueryCell; split <;> exact hs))
  | holdTrunk h k => exact tied_next rfl (tied_takeActing _ _ hs (tied_ruleHoldTrunk hs ..))
  | releaseTrunk h k => exact tied_next rfl (tied_takeActing _ _ hs (tied_ruleReleaseTrunk hs k))
  | evictStation h sel => exact tied_next rfl (tied_takeActing _ _ hs (tied_ruleEvictStation hs sel))
  | queryStation h sel => exact tied_next rfl (tied_takeOrder _ _ hs (by unfold ruleQueryStation; split <;> exact hs))
  | loadTickets h n records => exact tied_next rfl (tied_takeActing _ _ hs (tied_ruleLoadTickets hs ..))
  | voidTicket h n => exact tied_next rfl (tied_takeActing _ _ hs (tied_ruleVoidTicket hs n))
  | unlockTicket h n => exact tied_next rfl (tied_takeOrder _ _ hs (tied_ruleUnlockTicket hs n))
  | queryTicket h n => exact tied_next rfl (tied_takeOrder _ _ hs (tied_ruleQueryTicket hs n))
  | purgeTickets h => exact tied_next rfl (tied_purgeOrder hs h)
  | setSection h k list => exact tied_next rfl (tied_takeOrder _ _ hs (by unfold ruleSetSection; split <;> exact hs.of_eq rfl rfl))
  | setEntryPolicy h n mode => exact tied_next rfl (tied_takeOrder _ _ hs (tied_ruleSetEntryPolicy hs ..))
  | ruleReferral h id r => exact tied_next rfl (tied_takeActing _ _ hs (tied_ruleReferral hs ..))
  | defineChannel h k e r f rd => exact tied_next rfl (tied_takeOrder _ _ hs (tied_ruleDefineChannel hs ..))
  | openChannel h k => exact tied_next rfl (tied_takeOrder _ _ hs (tied_ruleOpenChannel hs k))
  | closeChannel h k => exact tied_next rfl (tied_takeActing _ _ hs (tied_ruleCloseChannel hs k))
  | queryChannel h k cell => exact tied_next rfl (tied_takeOrder _ _ hs (by unfold ruleQueryChannel; split <;> exact hs))
  | setCellAirtime h cell m v => exact tied_next rfl (tied_takeActing _ _ hs (tied_ruleSetCellAirtime hs ..))
  | setClassWeights h w => exact tied_next rfl (tied_takeActing _ _ hs ((placed_applyWeights ..).tied hs))
  | startService h => exact tied_next rfl (tied_takeActing _ _ hs (by unfold ruleStartService; split <;> exact hs.of_eq rfl rfl))
  | setTimers h m v =>
    exact tied_next rfl (tied_followTimers (tied_takeActing _ _ hs (by unfold ruleSetTimers; split <;> exact hs.of_eq rfl rfl)) _)
  | setReplayFrameType h y => exact tied_next rfl (tied_takeOrder _ _ hs (hs.of_eq rfl rfl))
  | setReplayRunLimit h n => exact tied_next rfl (tied_takeOrder _ _ hs (hs.of_eq rfl rfl))
  | readNotices h n => exact tied_next rfl (tied_takeOrder _ _ hs (by unfold ruleReadNotices; split <;> exact hs.of_eq rfl rfl))
  | readConditions h => exact tied_next rfl (tied_takeOrder _ _ hs hs)
  | clearConditions h mask => exact tied_next rfl (tied_takeOrder _ _ hs (by unfold ruleClearConditions; split <;> exact hs.of_eq rfl rfl))
  | snapStats h => exact tied_next rfl (tied_takeOrder _ _ hs (by unfold ruleSnapStats; split <;> exact hs.of_eq rfl rfl))
  | unsnapStats h => exact tied_next rfl (tied_takeOrder _ _ hs (by unfold ruleUnsnapStats; split <;> exact hs.of_eq rfl rfl))
  | readStats h scope => exact tied_next rfl (tied_takeOrder _ _ hs (by unfold ruleReadStats; split <;> exact hs))
  | badFrame bytes =>
    exact tied_next rfl
      (ite _ _ _ (((placed_placeReply ..).trans ((placed_bumpPart ..).trans (placed_raiseLatch ..))).tied hs) hs)
  | replyRead n => exact tied_next rfl (ite _ _ _ hs (by unfold readReply; split <;> exact hs.of_eq rfl rfl))
  | resetnFalls => exact tied_next rfl (hs.of_eq rfl rfl)
  | orderOfUnknownKind kind tag => exact tied_next rfl (ite _ _ _ hs ((placed_placeReply ..).tied hs))

/-- Settles O6: the passage of time moves no station, and the front command keeps the law by `tied_exec`. -/
theorem everyStepKeepsTheHandoverLaw : Obligations.EveryStepKeepsTheHandoverLaw := by
  intro s t hf law h
  unfold step at h
  split at h
  · obtain rfl := Host.Outcome.next.inj h
    exact ((placed_passTime s).tied ⟨hf.stations.form, law⟩).law
  · next c rest _ =>
    have := tied_exec c (s := s.setPending rest) ⟨hf.stations.form, law.moving, law.record⟩
    rw [h] at this
    exact this.law

end Sys2Proof.Machine
end

section
/-! PROOFS. Members that leave the copies at one cell, channel by channel (R60, step 2; R130): what becomes of each copy, of the cell's M, of
the queues that go, of the passes owed. -/

namespace Sys2Proof.Machine

variable {s t u : State} {cell ch : Nat} {as bs chs : List Nat}

/-! ## Stations that change but for the rates of one cell -/

/-- From `s` to `t` no station has changed but for the rates of those counted at the cell. -/
structure RatesAt (cell : Nat) (s t : State) : Prop where
  kept : ∀ j st, s.stations.look j = some st →
    ∃ rate, t.stations.look j = some { st with rate := rate } ∧ (st.place.cell? ≠ some cell → rate = st.rate)
  free : ∀ j, s.stations.look j = none → t.stations.look j = none

theorem RatesAt.of_eq (h : t.stations = s.stations) : RatesAt cell s t :=
  ⟨fun _ st hst => ⟨st.rate, by rw [h, hst], fun _ => rfl⟩, fun _ hj => by rw [h, hj]⟩

theorem RatesAt.trans (h : RatesAt cell s t) (g : RatesAt cell t u) : RatesAt cell s u where
  kept j st hst := by
    obtain ⟨r, ht, hr⟩ := h.kept j st hst
    obtain ⟨q, hu, hq⟩ := g.kept j _ ht
    exact ⟨q, hu, fun hc => (hq hc).trans (hr hc)⟩
  free j hj := g.free j (h.free j hj)

theorem ratesAt_refreshRates (cell : Nat) (s : State) : RatesAt cell s (refreshRates cell s) where
  kept j st hst := by
    rw [look_refreshRates, hst]
    by_cases hc : st.place.cell? = some cell
    · exact ⟨_, by rw [Option.map_some, if_pos hc], fun h => absurd hc h⟩
    · exact ⟨st.rate, by rw [Option.map_some, if_neg hc], fun _ => rfl⟩
  free j hj := by rw [look_refreshRates, hj]; rfl

theorem ratesAt_reweigh (cell : Nat) (s : State) : RatesAt cell s (reweigh cell s) :=
  RatesAt.trans (t := refreshW cell s) (.of_eq rfl) (ratesAt_refreshRates cell _)

/-! ## The copies that go -/

/-- The copies at the cell of channels in the list that have no other member. -/
def State.lastOf (s : State) (chs : List Nat) (cell : Nat) : List (Nat × Copy) :=
  s.copies.entries.filter fun x => x.2.cell == cell && decide (x.2.members ≤ 1) && chs.any fun y => y == x.2.channel

theorem State.mem_lastOf (hw : s.copies.wf = true) {n : Nat} {c : Copy} :
    (n, c) ∈ s.lastOf chs cell ↔ s.copies.look n = some c ∧ c.cell = cell ∧ c.members ≤ 1 ∧ c.channel ∈ chs := by
  rw [State.lastOf, List.mem_filter, Table.mem_entries hw]
  simp [and_assoc]

theorem State.lastOf_eq_nil (hw : s.copies.wf = true) :
    s.lastOf chs cell = [] ↔ ∀ n c, s.copies.look n = some c → c.cell = cell → c.channel ∈ chs → ¬ c.members ≤ 1 := by
  rw [List.eq_nil_iff_forall_not_mem]
  constructor
  · exact fun h n c hc h1 h2 h3 => h (n, c) ((s.mem_lastOf hw).mpr ⟨hc, h1, h3, h2⟩)
  · rintro h ⟨n, c⟩ hx
    obtain ⟨hc, h1, h3, h2⟩ := (s.mem_lastOf hw).mp hx
    exact h n c hc h1 h2 h3

/-- The entries of their queues. -/
def State.lastQueues (s : State) (chs : List Nat) (cell : Nat) : List BufferRef := (s.lastOf chs cell).flatMap fun x => x.2.queue

/-- What one copy gives to them. -/
def Copy.lastQueue (chs : List Nat) (cell : Nat) (c : Copy) : List BufferRef :=
  if c.cell = cell ∧ c.members ≤ 1 ∧ c.channel ∈ chs then c.queue else []

theorem State.lastQueues_eq (s : State) (chs : List Nat) (cell : Nat) :
    s.lastQueues chs cell = s.copies.flat fun _ => Copy.lastQueue chs cell := by
  refine (Table.flatMap_filter s.copies _ (fun _ c => c.queue)).trans ?_
  congr 1
  funext n c
  exact if_congr (by simp [and_assoc]) rfl rfl

/-- What is left of a copy when a member of each channel in the list has left the copies at the cell. -/
def Copy.without (chs : List Nat) (cell : Nat) (c : Copy) : Option Copy :=
  if c.cell = cell ∧ c.channel ∈ chs then if c.members ≤ 1 then none else some { c with members := c.members - 1 } else some c

theorem Copy.without_of_not_mem {c : Copy} (h : ¬ (c.cell = cell ∧ c.channel ∈ chs)) : c.without chs cell = some c := if_neg h

theorem Copy.without_spec {c d : Copy} (h : c.without chs cell = some d) :
    d = { c with members := d.members } ∧ (¬ (c.cell = cell ∧ c.channel ∈ chs) → d = c) := by
  unfold Copy.without at h
  split at h
  · next hin =>
    split at h
    · cases h
    · obtain rfl := Option.some.inj h
      exact ⟨rfl, fun hn => absurd hin hn⟩
  · obtain rfl := Option.some.inj h
    exact ⟨rfl, fun _ => rfl⟩

/-- From `s` to `t` a member of each channel in the list has left the copies at the cell: a copy with no other member is gone, its queue
released and counted, its load out of M and a pass owed. -/
structure Left (chs : List Nat) (cell : Nat) (s t : State) : Prop where
  copies   : ∀ n, t.copies.look n = (s.copies.look n).bind (Copy.without chs cell)
  passes   : ∀ n, n ∈ t.owed.passes ↔ n ∈ s.owed.passes ∨ (n = cell ∧ s.lastOf chs cell ≠ [])
  expiries : t.owed.expiries = s.owed.expiries
  loaded   : s.lastOf chs cell ≠ [] → ∀ n, t.cells.look n = (s.cells.look n).map fun c =>
    if n = cell then { c with account := { c.account with m := t.activeLoad cell } } else c
  unloaded : s.lastOf chs cell = [] → t.cells = s.cells
  stations : RatesAt cell s t
  counted  : Advanced s t (.cell cell .replayDiscarded) (s.lastQueues chs cell).length
  kept     : CountersKept s t (· = .cell cell .replayDiscarded)
  released : ReleasedAll s t (s.lastQueues chs cell)
  frame    : t = { s with
    counters := t.counters, cells := t.cells, pools := t.pools, stations := t.stations, copies := t.copies, owed := t.owed }

/-- Where every copy of the channels at the cell keeps a member, only member counts change. -/
theorem Left.of_none_last (hno : s.lastOf chs cell = [])
    (hc : ∀ n, t.copies.look n = (s.copies.look n).bind (Copy.without chs cell)) (ht : t = { s with copies := t.copies }) :
    Left chs cell s t := by
  have hq : s.lastQueues chs cell = [] := by rw [State.lastQueues, hno]; rfl
  obtain ⟨x, rfl⟩ : ∃ x, t = { s with copies := x } := ⟨_, ht⟩
  exact { copies := hc, passes := fun n => by simp [hno], expiries := rfl, loaded := fun h => absurd hno h, unloaded := fun _ => rfl,
          stations := .of_eq rfl, counted := by rw [hq]; exact .refl _ _, kept := .refl _ _, released := by rw [hq]; exact .of_pools rfl,
          frame := rfl }

/-- A cell has at most one copy of a channel. -/
def State.OneCopy (s : State) : Prop :=
  ∀ n m c d, s.copies.look n = some c → s.copies.look m = some d → c.channel = d.channel → c.cell = d.cell → n = m

theorem Left.oneCopy (h : Left chs cell s t) (hs : s.OneCopy) : t.OneCopy := by
  have back : ∀ n c, t.copies.look n = some c → ∃ d, s.copies.look n = some d ∧ c.channel = d.channel ∧ c.cell = d.cell := by
    intro n c hc
    rw [h.copies] at hc
    obtain ⟨d, hd, hcd⟩ := Option.bind_eq_some_iff.mp hc
    have := (Copy.without_spec hcd).1
    exact ⟨d, hd, by rw [this], by rw [this]⟩
  intro n m c d hc hd h1 h2
  obtain ⟨c', hc', e1, e2⟩ := back n c hc
  obtain ⟨d', hd', f1, f2⟩ := back m d hd
  exact hs n m c' d' hc' hd' (by rw [← e1, h1, f1]) (by rw [← e2, h2, f2])

/-! ## One member leaves -/

theorem left_removeCopy (hw : s.copies.wf = true) (hs : s.OneCopy) {n : Nat} {c : Copy} (hc : s.copies.look n = some c)
    (hm : c.members ≤ 1) : Left [c.channel] c.cell s (removeCopy n s) := by
  have hlast : ∀ j d, s.copies.look j = some d → d.cell = c.cell → d.channel ∈ [c.channel] → j = n := fun j d hd h1 h2 =>
    hs j n d c hd hc (List.mem_singleton.mp h2) h1
  have hsome : s.lastOf [c.channel] c.cell ≠ [] := List.ne_nil_of_mem ((s.mem_lastOf hw).mpr ⟨hc, rfl, hm, List.mem_singleton.mpr rfl⟩)
  have hw' : (removeCopy n s).copies.wf = true := (inner_removeCopy n s).wf.2.1 hw
  have hgone : ∀ j d, j ≠ n → s.copies.look j = some d → ¬ (d.cell = c.cell ∧ d.channel ∈ [c.channel]) := fun j d hj hd h =>
    hj (hlast j d hd h.1 h.2)
  have hqueue : (s.lastQueues [c.channel] c.cell).Perm c.queue := by
    have hnil : ((removeCopy n s).copies.flat fun _ => Copy.lastQueue [c.channel] c.cell) = [] := by
      refine List.flatMap_eq_nil_iff.mpr fun ⟨j, d⟩ hx => ?_
      have hd := (Table.mem_entries hw').mp hx
      rw [removeCopy_copies hc] at hd
      split at hd
      · cases hd
      · next hj => exact if_neg fun h => hgone j d hj hd ⟨h.1, h.2.2⟩
    rw [State.lastQueues_eq]
    refine (Table.flat_split hw hw' n (q := c.queue) ?_ fun k hk => ?_).trans (by rw [hnil, List.append_nil])
    · rw [Table.at_some hc, Table.at_none (by rw [removeCopy_copies hc, if_pos rfl]), List.append_nil]
      exact if_pos ⟨rfl, hm, List.mem_singleton.mpr rfl⟩
    · rw [Table.at, Table.at, removeCopy_copies hc, if_neg hk]
  have hload : (removeCopy n s).activeLoad c.cell = ((flushCopy n s).setCopies ((flushCopy n s).copies.drop n)).activeLoad c.cell :=
    State.activeLoad_congr (by rw [removeCopy_eq hc, owePass_copies, refreshRates_copies]; rfl) _
  have hcells : (flushCopy n s).cells = s.cells := by rw [flushCopy_frame hc]
  have howed : (flushCopy n s).owed = s.owed := by rw [flushCopy_frame hc]
  refine { copies := fun j => ?_, passes := fun j => ?_, expiries := ?_, loaded := fun _ j => ?_, unloaded := fun h => absurd h hsome,
           stations := ?_, counted := ?_, kept := ?_, released := ?_, frame := ?_ }
  · rw [removeCopy_copies hc]
    by_cases hj : j = n
    · rw [if_pos hj, hj, hc, Option.bind_some, Copy.without, if_pos ⟨rfl, List.mem_singleton.mpr rfl⟩, if_pos hm]
    · rw [if_neg hj]
      cases hd : s.copies.look j with
      | none => rfl
      | some d => rw [Option.bind_some, Copy.without_of_not_mem (hgone j d hj hd)]
  · rw [removeCopy_eq hc]
    unfold owePass
    split
    · next hin =>
      rw [refreshRates_owed] at hin ⊢
      have hin : c.cell ∈ s.owed.passes := howed ▸ hin
      show j ∈ (flushCopy n s).owed.passes ↔ _
      rw [howed]
      exact ⟨.inl, fun h => h.elim id fun ⟨h, _⟩ => h ▸ hin⟩
    · rw [setOwed_owed, refreshRates_owed]
      show j ∈ (flushCopy n s).owed.passes ++ [c.cell] ↔ _
      simp [howed, hsome]
  · rw [removeCopy_eq hc]
    unfold owePass
    split <;> simp only [setOwed_owed, refreshRates_owed] <;> exact congrArg Owed.expiries howed
  · rw [hload, removeCopy_eq hc, owePass_cells, refreshRates_cells, look_refreshM]
    show ((flushCopy n s).cells.look j).map _ = _
    rw [hcells]
  · rw [removeCopy_eq hc]
    refine RatesAt.trans (.trans (.of_eq ?_) (ratesAt_refreshRates ..)) (.of_eq (owePass_stations ..))
    exact flushCopy_stations n s
  · rw [Advanced, State.counter, removeCopy_counters hc, hqueue.length_eq]
    exact advanced_flushCopy hc
  · intro x hx
    rw [State.counter, removeCopy_counters hc]
    exact countersKept_flushCopy hc x hx
  · refine ReleasedAll.perm (fun q => ?_) hqueue.symm
    have := releasedAll_flushCopy hc q
    rw [State.buffer, ← removeCopy_pools hc] at this
    exact this
  · have hrest : removeCopy n s = { flushCopy n s with
        cells := (removeCopy n s).cells, stations := (removeCopy n s).stations, copies := (removeCopy n s).copies
        owed := (removeCopy n s).owed } := by
      rw [removeCopy_eq hc, owePass_frame, reload_frame]
      rfl
    rw [flushCopy_frame hc] at hrest
    rw [hrest]

theorem left_dropMember (hw : s.copies.wf = true) (hs : s.OneCopy) (ch cell : Nat) : Left [ch] cell s (dropMember ch cell s) := by
  cases hat : s.copyAt ch cell with
  | none =>
    rw [dropMember_absent hat]
    have habsent : ∀ n c, s.copies.look n = some c → ¬ (c.cell = cell ∧ c.channel ∈ [ch]) := fun n c hc h =>
      State.copyAt_none hw hat hc ⟨List.mem_singleton.mp h.2, h.1⟩
    refine .of_none_last ((s.lastOf_eq_nil hw).mpr fun n c hc h1 h2 => absurd ⟨h1, h2⟩ (habsent n c hc)) (fun n => ?_) rfl
    cases hc : s.copies.look n with
    | none => rfl
    | some c => rw [Option.bind_some, Copy.without_of_not_mem (habsent n c hc)]
  | some x =>
    obtain ⟨n, c⟩ := x
    obtain ⟨hc, rfl, rfl⟩ := State.copyAt_spec hw hat
    by_cases hm : c.members ≤ 1
    · rw [dropMember_last hat hm]
      exact left_removeCopy hw hs hc hm
    · rw [dropMember_more hat hm]
      have honly : ∀ j d, s.copies.look j = some d → d.cell = c.cell → d.channel ∈ [c.channel] → j = n := fun j d hd h1 h2 =>
        hs j n d c hd hc (List.mem_singleton.mp h2) h1
      refine .of_none_last ((s.lastOf_eq_nil hw).mpr fun j d hd h1 h2 => ?_) (fun j => ?_) rfl
      · obtain rfl := honly j d hd h1 h2
        rw [hc] at hd
        rwa [← Option.some.inj hd]
      · rw [setCopies_copies, Table.look_put]
        split
        · next hj => rw [hj, hc, Option.bind_some, Copy.without, if_pos ⟨rfl, List.mem_singleton.mpr rfl⟩, if_neg hm]
        · next hj =>
          cases hd : s.copies.look j with
          | none => rfl
          | some d => rw [Option.bind_some, Copy.without_of_not_mem fun h => hj (honly j d hd h.1 h.2)]

/-! ## One channel after another -/

theorem Copy.without_append (hd : as.Disjoint bs) (c : Copy) :
    (c.without as cell).bind (Copy.without bs cell) = c.without (as ++ bs) cell := by
  by_cases ha : c.cell = cell ∧ c.channel ∈ as
  · have hb : ¬ (c.cell = cell ∧ c.channel ∈ bs) := fun h => hd ha.2 h.2
    have hab : c.cell = cell ∧ c.channel ∈ as ++ bs := ⟨ha.1, List.mem_append_left _ ha.2⟩
    rw [Copy.without, if_pos ha, Copy.without, if_pos hab]
    split
    · rfl
    · rw [Option.bind_some]
      exact Copy.without_of_not_mem hb
  · rw [Copy.without_of_not_mem ha, Option.bind_some, Copy.without, Copy.without]
    exact if_congr (by rw [List.mem_append]; tauto) rfl rfl

/-- The copies that go with two lists are those that go with the first, and then those that go with the second. -/
theorem Left.lastQueues_append (h : Left as cell s t) (hw : s.copies.wf = true) (hw' : t.copies.wf = true) (hd : as.Disjoint bs) :
    (s.lastQueues (as ++ bs) cell).Perm (s.lastQueues as cell ++ t.lastQueues bs cell) := by
  simp only [State.lastQueues_eq]
  refine Table.flat_perm hw hw hw' fun n => ?_
  rw [Table.at, Table.at, Table.at, h.copies]
  cases hc : s.copies.look n with
  | none => rfl
  | some c =>
    simp only [Option.elim_some, Option.bind_some, Copy.lastQueue]
    by_cases ha : c.cell = cell ∧ c.channel ∈ as
    · have hb : c.channel ∉ bs := fun h => hd ha.2 h
      by_cases hm : c.members ≤ 1
      · rw [Copy.without, if_pos ha, if_pos hm, if_pos ⟨ha.1, hm, List.mem_append_left _ ha.2⟩, if_pos ⟨ha.1, hm, ha.2⟩]
        simp
      · rw [Copy.without, if_pos ha, if_neg hm, Option.elim_some, if_neg fun h => hm h.2.1, if_neg fun h => hm h.2.1]
        exact (if_neg fun h => hb h.2.2).symm
    · rw [Copy.without_of_not_mem ha, Option.elim_some, if_neg (c := _ ∧ _ ∧ c.channel ∈ as) fun h => ha ⟨h.1, h.2.2⟩,
        List.nil_append]
      exact if_congr (by rw [List.mem_append]; tauto) rfl rfl

theorem Left.lastOf_append (h : Left as cell s t) (hw : s.copies.wf = true) (hw' : t.copies.wf = true) (hd : as.Disjoint bs) :
    s.lastOf (as ++ bs) cell ≠ [] ↔ s.lastOf as cell ≠ [] ∨ t.lastOf bs cell ≠ [] := by
  rw [← not_and_or.trans Iff.rfl, not_iff_not, s.lastOf_eq_nil hw, s.lastOf_eq_nil hw, t.lastOf_eq_nil hw']
  constructor
  · refine fun g => ⟨fun n c hc h1 h2 => g n c hc h1 (List.mem_append_left _ h2), fun n c hc h1 h2 => ?_⟩
    rw [h.copies] at hc
    obtain ⟨d, hd', hdc⟩ := Option.bind_eq_some_iff.mp hc
    obtain ⟨e, hsame⟩ := Copy.without_spec hdc
    have hnot : ¬ (d.cell = cell ∧ d.channel ∈ as) := fun ha => hd ha.2 (by rw [e] at h2; exact h2)
    obtain rfl := hsame hnot
    exact g n c hd' h1 (List.mem_append_right _ h2)
  · rintro ⟨g1, g2⟩ n c hc h1 h2
    rcases List.mem_append.mp h2 with h2 | h2
    · exact g1 n c hc h1 h2
    · refine g2 n c ?_ h1 h2
      rw [h.copies, hc, Option.bind_some, Copy.without_of_not_mem fun ha => hd ha.2 h2]

/-- Where no copy goes, no load does. -/
theorem Left.activeLoad (h : Left chs cell s t) (hw : s.copies.wf = true) (hw' : t.copies.wf = true) (hno : s.lastOf chs cell = []) (n : Nat) :
    t.activeLoad n = s.activeLoad n := by
  refine State.activeLoad_same hw hw' fun j => ?_
  rw [Table.at, Table.at, h.copies]
  cases hc : s.copies.look j with
  | none => rfl
  | some c =>
    have : ∃ d, c.without chs cell = some d ∧ d = { c with members := d.members } := by
      cases hd : c.without chs cell with
      | some d => exact ⟨d, rfl, (Copy.without_spec hd).1⟩
      | none =>
        unfold Copy.without at hd
        split at hd
        · next hin =>
          rw [if_neg ((s.lastOf_eq_nil hw).mp hno j c hc hin.1 hin.2)] at hd
          cases hd
        · cases hd
    obtain ⟨d, hd, e⟩ := this
    rw [Option.bind_some, hd, Option.elim_some, Option.elim_some, e]
    rfl

theorem Left.append (h : Left as cell s t) (g : Left bs cell t u) (hw : s.copies.wf = true) (hwt : t.copies.wf = true)
    (hwu : u.copies.wf = true) (hd : as.Disjoint bs) : Left (as ++ bs) cell s u := by
  have hq := h.lastQueues_append hw hwt hd
  have hl := h.lastOf_append hw hwt hd
  refine { copies := fun n => ?_, passes := fun n => ?_, expiries := g.expiries.trans h.expiries, loaded := fun hne n => ?_,
           unloaded := fun hnil => ?_, stations := h.stations.trans g.stations, counted := ?_, kept := h.kept.trans g.kept,
           released := (h.released.trans g.released).perm hq.symm, frame := by rw [g.frame, h.frame] }
  · rw [g.copies, h.copies, Option.bind_assoc]
    exact congrArg _ (funext fun c => Copy.without_append hd c)
  · rw [g.passes, h.passes, hl]
    tauto
  · by_cases hb : t.lastOf bs cell = []
    · have ha : s.lastOf as cell ≠ [] := (hl.mp hne).resolve_right (not_not.mpr hb)
      rw [g.unloaded hb, h.loaded ha, g.activeLoad hwt hwu hb]
    · rw [g.loaded hb]
      by_cases ha : s.lastOf as cell = []
      · rw [h.unloaded ha]
      · rw [h.loaded ha, Option.map_map]
        congr 1
        funext c
        by_cases hn : n = cell <;> simp [hn]
  · have hnot := mt hl.mpr (not_not.mpr hnil)
    rw [not_or, not_not, not_not] at hnot
    rw [g.unloaded hnot.2, h.unloaded hnot.1]
  · rw [hq.length_eq, List.length_append]
    exact h.counted.trans g.counted

theorem left_nil (hw : s.copies.wf = true) (cell : Nat) : Left [] cell s s := by
  refine .of_none_last ((s.lastOf_eq_nil hw).mpr fun _ _ _ _ h => absurd h List.not_mem_nil) (fun n => ?_) rfl
  cases hc : s.copies.look n with
  | none => rfl
  | some c => rw [Option.bind_some, Copy.without_of_not_mem fun h => absurd h.2 List.not_mem_nil]

theorem left_dropMembers (hw : s.copies.wf = true) (hs : s.OneCopy) (cell : Nat) (hnd : chs.Nodup) :
    Left chs cell s (chs.foldl (fun s ch => dropMember ch cell s) s) := by
  induction chs generalizing s with
  | nil => exact left_nil hw cell
  | cons ch rest ih =>
    obtain ⟨hch, hrest⟩ := List.nodup_cons.mp hnd
    have first := left_dropMember hw hs ch cell
    have hw' := (inner_dropMember ch cell s).wf.2.1 hw
    have others := ih hw' (first.oneCopy hs) hrest
    have hend := (Inner.foldl (fun s ch => dropMember ch cell s) (fun s ch => inner_dropMember ch cell s) rest
      (dropMember ch cell s)).wf.2.1 hw'
    exact first.append others hw hw' hend
      (List.disjoint_left.mpr fun x hx hx' => hch (List.mem_singleton.mp hx ▸ hx'))

end Sys2Proof.Machine
end

section
/-! PROOFS. A station leaves its cell: its copies, W and the rates after it, its queue's buffers (R47, R60, steps 1 to 3; R130); the work that
dormancy, expiry and EVICT STATION share. -/

namespace Sys2Proof.Machine

variable {s t x y e : State} {i cell : Nat} {st : Station}

/-- The station's copies left, W and the rates after them, its queue's buffers released. -/
def departed (cell : Nat) (st : Station) (s : State) : State :=
  releaseAll (st.queue.map (·.buffer)) (reweigh cell (st.members.foldl (fun s m => dropMember m.channel cell s) s))

theorem goDormant_departed (hst : s.stations.look i = some st) (hc : st.place.cell? = some cell) : goDormant i s =
    oweIfAged i st (bumpPart .goneDormant (departed cell st (s.setStations (s.stations.put i (dormantFrom cell st))))) := goDormant_eq hst hc

theorem freeStation_departed (hst : s.stations.look i = some st) (hc : st.place.cell? = some cell) :
    freeStation i s = departed cell st (freedRecord i st s) := freeStation_counted hst hc

/-- From `s` to `t` a station of a cell has departed: it has left the copies there, W and the rates follow, its queue's buffers are
released; nothing else has changed. -/
structure Departed (cell : Nat) (st : Station) (s t : State) : Prop where
  leaves   : ∀ i, LeavesCopies s t i st cell
  released : ReleasedAll s t (s.leftBuffers st cell)
  kept     : CountersKept s t (· = .cell cell .replayDiscarded)
  rates    : t.RatesLaw cell
  stations : RatesAt cell s t
  expiries : t.owed.expiries = s.owed.expiries
  frame    : t = { s with
    counters := t.counters, cells := t.cells, pools := t.pools, stations := t.stations, copies := t.copies, owed := t.owed }

theorem State.lastCopies_eq (s : State) (st : Station) (cell : Nat) : s.lastCopies st cell = s.lastOf (st.members.map (·.channel)) cell := by
  simp only [State.lastCopies, State.lastOf, List.any_map]
  rfl

/-- The copies left, and then W and the rates written: what R60 says of them. -/
theorem Left.leaves (h : Left (st.members.map (·.channel)) cell s t) (i : Nat) : LeavesCopies s (reweigh cell t) i st cell := by
  have hload : (reweigh cell t).activeLoad cell = t.activeLoad cell := State.activeLoad_congr (reweigh_copies ..) cell
  have hcells : ∀ n, (reweigh cell t).cells.look n = (t.cells.look n).map fun c =>
      if n = cell then { c with account := { c.account with w := t.countedWeight cell } } else c := fun n => by
    rw [reweigh, refreshRates_cells, look_refreshW]
  refine { copies := fun n => ?_, passes := fun n => ?_, cells := fun n c hc => ?_, absent := fun n hn => ?_,
           apart := fun j z _ hz hcell => ?_, counted := fun n => ?_ }
  · rw [reweigh_copies, h.copies]
    congr 1
    funext c
    exact if_congr (by rw [List.mem_map]) rfl rfl
  · rw [reweigh_owed, h.passes, State.lastCopies_eq]
  · rw [hcells, hload, State.lastCopies_eq]
    by_cases hno : s.lastOf (st.members.map (·.channel)) cell = []
    · rw [h.unloaded hno, hc]
      by_cases hn : n = cell <;> simp [hn, hno]
    · rw [h.loaded hno, hc]
      by_cases hn : n = cell <;> simp [hn, hno]
  · rw [hcells]
    by_cases hno : s.lastOf (st.members.map (·.channel)) cell = []
    · rw [h.unloaded hno, hn]; rfl
    · rw [h.loaded hno, hn]; rfl
  · obtain ⟨r, hr, hsame⟩ := (h.stations.trans (ratesAt_reweigh cell t)).kept j z hz
    rw [hr, hsame hcell]
  · have hcount : ∀ c, (reweigh cell t).counter c = t.counter c := fun c => by rw [State.counter, State.counter, reweigh_counters]
    rw [Advanced, hcount]
    by_cases hn : n = cell
    · rw [if_pos hn, hn, h.counted, State.lastQueues, List.length_flatMap, State.lastCopies_eq]
    · rw [if_neg hn]
      exact h.kept.advanced fun he => hn (Counter.cell.inj he).1

theorem departed_departed (hw : s.stations.wf = true) (hcw : s.copies.wf = true) (hs : s.OneCopy) (hst : st.Fits) (cell : Nat) :
    Departed cell st s (departed cell st s) := by
  obtain ⟨_, _, hnd⟩ := hst
  have left := left_dropMembers hcw hs cell hnd
  have hzw : ((st.members.map (·.channel)).foldl (fun s ch => dropMember ch cell s) s).stations.wf = true :=
    (Inner.foldl (fun s ch => dropMember ch cell s) (fun s ch => inner_dropMember ch cell s) (st.members.map (·.channel)) s).wf.1 hw
  unfold departed
  rw [List.foldl_map] at left hzw
  generalize st.members.foldl (fun s m => dropMember m.channel cell s) s = z at left hzw ⊢
  have weighed := reweigh_frame cell z
  have hrel := releaseAll_frame (st.queue.map (·.buffer)) (reweigh cell z)
  have hreleased := releasedAll_releaseAll (st.queue.map (·.buffer)) (reweigh cell z)
  have leaves := left.leaves
  have hrates := ratesLaw_reweigh hzw cell
  have hratesAt := left.stations.trans (ratesAt_reweigh cell z)
  have hcount : (reweigh cell z).counters = z.counters := reweigh_counters ..
  have hpools : (reweigh cell z).pools = z.pools := reweigh_pools ..
  have howed : (reweigh cell z).owed = z.owed := reweigh_owed ..
  generalize reweigh cell z = w at *
  generalize releaseAll (st.queue.map (·.buffer)) w = v at *
  have hq : ReleasedAll s w (s.lastQueues (st.members.map (·.channel)) cell) := fun q => by
    rw [State.buffer, hpools]
    exact left.released q
  obtain ⟨p, rfl⟩ : ∃ p, v = w.setPools p := ⟨_, hrel⟩
  refine { leaves := fun i => { leaves i with }, released := ?_, kept := fun c hc => ?_, rates := hrates,
           stations := hratesAt.trans (.of_eq rfl), expiries := (congrArg Owed.expiries howed).trans left.expiries, frame := ?_ }
  · refine (hq.trans hreleased).perm ?_
    rw [State.leftBuffers, State.lastCopies_eq]
    exact List.perm_append_comm
  · show w.counters.lookD _ _ = _
    rw [hcount]
    exact left.kept c hc
  · rw [weighed, left.frame]
    rfl

/-! ## The same, said of the states before and after the whole event -/

/-- Two states hold the same cells, copies, buffers and owed passes, and have discarded the same replay entries. -/
structure SameStore (s t : State) : Prop where
  copies    : t.copies = s.copies
  cells     : t.cells = s.cells
  pools     : t.pools = s.pools
  passes    : t.owed.passes = s.owed.passes
  discarded : ∀ n, t.counter (.cell n .replayDiscarded) = s.counter (.cell n .replayDiscarded)

theorem LeavesCopies.congr (h : LeavesCopies x y i st cell) (hx : SameStore s x) (he : SameStore y e)
    (hs : ∀ j, j ≠ i → x.stations.look j = s.stations.look j) (hst : e.stations = y.stations) : LeavesCopies s e i st cell := by
  have hlast : s.lastCopies st cell = x.lastCopies st cell := by rw [State.lastCopies, State.lastCopies, hx.copies]
  have hload : e.activeLoad cell = y.activeLoad cell := State.activeLoad_congr he.copies cell
  refine { copies := fun n => ?_, passes := fun n => ?_, cells := fun n c hc => ?_, absent := fun n hn => ?_,
           apart := fun j z hj hz hcell => ?_, counted := fun n => ?_ }
  · rw [he.copies, h.copies, hx.copies]
  · rw [he.passes, h.passes, hx.passes, hlast]
  · rw [he.cells, hload, hlast]
    exact h.cells n c (by rw [hx.cells, hc])
  · rw [he.cells]
    exact h.absent n (by rw [hx.cells, hn])
  · rw [hst]
    exact h.apart j z hj (by rw [hs j hj, hz]) hcell
  · rw [hlast]
    exact (h.counted n).same (hx.discarded n) (he.discarded n)

theorem ReleasedAll.congr {rs : List BufferRef} (h : ReleasedAll x y rs) (hx : x.pools = s.pools) (he : e.pools = y.pools) :
    ReleasedAll s e rs := by
  intro q
  have := h q
  rwa [State.buffer, State.buffer, ← he, hx] at this

theorem State.leftBuffers_congr (h : t.copies = s.copies) (st : Station) (cell : Nat) : t.leftBuffers st cell = s.leftBuffers st cell := by
  rw [State.leftBuffers, State.leftBuffers, State.lastCopies, State.lastCopies, h]

theorem State.RatesLaw.same (h : s.RatesLaw cell) (hc : t.cells = s.cells) (hs : t.stations = s.stations) : t.RatesLaw cell := by
  unfold State.RatesLaw State.account State.countedWeight at *
  rwa [hc, hs]

end Sys2Proof.Machine
end

section
/-! PROOFS. Dormancy (R59, R60, R62, R75, R78): a DEPART, the dormant-after age, a handover cancelled to dormancy. -/

namespace Sys2Proof.Machine

variable {s e x y : State} {i cell : Nat} {st : Station} {m : MessageHead} {since : Clock}

/-! ## A message with no body from a phone -/

theorem phoneFits_of_accepts (h : s.Accepts m) (hbody : m.bodyLength = 0) (hphone : NamesPhone m) : phoneFits m 0 = true := by
  obtain ⟨-, -, -, hslot, hframe, -⟩ := h
  exact phoneFits_iff.mpr ⟨headerFits_iff.mpr ⟨hframe, hslot, by rw [hbody]; rfl⟩, hphone⟩

theorem exec_depart (h : s.Accepts m) (hbody : m.bodyLength = 0) (hphone : NamesPhone m) :
    exec (.depart m) s = .next (closeEvent (takeDepart (cellOf m) m.addr s)) := by
  show Host.Outcome.next (takeMessage (s.fate m (phoneFits m 0) false) _ s) = _
  rw [phoneFits_of_accepts h hbody hphone, h.fate_eq_taken]
  rfl

theorem exec_attachRequest (h : s.Accepts m) (hbody : m.bodyLength = 0) (hphone : NamesPhone m) :
    exec (.attachRequest m) s = .next (closeEvent (takeAttach (cellOf m) m.addr s)) := by
  show Host.Outcome.next (takeMessage (s.fate m (phoneFits m 0) false) _ s) = _
  rw [phoneFits_of_accepts h hbody hphone, h.fate_eq_taken]
  rfl

/-! ## What a DEPART does, by the station's place (R59, R75) -/

theorem takeDepart_unknown {a : Addr} (h : s.stationWith a = none) : takeDepart cell a s = bumpPart .departuresIgnored s := by
  simp only [takeDepart, h]

theorem takeDepart_here {a : Addr} (h : s.stationWith a = some (i, st)) (hp : st.place = .associated cell since) :
    takeDepart cell a s = goDormant i s := by
  simp only [takeDepart, h, hp, if_true]

theorem takeDepart_elsewhere {a : Addr} (h : s.stationWith a = some (i, st))
    (hp : st.place = .dormant ∨ ∃ d since, st.place = .associated d since ∧ d ≠ cell) :
    takeDepart cell a s = bumpPart .departuresIgnored s := by
  rcases hp with hp | ⟨d, since, hp, hd⟩
  · simp only [takeDepart, h, hp]
  · simp only [takeDepart, h, hp, if_neg hd]

theorem takeDepart_moving {a : Addr} {d : Nat} (h : s.stationWith a = some (i, st)) (hp : st.place = .moving d since) :
    takeDepart cell a s = departWhileMoving i cell s := by
  simp only [takeDepart, h, hp]

theorem departWhileMoving_new {h : Handover} (hh : s.handovers.look i = some h) (hne : h.oldCell ≠ h.newCell) :
    departWhileMoving i h.newCell s = cancelToDormant i s := by
  simp only [departWhileMoving, hh, if_neg hne.symm, if_true]

theorem departWhileMoving_third {h : Handover} (hh : s.handovers.look i = some h) (hn : cell ≠ h.newCell) (ho : cell ≠ h.oldCell) :
    departWhileMoving i cell s = bumpPart .departuresIgnored s := by
  simp only [departWhileMoving, hh, if_neg hn, if_neg ho]

/-! ## A station goes DORMANT (R60) -/

/-- The expiry owed for a station of this last-heard time (R63). -/
def State.expiryOwed (s : State) (i : Nat) (st : Station) : List Nat :=
  if s.settings.timers.expire * 1000 ≤ (s.time.clock - st.lastHeard).toNat then [i] else []

theorem State.expiryOwed_congr {t : State} (hs : t.settings = s.settings) (ht : t.time = s.time) : t.expiryOwed i st = s.expiryOwed i st := by
  rw [State.expiryOwed, State.expiryOwed, hs, ht]

theorem oweIfAged_owed (i : Nat) (st : Station) (s : State) :
    (oweIfAged i st s).owed = { s.owed with expiries := s.owed.expiries ++ s.expiryOwed i st } := by
  by_cases h : s.settings.timers.expire * 1000 ≤ (s.time.clock - st.lastHeard).toNat
  · rw [State.expiryOwed, if_pos h, oweIfAged, if_pos (by exact h)]
    rfl
  · rw [State.expiryOwed, if_neg h, oweIfAged, if_neg (by exact h), List.append_nil]

/-- From `s` to `e` a station counted at a cell has become DORMANT (R60); `extra` names what else is counted. -/
structure Slept (extra : Counter → Prop) (i cell : Nat) (st : Station) (s e : State) : Prop where
  station  : e.stations.look i = some (dormantFrom cell st)
  rates    : e.RatesLaw cell
  others   : OthersKept s e i
  counted  : Advanced s e (.part .goneDormant) 1
  leaves   : LeavesCopies s e i st cell
  released : ReleasedAll s e (s.leftBuffers st cell)
  kept     : CountersKept s e fun x => x = .part .goneDormant ∨ extra x ∨ x = .cell cell .replayDiscarded
  expiries : e.owed.expiries = s.owed.expiries ++ s.expiryOwed i st
  frame    : e = { s with
    counters := e.counters, cells := e.cells, pools := e.pools, stations := e.stations, handovers := e.handovers, copies := e.copies
    owed := e.owed }

/-- The station written DORMANT, departed, counted, its expiry owed. -/
theorem slept_of_departed (h : Departed cell st (s.setStations (s.stations.put i (dormantFrom cell st))) y) :
    Slept (fun _ => False) i cell st s (oweIfAged i st (bumpPart .goneDormant y)) := by
  have hx : ∀ j, (s.setStations (s.stations.put i (dormantFrom cell st))).stations.look j =
      if j = i then some (dormantFrom cell st) else s.stations.look j := fun j => by rw [setStations_stations, Table.look_put]
  have htime : y.settings = s.settings ∧ y.time = s.time := by rw [h.frame]; exact ⟨rfl, rfl⟩
  have howed : (oweIfAged i st (bumpPart .goneDormant y)).owed = { y.owed with expiries := s.owed.expiries ++ s.expiryOwed i st } := by
    have hexp : (bumpPart .goneDormant y).owed.expiries = s.owed.expiries := h.expiries
    rw [oweIfAged_owed, hexp, State.expiryOwed_congr (s := s) (t := bumpPart .goneDormant y) htime.1 htime.2]
    rfl
  have howe := oweIfAged_frame i st (bumpPart .goneDormant y)
  have hbump := onlyCounts_bump (.part .goneDormant) y
  have hbf : bumpPart .goneDormant y = y.setCounters (bumpPart .goneDormant y).counters := rfl
  generalize oweIfAged i st (bumpPart .goneDormant y) = e at *
  have hcount : ∀ c, e.counter c = (bumpPart .goneDormant y).counter c := fun c => by rw [howe]; rfl
  have hstations : e.stations = y.stations := by rw [howe]; rfl
  have same : SameStore y e :=
    { copies := by rw [howe]; rfl, cells := by rw [howe]; rfl, pools := by rw [howe]; rfl, passes := by rw [howed]
      discarded := fun n => (hcount _).trans (hbump.kept _ nofun) }
  refine { station := ?_, rates := h.rates.same same.cells hstations, others := fun j z hj hz => ?_, counted := ?_, leaves := ?_,
           released := ?_, kept := fun c hc => ?_, expiries := by rw [howed], frame := ?_ }
  · obtain ⟨r, hr, hsame⟩ := h.stations.kept i (dormantFrom cell st) ((hx i).trans (if_pos rfl))
    rw [hstations, hr, hsame nofun]
  · obtain ⟨r, hr, -⟩ := h.stations.kept j z ((hx j).trans (by rw [if_neg hj, hz]))
    exact ⟨r, by rw [hstations, hr]⟩
  · exact (hbump.moved).same (h.kept _ nofun) (hcount _)
  · exact (h.leaves i).congr (s := s) ⟨rfl, rfl, rfl, rfl, fun _ => rfl⟩ same (fun j hj => (hx j).trans (if_neg hj)) hstations
  · exact h.released.congr rfl same.pools
  · refine (hcount c).trans ((hbump.kept c fun he => hc (.inl he)).trans ?_)
    exact h.kept c fun he => hc (.inr (.inr he))
  · rw [howe, hbf, h.frame]
    rfl

theorem State.Fits.departed (hf : s.Fits) (hst : s.stations.look i = some st) (hx : x.stations.wf = true) (hy : x.copies = s.copies)
    (cell : Nat) : Departed cell st x (Machine.departed cell st x) :=
  departed_departed hx (by rw [hy]; exact hf.copies.form) (by intro n m c d; rw [hy]; exact hf.single n m c d) (hf.stations.holds i st hst) cell

theorem slept_goDormant (hf : s.Fits) (hst : s.stations.look i = some st) (hc : st.place.cell? = some cell) :
    Slept (fun _ => False) i cell st s (goDormant i s) := by
  rw [goDormant_departed hst hc]
  refine slept_of_departed (hf.departed (x := s.setStations (s.stations.put i (dormantFrom cell st))) hst ?_ rfl cell)
  exact Table.wf_put _ _ _ hf.stations.form

/-- A handover cancelled to dormancy (R78). -/
theorem slept_cancelToDormant (hf : s.Fits) (hst : s.stations.look i = some st) (hc : st.place.cell? = some cell) :
    Slept (· = .part .handoversCancelled) i cell st s (cancelToDormant i s)
      ∧ (cancelToDormant i s).handovers = s.handovers.drop i ∧ Advanced s (cancelToDormant i s) (.part .handoversCancelled) 1 := by
  have hdrop : (s.setHandovers (s.handovers.drop i)).Fits :=
    hf.handoversTo (Table.wf_drop _ _ hf.handovers.1) ((Table.size_drop_le _ _).trans hf.handovers.2)
  have h := slept_goDormant hdrop hst hc
  have hh := goDormant_handovers i (s.setHandovers (s.handovers.drop i))
  unfold cancelToDormant
  generalize goDormant i (s.setHandovers (s.handovers.drop i)) = v at h hh ⊢
  have hbump := onlyCounts_bump (.part .handoversCancelled) v
  have hbf : bumpPart .handoversCancelled v = v.setCounters (bumpPart .handoversCancelled v).counters := rfl
  refine ⟨{ station := h.station, rates := h.rates.same rfl rfl, others := h.others, counted := ?_, leaves := ?_, released := h.released,
            kept := fun c hc => ?_, expiries := h.expiries, frame := ?_ }, hh, ?_⟩
  · exact Advanced.same (u := s) h.counted rfl (hbump.kept _ nofun)
  · exact h.leaves.congr (s := s) ⟨rfl, rfl, rfl, rfl, fun _ => rfl⟩ ⟨rfl, rfl, rfl, rfl, fun n => hbump.kept _ nofun⟩
      (fun _ _ => rfl) rfl
  · show (bump (.part .handoversCancelled) v).counter c = s.counter c
    rw [hbump.kept c fun he => hc (.inr (.inl he))]
    exact h.kept c fun he => hc (he.elim .inl fun he => .inr (he.elim (fun he => he.elim) .inr))
  · rw [hbf, h.frame]
    rfl
  · exact hbump.moved.same (h.kept _ (by simp)) rfl

/-! ## The dormant-after age (R62) -/

theorem exec_stationAgedDormant (hst : s.stations.look i = some st) : exec (.stationAgedDormant i) s =
    .next (if s.agedDormant st then closeEvent (goDormant i s) else s) := by
  show execStationAgedDormant i s = _
  simp only [execStationAgedDormant, hst]

theorem State.agedDormant_iff (hp : st.place = .associated cell since) : s.agedDormant st = true ↔
    st.paused = false ∧ s.settings.timers.dormant * 1000 ≤ (s.time.clock - st.lastHeard).toNat := by
  simp only [State.agedDormant, hp, Place.isAssociated, Bool.true_and, Bool.and_eq_true, Bool.not_eq_true', decide_eq_true_eq]
  rfl

/-- Settles O39: a DEPART and the dormant-after age make a station DORMANT, out of its copies. -/
theorem departingAndAgingMakeAStationDormant : Obligations.DepartingAndAgingMakeAStationDormant := by
  unfold Obligations.DepartingAndAgingMakeAStationDormant
  refine ⟨fun m s hacc hbody hphone hno => ?_, fun i st s hf hst => ⟨fun cell since hp => ⟨?aged, ?early⟩,
    fun m hacc hbody hphone hwith => ⟨fun hp => ?_, fun h since hh hp hne => ⟨fun hcell => ?_, fun hnew hold => ?_⟩⟩⟩⟩
  case aged =>
    intro c hcmd
    have hsleep := slept_goDormant hf hst (cell := cell) (by rw [hp]; rfl)
    have hexec : exec c s = .next (closeEvent (goDormant i s)) := by
      rcases hcmd with ⟨rfl, hpaused, hage⟩ | ⟨m, rfl, hacc, hbody, hphone, hcell, hwith⟩
      · rw [exec_stationAgedDormant hst, if_pos ((State.agedDormant_iff hp).mpr ⟨hpaused, hage⟩)]
      · rw [exec_depart hacc hbody hphone, takeDepart_here hwith (hcell ▸ hp)]
    have hhand := goDormant_handovers i s
    refine ⟨_, hexec, hsleep.station, hsleep.rates, hsleep.others, hsleep.counted, hsleep.leaves, hsleep.released,
      hsleep.kept.mono fun c hc => hc.imp_right fun hc => hc.elim False.elim id, hsleep.expiries, ?_⟩
    generalize goDormant i s = e at hsleep hhand
    rw [hsleep.frame, hhand]
  case early =>
    intro hearly
    rw [exec_stationAgedDormant hst, if_neg fun h => ?_]
    obtain ⟨hpaused, hage⟩ := (State.agedDormant_iff hp).mp h
    rcases hearly with hearly | hearly
    · rw [hpaused] at hearly
      cases hearly
    · omega
  · rw [exec_depart hacc hbody hphone, takeDepart_unknown hno]
    exact ⟨_, rfl, onlyCounts_bump ..⟩
  · rw [exec_depart hacc hbody hphone, takeDepart_elsewhere hwith hp]
    exact ⟨_, rfl, onlyCounts_bump ..⟩
  · obtain ⟨hsleep, hhand, hcancel⟩ := slept_cancelToDormant hf hst (cell := h.oldCell) (by rw [hp]; rfl)
    rw [exec_depart hacc hbody hphone, takeDepart_moving hwith hp, hcell, departWhileMoving_new hh hne]
    exact ⟨_, rfl, hsleep.station, fun j => by rw [hhand, Table.look_drop], hsleep.rates, hsleep.others, hsleep.counted, hcancel,
      hsleep.leaves, hsleep.released, hsleep.kept, hsleep.expiries, hsleep.frame⟩
  · rw [exec_depart hacc hbody hphone, takeDepart_moving hwith hp, departWhileMoving_third hh hnew hold]
    exact ⟨_, rfl, onlyCounts_bump ..⟩

end Sys2Proof.Machine
end

section
/-! PROOFS. Release of a record (R63, R65, R66, R85): the expire-after age and EVICT STATION. -/

namespace Sys2Proof.Machine

variable {s e v x y : State} {i cell : Nat} {st : Station} {addr : Addr}

/-! ## The record FREE, its ticket INSIDE (R65, steps 1 and 3) -/

theorem freedRecord_frame (i : Nat) (st : Station) (s : State) : freedRecord i st s =
    { s with stations := s.stations.drop i, handovers := s.handovers.drop i, tickets := (freedRecord i st s).tickets } := by
  unfold freedRecord
  cases st.ticket <;> rfl

theorem ticket_freedRecord (i : Nat) (st : Station) (s : State) (n : TicketNumber) : (freedRecord i st s).ticket n =
    (s.ticket n).map fun k => if st.ticket = some n then { k with state := .inside } else k := by
  unfold freedRecord
  cases st.ticket with
  | none => simp [ticketToInside, State.ticket]
  | some m =>
    rw [ticketToInside, ticket_updateTicket]
    by_cases h : n = m
    · rw [if_pos h, h]
      simp [State.ticket]
    · rw [if_neg h]
      simp [State.ticket, Ne.symm h]

/-! ## A record freed (R65) -/

/-- From `s` to `x` the record of station `i` is freed (R65). A station counted at a cell departs from it; a DORMANT one leaves nothing but
its queue. -/
structure Freed (i : Nat) (st : Station) (s x : State) : Prop where
  station   : x.stations.look i = none
  others    : OthersKept s x i
  handovers : ∀ j, x.handovers.look j = if j = i then none else s.handovers.look j
  tickets   : ∀ n, x.ticket n = (s.ticket n).map fun k => if st.ticket = some n then { k with state := .inside } else k
  counted   : ∀ cell, st.place.cell? = some cell → x.RatesLaw cell ∧ LeavesCopies s x i st cell
    ∧ ReleasedAll s x (s.leftBuffers st cell) ∧ x.owed.expiries = s.owed.expiries
  dormant   : st.place.cell? = none → ReleasedAll s x (st.queue.map (·.buffer)) ∧ x = { s with
    pools := x.pools, stations := s.stations.drop i, handovers := x.handovers, tickets := x.tickets }
  kept      : CountersKept s x (∃ n, · = .cell n .replayDiscarded)
  frame     : x = { s with
    counters := x.counters, cells := x.cells, pools := x.pools, stations := x.stations, handovers := x.handovers, tickets := x.tickets
    copies := x.copies, owed := x.owed }

theorem look_freedRecord (i : Nat) (st : Station) (s : State) (j : Nat) :
    (freedRecord i st s).stations.look j = if j = i then none else s.stations.look j := by
  rw [freedRecord_frame]
  exact Table.look_drop ..

theorem look_freedRecord_handovers (i : Nat) (st : Station) (s : State) (j : Nat) :
    (freedRecord i st s).handovers.look j = if j = i then none else s.handovers.look j := by
  rw [freedRecord_frame]
  exact Table.look_drop ..

theorem freed_uncounted (hst : s.stations.look i = some st) (hc : st.place.cell? = none) : Freed i st s (freeStation i s) := by
  have hrec := freedRecord_frame i st s
  have hrel := releaseAll_frame (st.queue.map (·.buffer)) (freedRecord i st s)
  have hreleased := releasedAll_releaseAll (st.queue.map (·.buffer)) (freedRecord i st s)
  have hlook := look_freedRecord i st s
  have hhand := look_freedRecord_handovers i st s
  have htick := ticket_freedRecord i st s
  rw [freeStation_uncounted hst hc]
  generalize freedRecord i st s = u at *
  generalize releaseAll (st.queue.map (·.buffer)) u = x at *
  obtain ⟨p, rfl⟩ : ∃ p, x = u.setPools p := ⟨_, hrel⟩
  have hframe : u.setPools p = { s with
      pools := p, stations := s.stations.drop i, handovers := (u.setPools p).handovers, tickets := (u.setPools p).tickets } := by
    rw [hrec]; rfl
  refine { station := (hlook i).trans (if_pos rfl), others := fun j z hj hz => ⟨z.rate, ?_⟩, handovers := hhand, tickets := htick,
           counted := fun _ h => ?_, dormant := fun _ => ⟨hreleased.congr (by rw [hrec]) rfl, hframe⟩, kept := countersKept_of_eq ?_ _,
           frame := ?_ }
  · exact ((hlook j).trans (if_neg hj)).trans hz
  · rw [hc] at h
    cases h
  · rw [hframe]
  · rw [hframe]

theorem freed_counted (hf : s.Fits) (hst : s.stations.look i = some st) {v : State} (hvs : v.stations = s.stations)
    (hvc : v.copies = s.copies) (hc : st.place.cell? = some cell) : Freed i st v (freeStation i v) := by
  have hrec := freedRecord_frame i st v
  have hlook := look_freedRecord i st v
  have hhand := look_freedRecord_handovers i st v
  have htick := ticket_freedRecord i st v
  have hw : (freedRecord i st v).stations.wf = true := by
    rw [hrec]
    exact Table.wf_drop _ _ (hvs ▸ hf.stations.form)
  have hdep := hf.departed hst hw (by rw [hrec]; exact hvc) cell
  rw [freeStation_departed (by rw [hvs, hst]) hc]
  generalize freedRecord i st v = u at *
  generalize departed cell st u = x at *
  have hcount : ∀ c, u.counter c = v.counter c := fun c => by rw [hrec]; rfl
  have hsame : SameStore v u := { copies := by rw [hrec], cells := by rw [hrec], pools := by rw [hrec], passes := by rw [hrec],
                                  discarded := fun n => hcount _ }
  have hxh : x.handovers = u.handovers := by rw [hdep.frame]
  have hxt : x.tickets = u.tickets := by rw [hdep.frame]
  refine { station := hdep.stations.free i ((hlook i).trans (if_pos rfl)), others := fun j z hj hz => ?_, handovers := fun j => ?_,
           tickets := fun n => ?_, counted := fun d hd => ?_, dormant := fun h => ?_, kept := fun c hk => ?_, frame := ?_ }
  · obtain ⟨r, hr, -⟩ := hdep.stations.kept j z (((hlook j).trans (if_neg hj)).trans hz)
    exact ⟨r, hr⟩
  · rw [hxh, hhand]
  · rw [← htick, State.ticket, hxt]
    rfl
  · rw [hc] at hd
    obtain rfl := Option.some.inj hd
    refine ⟨hdep.rates, (hdep.leaves i).congr hsame ⟨rfl, rfl, rfl, rfl, fun _ => rfl⟩ (fun j hj => (hlook j).trans (if_neg hj)) rfl, ?_,
      hdep.expiries.trans (by rw [hrec])⟩
    rw [← State.leftBuffers_congr hsame.copies]
    exact hdep.released.congr hsame.pools rfl
  · rw [hc] at h
    cases h
  · exact (hdep.kept c fun he => hk ⟨_, he⟩).trans (hcount c)
  · rw [hdep.frame, hrec]

/-- A station's record freed, in a state with the stations and copies of one that fits. -/
theorem freed_freeStation (hf : s.Fits) (hst : s.stations.look i = some st) (hvs : v.stations = s.stations) (hvc : v.copies = s.copies) :
    Freed i st v (freeStation i v) := by
  cases hc : st.place.cell? with
  | none => exact freed_uncounted (by rw [hvs, hst]) hc
  | some cell => exact freed_counted hf hst hvs hvc hc

/-! ## The expire-after age (R63) -/

theorem exec_stationExpired (hst : s.stations.look i = some st) (hp : st.place = .dormant) : exec (.stationExpired i) s =
    .next (if s.settings.timers.expire * 1000 ≤ (s.time.clock - st.lastHeard).toNat then
      closeEvent (bumpPart .expired (freeStation i s)) else s) := by
  show execStationExpired i s = _
  have haged : s.agedFree st = decide (s.settings.timers.expire * 1000 ≤ (s.time.clock - st.lastHeard).toNat) := by
    rw [State.agedFree, hp]
    rfl
  by_cases h : s.settings.timers.expire * 1000 ≤ (s.time.clock - st.lastHeard).toNat
  · have hrun : expireStation i s = bumpPart .expired (freeStation i s) := by
      simp only [expireStation, hst]
      exact if_pos ⟨hp, h⟩
    simp only [execStationExpired, hst, haged, hrun, h, decide_true, if_true]
  · simp only [execStationExpired, hst, haged, h, decide_false, if_false, Bool.false_eq_true]

/-! ## EVICT STATION (R66, R85) -/

/-- The state in which a station's record is freed: a MOVING station's new cell is told first. -/
def toldEvicted (i : Nat) (st : Station) (s : State) : State := if st.place.isMoving then refuseEvicted i st.addr s else s

theorem ruleEvictStation_record {sel : StationSelector} (h : s.named sel = .record i st) : ruleEvictStation sel s =
    ⟨bumpPart .evicted (freeStation i (toldEvicted i st s)), .done, .evicted i st.addr st.place⟩ := by
  unfold ruleEvictStation
  rw [h]
  rfl

theorem toldEvicted_still (h : st.place.isMoving = false) : toldEvicted i st s = s := if_neg (by rw [h]; exact Bool.false_ne_true)

theorem toldEvicted_moving {h : Handover} (hm : st.place.isMoving = true) (hh : s.handovers.look i = some h) :
    toldEvicted i st s = postSignal h.newCell st.addr (.attachRefuse .evicted) s := by
  simp only [toldEvicted, hm, if_true, refuseEvicted, hh]

theorem toldEvicted_spec (i : Nat) (st : Station) (s : State) : CountersKept s (toldEvicted i st s) Spilled ∧ toldEvicted i st s =
    { s with trunks := (toldEvicted i st s).trunks, counters := (toldEvicted i st s).counters } := by
  have idle : CountersKept s s Spilled ∧ s = { s with trunks := s.trunks, counters := s.counters } := ⟨.refl _ _, rfl⟩
  unfold toldEvicted refuseEvicted
  split
  · split
    · exact idle
    · exact ⟨countersKept_postSignal _ _ _ _, postSignal_frame ..⟩
  · exact idle

theorem exec_evictStation_refused {h : OrderHead} {sel : StationSelector} {status : Status} (ht : s.Takes h) (ha : status.acts = false)
    (hr : ruleEvictStation sel s = refuse status s) : ∃ t, exec (.evictStation h sel) s = .next t ∧ Refused s t .evictStation h.tag status :=
  ⟨_, rfl, refused_takeActing ht ha hr⟩

theorem ruleEvictStation_invalid {sel : StationSelector} (h : s.named sel = .invalid) : ruleEvictStation sel s = refuse .badArgument s := by
  unfold ruleEvictStation
  rw [h]

theorem ruleEvictStation_absent {sel : StationSelector} {n : Option Nat} (h : s.named sel = .absent n) :
    ruleEvictStation sel s = refuse .notFound s := by
  unfold ruleEvictStation
  rw [h]

/-- The event of an EVICT STATION that frees a record, before its close. -/
def evictedState (h : OrderHead) (i : Nat) (st : Station) (s : State) : State :=
  placeReply (.order .evictStation) h.tag .done (.evicted i st.addr st.place) (bumpPart .evicted (freeStation i (toldEvicted i st s)))

theorem exec_evictStation_record {h : OrderHead} {sel : StationSelector} (ht : s.Takes h) (hn : s.named sel = .record i st) :
    exec (.evictStation h sel) s = .next (closeEvent (evictedState h i st s)) := by
  show Host.Outcome.next (takeActing .evictStation h (ruleEvictStation sel) s) = _
  rw [takeActing_taken _ _ _ _ ht, ruleEvictStation_record hn]
  exact congrArg Host.Outcome.next (if_pos rfl)

/-- The new cell told, the record freed, the event counted and answered. -/
structure Evicted (h : OrderHead) (i : Nat) (st : Station) (s e : State) : Prop where
  freed   : ∃ x, Freed i st (toldEvicted i st s) x ∧ e = { x with link := e.link, counters := e.counters, draws := e.draws }
    ∧ ∀ n, e.counter (.cell n .replayDiscarded) = x.counter (.cell n .replayDiscarded)
  reply   : Replied s e (.order .evictStation) h.tag .done (.evicted i st.addr st.place)
  counted : Advanced s e (.part .evicted) 1
  frame   : e = { s with
    link := e.link, counters := e.counters, cells := e.cells, trunks := e.trunks, pools := e.pools, stations := e.stations
    handovers := e.handovers, tickets := e.tickets, copies := e.copies, owed := e.owed, draws := e.draws }

theorem evicted_evictedState (h : OrderHead) (hf : s.Fits) (hst : s.stations.look i = some st) :
    Evicted h i st s (evictedState h i st s) := by
  obtain ⟨htoldc, htold⟩ := toldEvicted_spec i st s
  unfold evictedState
  have hfreed := freed_freeStation (v := toldEvicted i st s) hf hst (by rw [htold]) (by rw [htold])
  have hxf := hfreed.frame
  have hxk := hfreed.kept
  generalize freeStation i (toldEvicted i st s) = x at *
  generalize toldEvicted i st s = v at htold htoldc hxf hxk
  have hbump := onlyCounts_bump (.part .evicted) x
  have hbf : bumpPart .evicted x = x.setCounters (bumpPart .evicted x).counters := rfl
  have hreply := replied_placeReply (.order .evictStation) h.tag .done (.evicted i st.addr st.place) (bumpPart .evicted x)
  have hrf := placeReply_frame (.order .evictStation) h.tag .done (.evicted i st.addr st.place) (bumpPart .evicted x)
  have hrk := countersKept_placeReply (.order .evictStation) h.tag .done (.evicted i st.addr st.place) (bumpPart .evicted x)
  generalize placeReply (.order .evictStation) h.tag .done (.evicted i st.addr st.place) (bumpPart .evicted x) = e at *
  have before : ∀ c, ¬ (∃ n, c = .cell n .replayDiscarded) → ¬ Spilled c → x.counter c = s.counter c := fun c hc hs =>
    (hxk c hc).trans (htoldc c hs)
  refine { freed := ⟨x, hfreed, ?_, fun n =>
             (hrk (.cell n .replayDiscarded) nofun).trans (hbump.kept (.cell n .replayDiscarded) nofun)⟩, reply := ?_,
           counted := hbump.moved.same (before _ nofun nofun) (hrk _ nofun), frame := ?_ }
  · rw [hrf, hbf]
    rfl
  · refine hreply.before ?_ ((hbump.kept (.part .repliesLost) nofun).trans (before _ nofun nofun))
    rw [hbf, hxf, htold]
    rfl
  · rw [hrf, hbf, hxf, htold]
    rfl

theorem Place.cell?_eq_none {p : Place} : p.cell? = none ↔ p = .dormant := by
  cases p <;> simp [Place.cell?]

/-- Settles O40: the expire-after age and EVICT STATION free a record. -/
theorem expiryAndEvictionFreeARecord : Obligations.ExpiryAndEvictionFreeARecord := by
  unfold Obligations.ExpiryAndEvictionFreeARecord
  refine ⟨fun i st s hf hst hp => ⟨fun hearly => ?_, fun haged => ?_⟩, fun h n s ht hf => ⟨fun hn => ?_, fun hn hfree => ?_,
    fun a hno => ?_, ?_, fun st sel hst hsel => ?_⟩⟩
  · rw [exec_stationExpired hst hp, if_neg (by omega)]
  · rw [exec_stationExpired hst hp, if_pos haged]
    have hfreed := freed_freeStation (v := s) hf hst rfl rfl
    obtain ⟨hreleased, hframe⟩ := hfreed.dormant (by rw [hp]; rfl)
    generalize freeStation i s = x at *
    have hbump := onlyCounts_bump (.part .expired) x
    have hcount : ∀ c, x.counter c = s.counter c := fun c => by rw [hframe]; rfl
    refine ⟨_, rfl, fun j => ?_, hfreed.handovers, hfreed.tickets, hbump.moved.same (hcount _) rfl,
      fun c hc => (hbump.kept c hc).trans (hcount c), hreleased, ?_⟩
    · show x.stations.look j = _
      rw [hframe]
      exact Table.look_drop ..
    · rw [show bumpPart .expired x = x.setCounters (bumpPart .expired x).counters from rfl, hframe]
      rfl
  · exact exec_evictStation_refused ht rfl (ruleEvictStation_invalid (named_invalid (.inr (.inl ⟨n, rfl, hn⟩))))
  · exact exec_evictStation_refused ht rfl (ruleEvictStation_absent (named_index_free hn hfree))
  · split
    · next hbad => exact exec_evictStation_refused ht rfl (ruleEvictStation_invalid (named_invalid (.inr (.inr ⟨a, rfl, hbad⟩))))
    · next hgood =>
      rw [not_or, Bool.not_eq_true] at hgood
      exact exec_evictStation_refused ht rfl (ruleEvictStation_absent (named_address_unknown hgood.1 hgood.2 hno))
  · exact exec_evictStation_refused ht rfl (ruleEvictStation_invalid (named_invalid (.inl rfl)))
  · have hn : n.toNat < 16384 := hf.stations.below _ _ hst
    have hnamed : s.named sel = .record n.toNat st := by
      rcases hsel with rfl | ⟨a, rfl, ha, hg, hw⟩
      · exact named_index_record hn hst
      · exact named_address_record ha hg hw
    obtain ⟨⟨x, hfreed, he, hdiscarded⟩, hreply, hcounted, hframe⟩ := evicted_evictedState h hf hst
    obtain ⟨htoldc, htold⟩ := toldEvicted_spec n.toNat st s
    have htrunks : (evictedState h n.toNat st s).trunks = (toldEvicted n.toNat st s).trunks := by rw [he, hfreed.frame]
    have hposted : ∀ k, s.handovers.look n.toNat = some k → st.place.isMoving = true → s.HasRoom k.newCell →
        Posted s (toldEvicted n.toNat st s) k.newCell st.addr (.attachRefuse .evicted) := fun k hk hm hroom => by
      rw [toldEvicted_moving hm hk]
      exact posted_postSignal _ _ _ s hroom
    have hstill : st.place.isMoving = false → toldEvicted n.toNat st s = s := toldEvicted_still
    have hv : SameStore s (toldEvicted n.toNat st s) :=
      { copies := by rw [htold], cells := by rw [htold], pools := by rw [htold], passes := by rw [htold]
        discarded := fun n => htoldc _ nofun }
    have hexec := exec_evictStation_record ht hnamed
    generalize toldEvicted n.toNat st s = v at *
    generalize evictedState h n.toNat st s = e at *
    have hx : SameStore x e :=
      { copies := by rw [he], cells := by rw [he], pools := by rw [he], passes := by rw [he], discarded := hdiscarded }
    have hes : e.stations = x.stations := by rw [he]
    have heh : e.handovers = x.handovers := by rw [he]
    have heo : e.owed = x.owed := by rw [he]
    have hek : ∀ t, e.ticket t = x.ticket t := fun t => by rw [he]; rfl
    have hvs : v.stations = s.stations := by rw [htold]
    refine ⟨e, hexec, hreply, ?_, ?_, fun j => ?_, fun t => ?_, fun k hk hm hroom j => ?_, fun hm => ?_, hcounted, fun cell hc => ?_,
      fun hp => ?_, hframe⟩
    · rw [hes, hfreed.station]
    · intro j z hj hz
      rw [hes]
      exact hfreed.others j z hj (by rw [hvs, hz])
    · rw [heh, hfreed.handovers, htold]
    · rw [hek, hfreed.tickets, htold]
      rfl
    · rw [State.trunk, htrunks]
      exact hposted k hk hm hroom j
    · rw [htrunks, hstill hm]
    · obtain ⟨hrates, hleaves, hreleased, hexp⟩ := hfreed.counted cell hc
      refine ⟨hrates.same hx.cells hes, hleaves.congr hv hx (fun j _ => by rw [hvs]) hes, ?_, by rw [heo, hexp, htold]⟩
      rw [← State.leftBuffers_congr hv.copies]
      exact hreleased.congr hv.pools hx.pools
    · obtain ⟨hreleased, hdormant⟩ := hfreed.dormant (Place.cell?_eq_none.mpr hp)
      have hxs : x.stations = s.stations.drop n.toNat := by rw [hdormant, htold]
      refine ⟨fun j => ?_, hreleased.congr hv.pools hx.pools, ?_, ?_, ?_⟩
      · rw [hes, hxs, Table.look_drop]
      · rw [hx.cells, hdormant, hv.cells]
      · rw [hx.copies, hdormant, hv.copies]
      · rw [heo, hdormant, htold]

end Sys2Proof.Machine
end

section
/-! PROOFS. ATTACH REQUEST of an unknown phone (R55 to R57): the record it takes, and what placing a station at a cell leaves. -/

namespace Sys2Proof.Machine

variable {s e x y : State} {i cell : Nat} {st : Station} {addr : Addr} {body : SignalBody}

/-! ## A message that its queue has room for (R29) -/

theorem postSignal_room (addr : Addr) (body : SignalBody) (h : s.HasRoom cell) :
    postSignal cell addr body s = { s with trunks := (postSignal cell addr body s).trunks } := by
  rcases postSignal_cases cell addr body s with ⟨-, v, e⟩ | e | e
  · rw [e]
    rfl
  · rw [e]
  · have hposted := posted_postSignal cell addr body s h (cell / 32)
    rw [e, if_pos rfl] at hposted
    exact absurd (congrArg (·.signals.length) hposted) (by simp [bump, advance, State.trunk])

theorem State.HasRoom.congr (h : s.HasRoom cell) (ht : x.trunks = s.trunks) (hc : (x.cells.look cell).isSome = (s.cells.look cell).isSome) :
    x.HasRoom cell := by
  obtain ⟨h1, h2, h3⟩ := h
  unfold State.HasRoom State.trunk
  rw [ht]
  exact ⟨hc.trans h1, h2, h3⟩

/-! ## A station placed at a cell (R56, R58) -/

/-- From `x` to `e` station `i`, whose record `r` counts it at the cell, has its rate and a full bucket there, and the grant is made. -/
structure Attached (i cell : Nat) (addr : Addr) (r : Station) (rate : Nat) (x e : State) : Prop where
  station : e.stations.look i = some { r with rate := rate, credit := max 3000 (4 * rate) * (800 * x.time.grain) }
  rates   : e.RatesLaw cell
  others  : OthersKept x e i
  posted  : Posted x e cell addr (.attachGrant i)
  frame   : e = { x with cells := e.cells, trunks := e.trunks, stations := e.stations }

theorem look_fillCredit (i j : Nat) (s : State) : (fillCredit i s).stations.look j = if j = i then
    (s.stations.look i).map fun st => { st with credit := max 3000 (4 * st.rate) * (800 * s.time.grain) } else s.stations.look j :=
  look_updateStation ..

theorem fillCredit_frame (i : Nat) (s : State) : fillCredit i s = s.setStations (fillCredit i s).stations := rfl

theorem reweigh_configured (cell n : Nat) (s : State) : ((reweigh cell s).cells.look n).isSome = (s.cells.look n).isSome := by
  rw [reweigh, refreshRates_cells, look_refreshW, Option.isSome_map]

theorem attached_settleAttached {r : Station} (hw : x.stations.wf = true) (hr : x.stations.look i = some r) (hroom : x.HasRoom cell)
    (addr : Addr) : ∃ rate, Attached i cell addr r rate x (settleAttached i cell addr x) := by
  have hstations := ratesAt_reweigh cell x
  have hrates := ratesLaw_reweigh hw cell
  have hframe := reweigh_frame cell x
  have hconf := reweigh_configured cell cell x
  have hyw : (reweigh cell x).stations.wf = true := (inner_reweigh cell x).wf.1 hw
  unfold settleAttached
  generalize reweigh cell x = y at *
  obtain ⟨rate, hyr, -⟩ := hstations.kept i r hr
  have hfill := fillCredit_frame i y
  have hlook := look_fillCredit i (s := y)
  have hfilled : (fillCredit i y).RatesLaw cell := ratesKept_updateStation (f := fun st => { st with credit := fullCredit y.time.unit st.rate })
    (fun _ => ⟨rfl, rfl, rfl⟩) y hyw cell hrates
  generalize fillCredit i y = z at *
  have hzroom : z.HasRoom cell := hroom.congr (by rw [hfill, hframe]; rfl) (by rw [hfill]; exact hconf)
  have hposted := posted_postSignal cell addr (.attachGrant i) z hzroom
  have hpost := postSignal_room addr (.attachGrant i) hzroom
  generalize postSignal cell addr (.attachGrant i) z = e at *
  have hes : e.stations = z.stations := by rw [hpost]
  have hgrain : y.time = x.time := by rw [hframe]
  refine ⟨rate, { station := ?_, rates := hfilled.same (by rw [hpost]) hes, others := fun j w hj hjw => ?_, posted := fun k => ?_,
                  frame := ?_ }⟩
  · rw [hes, hlook, if_pos rfl, hyr, ← hgrain]
    rfl
  · obtain ⟨q, hq, -⟩ := hstations.kept j w hjw
    exact ⟨q, by rw [hes, hlook, if_neg hj, hq]⟩
  · have hzt : z.trunk k = x.trunk k := by rw [hfill, hframe]; rfl
    rw [hposted, hzt]
  · rw [hpost, hfill, hframe]
    rfl

/-- A record written with the station at the cell, and the attach done. -/
theorem attached_put {r : Station} (hw : s.stations.wf = true) (hroom : s.HasRoom cell) (addr : Addr) :
    ∃ rate, Attached i cell addr r rate s (settleAttached i cell addr (s.setStations (s.stations.put i r))) := by
  have hlook : ∀ j, (s.setStations (s.stations.put i r)).stations.look j = if j = i then some r else s.stations.look j := fun j => by
    rw [setStations_stations, Table.look_put]
  obtain ⟨rate, h⟩ := attached_settleAttached (x := s.setStations (s.stations.put i r)) (i := i) (Table.wf_put _ _ _ hw)
    ((hlook i).trans (if_pos rfl)) (hroom.congr rfl rfl) addr
  exact ⟨rate, { station := h.station, rates := h.rates, others := fun j z hj hz => h.others j z hj ((hlook j).trans (by rw [if_neg hj, hz])),
                 posted := h.posted, frame := h.frame }⟩

/-- The record of a phone that has just been given one (R56). -/
def newStation (addr : Addr) (cell : Nat) (s : State) : Station :=
  { addr := addr, place := .associated cell s.time.clock, prev := none, ticket := none, cls := .unticketed
    weight := s.settings.weights.unticketed, members := [], lastHeard := s.time.clock, paused := false, rate := 0, credit := 0
    queue := [] }

theorem attached_attachNew (hw : s.stations.wf = true) (hroom : s.HasRoom cell) (i : Nat) (addr : Addr) :
    ∃ rate, Attached i cell addr (newStation addr cell s) rate s (attachNew i cell addr s) := attached_put hw hroom addr

/-! ## The record that an unknown phone takes (R56, R57) -/

theorem Table.freeFrom_isSome {α : Type} {t : Table α} {fuel k j : Nat} (hk : k ≤ j) (hj : j < k + fuel) (hfree : t.look j = none) :
    (t.freeFrom fuel k).isSome = true := by
  induction fuel generalizing k with
  | zero => omega
  | succ fuel ih =>
    unfold Table.freeFrom
    split
    · rfl
    · next hsome =>
      have hne : k ≠ j := fun e => hsome (by rw [e, hfree]; rfl)
      exact ih (by omega) (by omega)

theorem Table.lowestFree_eq_some {α : Type} {t : Table α} {capacity i : Nat} (hi : i < capacity) (hfree : t.look i = none)
    (hlow : ∀ j, j < i → (t.look j).isSome = true) : t.lowestFree capacity = some i := by
  obtain ⟨n, hn⟩ := Option.isSome_iff_exists.mp (Table.freeFrom_isSome (Nat.zero_le i) (by omega : i < 0 + capacity) hfree)
  obtain ⟨-, hnone, hbelow⟩ := Table.lowestFree_spec t capacity n hn
  rw [Table.lowestFree, hn]
  congr 1
  by_contra hne
  rcases Nat.lt_or_gt_of_ne hne with h | h
  · simpa [hnone] using hlow n h
  · simpa [hfree] using hbelow i h

theorem Table.lowestFree_eq_none {α : Type} {t : Table α} {capacity : Nat} (h : ∀ j, j < capacity → (t.look j).isSome = true) :
    t.lowestFree capacity = none := by
  cases hn : t.lowestFree capacity with
  | none => rfl
  | some n =>
    obtain ⟨hlt, hnone, -⟩ := Table.lowestFree_spec t capacity n hn
    simpa [hnone] using h n hlt

/-- The choice is the first element that none comes before. -/
theorem bestBy_eq_some {α : Type} {before : α → α → Bool} {l r : List α} {x : α} (hl : ∀ y ∈ l, before x y = true)
    (hr : ∀ y ∈ r, before y x = false) : bestBy before (l ++ x :: r) = some x := by
  induction l with
  | nil =>
    show (match bestBy before r with | none => _ | some y => _) = _
    cases h : bestBy before r with
    | none => rfl
    | some y => exact if_neg (by rw [hr y (bestBy_mem h)]; exact Bool.false_ne_true)
  | cons y l ih =>
    rw [List.cons_append, bestBy, ih fun z hz => hl z (List.mem_cons_of_mem y hz)]
    exact if_pos (hl y List.mem_cons_self)

/-- The station heard longest ago, among equals the lowest index (R57). -/
theorem State.reclaimable_eq_some (hw : s.stations.wf = true) (hst : s.stations.look i = some st) (hp : st.place = .dormant)
    (holdest : ∀ j x, s.stations.look j = some x → x.place = .dormant →
      (s.time.clock - x.lastHeard).toNat < (s.time.clock - st.lastHeard).toNat ∨ (x.lastHeard = st.lastHeard ∧ i ≤ j)) :
    s.reclaimable = some i := by
  have hmem : ∀ j x, (j, x) ∈ s.stations.entries.filter (fun e => e.2.place == .dormant) ↔
      s.stations.look j = some x ∧ x.place = .dormant := fun j x => by
    rw [List.mem_filter, Table.mem_entries hw, beq_iff_eq]
  obtain ⟨l, r, hlr⟩ := List.append_of_mem ((hmem i st).mpr ⟨hst, hp⟩)
  have hrising := (Table.entries_pairwise hw).filter (fun e => e.2.place == .dormant)
  rw [hlr, List.pairwise_append, List.pairwise_cons] at hrising
  obtain ⟨-, ⟨hafter, -⟩, hbefore⟩ := hrising
  have hage : ∀ e ∈ l ++ (i, st) :: r, (s.time.clock - e.2.lastHeard).toNat < (s.time.clock - st.lastHeard).toNat
      ∨ (e.2.lastHeard = st.lastHeard ∧ i ≤ e.1) := fun ⟨j, x⟩ he => by
    obtain ⟨hx, hd⟩ := (hmem j x).mp (hlr ▸ he)
    exact holdest j x hx hd
  have hbest : bestBy (fun a b => decide (age s.now b.2.lastHeard < age s.now a.2.lastHeard)) (l ++ (i, st) :: r) = some (i, st) := by
    refine bestBy_eq_some (fun e he => decide_eq_true ?_) fun e he => decide_eq_false ?_
    · refine (hage e (List.mem_append_left _ he)).resolve_right fun ⟨_, hle⟩ => ?_
      exact absurd (hbefore e he (i, st) List.mem_cons_self) (Nat.not_lt.mpr hle)
    · rcases hage e (List.mem_append_right _ (List.mem_cons_of_mem _ he)) with h | ⟨h, -⟩
      · exact Nat.lt_asymm h
      · rw [h]
        exact Nat.lt_irrefl _
  rw [State.reclaimable, hlr, hbest]
  rfl

theorem State.reclaimable_eq_none (hw : s.stations.wf = true) (h : ∀ j x, s.stations.look j = some x → x.place ≠ .dormant) :
    s.reclaimable = none := by
  rw [State.reclaimable, List.filter_eq_nil_iff.mpr fun ⟨j, x⟩ he hd => h j x ((Table.mem_entries hw).mp he) (beq_iff_eq.mp hd)]
  rfl

theorem takeAttach_unknown (h : s.stationWith addr = none) : takeAttach cell addr s = attachUnknown cell addr s := by
  simp only [takeAttach, h]

theorem attachUnknown_free (h : s.stations.lowestFree 16384 = some i) : attachUnknown cell addr s = attachNew i cell addr s := by
  unfold attachUnknown
  rw [show s.stations.lowestFree Config.stations = some i from h]

theorem attachUnknown_reclaimed (h : s.stations.lowestFree 16384 = none) (hr : s.reclaimable = some i) :
    attachUnknown cell addr s = attachNew i cell addr (bumpPart .reclaimed (freeStation i s)) := by
  unfold attachUnknown
  rw [show s.stations.lowestFree Config.stations = none from h, hr]

theorem attachUnknown_refused (h : s.stations.lowestFree 16384 = none) (hr : s.reclaimable = none) : attachUnknown cell addr s =
    raiseLatch .stationTableFull (bumpPart .tableRefusals (postSignal cell addr (.attachRefuse .tableFull) s)) := by
  unfold attachUnknown
  rw [show s.stations.lowestFree Config.stations = none from h, hr]

/-- Raising a latch moves no counter while the notice queue has room. -/
theorem raiseLatch_counters (l : Latch) (h : s.notices.length < Config.notices) : (raiseLatch l s).counters = s.counters := by
  rcases raiseLatch_cases l s with ⟨-, e⟩ | ⟨-, e⟩ <;> rw [e]
  rw [pushNotice_room (s := setLatch l s) h]
  rfl

/-- Settles O37: the lowest FREE record, else that of the DORMANT station heard longest ago, else TABLE FULL. -/
theorem anUnknownPhoneTakesARecord : Obligations.AnUnknownPhoneTakesARecord := by
  unfold Obligations.AnUnknownPhoneTakesARecord
  intro m s hf hacc hbody hphone hunknown hroom
  have hexec := exec_attachRequest hacc hbody hphone
  rw [takeAttach_unknown hunknown] at hexec
  refine ⟨fun i hi hfree hlow => ?free, fun i st hfull hst hp holdest => ?reclaimed, fun hfull => ?refused⟩
  case free =>
    rw [attachUnknown_free (Table.lowestFree_eq_some hi hfree hlow)] at hexec
    obtain ⟨rate, h⟩ := attached_attachNew hf.stations.form hroom i m.addr
    exact ⟨_, rate, hexec, h.station, h.rates, h.others, h.posted, h.frame⟩
  case reclaimed =>
    rw [attachUnknown_reclaimed (Table.lowestFree_eq_none hfull) (State.reclaimable_eq_some hf.stations.form hst hp holdest)] at hexec
    have hfreed := freed_freeStation (v := s) hf hst rfl rfl
    obtain ⟨-, hframe⟩ := hfreed.dormant (by rw [hp]; rfl)
    generalize freeStation i s = x at *
    have hbump := onlyCounts_bump (.part .reclaimed) x
    have hcount : ∀ c, x.counter c = s.counter c := fun c => by rw [hframe]; rfl
    have hxs : x.stations = s.stations.drop i := by rw [hframe]
    have hxroom : (bumpPart .reclaimed x).HasRoom (cellOf m) :=
      hroom.congr (x := bumpPart .reclaimed x) (by rw [show (bumpPart .reclaimed x).trunks = x.trunks from rfl, hframe])
        (by rw [show (bumpPart .reclaimed x).cells = x.cells from rfl, hframe])
    have hxw : (bumpPart .reclaimed x).stations.wf = true := by
      rw [show (bumpPart .reclaimed x).stations = x.stations from rfl, hxs]
      exact Table.wf_drop _ _ hf.stations.form
    obtain ⟨rate, h⟩ := attached_attachNew hxw hxroom i m.addr
    have hxtime : x.time = s.time := by rw [hframe]
    have hxset : x.settings = s.settings := by rw [hframe]
    generalize attachNew i (cellOf m) m.addr (bumpPart .reclaimed x) = e at h hexec
    have hec : ∀ c, e.counter c = (bump (.part .reclaimed) x).counter c := fun c => by rw [h.frame]; rfl
    refine ⟨e, rate, hexec, ?_, fun j z hj hz => h.others j z hj ?_, fun k => ?_, hbump.moved.same (hcount _) (hec _), fun c hc => ?_,
      fun n hn => ?_, ?_⟩
    · rw [h.station, newStation, show (bumpPart .reclaimed x).time = x.time from rfl,
        show (bumpPart .reclaimed x).settings = x.settings from rfl, hxset, hxtime]
    · show x.stations.look j = _
      rw [hxs, Table.look_drop, if_neg hj, hz]
    · have hxk : (bumpPart .reclaimed x).trunk k = s.trunk k := by
        show x.trunk k = _
        rw [hframe]
        rfl
      rw [h.posted, hxk]
    · rw [hec, hbump.kept c hc, hcount]
    · have hek : e.ticket n = x.ticket n := by rw [h.frame]; rfl
      rw [hek, hfreed.tickets]
      simp only [hn, if_true]
    · rw [h.frame, show bumpPart .reclaimed x = x.setCounters (bumpPart .reclaimed x).counters from rfl, hframe]
      rfl
  case refused =>
    have hlow : s.stations.lowestFree 16384 = none := Table.lowestFree_eq_none fun j hj => by
      obtain ⟨x, hx, -⟩ := hfull j hj
      rw [hx]
      rfl
    have hnone : s.reclaimable = none := State.reclaimable_eq_none hf.stations.form fun j x hx hd => by
      obtain ⟨y, hy, hne⟩ := hfull j (hf.stations.below j x hx)
      rw [hx] at hy
      exact hne (Option.some.inj hy ▸ hd)
    rw [attachUnknown_refused hlow hnone] at hexec
    have hposted := posted_postSignal (cellOf m) m.addr (.attachRefuse .tableFull) s hroom
    have hpost := postSignal_room m.addr (.attachRefuse .tableFull) hroom
    generalize postSignal (cellOf m) m.addr (.attachRefuse .tableFull) s = u at *
    have hbump := onlyCounts_bump (.part .tableRefusals) u
    have hbf : bumpPart .tableRefusals u = u.setCounters (bumpPart .tableRefusals u).counters := rfl
    have hraise := raiseLatch_frame .stationTableFull (bumpPart .tableRefusals u)
    have hcounters := raiseLatch_counters (s := bumpPart .tableRefusals u) .stationTableFull
    have huc : ∀ c, u.counter c = s.counter c := fun c => by rw [hpost]; rfl
    refine ⟨_, hexec, fun k => ?_, latchSet_raiseLatch (by decide), ?_, fun hnotices => ⟨?_, fun c hc => ?_⟩, ?_⟩
    · rw [State.trunk, hraise]
      exact hposted k
    · rw [hraise, hbf, hpost]
      rfl
    · refine hbump.moved.same (huc _) ?_
      rw [State.counter, hcounters (by rw [hbf, hpost]; exact hnotices)]
      rfl
    · rw [State.counter, hcounters (by rw [hbf, hpost]; exact hnotices)]
      exact (hbump.kept c hc).trans (huc c)
    · rw [hraise, hbf, hpost]
      rfl

end Sys2Proof.Machine
end

section
/-! PROOFS. A handover completes (R76): the station placed at its new cell, its memberships carried there (R131), the one that finds the copy
table full lost. -/

namespace Sys2Proof.Machine

variable {p q : Nat → Prop} {i old new cell : Nat} {loose : Prop} {s t u v : State} {st : Station}

/-! ## What small moves leave of passes and of copies elsewhere -/

theorem mem_passes_owePass (cell : Nat) (s : State) : cell ∈ (owePass cell s).owed.passes := by
  unfold owePass
  split
  · assumption
  · exact List.mem_append_right _ (List.mem_singleton.mpr rfl)

theorem passes_owePass (cell : Nat) (s : State) {n : Nat} (hn : n ∈ s.owed.passes) : n ∈ (owePass cell s).owed.passes := by
  unfold owePass
  split
  · exact hn
  · exact List.mem_append_left _ hn

/-- Small moves take back no pass that is owed. -/
theorem Shift.passes (h : Shift p q i loose s t) {n : Nat} (hn : n ∈ s.owed.passes) : n ∈ t.owed.passes := by
  induction h with
  | refl s => exact hn
  | trans _ _ ih1 ih2 => exact ih2 (ih1 hn)
  | weigh s cell => rw [reweigh_owed]; exact hn
  | fewer s n c _ _ => exact hn
  | remove s n c hc _ =>
    rw [removeCopy_eq hc]
    refine passes_owePass _ _ ?_
    rw [refreshRates_owed, refreshM_frame, flushCopy_frame hc]
    exact hn
  | more s n c _ _ => exact hn
  | create s n channel cell ch a _ _ hfree hch ha => rw [createCopy_frame hfree hch ha]; exact hn
  | members s f => exact hn
  | credit s => exact hn
  | owe s cell => exact passes_owePass cell s hn
  | spill s c _ _ => exact hn
  | post s cell addr body _ => rw [postSignal_owed]; exact hn

/-- A copy at a cell whose copies neither lose nor gain is as it was. -/
theorem Shift.copies_apart (h : Shift p q i loose s t) {n : Nat} {c : Copy} (hc : s.copies.look n = some c) (hp : ¬ p c.cell)
    (hq : ¬ q c.cell) : t.copies.look n = some c := by
  have other : ∀ {s : State} {k : Nat} {d : Copy}, s.copies.look n = some c → s.copies.look k = some d →
      (p d.cell ∨ q d.cell) → n ≠ k := by
    rintro s k d hc hd hpq rfl
    rw [hc] at hd
    obtain rfl := Option.some.inj hd
    exact hpq.elim hp hq
  induction h with
  | refl s => exact hc
  | trans _ _ ih1 ih2 => exact ih2 (ih1 hc)
  | weigh s cell => rw [reweigh_copies, hc]
  | fewer s k d hd hpd => rw [setCopies_copies, Table.look_put, if_neg (other hc hd (.inl hpd)), hc]
  | remove s k d hd hpd => rw [removeCopy_copies hd, if_neg (other hc hd (.inl hpd)), hc]
  | more s k d hd hqd => rw [setCopies_copies, Table.look_put, if_neg (other hc hd (.inr hqd)), hc]
  | create s k channel cell ch a _ _ hfree hch ha =>
    have hnk : n ≠ k := by
      rintro rfl
      rw [(Table.lowestFree_spec _ _ _ hfree).2.1] at hc
      cases hc
    rw [createCopy_copies hfree hch ha, if_neg hnk, hc]
  | members s f => exact hc
  | credit s => exact hc
  | owe s cell => rw [owePass_copies, hc]
  | spill s c _ _ => exact hc
  | post s cell addr body _ => rw [postSignal_copies, hc]

/-- A record of the copy table that was free is taken only at a cell whose copies gain. -/
theorem Shift.copies_new (h : Shift p q i loose s t) {n : Nat} {c : Copy} (hn : s.copies.look n = none) (hc : t.copies.look n = some c) :
    q c.cell := by
  have back : ∀ {s t : State}, Shift p q i loose s t → ∀ {d : Copy}, t.copies.look n = some d → ¬ q d.cell →
      ∃ x, s.copies.look n = some x ∧ x.cell = d.cell := by
    intro s t h
    induction h with
    | refl s => exact fun hd _ => ⟨_, hd, rfl⟩
    | trans _ _ ih1 ih2 =>
      intro d hd hq
      obtain ⟨x, hx, hxc⟩ := ih2 hd hq
      obtain ⟨y, hy, hyc⟩ := ih1 hx (hxc ▸ hq)
      exact ⟨y, hy, hyc.trans hxc⟩
    | weigh s cell => exact fun hd _ => ⟨_, by rwa [reweigh_copies] at hd, rfl⟩
    | fewer s k e he _ =>
      intro d hd _
      rw [setCopies_copies, Table.look_put] at hd
      split at hd
      · next hk => exact ⟨e, hk ▸ he, by rw [← Option.some.inj hd]⟩
      · exact ⟨d, hd, rfl⟩
    | remove s k e he _ =>
      intro d hd _
      rw [removeCopy_copies he] at hd
      split at hd
      · cases hd
      · exact ⟨d, hd, rfl⟩
    | more s k e he _ =>
      intro d hd _
      rw [setCopies_copies, Table.look_put] at hd
      split at hd
      · next hk => exact ⟨e, hk ▸ he, by rw [← Option.some.inj hd]⟩
      · exact ⟨d, hd, rfl⟩
    | create s k channel cell ch a hqc _ hfree hch ha =>
      intro d hd hq
      rw [createCopy_copies hfree hch ha] at hd
      split at hd
      · rw [← Option.some.inj hd, (newCopy_spec s channel cell ch a).2.1] at hq
        exact absurd hqc hq
      · exact ⟨d, hd, rfl⟩
    | members s f => exact fun hd _ => ⟨_, hd, rfl⟩
    | credit s => exact fun hd _ => ⟨_, hd, rfl⟩
    | owe s cell => exact fun hd _ => ⟨_, by rwa [owePass_copies] at hd, rfl⟩
    | spill s c _ _ => exact fun hd _ => ⟨_, hd, rfl⟩
    | post s cell addr body _ => exact fun hd _ => ⟨_, by rwa [postSignal_copies] at hd, rfl⟩
  by_contra hq
  obtain ⟨x, hx, -⟩ := back h hc hq
  rw [hn] at hx
  cases hx

/-! ## The old cell left (R131) -/

/-- The old cell left: the copies there have lost a member each or are gone, the list is empty, a pass is owed. -/
structure LeftOld (i old : Nat) (st : Station) (s t : State) : Prop where
  copies  : ∀ n, t.copies.look n = (s.copies.look n).bind (Copy.without (st.members.map (·.channel)) old)
  station : ∃ now, t.stations.look i = some now ∧ now.members = []
  pass    : old ∈ t.owed.passes
  trunks  : t.trunks = s.trunks

theorem leftOld_leftOld (hw : s.copies.wf = true) (hs : s.OneCopy) (hnd : (st.members.map (·.channel)).Nodup)
    (hst : s.stations.look i = some st) (old : Nat) : LeftOld i old st s (leftOld i old st s) := by
  have left := left_dropMembers (s := s.setStations (s.stations.put i { st with members := [] })) hw hs old hnd
  have hput : (s.setStations (s.stations.put i { st with members := [] })).stations.look i = some { st with members := [] } := by
    rw [setStations_stations, Table.look_put, if_pos rfl]
  obtain ⟨r, hr, -⟩ := left.stations.kept i _ hput
  refine { copies := fun n => ?_, station := ⟨_, by rw [leftOld, owePass_stations, hr], rfl⟩, pass := mem_passes_owePass ..,
           trunks := (shift_leftOld hw hst old (fun _ => False) False).trunks not_false }
  rw [leftOld, owePass_copies]
  exact left.copies n

/-! ## A membership lost at a full copy table (R131) -/

theorem Table.isSome_of_full {α : Type} {t : Table α} {n k : Nat} (hw : t.wf = true) (hb : t.below n) (hfull : n ≤ t.size) (hk : k < n) :
    (t.look k).isSome = true := by
  by_contra hnone
  have hnodup : (t.entries.map (·.1)).Nodup := (List.pairwise_map.mpr (Table.entries_pairwise hw)).imp Nat.ne_of_lt
  have hsub : t.entries.map (·.1) ⊆ (List.range n).erase k := fun j hj => by
    obtain ⟨⟨j, x⟩, hx, rfl⟩ := List.mem_map.mp hj
    have hlook := (Table.mem_entries hw).mp hx
    refine (List.mem_erase_of_ne fun e => hnone ?_).mpr (List.mem_range.mpr (hb j x hlook))
    rw [← e, hlook]
    rfl
  have hlen := (hnodup.subperm hsub).length_le
  rw [List.length_erase_of_mem (List.mem_range.mpr hk), List.length_range, List.length_map] at hlen
  have : n ≤ t.entries.length := hfull
  omega

theorem countersKept_postSignal_signalling (cell : Nat) (addr : Addr) (body : SignalBody) (s : State) :
    CountersKept s (postSignal cell addr body s) (∃ k, · = .trunk k .signallingDiscarded) := by
  rcases postSignal_cases cell addr body s with ⟨-, v, h⟩ | h | h <;> rw [h]
  · exact countersKept_of_eq rfl _
  · exact .refl _ _
  · exact (countersKept_advance (.trunk (cell / 32) .signallingDiscarded) 1 s).mono fun c hc => ⟨_, hc⟩

/-- From `u` to `t` the membership of a carried channel is lost: NO-ROOM made where the new cell's trunk is ACTIVE, the loss counted. -/
structure LostAt (new : Nat) (addr : Addr) (ch : Nat) (u t : State) : Prop where
  counted  : Advanced u t (.part .membershipsLost) 1
  stations : t.stations = u.stations
  made     : ∃ w x, w.trunks = u.trunks ∧ w.cells = u.cells ∧ x.trunks = t.trunks ∧ x.cells = t.cells
    ∧ x = if (u.trunk (new / 32)).state = .active then postSignal new addr (.joinVerdict ch .noRoom) w else w

theorem lostAt_carryChannel (hw : u.copies.wf = true) (hfull : u.copies.lowestFree Config.copies = none)
    {ch : Nat} (hno : ∀ n c, u.copies.look n = some c → ¬ (c.channel = ch ∧ c.cell = new)) (i : Nat) (addr : Addr) :
    LostAt new addr ch u (carryChannel i new addr u ch) := by
  have hplace : ∃ w, placeMembership i ch new u = (w, none) ∧ w.trunks = u.trunks ∧ w.cells = u.cells ∧ w.stations = u.stations
      ∧ w.counter (.part .membershipsLost) = u.counter (.part .membershipsLost) := by
    rcases placeMembership_cases hw i ch new with ⟨_, _, -, h⟩ | ⟨h | h, -⟩
    · rcases h with ⟨n, c, hc, h1, h2, -⟩ | ⟨n, _, _, -, h, -⟩
      · exact absurd ⟨h1, h2⟩ (hno n c hc)
      · rw [hfull] at h
        cases h
    · exact ⟨_, h, rfl, rfl, rfl, rfl⟩
    · exact ⟨_, h, rfl, rfl, rfl, countersKept_bumpPart .copyTableFull u (.part .membershipsLost) nofun⟩
  obtain ⟨w, hw', ht, hc, hs, hcount⟩ := hplace
  have hrun : carryChannel i new addr u ch = bumpPart .membershipsLost (postNoRoom new addr ch w) := by
    simp only [carryChannel, hw']
  have hroom : postNoRoom new addr ch w =
      if (u.trunk (new / 32)).state = .active then postSignal new addr (.joinVerdict ch .noRoom) w else w := by
    have hstate : w.trunkStateOf new = (u.trunk (new / 32)).state := by
      show (w.trunk (new / 32)).state = _
      rw [State.trunk, State.trunk, ht]
    rw [postNoRoom, hstate]
  have hkept : CountersKept w (postNoRoom new addr ch w) (∃ k, · = .trunk k .signallingDiscarded) ∧
      (postNoRoom new addr ch w).stations = w.stations := by
    rw [hroom]
    split
    · exact ⟨countersKept_postSignal_signalling _ _ _ _, postSignal_stations ..⟩
    · exact ⟨.refl _ _, rfl⟩
  obtain ⟨hkept, hst⟩ := hkept
  rw [hrun]
  refine { counted := ?_, stations := hst.trans hs, made := ⟨w, postNoRoom new addr ch w, ht, hc, rfl, rfl, hroom⟩ }
  exact (onlyCounts_bump (.part .membershipsLost) _).moved.same ((hkept _ fun ⟨_, hk⟩ => nomatch hk).trans hcount) rfl

end Sys2Proof.Machine
end

section
/-! PROOFS. A handover completes (R76), assembled: the grant ahead of the carried list, the list, the full bucket. -/

namespace Sys2Proof.Machine

variable {i old new : Nat} {s g x : State} {st r : Station}

/-! ## The carried list, over the state with the grant made -/

/-- What the carried list leaves of a copy that the state has. -/
theorem carryMemberships_copies (hw : g.copies.wf = true) (hs : g.OneCopy) (hnd : (r.members.map (·.channel)).Nodup)
    (hr : g.stations.look i = some r) (hne : old ≠ new) {n : Nat} {c : Copy} (hc : g.copies.look n = some c) :
    (c.cell = old → if ∃ y ∈ r.members, y.channel = c.channel then
        (2 ≤ c.members → (carryMemberships i old new g).copies.look n = some { c with members := c.members - 1 })
          ∧ (c.members ≤ 1 → ∀ d, (carryMemberships i old new g).copies.look n = some d → d.cell = new)
      else (carryMemberships i old new g).copies.look n = some c)
    ∧ (c.cell ≠ old → c.cell ≠ new → (carryMemberships i old new g).copies.look n = some c) := by
  have left := leftOld_leftOld hw hs hnd hr old
  have hlw := (shift_leftOld hw hr old (fun _ => False) False).inner.wf.2.1 hw
  have hsh := shift_carryChannels hlw i new r.addr (r.members.map (·.channel))
  rw [← carryMemberships_eq hr] at hsh
  have hlook := (left.copies n).trans (by rw [hc, Option.bind_some])
  refine ⟨fun hold => ?_, fun hold hnew => hsh.copies_apart (hlook.trans ?_) not_false hnew⟩
  · split
    · next hin =>
      have hmem : c.cell = old ∧ c.channel ∈ r.members.map (·.channel) := ⟨hold, List.mem_map.mpr hin⟩
      rw [Copy.without, if_pos hmem] at hlook
      constructor
      · intro h2
        rw [if_neg (by omega)] at hlook
        exact hsh.copies_apart hlook not_false (hold.trans_ne hne)
      · intro h1 d hd
        rw [if_pos h1] at hlook
        exact hsh.copies_new hlook hd
    · next hin =>
      rw [Copy.without_of_not_mem fun h => hin (List.mem_map.mp h.2)] at hlook
      exact hsh.copies_apart hlook not_false (hold.trans_ne hne)
  · exact Copy.without_of_not_mem fun h => hold h.1

/-- The one membership of a station lost at a full copy table. -/
theorem carryMemberships_lost (hw : g.copies.wf = true) (hs : g.OneCopy) (hb : g.copies.below 2048) (hr : g.stations.look i = some r)
    {y : Membership} (hy : r.members = [y]) (hfull : 2048 ≤ g.copies.size)
    (hno : ∀ n c, g.copies.look n = some c → ¬ (c.channel = y.channel ∧ c.cell = new))
    (hold : ∀ n c, g.copies.look n = some c → c.channel = y.channel → c.cell = old → 2 ≤ c.members) :
    (∃ now, (carryMemberships i old new g).stations.look i = some now ∧ now.members = [])
      ∧ LostAt new r.addr y.channel (leftOld i old r g) (carryMemberships i old new g) := by
  have left := leftOld_leftOld hw hs (by rw [hy]; exact List.nodup_singleton _) hr old
  have hlw := (shift_leftOld hw hr old (fun _ => False) False).inner.wf.2.1 hw
  have hkept : ∀ n c, g.copies.look n = some c → ∃ d, (leftOld i old r g).copies.look n = some d := fun n c hc => by
    rw [left.copies, hc, Option.bind_some, hy, Copy.without]
    split
    · next hin =>
      rw [if_neg (by have := hold n c hc (List.mem_singleton.mp hin.2) hin.1; omega)]
      exact ⟨_, rfl⟩
    · exact ⟨_, rfl⟩
  have hlost : LostAt new r.addr y.channel (leftOld i old r g) (carryMemberships i old new g) := by
    rw [carryMemberships_eq hr, hy]
    refine lostAt_carryChannel hlw (Table.lowestFree_eq_none fun k hk => ?_) (fun n c hc h => ?_) i r.addr
    · obtain ⟨c, hc⟩ := Option.isSome_iff_exists.mp (Table.isSome_of_full hw hb hfull hk)
      obtain ⟨d, hd⟩ := hkept k c hc
      rw [hd]
      rfl
    · rw [left.copies] at hc
      obtain ⟨d, hd, hdc⟩ := Option.bind_eq_some_iff.mp hc
      rw [(Copy.without_spec hdc).1] at h
      exact hno n d hd h
  exact ⟨hlost.stations ▸ left.station, hlost⟩

theorem carryMemberships_trunks_of_nil (hw : g.copies.wf = true) (hr : g.stations.look i = some r) (hm : r.members = []) :
    (carryMemberships i old new g).trunks = g.trunks := by
  rw [carryMemberships_eq hr, hm]
  exact (shift_leftOld hw hr old (fun _ => False) False).trunks not_false

/-! ## The grant -/

/-- From `s` to `g` the handover record is freed, the station placed at its new cell with W and the rates after it, and the grant made. -/
structure GrantMade (i : Nat) (st : Station) (old new : Nat) (s g : State) : Prop where
  station   : ∃ rate, g.stations.look i = some
    { st with place := .associated new s.time.clock, prev := some old, paused := false, rate := rate }
  handovers : g.handovers = s.handovers.drop i
  copies    : g.copies = s.copies
  rates     : g.RatesLaw old ∧ g.RatesLaw new
  others    : OnlyRates i s g
  kept      : CountersKept s g (∃ k, · = .trunk k .signallingDiscarded)
  inner     : Inner s g
  sent      : (∀ k, s.RoomFor [⟨new, st.addr, .attachGrant i⟩] k) → Sent s [⟨new, st.addr, .attachGrant i⟩] g
  posted    : s.HasRoom new → Posted s g new st.addr (.attachGrant i)

theorem grantMade_grantedState (hw : s.stations.wf = true) (hst : s.stations.look i = some st) (hp : st.place.cell? = some old)
    (new : Nat) : GrantMade i st old new s (grantedState i ⟨old, new, s.now⟩ st s) := by
  have hframe := arrivedState_frame i ⟨old, new, s.now⟩ st s
  have hlook := look_arrivedState (i := i) ⟨old, new, s.now⟩ st s
  have hrates := fun n => ratesLaw_arrivedState (h := ⟨old, new, s.now⟩) (n := n) hw hst hp
  have hothers := onlyRates_arrivedState ⟨old, new, s.now⟩ hst
  have hin := inner_arrivedState i ⟨old, new, s.now⟩ st s
  unfold grantedState
  generalize arrivedState i ⟨old, new, s.now⟩ st s = a at *
  have hsent := fun h => ((sent_nil s).after (t := a) (by rw [hframe]) hin.calm).post new st.addr (.attachGrant i) h
  have hcount : CountersKept s a (∃ k, · = .trunk k .signallingDiscarded) := countersKept_of_eq (by rw [hframe]) _
  refine { station := ?_, handovers := ?_, copies := ?_, rates := ⟨?_, ?_⟩, others := hothers.trans (.of_eq i (postSignal_stations ..)),
           kept := hcount.trans (countersKept_postSignal_signalling _ _ _ _), inner := hin.trans (.post ..),
           sent := fun h => (hsent h).1, posted := fun h k => ?_ }
  · rw [postSignal_stations]
    exact hlook
  · rw [postSignal_handovers, hframe]
  · rw [postSignal_copies, hframe]
  · exact (hrates old (.inr (.inl rfl))).same (postSignal_cells ..) (postSignal_stations ..)
  · exact (hrates new (.inr (.inr rfl))).same (postSignal_cells ..) (postSignal_stations ..)
  · rw [posted_postSignal new st.addr (.attachGrant i) a (h.congr (by rw [hframe]) (hin.calm.configured new)),
      show a.trunk k = s.trunk k by rw [hframe]; rfl]

/-! ## The whole (R76) -/

theorem completeHandover_eq (hst : s.stations.look i = some st) (old new : Nat) : completeHandover i old new s =
    fillCredit i (carryMemberships i old new (grantedState i ⟨old, new, s.now⟩ st s)) := by
  simp only [completeHandover, hst]
  rfl

theorem carried_of_grantMade (hc : s.copies.Fits Config.copies Copy.Fits) (hs : s.OneCopy) (hst : st.Fits)
    (hg : GrantMade i st old new s g) (hne : old ≠ new) :
    Carried s (fillCredit i (carryMemberships i old new g)) i st old new := by
  obtain ⟨_, _, hnd⟩ := hst
  obtain ⟨rate, hr⟩ := hg.station
  have hgw : g.copies.wf = true := hg.copies ▸ hc.form
  have hone : g.OneCopy := fun n m c d => by rw [hg.copies]; exact hs n m c d
  have hsh := shift_leftOld hgw hr old (· = new) False
  have hcopies := fun n c => carryMemberships_copies (n := n) (c := c) hgw hone (by exact hnd) hr hne
  have hfill : ∀ now, (fillCredit i (carryMemberships i old new g)).stations.look i = some now →
      ∃ z, (carryMemberships i old new g).stations.look i = some z ∧ now.members = z.members := fun now hnow => by
    rw [look_fillCredit, if_pos rfl] at hnow
    obtain ⟨z, hz, rfl⟩ := Option.map_eq_some_iff.mp hnow
    exact ⟨z, hz, rfl⟩
  have hchannels : g.channels = s.channels := by rw [hg.inner.frame]
  refine { pass := ?pass, left := fun n c hc hold _ => ?left, apart := fun n c hc hold hnew => ?apart,
           found := fun now hnow hsize hcell hch => ?found, told := fun hsize hcell hch hroom k => ?told,
           lost := fun y hy hfull hno hold => ?lost }
  case pass =>
    show old ∈ (carryMemberships i old new g).owed.passes
    rw [carryMemberships_eq hr]
    exact (shift_carryChannels (hsh.inner.wf.2.1 hgw) ..).passes (leftOld_leftOld hgw hone (by exact hnd) hr old).pass
  case left => exact (hcopies n c (by rw [hg.copies, hc])).1 hold
  case apart => exact (hcopies n c (by rw [hg.copies, hc])).2 hold hnew
  case found =>
    obtain ⟨z, hz, hmembers⟩ := hfill now hnow
    obtain ⟨-, -, w, hw, hmap, hfol⟩ := carryMemberships_room hgw hr old (newCell := new) (by rw [hchannels]; exact hch)
      ((hg.inner.calm.configured new).trans hcell) (by rw [hg.copies]; exact hsize)
    rw [hz] at hw
    obtain rfl := Option.some.inj hw
    rw [hmembers]
    exact followedTo_of_follows hmap hfol
  case told =>
    obtain ⟨hsh, -⟩ := carryMemberships_room hgw hr old (newCell := new) (by rw [hchannels]; exact hch)
      ((hg.inner.calm.configured new).trans hcell) (by rw [hg.copies]; exact hsize)
    rw [← (hg.sent hroom).trunks]
    show (carryMemberships i old new g).trunk k = _
    rw [State.trunk, hsh.trunks not_false]
    rfl
  case lost =>
    obtain ⟨⟨z, hz, hempty⟩, hlost⟩ := carryMemberships_lost hgw hone (by rw [hg.copies]; exact hc.below) hr hy
      (by rw [hg.copies]; exact hfull) (by rw [hg.copies]; exact hno) (by rw [hg.copies]; exact hold)
    have hleft := hsh.counters
    refine ⟨⟨_, (look_fillCredit i i _).trans ((if_pos rfl).trans (congrArg _ hz)), hempty⟩, ?_, fun ms hms hroom k => ?_⟩
    · refine hlost.counted.same ((hleft _ ?_).trans (hg.kept _ fun ⟨_, hk⟩ => nomatch hk)) rfl
      rintro (⟨_, _, hk⟩ | ⟨hk, _⟩)
      · cases hk
      · exact hk
    · obtain ⟨w, x, hwt, hwc, hxt, hxc, hx⟩ := hlost.made
      show (carryMemberships i old new g).trunk k = _
      have hgrant : ∀ k, s.RoomFor [⟨new, st.addr, .attachGrant i⟩] k := fun k =>
        State.RoomFor.of_append (ms := [⟨new, st.addr, .attachGrant i⟩]) (by rw [List.singleton_append, ← hms]; exact hroom k)
      have hsent : Sent s [⟨new, st.addr, .attachGrant i⟩] w := ((hg.sent hgrant).after (hsh.trunks not_false) hsh.inner.calm).after hwt
        (.of_eq hwc hwt)
      have hactive : ((leftOld i old _ g).trunk (new / 32)).state = (s.trunk (new / 32)).state :=
        ((hg.sent hgrant).after (hsh.trunks not_false) hsh.inner.calm).state _
      rw [hactive] at hx
      have hall : Sent s ms x := by
        rw [hms, hx]
        split
        · next hact =>
          refine (hsent.post new st.addr (.joinVerdict y.channel .noRoom) fun j => ?_).1
          have := hroom j
          rw [hms, if_pos hact] at this
          exact this
        · exact hsent
      rw [← hall.trunks, State.trunk, State.trunk, hxt]

/-- From `s` to `x` the handover of station `i` has completed (R76, steps 1 to 6). -/
structure Completed (i : Nat) (st : Station) (old new : Nat) (s x : State) : Prop where
  station   : ∃ members rate, x.stations.look i = some { st with
    place := .associated new s.time.clock, prev := some old, paused := false, members := members, rate := rate
    credit := max 3000 (4 * rate) * (800 * s.time.grain) }
  handovers : ∀ j, x.handovers.look j = if j = i then none else s.handovers.look j
  carried   : Carried s x i st old new
  rates     : x.RatesLaw old ∧ x.RatesLaw new
  others    : OnlyRates i s x
  posted    : s.HasRoom new → st.members = [] → Posted s x new st.addr (.attachGrant i)
  kept      : CountersKept s x fun c => c = .cell old .replayDiscarded ∨ Spilled c
  inner     : Inner s x

theorem completed_completeHandover (hw : s.stations.wf = true) (hc : s.copies.Fits Config.copies Copy.Fits) (hs : s.OneCopy)
    (hfit : st.Fits) (hst : s.stations.look i = some st) (hp : st.place.cell? = some old) (hne : old ≠ new) :
    Completed i st old new s (completeHandover i old new s) := by
  rw [completeHandover_eq hst]
  have hg := grantMade_grantedState hw hst hp new
  generalize grantedState i ⟨old, new, s.now⟩ st s = g at hg
  obtain ⟨rate, hr⟩ := hg.station
  have hgw : g.copies.wf = true := hg.copies ▸ hc.form
  have hcarry := shift_carryMemberships hgw i old new
  have hsh := hcarry.trans (.credit _)
  obtain ⟨members, rate', credit, hnow⟩ := hcarry.station hr
  have hrates := fun n h => hsh.rates (hg.inner.wf.1 hw) n h
  refine { station := ⟨members, rate', ?_⟩, handovers := fun j => ?_, carried := carried_of_grantMade hc hs hfit hg hne,
           rates := ⟨hrates old hg.rates.1, hrates new hg.rates.2⟩, others := hg.others.trans hsh.onlyRates, posted := fun hroom hm k => ?_,
           kept := (hg.kept.mono ?_).trans (hsh.counters.mono ?_), inner := hg.inner.trans hsh.inner }
  · rw [look_fillCredit, if_pos rfl, hnow, Option.map_some, hcarry.inner.frame, hg.inner.frame]
  · rw [hsh.handovers, hg.handovers, Table.look_drop]
  · show (carryMemberships i old new g).trunk k = _
    rw [State.trunk, carryMemberships_trunks_of_nil hgw hr hm]
    exact hg.posted hroom k
  · rintro c ⟨k, rfl⟩
    exact .inr (.signalling k)
  · rintro c (⟨n, rfl, hc⟩ | ⟨-, hc⟩)
    · exact .inl hc
    · exact .inr hc

end Sys2Proof.Machine
end

section
/-! PROOFS. ATTACH REQUEST of a known phone, by its state (R55, R58, R61, R71, R72, R79 to R81). -/

namespace Sys2Proof.Machine

variable {i cell d : Nat} {s e x : State} {st : Station} {addr : Addr} {since : Clock} {h : Handover}

/-! ## What the request does, by the station's place (R55) -/

theorem look_hear (hst : s.stations.look i = some st) (j : Nat) : (hear i s).stations.look j =
    if j = i then some { st with lastHeard := s.time.clock } else s.stations.look j := by
  rw [hear, look_updateStation, hst]
  rfl

theorem takeAttach_dormant (hw : s.stationWith addr = some (i, st)) (hp : st.place = .dormant) :
    takeAttach cell addr s = attachReturning i cell st s := by
  simp only [takeAttach, hw, hp]

theorem takeAttach_here (hw : s.stationWith addr = some (i, st)) (hp : st.place = .associated cell since) :
    takeAttach cell addr s = postSignal cell addr (.attachGrant i) (hear i s) := by
  simp only [takeAttach, hw, hp, if_true]

theorem takeAttach_elsewhere (hw : s.stationWith addr = some (i, st)) (hp : st.place = .associated d since) (hd : d ≠ cell) :
    takeAttach cell addr s = startHandover i d cell addr since s := by
  simp only [takeAttach, hw, hp, if_neg hd]

theorem takeAttach_moving (hw : s.stationWith addr = some (i, st)) (hp : st.place = .moving d since) :
    takeAttach cell addr s = requestWhileMoving i cell addr s := by
  simp only [takeAttach, hw, hp]

/-! ## A handover starts, is refused, or skips its release (R71, R72) -/

theorem startHandover_skipped (ht : (s.trunk (d / 32)).state = .draining ∨ (s.trunk (d / 32)).state = .held) :
    startHandover i d cell addr since s =
      bumpPart .releasesSkipped (bumpPart .handoversCompleted (completeHandover i d cell (hear i s))) := if_pos ht

theorem startHandover_retry (h1 : (s.trunk (d / 32)).state ≠ .draining) (h2 : (s.trunk (d / 32)).state ≠ .held)
    (hn : 128 ≤ s.handovers.size) :
    startHandover i d cell addr since s = bumpPart .retryRefusals (postSignal cell addr (.attachRefuse .retry) s) :=
  (if_neg (not_or.mpr ⟨h1, h2⟩)).trans (if_pos hn)

/-- The station MOVING, heard, with its handover record. -/
def movingState (i old new : Nat) (since : Clock) (s : State) : State :=
  hear i (updateStation i (fun st => { st with place := .moving old since }) (s.setHandovers (s.handovers.put i ⟨old, new, s.now⟩)))

theorem startHandover_started (h1 : (s.trunk (d / 32)).state ≠ .draining) (h2 : (s.trunk (d / 32)).state ≠ .held)
    (hn : s.handovers.size < 128) : startHandover i d cell addr since s = postSignal d addr .release (movingState i d cell since s) :=
  (if_neg (not_or.mpr ⟨h1, h2⟩)).trans (if_neg (Nat.not_le.mpr hn))

theorem movingState_frame (i old new : Nat) (since : Clock) (s : State) : movingState i old new since s =
    { s with stations := (movingState i old new since s).stations, handovers := s.handovers.put i ⟨old, new, s.time.clock⟩ } := rfl

theorem look_movingState (hst : s.stations.look i = some st) (old new : Nat) (since : Clock) (j : Nat) :
    (movingState i old new since s).stations.look j =
      if j = i then some { st with place := .moving old since, lastHeard := s.time.clock } else s.stations.look j := by
  have hmoved : (updateStation i (fun st => { st with place := .moving old since })
      (s.setHandovers (s.handovers.put i ⟨old, new, s.now⟩))).stations.look i = some { st with place := .moving old since } := by
    rw [look_updateStation, if_pos rfl, setHandovers_stations, hst]
    rfl
  rw [movingState, look_hear hmoved]
  split
  · rfl
  · next hj => rw [look_updateStation, if_neg hj, setHandovers_stations]

/-! ## A MOVING station asks again (R79 to R81) -/

theorem requestWhileMoving_new (hh : s.handovers.look i = some h) : requestWhileMoving i h.newCell addr s = s := by
  simp only [requestWhileMoving, hh, if_true]

theorem requestWhileMoving_old (hh : s.handovers.look i = some h) (hne : h.oldCell ≠ h.newCell) :
    requestWhileMoving i h.oldCell addr s = postSignal h.newCell addr (.attachRefuse .superseded) (hear i (cancelToOld i s)) := by
  simp only [requestWhileMoving, hh, if_neg hne, if_true]

theorem requestWhileMoving_third (hh : s.handovers.look i = some h) (hn : cell ≠ h.newCell) (ho : cell ≠ h.oldCell) :
    requestWhileMoving i cell addr s = postSignal h.newCell addr (.attachRefuse .superseded)
      (hear i (s.setHandovers (s.handovers.put i { h with newCell := cell }))) := by
  simp only [requestWhileMoving, hh, if_neg hn, if_neg ho]

/-- A handover cancelled to its old cell, its station heard (R77, R80). -/
structure Returned (i : Nat) (h : Handover) (st : Station) (since : Clock) (s e : State) : Prop where
  stations  : ∀ j, e.stations.look j =
    if j = i then some { st with place := .associated h.oldCell since, lastHeard := s.time.clock } else s.stations.look j
  handovers : ∀ j, e.handovers.look j = if j = i then none else s.handovers.look j
  posted    : s.HasRoom h.oldCell → Posted s e h.oldCell st.addr (.attachGrant i) ∧ Advanced s e (.part .handoversCancelled) 1
  cells     : e.cells = s.cells
  frame     : e = { s with trunks := e.trunks, counters := e.counters, stations := e.stations, handovers := e.handovers }

theorem returned_cancelToOld (hst : s.stations.look i = some st) (hp : st.place = .moving h.oldCell since) :
    Returned i h st since s (hear i (cancelToOld i s)) := by
  rw [cancelToOld_eq hst hp]
  have hlook : ∀ j, (returnedState i h.oldCell since st s).stations.look j =
      if j = i then some { st with place := .associated h.oldCell since } else s.stations.look j := fun j => Table.look_put ..
  have hposted := posted_postSignal h.oldCell st.addr (.attachGrant i) (returnedState i h.oldCell since st s)
  have hroomy := postSignal_room (s := returnedState i h.oldCell since st s) (cell := h.oldCell) st.addr (.attachGrant i)
  have hframe := postSignal_frame h.oldCell st.addr (.attachGrant i) (returnedState i h.oldCell since st s)
  generalize postSignal h.oldCell st.addr (.attachGrant i) (returnedState i h.oldCell since st s) = u at *
  have hheard : (bumpPart .handoversCancelled u).stations.look i = some { st with place := .associated h.oldCell since } := by
    show u.stations.look i = _
    rw [hframe]
    exact (hlook i).trans (if_pos rfl)
  refine { stations := fun j => ?_, handovers := fun j => ?_, posted := fun hroom => ⟨hposted hroom, ?_⟩, cells := ?_, frame := ?_ }
  · rw [look_hear hheard]
    split
    · show some { st with place := _, lastHeard := u.time.clock } = _
      rw [hframe]
      rfl
    · next hj =>
      show u.stations.look j = _
      rw [hframe]
      exact (hlook j).trans (if_neg hj)
  · show u.handovers.look j = _
    rw [hframe]
    exact Table.look_drop ..
  · refine (onlyCounts_bump (.part .handoversCancelled) u).moved.same ?_ rfl
    rw [hroomy hroom]
    rfl
  · show u.cells = _
    rw [hframe]
    rfl
  · show { u with counters := _, stations := _ } = _
    rw [hframe]
    rfl

/-! ## The skipped release (R72, R76) -/

/-- The event of a skipped release, before its close. -/
def skippedState (i old new : Nat) (s : State) : State :=
  bumpPart .releasesSkipped (bumpPart .handoversCompleted (completeHandover i old new (hear i s)))

/-- A handover completed from the state in which the station is heard, said of the state before, two counters aside. -/
theorem Carried.skipped {new : Nat} (hc : Carried (hear i s) x i { st with lastHeard := s.time.clock } d new)
    (he : e = { x with counters := e.counters })
    (hk : e.counter (.part .membershipsLost) = x.counter (.part .membershipsLost)) : Carried s e i st d new := by
  have hcopies : e.copies = x.copies := by rw [he]
  have hstations : e.stations = x.stations := by rw [he]
  have htrunk : ∀ k, e.trunk k = x.trunk k := fun k => by rw [he]; rfl
  refine { pass := ?_, left := ?_, apart := ?_, found := ?_, told := ?_, lost := fun y hy hfull hno hold => ?_ }
  · rw [he]
    exact hc.pass
  · rw [hcopies]
    exact hc.left
  · rw [hcopies]
    exact hc.apart
  · rw [hcopies, hstations]
    exact hc.found
  · simp only [htrunk]
    exact hc.told
  · obtain ⟨hnow, hcount, htold⟩ := hc.lost y hy hfull hno hold
    simp only [htrunk, hstations]
    exact ⟨hnow, hcount.same rfl hk, htold⟩

theorem completed_skippedState (hf : s.Fits) (hst : s.stations.look i = some st) (hp : st.place = .associated d since) (hne : d ≠ cell) :
    Completed i { st with lastHeard := s.time.clock } d cell (hear i s) (completeHandover i d cell (hear i s)) :=
  completed_completeHandover (s := hear i s) (Table.wf_modify _ _ _ hf.stations.form) hf.copies hf.single (hf.stations.holds i st hst)
    ((look_hear hst i).trans (if_pos rfl)) (by show st.place.cell? = _; rw [hp]; rfl) hne

/-- The frame of a skipped release. -/
theorem skippedState_frame (i old new : Nat) (s : State) : skippedState i old new s = { s with
    counters := (skippedState i old new s).counters, cells := (skippedState i old new s).cells
    trunks := (skippedState i old new s).trunks, pools := (skippedState i old new s).pools
    stations := (skippedState i old new s).stations, handovers := (skippedState i old new s).handovers
    copies := (skippedState i old new s).copies, created := (skippedState i old new s).created
    owed := (skippedState i old new s).owed, draws := (skippedState i old new s).draws } :=
  Inner.frame ((inner_updateStation ..).trans ((inner_completeHandover ..).trans ((inner_bumpPart ..).trans (inner_bumpPart ..))))

/-- From `s` to `e` the release of a handover is skipped, and the handover completes at once (R72, R76). -/
structure Skipped (i : Nat) (st : Station) (old new : Nat) (s e : State) : Prop where
  station   : ∃ members rate, e.stations.look i = some { st with
    place := .associated new s.time.clock, prev := some old, paused := false, members := members, lastHeard := s.time.clock
    rate := rate, credit := max 3000 (4 * rate) * (800 * s.time.grain) }
  handovers : ∀ j, e.handovers.look j = if j = i then none else s.handovers.look j
  carried   : Carried s e i st old new
  rates     : e.RatesLaw old ∧ e.RatesLaw new
  others    : OthersKept s e i
  posted    : s.HasRoom new → st.members = [] → Posted s e new st.addr (.attachGrant i)
  counted   : Advanced s e (.part .handoversCompleted) 1 ∧ Advanced s e (.part .releasesSkipped) 1

theorem skipped_of_completed (hst : s.stations.look i = some st)
    (h : Completed i { st with lastHeard := s.time.clock } d cell (hear i s) x) :
    Skipped i st d cell s (bumpPart .releasesSkipped (bumpPart .handoversCompleted x)) := by
  have hcompleted := onlyCounts_bump (.part .handoversCompleted) x
  have hskip := onlyCounts_bump (.part .releasesSkipped) (bumpPart .handoversCompleted x)
  have before : ∀ c : PartCounter, ¬ Spilled (.part c) → x.counter (.part c) = s.counter (.part c) := fun c hc =>
    h.kept _ fun h => h.elim nofun hc
  have heard := look_hear hst
  have hlost := (hskip.kept (.part .membershipsLost) nofun).trans (hcompleted.kept (.part .membershipsLost) nofun)
  have hmoved := hcompleted.moved.same (before _ nofun) (hskip.kept (.part .handoversCompleted) nofun)
  have hskipped := hskip.moved.same ((hcompleted.kept (.part .releasesSkipped) nofun).trans (before _ nofun)) rfl
  obtain ⟨counters, hcounters⟩ := bumpPart_bumpPart_eq .releasesSkipped .handoversCompleted x
  change State.counter (bumpPart .releasesSkipped (bumpPart .handoversCompleted x)) _ = _ at hlost
  change Advanced s (bumpPart .releasesSkipped (bumpPart .handoversCompleted x)) _ _ at hmoved hskipped
  rw [hcounters] at hlost hmoved hskipped ⊢
  refine { station := h.station, handovers := h.handovers, carried := h.carried.skipped rfl hlost,
           rates := ⟨h.rates.1.same rfl rfl, h.rates.2.same rfl rfl⟩, others := fun j z hj hz => ?_, posted := h.posted,
           counted := ⟨hmoved, hskipped⟩ }
  obtain ⟨r, hr, -⟩ := h.others.kept j z hj (by rw [heard, if_neg hj, hz])
  exact ⟨r, hr⟩

/-- Settles O38: what an ATTACH REQUEST of a known phone does, by the station's state. -/
theorem aKnownPhoneAttachesByItsState : Obligations.AKnownPhoneAttachesByItsState := by
  unfold Obligations.AKnownPhoneAttachesByItsState
  intro m i st s hf hacc hbody hphone hwith
  obtain ⟨haddr, hst⟩ := State.stationWith_spec hf.stations.form hwith
  have hexec := exec_attachRequest hacc hbody hphone
  refine ⟨fun since hp hroom => ?here, fun hp hroom => ?dormant,
    fun d since hp hd h1 h2 => ⟨fun hn hroom => ?started, fun hn hroom => ?retry⟩, fun d since hp hd ht => ?skipped,
    fun h since hh hp hne => ⟨fun hcell => ?duplicate, fun hcell => ?returned, fun hnew hold hroom => ?redirected⟩⟩
  case here =>
    rw [takeAttach_here hwith hp] at hexec
    have hposted := posted_postSignal (cellOf m) m.addr (.attachGrant i) (hear i s) hroom
    have hframe := postSignal_room (s := hear i s) m.addr (.attachGrant i) hroom
    generalize postSignal (cellOf m) m.addr (.attachGrant i) (hear i s) = e at *
    refine ⟨e, hexec, fun j => ?_, hposted, ?_⟩
    · rw [← look_hear hst, hframe]
    · rw [hframe]
      rfl
  case dormant =>
    rw [takeAttach_dormant hwith hp] at hexec
    obtain ⟨rate, hatt⟩ := attached_put (i := i) (r := { st with
      place := .associated (cellOf m) s.now, weight := s.weightOf st.cls, lastHeard := s.now }) hf.stations.form hroom st.addr
    exact ⟨_, rate, hexec, hatt.station, hatt.rates, hatt.others, haddr ▸ hatt.posted, hatt.frame⟩
  case started =>
    rw [takeAttach_elsewhere hwith hp hd, startHandover_started h1 h2 hn] at hexec
    have hlook := look_movingState hst d (cellOf m) since
    have hposted := posted_postSignal d m.addr .release (movingState i d (cellOf m) since s) hroom
    have hframe := postSignal_room (s := movingState i d (cellOf m) since s) m.addr .release hroom
    have hmoving := movingState_frame i d (cellOf m) since s
    generalize movingState i d (cellOf m) since s = u at *
    generalize postSignal d m.addr .release u = e at *
    refine ⟨e, hexec, fun j => ?_, fun j => ?_, fun k => ?_, ?_⟩
    · rw [← hlook, hframe]
    · rw [hframe, hmoving]
      exact Table.look_put ..
    · rw [hposted, show u.trunk k = s.trunk k by rw [hmoving]; rfl]
    · rw [hframe, hmoving]
  case retry =>
    rw [takeAttach_elsewhere hwith hp hd, startHandover_retry h1 h2 hn] at hexec
    have hposted := posted_postSignal (cellOf m) m.addr (.attachRefuse .retry) s hroom
    have hframe := postSignal_room m.addr (.attachRefuse .retry) hroom
    generalize postSignal (cellOf m) m.addr (.attachRefuse .retry) s = u at *
    have hbump := onlyCounts_bump (.part .retryRefusals) u
    have hcount : ∀ c, u.counter c = s.counter c := fun c => by rw [hframe]; rfl
    refine ⟨_, hexec, hposted, hbump.moved.same (hcount _) rfl, fun c hc => (hbump.kept c hc).trans (hcount c), ?_⟩
    show u.setCounters _ = _
    rw [hframe]
    rfl
  case skipped =>
    rw [takeAttach_elsewhere hwith hp hd, startHandover_skipped ht, ← skippedState] at hexec
    have hskip : Skipped i st d (cellOf m) s (skippedState i d (cellOf m) s) :=
      skipped_of_completed hst (completed_skippedState hf hst hp hd)
    have hframe := skippedState_frame i d (cellOf m) s
    generalize skippedState i d (cellOf m) s = e at *
    obtain ⟨members, rate, hstation⟩ := hskip.station
    exact ⟨e, members, rate, hexec, hstation, hskip.handovers, hskip.carried, hskip.rates.1, hskip.rates.2, hskip.others, hskip.posted,
      hskip.counted.1, hskip.counted.2, hframe⟩
  case duplicate =>
    rw [takeAttach_moving hwith hp, hcell, requestWhileMoving_new hh] at hexec
    exact hexec
  case returned =>
    rw [takeAttach_moving hwith hp, hcell, requestWhileMoving_old hh hne] at hexec
    have hret := returned_cancelToOld hst hp
    generalize hear i (cancelToOld i s) = u at *
    have hposted := posted_postSignal h.newCell m.addr (.attachRefuse .superseded) u
    have hroomy := postSignal_room (s := u) (cell := h.newCell) m.addr (.attachRefuse .superseded)
    have hframe := postSignal_frame h.newCell m.addr (.attachRefuse .superseded) u
    generalize postSignal h.newCell m.addr (.attachRefuse .superseded) u = e at *
    refine ⟨e, hexec, fun j => ?_, fun j => ?_, fun hold hnew hapart => ?_, ?_⟩
    · rw [← hret.stations, hframe]
    · rw [← hret.handovers, hframe]
    · obtain ⟨hgrant, hcancelled⟩ := hret.posted hold
      obtain ⟨c1, c2, c3⟩ := hnew
      have hsame : u.trunk (h.newCell / 32) = s.trunk (h.newCell / 32) := (hgrant _).trans (if_neg (Ne.symm hapart))
      have hroom : u.HasRoom h.newCell := ⟨hret.cells ▸ c1, hsame ▸ c2, hsame ▸ c3⟩
      refine ⟨?_, ?_, hcancelled.same rfl ?_⟩
      · rw [hposted hroom, if_neg hapart, hgrant, if_pos rfl]
      · rw [hposted hroom, if_pos rfl, hsame]
      · rw [hroomy hroom]
        rfl
    · rw [hframe, hret.frame]
  case redirected =>
    rw [takeAttach_moving hwith hp, requestWhileMoving_third hh hnew hold] at hexec
    have hlook := look_hear (s := s.setHandovers (s.handovers.put i { h with newCell := cellOf m })) hst
    have hput : hear i (s.setHandovers (s.handovers.put i { h with newCell := cellOf m })) = { s with
      stations := (hear i (s.setHandovers (s.handovers.put i { h with newCell := cellOf m }))).stations
      handovers := s.handovers.put i { h with newCell := cellOf m } } := rfl
    generalize hear i (s.setHandovers (s.handovers.put i { h with newCell := cellOf m })) = u at *
    have hsame : ∀ k, u.trunk k = s.trunk k := fun k => by rw [hput]; rfl
    have hroomy : u.HasRoom h.newCell := hroom.congr (by rw [hput]) (by rw [hput])
    have hposted := posted_postSignal h.newCell m.addr (.attachRefuse .superseded) u hroomy
    have hframe := postSignal_room m.addr (.attachRefuse .superseded) hroomy
    generalize postSignal h.newCell m.addr (.attachRefuse .superseded) u = e at *
    refine ⟨e, hexec, fun j => ?_, fun j => ?_, fun k => ?_, ?_⟩
    · rw [hframe]
      exact hlook j
    · rw [hframe, hput]
      exact Table.look_put ..
    · rw [hposted, hsame]
    · rw [hframe, hput]

end Sys2Proof.Machine
end
